-- ==== Sys2Proof/Word.lean ====
section
/-! DEFINITION. The part's words: a 10-bit link word or sample, a 16-bit sequence number, and the fourfold record. -/

namespace Sys2Proof

/-- A word of a link, of a packet or of the field store: 10 bits (Table 9-1, section 0.3). Samples are words, 0..1023 (0.6.1). -/
abbrev Word := BitVec 10

/-- A field sequence number 0..65535, wrapping from 65535 to 0 (section 0.6.4, R7). -/
abbrev Seq := BitVec 16

/-- A feed, a link or an output: 0..3 (Table 0-3). -/
abbrev Feed := Fin 4

/-- Four like things: one per feed, per program of the cadence table or per coefficient set. -/
structure Quad (α : Type) where
  q0 : α
  q1 : α
  q2 : α
  q3 : α
deriving DecidableEq, Repr, Inhabited

end Sys2Proof
end

