-- ==== Sys2Proof/Syntax.lean ====
section
/-! DEFINITION. The commands of the part: one constructor of Instr for each row of spec/opcode_table.json, with
the operands that the outside world gives it. -/

namespace Sys2Proof

/-- The parity of a field (section 0.6.2). -/
inductive Parity where
  | upper
  | lower
deriving DecidableEq, Repr, Inhabited

/-- A line of samples: luma, Cb and Cr. An active line has 720, 360 and 360 of them (section 0.6.2); a row of an
output frame has 1920, 960 and 960 (R136). -/
structure Line where
  y : List Word
  cb : List Word
  cr : List Word
deriving DecidableEq, Repr, Inhabited

/-- One word of the external memory that no longer holds what was written into it: word 0..1439 of line area `line`
of slot `slot` (R36). The store's check meets it at the next read of that line (R37, R38). Log entry 5. -/
structure Upset where
  slot : Fin 24
  line : Fin 288
  word : Fin 1440
deriving DecidableEq, Repr

/-- The four strap lines DEVNUM0..DEVNUM3, asserted or not, as they stand when the part reads them (R17). -/
structure Straps where
  devnum0 : Bool
  devnum1 : Bool
  devnum2 : Bool
  devnum3 : Bool
deriving DecidableEq, Repr

/-- The words of a complete CUE packet that its kind leaves open (Table 9-1): device number, scope, tag, payload and
check word. The kind word is CUE, the code word is the command's, the length word is the payload's length. -/
structure CueWords where
  device : Word
  scope : Word
  tag : Word
  payload : List Word
  check : Word
deriving DecidableEq, Repr

/-- The role in which the build reads a record (R104, R106). -/
inductive BuildRole where
  | f0
  | prev
  | next
  | prev2
deriving DecidableEq, Repr

/-- The commands. A command that reads stored lines carries the words of the external memory that have gone wrong
since the last command; a command at which the straps may be read carries the straps. -/
inductive Instr where
  /-- POWER_ON: release of RESET (R17). -/
  | powerOn (straps : Straps)
  /-- RESET_ASSERTED: RESET goes to asserted and is held (R158). -/
  | resetAsserted
  /-- FIELD_START with its parity on a link (R3). -/
  | fieldStart (link : Feed) (parity : Parity) (upsets : List Upset)
  /-- ACTIVE_LINE on a link (R8). -/
  | activeLine (link : Feed) (line : Line) (upsets : List Upset)
  /-- BLANKING_PACKET: the words of one blanking line of a link, searched for packets (R18). -/
  | blankingPacket (link : Feed) (words : List Word) (straps : Straps)
  /-- MISSING_FIELD_EXPIRY of a feed's timer (R12). -/
  | missingFieldExpiry (link : Feed) (upsets : List Upset)
  /-- FRAME_TIMER_EXPIRY of an output (R147). -/
  | frameTimerExpiry (output : Feed)
  /-- REF_PULSE: a pulse on REF, which fans out to the four transmitters (R148). -/
  | refPulse
  /-- REFERENCE_WATCH_EXPIRY of an output (R148). -/
  | referenceWatchExpiry (output : Feed)
  /-- JOB_COMPLETION: the build of the job in service ends (R97). -/
  | jobCompletion
  /-- LOAD_STALL: the feed-0 event count of the open load reaches 8 (R184). -/
  | loadStall
  /-- FEED_CONFIG cue (R170). -/
  | feedConfig (link : Feed) (cue : CueWords)
  /-- RASTER_SET cue (R124). -/
  | rasterSet (link : Feed) (cue : CueWords)
  /-- TRIM_SET cue (R44). -/
  | trimSet (link : Feed) (cue : CueWords)
  /-- MOTION_SET cue (R122). -/
  | motionSet (link : Feed) (cue : CueWords)
  /-- CADENCE_SET cue (R63). -/
  | cadenceSet (link : Feed) (cue : CueWords)
  /-- CADENCE_FORCE cue (R77). -/
  | cadenceForce (link : Feed) (cue : CueWords)
  /-- WATCH_SET cue (R54). -/
  | watchSet (link : Feed) (cue : CueWords)
  /-- FEED_RESTART cue (R173). -/
  | feedRestart (link : Feed) (cue : CueWords)
  /-- TABLE_OPEN cue (R178). -/
  | tableOpen (link : Feed) (cue : CueWords)
  /-- TABLE_PART cue (R179). -/
  | tablePart (link : Feed) (cue : CueWords)
  /-- TABLE_ABANDON cue (R183). -/
  | tableAbandon (link : Feed) (cue : CueWords)
  /-- NOTICE_SET cue (R188). -/
  | noticeSet (link : Feed) (cue : CueWords)
  /-- REPORT_SET cue (R194). -/
  | reportSet (link : Feed) (cue : CueWords)
  /-- SNAPSHOT cue (R192). -/
  | snapshot (link : Feed) (cue : CueWords)
  /-- STATUS_QUERY cue (R192). -/
  | statusQuery (link : Feed) (cue : CueWords)
  /-- DEVICE_RESTART cue (R174). -/
  | deviceRestart (link : Feed) (cue : CueWords) (straps : Straps)
  /-- UNKNOWN_CUE_KIND: a cue whose code word names no cue kind (R165). -/
  | unknownCueKind (link : Feed) (code : Word) (cue : CueWords)
  /-- BUILD_READ: the build reads a line of F0 or of a neighbour (R96, R105, R106). -/
  | buildRead (role : BuildRole) (line : Fin 288) (upsets : List Upset)
deriving DecidableEq, Repr

end Sys2Proof
end

