-- ==== Sys2Proof/Config.lean ====
section
/-! DEFINITION. The free values: what the manual leaves open and the model does not fix.
None has a body, so nothing can be proved of its value. The argument is a plain counter of State or an address. -/

namespace Sys2Proof

/-- What a word of a line area of the external memory reads as before anything has been written there:
the manual gives no contents (section 0.3, R42). Arguments: line area, position in the line. Log entry 2. -/
opaque Config.unwrittenWord : Nat → Nat → Word

/-- The detail of the LOCK_BROKEN that a program mask gives at a field start that also applies a disable:
R63 names the number of that field start, and R7 gives it none. Log entry 3. -/
opaque Config.unstatedSeq : Nat → Seq

/-- Whether, of a program mask and a force that become active together, the mask's effect on a lock is taken
first: R171 makes them active together and gives no order. Log entry 4. -/
opaque Config.maskBeforeForce : Nat → Bool

end Sys2Proof
end

