-- ==== Sys2Proof/Machine/Types.lean ====
section
/-! DEFINITION. The pieces of state of each block, named as the manual names them. -/

namespace Sys2Proof.Machine

/-! ## Chapter 1: link receivers -/

/-- Input structure S50 or S60 (Table 0-4). -/
inductive Structure where
  | s50
  | s60
deriving DecidableEq, Repr, Inhabited

/-- Feed state (R2, Table 1-2). -/
inductive FeedState where
  | off
  | waiting
  | running
  | down
deriving DecidableEq, Repr, Inhabited

/-- A timer: stopped, or running with the time it was last started with, in units of 100 ns. Log entry 1. -/
inductive Timer where
  | stopped
  | running (time : Nat)
deriving DecidableEq, Repr, Inhabited

/-- The dropout map of the arriving field (R48): each line at most once, in ascending order. -/
structure DropoutMap where
  lost : List Nat
  concealed : List Nat
deriving DecidableEq, Repr, Inhabited

/-- The arriving field of a receiver (Table 1-1), with its dropout map (R2). -/
structure Arriving where
  seq : Seq
  parity : Parity
  linesReceived : Nat
  dropped : Bool
  surplusSeen : Bool
  map : DropoutMap
deriving DecidableEq, Repr, Inhabited

/-- Receiver record (Table 1-1). -/
structure Receiver where
  state : FeedState
  counter : Seq
  expected : Parity
  timer : Timer
  misses : Nat
  arriving : Option Arriving
deriving DecidableEq, Repr, Inhabited

/-! ## Chapter 3: ingest conditioner -/

/-- Gain and lift of a trim set (R44). -/
structure Trim where
  gain : Nat
  lift : Int
deriving DecidableEq, Repr, Inhabited

/-- The working items of the conditioner (Table 3-1): the working trim and the map entry count. -/
structure Conditioner where
  workingTrim : Option Trim
  mapEntries : Nat
deriving DecidableEq, Repr, Inhabited

inductive WatchMeasure where
  | lostLines
  | concealedLines
  | motion
deriving DecidableEq, Repr, Inhabited

inductive WatchDirection where
  | above
  | below
deriving DecidableEq, Repr, Inhabited

inductive WatchAction where
  | note
  | poor
deriving DecidableEq, Repr, Inhabited

/-- A quality-watch limit (R54). -/
structure Watch where
  enabled : Bool
  measure : WatchMeasure
  direction : WatchDirection
  action : WatchAction
  value : Nat
deriving DecidableEq, Repr, Inhabited

/-! ## Chapter 2: field store -/

/-- State of a slot with its owner feed (R21). -/
inductive Slot where
  | free
  | filling (owner : Feed)
  | held (owner : Feed)
  | retiring (owner : Feed)
deriving DecidableEq, Repr, Inhabited

/-- Why a record has no content (Table 2-2). -/
inductive GapCause where
  | missing
  | dropped
  | reclaimed
  | trimmedOff
deriving DecidableEq, Repr, Inhabited

/-- Content of a record: a slot number, or absent with its gap cause (Table 2-2). -/
inductive Content where
  | slot (k : Fin 24)
  | gap (cause : GapCause)
deriving DecidableEq, Repr

inductive RecordState where
  | opened
  | closed
deriving DecidableEq, Repr, Inhabited

/-- The set of arrival conditions of a record (Table 2-2). -/
structure Conditions where
  parityRepeat : Bool
  short : Bool
  long : Bool
  mapOverflow : Bool
deriving DecidableEq, Repr, Inhabited

/-- Field record (Table 2-2). -/
structure FieldRecord where
  seq : Seq
  parity : Parity
  state : RecordState
  content : Content
  conditions : Conditions
  lost : List Nat
  concealed : Nat
  damaged : List Nat
  trimUsed : Option Parity
  dsame : Option Nat
  cprev : Option Nat
  poor : Bool
deriving DecidableEq, Repr

/-- A written line area of the external memory: the line as written, and the positions 0..1439 of the words that no
longer hold what was written, ascending (R36). Log entry 5. -/
structure StoredLine where
  line : Line
  wrong : List Nat
deriving DecidableEq, Repr, Inhabited

/-- The external memory: the written line areas, by key slot x 288 + line. Log entry 2. -/
abbrev Memory := List (Nat × StoredLine)

/-- The canonical form of the external memory: keys strictly rising and within the 24 x 288 line areas, and in each
area the wrong words strictly rising and within the line's 1440 words. -/
abbrev Memory.wf (m : Memory) : Prop :=
  m.Pairwise (fun a b => a.1 < b.1) ∧
    ∀ c ∈ m, c.1 < 6912 ∧ c.2.wrong.Pairwise (fun a b => a < b) ∧ ∀ w ∈ c.2.wrong, w < 1440

/-- The field store's state (Table 0-1, R21, R22, R26, R34). -/
structure FieldStore where
  slots : List Slot
  mem : Memory
  hist : Quad (List FieldRecord)
  detached : List FieldRecord
  tight : Bool
deriving DecidableEq, Repr

/-! ## Chapter 4: cadence tracker -/

/-- A step of a cadence program (section 4.1). -/
inductive StepKind where
  | opens
  | closes
  | repeats
deriving DecidableEq, Repr, Inhabited

/-- A cadence program: a length 0..8 and eight step entries (R59). -/
structure Program where
  length : Nat
  steps : List StepKind
deriving DecidableEq, Repr, Inhabited

/-- The active cadence program table with the usability held with it (R59, R60). -/
structure CadenceTable where
  programs : Quad Program
  usable : Quad Bool
deriving DecidableEq, Repr, Inhabited

/-- A hypothesis (R68). -/
structure Hypothesis where
  program : Fin 4
  start : Nat
  current : Nat
  run : Nat
deriving DecidableEq, Repr, Inhabited

/-- Tracker state, with the locked program and step or the break hold remaining, each present exactly in the states
that R62 gives it. -/
inductive TrackerState where
  | seeking
  | locked (program : Fin 4) (step : Nat)
  | broken (hold : Nat)
  | heldVideo
  | heldFilm (program : Fin 4) (step : Nat)
deriving DecidableEq, Repr, Inhabited

/-- Tracker record (Table 4-2); its settings are items of the active settings record (R77, Table 9-7). -/
structure Tracker where
  state : TrackerState
  hyps : List Hypothesis
deriving DecidableEq, Repr, Inhabited

structure CadenceTracker where
  table : CadenceTable
  trackers : Quad Tracker
deriving DecidableEq, Repr, Inhabited

/-- Evidence classes (R67). -/
inductive Evidence where
  | next
  | prev
  | prevRepeat
  | ambig
  | brk
deriving DecidableEq, Repr, Inhabited

/-! ## Chapter 5: frame engine -/

/-- Modes of a job (Table 5-2). -/
inductive Mode where
  | weavePrev
  | weaveNext
  | adaptive
  | spatial
deriving DecidableEq, Repr, Inhabited

/-- Settings a job captures at its creation (R79). -/
structure Captured where
  floor : Nat
  gain : Nat
  dirSearch : Bool
  width : Nat
  height : Nat
  hset : Fin 4
  vset : Fin 4
deriving DecidableEq, Repr, Inhabited

/-- A job's references, by the sequence number of the record (R26). Log entry 28. -/
structure JobRefs where
  f0 : Option Seq
  prev : Option Seq
  next : Option Seq
  prev2 : Option Seq
deriving DecidableEq, Repr, Inhabited

/-- Frame job record (Table 5-2). -/
structure Job where
  feed : Feed
  f0Seq : Seq
  f0Parity : Parity
  refs : JobRefs
  intended : Mode
  captured : Captured
deriving DecidableEq, Repr, Inhabited

/-- The lines of one record that the build has settled (R107): delivered and used, or unusable. -/
structure SettledLines where
  usable : List Nat
  unusable : List Nat
deriving DecidableEq, Repr, Inhabited

/-- The settled lines of the four roles (R105, R106). -/
structure BuildReads where
  f0 : SettledLines
  prev : SettledLines
  next : SettledLines
  prev2 : SettledLines
deriving DecidableEq, Repr, Inhabited

/-- The job in service (Table 5-1), with the line count of its woven frame (R103), the F-2 test made at its start
(R106) and the lines its build has settled (R107). -/
structure Service where
  job : Job
  finalMode : Mode
  withdrawn : Bool
  lines : Nat
  prev2Usable : Bool
  reads : BuildReads
deriving DecidableEq, Repr, Inhabited

/-- A coefficient set: 64 rows of coefficients, tap 1 first (R133). -/
abbrev CoefficientSet := List (List Int)

/-- Frame engine state (Table 5-1). The engine is BUILDING exactly when a job is in service (R87). -/
structure FrameEngine where
  service : Option Service
  waiting : List Job
  hsets : Quad CoefficientSet
  vsets : Quad CoefficientSet
deriving DecidableEq, Repr

/-! ## Chapter 8: output transmitters -/

/-- An output frame: 1080 rows of 1920 luma, 960 Cb and 960 Cr samples (R136). -/
abbrev Frame := List Line

inductive HalfState where
  | sending
  | empty
  | filling
  | ready
deriving DecidableEq, Repr, Inhabited

/-- What a half's frame was built from (R141). -/
inductive Source where
  | fill
  | field (seq : Seq)
deriving DecidableEq, Repr, Inhabited

structure Half where
  state : HalfState
  frame : Option Frame
  source : Source
deriving DecidableEq, Repr

inductive TimingSource where
  | free
  | reference
  | input
deriving DecidableEq, Repr, Inhabited

inductive ReferenceState where
  | present
  | lost
deriving DecidableEq, Repr, Inhabited

/-- A complete packet (Table 9-1); its length word is the length of its payload. -/
structure Packet where
  kind : Word
  device : Word
  scope : Word
  code : Word
  tag : Word
  payload : List Word
  check : Word
deriving DecidableEq, Repr, Inhabited

/-- Result outcomes (Table 9-4). -/
inductive ResultCode where
  | done
  | doneAdjusted
  | doneAlready
  | refusedKind
  | refusedLength
  | refusedScope
  | refusedValue
  | refusedBusy
  | nothingOpen
  | discarded
  | abandoned
  | tooLate
deriving DecidableEq, Repr, Inhabited

/-- Reasons (Table 9-6). -/
inductive Reason where
  | superseded
  | sequence
  | stalled
  | tableRefused
  | noPulse
  | tableChanged
deriving DecidableEq, Repr, Inhabited

/-- A result waiting in a result queue (R162): the cue code and scope words as received, the tag, the outcome, its
reason and the adjusted items, each with the value taken. -/
structure CueResult where
  scope : Word
  code : Word
  tag : Word
  outcome : ResultCode
  reason : Option Reason
  items : List (Nat × Nat)
deriving DecidableEq, Repr, Inhabited

/-- The picture on an output link: the fill frame, which is held in no half (R142), or a built frame. -/
inductive Picture where
  | fill
  | built (frame : Frame)
deriving DecidableEq, Repr

/-- What a frame start put on the output link: its picture and its blanking packets in order (R145, R151). -/
structure SentFrame where
  picture : Picture
  packets : List Packet
deriving DecidableEq, Repr

/-- Transmitter record (Table 8-1), with the frame on the link; none while RESET is held (R158). -/
structure Transmitter where
  half0 : Half
  half1 : Half
  repeatCount : Nat
  fillFlag : Bool
  source : TimingSource
  reference : Option ReferenceState
  frameTimer : Timer
  watchTimer : Timer
  results : List CueResult
  carry : List Packet
  link : Option SentFrame
deriving DecidableEq, Repr

/-! ## Chapter 9: cue decoder -/

/-- Force setting (Table 4-2). -/
inductive Force where
  | release
  | video
  | film (program : Fin 4) (step : Nat)
deriving DecidableEq, Repr, Inhabited

/-- Active settings record of a feed (Table 9-7). -/
structure Settings where
  enable : Bool
  struct : Structure
  cls : Fin 4
  timing : TimingSource
  holdLimit : Nat
  width : Nat
  height : Nat
  hset : Fin 4
  vset : Fin 4
  upper : Trim
  lower : Trim
  floor : Nat
  gain : Nat
  dirSearch : Bool
  lockCount : Nat
  breakHold : Nat
  repeatLimit : Nat
  minContrast : Nat
  mask : Quad Bool
  force : Force
  watch1 : Watch
  watch2 : Watch
deriving DecidableEq, Repr, Inhabited

/-- Pending entries of one watch limit: items 2 to 6 of WATCH_SET (R170). -/
structure WatchItems where
  enabled : Option Bool := none
  measure : Option WatchMeasure := none
  direction : Option WatchDirection := none
  action : Option WatchAction := none
  value : Option Nat := none
deriving DecidableEq, Repr, Inhabited

/-- Pending settings record of a feed: one optional entry per item (R170). -/
structure Pending where
  enable : Option Bool := none
  struct : Option Structure := none
  cls : Option (Fin 4) := none
  timing : Option TimingSource := none
  holdLimit : Option Nat := none
  width : Option Nat := none
  height : Option Nat := none
  hset : Option (Fin 4) := none
  vset : Option (Fin 4) := none
  upperGain : Option Nat := none
  upperLift : Option Int := none
  lowerGain : Option Nat := none
  lowerLift : Option Int := none
  floor : Option Nat := none
  gain : Option Nat := none
  dirSearch : Option Bool := none
  lockCount : Option Nat := none
  breakHold : Option Nat := none
  repeatLimit : Option Nat := none
  minContrast : Option Nat := none
  mask : Option (Quad Bool) := none
  force : Option Force := none
  watch1 : WatchItems := ⟨none, none, none, none, none⟩
  watch2 : WatchItems := ⟨none, none, none, none, none⟩
deriving DecidableEq, Repr, Inhabited

/-- Cue decoder state: the device number read from the straps (R17), the active and the pending settings (R169, R170). -/
structure CueDecoder where
  deviceNumber : Fin 16
  active : Quad Settings
  staged : Quad Pending
deriving DecidableEq, Repr, Inhabited

/-! ## Chapter 10: table loader -/

/-- A table identity 0..8: CADENCE, HSET0..HSET3, VSET0..VSET3 (Table 9-6). -/
abbrev TableId := Fin 9

/-- Load record (Table 10-2). The next expected index is the parts received modulo 256 (R179). -/
structure LoadRecord where
  table : TableId
  declared : Nat
  partsReceived : Nat
  wordsReceived : Nat
  events : Nat
deriving DecidableEq, Repr, Inhabited

/-- A load copy: READY or IDLE, and its words (R176). -/
structure LoadCopy where
  ready : Bool
  words : List Word
deriving DecidableEq, Repr, Inhabited

structure TableLoader where
  load : Option LoadRecord
  copies : List LoadCopy
deriving DecidableEq, Repr, Inhabited

/-! ## Chapter 11: notice unit -/

/-- A scope: a feed or the device (Table 0-3). -/
inductive Scope where
  | feed (n : Feed)
  | device
deriving DecidableEq, Repr

/-- Notice kinds in the order of their codes 01..18 hexadecimal (Table 11-1). -/
inductive NoticeKind where
  | feedUp
  | feedDown
  | fieldMissing
  | fieldDropped
  | parityRepeat
  | fieldShort
  | fieldLong
  | mapOverflow
  | lockAcquired
  | lockBroken
  | quality1
  | quality2
  | storeCorrected
  | storeUncorrectable
  | poolTight
  | poolReclaim
  | jobSkipped
  | outputFill
  | referenceLost
  | cueDiscarded
  | resultOverflow
  | carryOverflow
  | loadDiscarded
  | tableAdopted
deriving DecidableEq, Repr

/-- Detail of a notice by its class (Table 9-5). -/
inductive Detail where
  | absent
  | sequence (q : Seq)
  | reason (r : Reason)
  | table (t : TableId)
  | tag (w : Word)
  | freeCount (n : Nat)
  | kindWord (w : Word)
deriving DecidableEq, Repr

/-- Entry of the pending notice table (R189). -/
structure NoticeEntry where
  kind : NoticeKind
  scope : Scope
  count : Nat
  detail : Detail
deriving DecidableEq, Repr

/-- Level and mask of a notice kind (R188). -/
structure NoticeSetting where
  level : Nat
  masked : Bool
deriving DecidableEq, Repr, Inhabited

/-- Feed counters (Table 11-2). -/
inductive FeedCounter where
  | fieldsStored
  | fieldsMissing
  | fieldsDropped
  | parityRepeats
  | linesLost
  | linesConcealed
  | storeCorrected
  | linesDamaged
  | locks
  | breaks
  | jobsDone
  | jobsSkipped
  | framesRepeated
  | framesFill
  | framesDiscarded
  | carriedLost
deriving DecidableEq, Repr

/-- Device counters (Table 11-2). -/
inductive DeviceCounter where
  | cuesTaken
  | cuesDiscarded
  | cuesRefused
  | reclaims
  | tablesAdopted
  | resultsLost
deriving DecidableEq, Repr

/-- The 16 counters of a feed (Table 11-2), 0..4294967295 each (R191). -/
structure FeedCounters where
  fieldsStored : Nat := 0
  fieldsMissing : Nat := 0
  fieldsDropped : Nat := 0
  parityRepeats : Nat := 0
  linesLost : Nat := 0
  linesConcealed : Nat := 0
  storeCorrected : Nat := 0
  linesDamaged : Nat := 0
  locks : Nat := 0
  breaks : Nat := 0
  jobsDone : Nat := 0
  jobsSkipped : Nat := 0
  framesRepeated : Nat := 0
  framesFill : Nat := 0
  framesDiscarded : Nat := 0
  carriedLost : Nat := 0
deriving DecidableEq, Repr, Inhabited

/-- The 6 counters of the device (Table 11-2). -/
structure DeviceCounters where
  cuesTaken : Nat := 0
  cuesDiscarded : Nat := 0
  cuesRefused : Nat := 0
  reclaims : Nat := 0
  tablesAdopted : Nat := 0
  resultsLost : Nat := 0
deriving DecidableEq, Repr, Inhabited

/-- The two latches of a scope (R192), each empty or holding the payload words of its record. -/
structure Latches where
  status : Option (List Word)
  counters : Option (List Word)
deriving DecidableEq, Repr, Inhabited

/-- Periodic-report state (R194). -/
structure Periodic where
  period : Nat
  scan : Quad Bool
  count : Nat
  last : Option Feed
deriving DecidableEq, Repr, Inhabited

/-- Notice unit state (R195). The settings stand in the order of the kind codes. -/
structure NoticeUnit where
  settings : List NoticeSetting
  table : List NoticeEntry
  feedCounters : Quad FeedCounters
  devCounters : DeviceCounters
  feedLatches : Quad Latches
  devLatches : Latches
  periodic : Periodic
deriving DecidableEq, Repr

end Sys2Proof.Machine
end

