-- ==== Sys2Proof/Machine/Tables.lean ====
section
/-! DEFINITION. The constant tables of the manual: structures, reset contents, codes, levels. -/

namespace Sys2Proof

/-! ## Quadruples -/

def Quad.get {α : Type} (q : Quad α) (n : Fin 4) : α :=
  match n with
  | 0 => q.q0
  | 1 => q.q1
  | 2 => q.q2
  | 3 => q.q3

def Quad.set {α : Type} (q : Quad α) (n : Fin 4) (a : α) : Quad α :=
  match n with
  | 0 => { q with q0 := a }
  | 1 => { q with q1 := a }
  | 2 => { q with q2 := a }
  | 3 => { q with q3 := a }

def Quad.all {α : Type} (a : α) : Quad α := ⟨a, a, a, a⟩

def Quad.mapIdx {α β : Type} (f : Fin 4 → α → β) (q : Quad α) : Quad β :=
  ⟨f 0 q.q0, f 1 q.q1, f 2 q.q2, f 3 q.q3⟩

/-- The other parity. -/
def Parity.opposite : Parity → Parity
  | .upper => .lower
  | .lower => .upper

/-- The number the straps read as: 1, 2, 4 and 8 for DEVNUM0 to DEVNUM3 (R17). -/
def Straps.number (d : Straps) : Fin 16 :=
  Fin.ofNat 16 (d.devnum0.toNat + 2 * d.devnum1.toNat + 4 * d.devnum2.toNat + 8 * d.devnum3.toNat)

end Sys2Proof

namespace Sys2Proof.Machine

/-- The four feeds, in order. -/
def feeds : List Feed := [0, 1, 2, 3]

/-! ## Structures (Table 0-4) -/

/-- Active lines per field L. -/
def Structure.lines : Structure → Nat
  | .s50 => 288
  | .s60 => 240

/-- One field period, in units of 100 ns: 20.000 ms and 16.683 ms. -/
def Structure.period : Structure → Nat
  | .s50 => 200000
  | .s60 => 166830

/-- 1.5 field periods: 30.000 ms and 25.0245 ms (section 1.6, section 0.6.6). -/
def Structure.periodAndHalf : Structure → Nat
  | .s50 => 300000
  | .s60 => 250245

/-! ## Cadence programs -/

/-- Step entry s of a program. -/
def Program.step (p : Program) (s : Nat) : StepKind := p.steps.getD s .opens

/-- Program usability: the four conditions of R60. -/
def Program.isUsable (p : Program) : Bool :=
  let cycle := List.range p.length
  decide (2 ≤ p.length) &&
    cycle.any (fun s => p.step s == .opens) &&
    cycle.all (fun s => p.step s != .opens || p.step ((s + 1) % p.length) == .closes) &&
    cycle.all (fun s => p.step s != .repeats || p.step ((s + p.length - 1) % p.length) != .opens)

/-- A table with its usability evaluated (R60). -/
def CadenceTable.ofPrograms (q : Quad Program) : CadenceTable :=
  ⟨q, ⟨q.q0.isUsable, q.q1.isUsable, q.q2.isUsable, q.q3.isUsable⟩⟩

/-- Power-on contents of the active table (R61). Step entries at and beyond a length are OPENS: R61 gives them for
programs 2 and 3; for programs 0 and 1 a DESIGN CHOICE that nothing reads, log entry 24. -/
def powerOnPrograms : Quad Program :=
  ⟨⟨2, [.opens, .closes, .opens, .opens, .opens, .opens, .opens, .opens]⟩,
   ⟨5, [.opens, .closes, .repeats, .opens, .closes, .opens, .opens, .opens]⟩,
   ⟨0, [.opens, .opens, .opens, .opens, .opens, .opens, .opens, .opens]⟩,
   ⟨0, [.opens, .opens, .opens, .opens, .opens, .opens, .opens, .opens]⟩⟩

/-- The hypotheses of one program: one per start step, current step equal to it, run 0 (R68). -/
def freshHyps (t : CadenceTable) (p : Fin 4) : List Hypothesis :=
  if t.usable.get p then
    (List.range (t.programs.get p).length).map (fun s => ⟨p, s, s, 0⟩)
  else []

/-- The hypotheses of a mask against a table (R68, R83, R84). -/
def makeHyps (t : CadenceTable) (mask : Quad Bool) : List Hypothesis :=
  feeds.flatMap (fun p => if mask.get p then freshHyps t p else [])

/-! ## Coefficient sets -/

/-- Reset content of a horizontal set: taps 4 and 5 hold 128-2q and 2q (R134). -/
def linearHSet : CoefficientSet :=
  (List.range 64).map (fun (q : Nat) => [0, 0, 0, 128 - 2 * (q : Int), 2 * (q : Int), 0, 0, 0])

/-- Reset content of a vertical set: taps 2 and 3 hold 128-2q and 2q (R134). -/
def linearVSet : CoefficientSet :=
  (List.range 64).map (fun (q : Nat) => [0, 128 - 2 * (q : Int), 2 * (q : Int), 0])

/-! ## Tables of the loader -/

/-- Table sizes in words (Table 10-1). -/
def tableSize (t : TableId) : Nat :=
  if t.val = 0 then 36 else if t.val ≤ 4 then 512 else 256

/-- The nine load copies at power-on: IDLE (R187). Their words are a DESIGN CHOICE that nothing reads, log entry 24. -/
def powerOnCopies : List LoadCopy :=
  (List.finRange 9).map (fun t => ⟨false, List.replicate (tableSize t) 0⟩)

/-! ## Settings -/

/-- A watch limit at power-on (Table 3-1). -/
def powerOnWatch : Watch := ⟨false, .lostLines, .above, .note, 0⟩

/-- Power-on values of the active settings record (Table 9-7). -/
def powerOnSettings : Settings where
  enable := false
  struct := .s50
  cls := 1
  timing := .free
  holdLimit := 50
  width := 1440
  height := 1080
  hset := 0
  vset := 0
  upper := ⟨1024, 0⟩
  lower := ⟨1024, 0⟩
  floor := 12
  gain := 4
  dirSearch := true
  lockCount := 6
  breakHold := 4
  repeatLimit := 64
  minContrast := 32
  mask := ⟨true, true, false, false⟩
  force := .release
  watch1 := powerOnWatch
  watch2 := powerOnWatch

/-- The empty pending settings record. -/
def emptyPending : Pending := {}

/-! ## Notices -/

/-- The notice kinds in code order (Table 11-1). -/
def noticeKinds : List NoticeKind :=
  [.feedUp, .feedDown, .fieldMissing, .fieldDropped, .parityRepeat, .fieldShort, .fieldLong, .mapOverflow,
   .lockAcquired, .lockBroken, .quality1, .quality2, .storeCorrected, .storeUncorrectable, .poolTight, .poolReclaim,
   .jobSkipped, .outputFill, .referenceLost, .cueDiscarded, .resultOverflow, .carryOverflow, .loadDiscarded,
   .tableAdopted]

/-- Code of a notice kind, 1..24 (Table 11-1). -/
def NoticeKind.code : NoticeKind → Nat
  | .feedUp => 0x01
  | .feedDown => 0x02
  | .fieldMissing => 0x03
  | .fieldDropped => 0x04
  | .parityRepeat => 0x05
  | .fieldShort => 0x06
  | .fieldLong => 0x07
  | .mapOverflow => 0x08
  | .lockAcquired => 0x09
  | .lockBroken => 0x0A
  | .quality1 => 0x0B
  | .quality2 => 0x0C
  | .storeCorrected => 0x0D
  | .storeUncorrectable => 0x0E
  | .poolTight => 0x0F
  | .poolReclaim => 0x10
  | .jobSkipped => 0x11
  | .outputFill => 0x12
  | .referenceLost => 0x13
  | .cueDiscarded => 0x14
  | .resultOverflow => 0x15
  | .carryOverflow => 0x16
  | .loadDiscarded => 0x17
  | .tableAdopted => 0x18

/-- Power-on level of a notice kind (Table 11-1). -/
def NoticeKind.powerOnLevel : NoticeKind → Nat
  | .feedUp => 1
  | .feedDown => 3
  | .fieldMissing => 2
  | .fieldDropped => 3
  | .parityRepeat => 2
  | .fieldShort => 1
  | .fieldLong => 1
  | .mapOverflow => 1
  | .lockAcquired => 1
  | .lockBroken => 2
  | .quality1 => 1
  | .quality2 => 1
  | .storeCorrected => 0
  | .storeUncorrectable => 2
  | .poolTight => 2
  | .poolReclaim => 3
  | .jobSkipped => 1
  | .outputFill => 2
  | .referenceLost => 2
  | .cueDiscarded => 1
  | .resultOverflow => 1
  | .carryOverflow => 1
  | .loadDiscarded => 2
  | .tableAdopted => 1

/-- Power-on levels and masks: STORE_CORRECTED is masked (R188). -/
def powerOnNoticeSettings : List NoticeSetting :=
  noticeKinds.map (fun k => ⟨k.powerOnLevel, k == .storeCorrected⟩)

def emptyLatches : Latches := ⟨none, none⟩

/-- Periodic-report state after power-on and device restart (R195). -/
def powerOnPeriodic : Periodic := ⟨0, ⟨false, false, false, false⟩, 0, none⟩

/-! ## Blocks at power-on -/

/-- Receiver record after power-on and device restart (Table 1-1). -/
def powerOnReceiver : Receiver := ⟨.off, 0, .upper, .stopped, 0, none⟩

/-- Working items of the conditioner after power-on and device restart (Table 3-1). -/
def powerOnConditioner : Conditioner := ⟨none, 0⟩

/-- Transmitter record after power-on (Table 8-1); the frame timer's first term is one S50 field period (R158). -/
def powerOnTransmitter : Transmitter where
  half0 := ⟨.sending, none, .fill⟩
  half1 := ⟨.empty, none, .fill⟩
  repeatCount := 0
  fillFlag := true
  source := .free
  reference := none
  frameTimer := .running 200000
  watchTimer := .stopped
  results := []
  carry := []
  link := none

end Sys2Proof.Machine
end

