-- ==== Sys2Proof/Machine/State.lean ====
section
/-! DEFINITION. The state of the part, block by block as Table 0-1 gives it, and its value right after reset. -/

namespace Sys2Proof.Machine

/-- Faults: a step of this part never stops with one, so the type has no constructor. The manual names no event that
stops the part: every error it describes is an effect on State (a notice, a counter, a result, a damaged line). -/
inductive Fault where
deriving DecidableEq, Repr

/-- Refusals. -/
inductive Refusal where
  /-- Raised only by an arm of exec whose command has no meaning yet; safe. No arm of this model raises it. -/
  | notModelled (mnemonic : String)
deriving DecidableEq, Repr

/-- The state of the part. -/
structure State where
  /-- Link receivers LRX0..LRX3 (Table 1-1). -/
  lrx : Quad Receiver
  /-- Ingest conditioner, working items per feed (Table 3-1). -/
  ing : Quad Conditioner
  /-- Field store (Chapter 2). -/
  fst : FieldStore
  /-- Cadence tracker (Chapter 4). -/
  cad : CadenceTracker
  /-- Frame engine (Chapter 5). -/
  fen : FrameEngine
  /-- Output transmitters OTX0..OTX3 (Table 8-1). -/
  otx : Quad Transmitter
  /-- Cue decoder (Chapter 9). -/
  cue : CueDecoder
  /-- Table loader (Chapter 10). -/
  tld : TableLoader
  /-- Notice unit (Chapter 11). -/
  ntu : NoticeUnit
  /-- RESET is held asserted (R17, R158). -/
  resetHeld : Bool
  /-- The model's own counter for the free values of Config; no rule of the manual reads it. Log entry 3. -/
  choices : Nat
  /-- Commands waiting, first in, first out. Log entry 1. -/
  pending : List Instr
deriving DecidableEq, Repr

/-- The power-on values of every block, as its chapter's table gives them (Tables 1-1, 3-1, 4-2, 5-1, 8-1, 9-7;
R42, R61, R84, R134, R187, R195), before the frame start that release of RESET takes (R158). -/
def State.powerOnValues : State where
  lrx := Quad.all powerOnReceiver
  ing := Quad.all powerOnConditioner
  fst := ⟨List.replicate 24 .free, [], Quad.all [], [], false⟩
  cad :=
    let t := CadenceTable.ofPrograms powerOnPrograms
    ⟨t, Quad.all ⟨.seeking, makeHyps t powerOnSettings.mask⟩⟩
  fen := ⟨none, [], Quad.all linearHSet, Quad.all linearVSet⟩
  otx := Quad.all powerOnTransmitter
  cue := ⟨0, Quad.all powerOnSettings, Quad.all emptyPending⟩
  tld := ⟨none, powerOnCopies⟩
  ntu := ⟨powerOnNoticeSettings, [], Quad.all {}, {}, Quad.all emptyLatches, emptyLatches, powerOnPeriodic⟩
  resetHeld := false
  choices := 0
  pending := []

/-- The part right after release of RESET: the power-on values, after the frame start that each transmitter takes at
once, which sends the fill frame with empty blanking and counts FRAMES_FILL (R158). The device number is the one of
straps that are all released, log entry 7. -/
def State.reset : State :=
  { State.powerOnValues with
    otx := Quad.all { powerOnTransmitter with link := some ⟨.fill, []⟩ }
    ntu := { State.powerOnValues.ntu with feedCounters := Quad.all { framesFill := 1 } } }

end Sys2Proof.Machine
end

