-- ==== Sys2Proof/Machine/Flags.lean ====
section
/-! DEFINITION. Notices, counters and the codes of details: how every block reports to the notice unit (Chapter 11). -/

namespace Sys2Proof.Machine

/-! ## Raising notices (R189) -/

/-- An entry is the one for this kind and scope. -/
def NoticeEntry.isFor (e : NoticeEntry) (k : NoticeKind) (sc : Scope) : Bool := e.kind == k && e.scope == sc

/-- The pending table after a raise: the existing entry counts, up to 255, and keeps its detail; else a new entry (R189). -/
def addNotice (k : NoticeKind) (sc : Scope) (d : Detail) (t : List NoticeEntry) : List NoticeEntry :=
  if t.any (fun e => e.isFor k sc) then
    t.map (fun e => if e.isFor k sc then { e with count := min 255 (e.count + 1) } else e)
  else t ++ [⟨k, sc, 1, d⟩]

/-- Raise a notice of kind k in scope sc with detail d, masked or not (R189). -/
def State.raise (s : State) (k : NoticeKind) (sc : Scope) (d : Detail) : State :=
  { s with ntu := { s.ntu with table := addNotice k sc d s.ntu.table } }

/-! ## Counters (R191) -/

/-- A 32-bit count that stays at 4294967295 (R191). -/
def satAdd (c k : Nat) : Nat := min (c + k) 4294967295

def FeedCounters.add (f : FeedCounters) (c : FeedCounter) (k : Nat) : FeedCounters :=
  match c with
  | .fieldsStored => { f with fieldsStored := satAdd f.fieldsStored k }
  | .fieldsMissing => { f with fieldsMissing := satAdd f.fieldsMissing k }
  | .fieldsDropped => { f with fieldsDropped := satAdd f.fieldsDropped k }
  | .parityRepeats => { f with parityRepeats := satAdd f.parityRepeats k }
  | .linesLost => { f with linesLost := satAdd f.linesLost k }
  | .linesConcealed => { f with linesConcealed := satAdd f.linesConcealed k }
  | .storeCorrected => { f with storeCorrected := satAdd f.storeCorrected k }
  | .linesDamaged => { f with linesDamaged := satAdd f.linesDamaged k }
  | .locks => { f with locks := satAdd f.locks k }
  | .breaks => { f with breaks := satAdd f.breaks k }
  | .jobsDone => { f with jobsDone := satAdd f.jobsDone k }
  | .jobsSkipped => { f with jobsSkipped := satAdd f.jobsSkipped k }
  | .framesRepeated => { f with framesRepeated := satAdd f.framesRepeated k }
  | .framesFill => { f with framesFill := satAdd f.framesFill k }
  | .framesDiscarded => { f with framesDiscarded := satAdd f.framesDiscarded k }
  | .carriedLost => { f with carriedLost := satAdd f.carriedLost k }

def DeviceCounters.add (f : DeviceCounters) (c : DeviceCounter) (k : Nat) : DeviceCounters :=
  match c with
  | .cuesTaken => { f with cuesTaken := satAdd f.cuesTaken k }
  | .cuesDiscarded => { f with cuesDiscarded := satAdd f.cuesDiscarded k }
  | .cuesRefused => { f with cuesRefused := satAdd f.cuesRefused k }
  | .reclaims => { f with reclaims := satAdd f.reclaims k }
  | .tablesAdopted => { f with tablesAdopted := satAdd f.tablesAdopted k }
  | .resultsLost => { f with resultsLost := satAdd f.resultsLost k }

/-- Count feed n's counter c by k (R191). -/
def State.count (s : State) (n : Feed) (c : FeedCounter) (k : Nat) : State :=
  { s with ntu := { s.ntu with feedCounters := s.ntu.feedCounters.set n ((s.ntu.feedCounters.get n).add c k) } }

/-- Count the device's counter c by one (R191). -/
def State.countDev (s : State) (c : DeviceCounter) : State :=
  { s with ntu := { s.ntu with devCounters := s.ntu.devCounters.add c 1 } }

/-- Counters of a feed in the order of the counter report (Tables 9-5, 11-2). -/
def FeedCounters.toList (f : FeedCounters) : List Nat :=
  [f.fieldsStored, f.fieldsMissing, f.fieldsDropped, f.parityRepeats, f.linesLost, f.linesConcealed,
   f.storeCorrected, f.linesDamaged, f.locks, f.breaks, f.jobsDone, f.jobsSkipped, f.framesRepeated, f.framesFill,
   f.framesDiscarded, f.carriedLost]

/-- Counters of the device in the order of the counter report (Tables 9-5, 11-2). -/
def DeviceCounters.toList (f : DeviceCounters) : List Nat :=
  [f.cuesTaken, f.cuesDiscarded, f.cuesRefused, f.reclaims, f.tablesAdopted, f.resultsLost]

/-! ## Codes of details (Tables 9-5, 9-6) -/

def Reason.code : Reason → Nat
  | .superseded => 1
  | .sequence => 2
  | .stalled => 3
  | .tableRefused => 4
  | .noPulse => 5
  | .tableChanged => 7

def Detail.cls : Detail → Nat
  | .absent => 0
  | .sequence _ => 1
  | .reason _ => 2
  | .table _ => 3
  | .tag _ => 4
  | .freeCount _ => 5
  | .kindWord _ => 6

/-- Detail value; class 0 is sent with value 0 (R190). -/
def Detail.value : Detail → Nat
  | .absent => 0
  | .sequence q => q.toNat
  | .reason r => r.code
  | .table t => t.val
  | .tag w => w.toNat
  | .freeCount n => n
  | .kindWord w => w.toNat

end Sys2Proof.Machine
end

