-- ==== Sys2Proof/Machine/Ops.lean ====
section
/-! DEFINITION. Named operations over the blocks' records and over the external memory. -/

namespace Sys2Proof.Machine

/-! ## Records by feed -/

def State.setRx (s : State) (n : Feed) (r : Receiver) : State := { s with lrx := s.lrx.set n r }

def State.setIng (s : State) (n : Feed) (c : Conditioner) : State := { s with ing := s.ing.set n c }

def State.setOtx (s : State) (n : Feed) (t : Transmitter) : State := { s with otx := s.otx.set n t }

def State.setActive (s : State) (n : Feed) (a : Settings) : State :=
  { s with cue := { s.cue with active := s.cue.active.set n a } }

def State.setStaged (s : State) (n : Feed) (p : Pending) : State :=
  { s with cue := { s.cue with staged := s.cue.staged.set n p } }

def State.setTracker (s : State) (n : Feed) (t : Tracker) : State :=
  { s with cad := { s.cad with trackers := s.cad.trackers.set n t } }

def State.setHist (s : State) (n : Feed) (h : List FieldRecord) : State :=
  { s with fst := { s.fst with hist := s.fst.hist.set n h } }

/-- The feed's active settings. -/
def State.settings (s : State) (n : Feed) : Settings := s.cue.active.get n

/-- Active lines per field of the feed's active structure. -/
def State.fieldLines (s : State) (n : Feed) : Nat := (s.settings n).struct.lines

/-- One field period of the feed's active structure. -/
def State.period (s : State) (n : Feed) : Nat := (s.settings n).struct.period

/-- The feed's history, oldest first (R25). -/
def State.history (s : State) (n : Feed) : List FieldRecord := s.fst.hist.get n

/-! ## Lists in ascending order -/

/-- Put a number into an ascending list without repeats. -/
def insertAscending (w : Nat) : List Nat → List Nat
  | [] => [w]
  | v :: t => if w < v then w :: v :: t else if w = v then v :: t else v :: insertAscending w t

/-- Put several numbers into an ascending list without repeats. -/
def insertAll (ws : List Nat) (l : List Nat) : List Nat := ws.foldl (fun acc w => insertAscending w acc) l

/-! ## The external memory (R36) -/

/-- Key of line area m of slot k. -/
def areaKey (k : Fin 24) (m : Nat) : Nat := k.val * 288 + m

/-- What stands in a line area: none where nothing has been written. -/
def memRead (a : Nat) : Memory → Option StoredLine
  | [] => none
  | (b, l) :: t => if b = a then some l else memRead a t

/-- Write a whole line with its check codes: whatever had gone wrong in the area is gone (R36). -/
def memWrite (a : Nat) (l : Line) : Memory → Memory
  | [] => [(a, ⟨l, []⟩)]
  | (b, x) :: t =>
    if a < b then (a, ⟨l, []⟩) :: (b, x) :: t
    else if a = b then (a, ⟨l, []⟩) :: t
    else (b, x) :: memWrite a l t

/-- Word w of area a goes wrong; an area never written holds nothing that could. Log entry 5. -/
def memUpset (a w : Nat) (m : Memory) : Memory :=
  m.map (fun c => if c.1 = a then (c.1, { c.2 with wrong := insertAscending w c.2.wrong }) else c)

/-- What an area that nothing has written reads as: free words. Log entry 2. -/
def unwrittenLine (a : Nat) : Line :=
  ⟨(List.range 720).map (fun x => Config.unwrittenWord a x),
   (List.range 360).map (fun x => Config.unwrittenWord a (720 + x)),
   (List.range 360).map (fun x => Config.unwrittenWord a (1080 + x))⟩

/-- The samples a delivered line gives: as written, wrong words corrected (R37). -/
def lineAt (m : Memory) (k : Fin 24) (line : Nat) : Line :=
  match memRead (areaKey k line) m with
  | some l => l.line
  | none => unwrittenLine (areaKey k line)

/-- The wrong words the store's check meets in a line area. -/
def wrongAt (m : Memory) (k : Fin 24) (line : Nat) : List Nat :=
  match memRead (areaKey k line) m with
  | some l => l.wrong
  | none => []

/-- Words of the external memory go wrong before a command (operand of the commands that read), so before anything that the
command itself writes: log entry 5. -/
def State.upset (s : State) (us : List Upset) : State :=
  { s with fst := { s.fst with
      mem := us.foldl (fun m u => memUpset (areaKey u.slot u.line.val) u.word.val m) s.fst.mem } }

/-! ## Halves of an output (R142) -/

/-- Half 0 is the SENDING half. -/
def Transmitter.sends0 (t : Transmitter) : Bool := t.half0.state == .sending

def Transmitter.sendingHalf (t : Transmitter) : Half := if t.sends0 then t.half0 else t.half1

/-- The half that is not SENDING. -/
def Transmitter.otherHalf (t : Transmitter) : Half := if t.sends0 then t.half1 else t.half0

def Transmitter.setOther (t : Transmitter) (h : Half) : Transmitter :=
  if t.sends0 then { t with half1 := h } else { t with half0 := h }

/-- The non-sending half becomes SENDING and the SENDING half EMPTY (R143). -/
def Transmitter.swap (t : Transmitter) : Transmitter :=
  if t.sends0 then
    { t with half0 := { t.half0 with state := .empty }, half1 := { t.half1 with state := .sending } }
  else
    { t with half0 := { t.half0 with state := .sending }, half1 := { t.half1 with state := .empty } }

/-! ## Jobs and their references (R26) -/

/-- The records a job references. -/
def Job.references (j : Job) : List Seq := [j.refs.f0, j.refs.prev, j.refs.next, j.refs.prev2].filterMap id

/-- The job in service references record q of feed n's history: a record it holds detached is another one. -/
def State.serviceRefs (s : State) (n : Feed) (q : Seq) : Bool :=
  match s.fen.service with
  | some v => v.job.feed == n && v.job.references.contains q && !(s.fst.detached.any (fun r => r.seq == q))
  | none => false

/-- A waiting job references record q of feed n's history. -/
def State.waitingRefs (s : State) (n : Feed) (q : Seq) : Bool :=
  s.fen.waiting.any (fun j => j.feed == n && j.references.contains q)

/-- A record is referenced (R26). -/
def State.referenced (s : State) (n : Feed) (q : Seq) : Bool := s.serviceRefs n q || s.waitingRefs n q

/-- The record of feed n's history with sequence number q. -/
def State.record (s : State) (n : Feed) (q : Seq) : Option FieldRecord := (s.history n).find? (fun r => r.seq == q)

/-- Change the record of feed n's history with sequence number q. -/
def State.modifyRecord (s : State) (n : Feed) (q : Seq) (f : FieldRecord → FieldRecord) : State :=
  s.setHist n ((s.history n).map (fun r => if r.seq == q then f r else r))

/-- The record that the job in service holds under number q: a detached one first (R26). -/
def State.heldRecord (s : State) (n : Feed) (q : Seq) : Option FieldRecord :=
  match s.fst.detached.find? (fun r => r.seq == q) with
  | some r => some r
  | none => s.record n q

/-- Change the record that the job in service holds under number q. -/
def State.modifyHeld (s : State) (n : Feed) (q : Seq) (f : FieldRecord → FieldRecord) : State :=
  if s.fst.detached.any (fun r => r.seq == q) then
    { s with fst := { s.fst with detached := s.fst.detached.map (fun r => if r.seq == q then f r else r) } }
  else s.modifyRecord n q f

/-- A free value for the next open choice: the counter is read and advanced. Log entry 3. -/
def State.nextChoice (s : State) : Nat × State := (s.choices, { s with choices := s.choices + 1 })

end Sys2Proof.Machine
end

