-- ==== Sys2Proof/Machine/Store.lean ====
section
/-! DEFINITION. The field store: slots, histories, allocation, retention, the tight condition, checked reads (Chapter 2). -/

namespace Sys2Proof.Machine

/-! ## Slots and the tight condition -/

def State.setSlot (s : State) (k : Fin 24) (v : Slot) : State :=
  { s with fst := { s.fst with slots := s.fst.slots.set k.val v } }

def State.slot (s : State) (k : Fin 24) : Slot := s.fst.slots.getD k.val .free

/-- Count of FREE slots. -/
def State.freeCount (s : State) : Nat := s.fst.slots.countP (fun v => v == .free)

/-- Slots a feed owns in FILLING, HELD or RETIRING (R43). -/
def Slot.ownedBy (n : Feed) : Slot → Bool
  | .free => false
  | .filling o => o == n
  | .held o => o == n
  | .retiring o => o == n

def State.slotsHeld (s : State) (n : Feed) : Nat := s.fst.slots.countP (fun v => v.ownedBy n)

/-- The lowest-numbered FREE slot. -/
def State.lowestFree (s : State) : Option (Fin 24) := (List.finRange 24).find? (fun k => s.slot k == .free)

/-- Leaving the tight condition: the flag is cleared when 10 or more slots are FREE (R34). -/
def State.checkLeaving (s : State) : State :=
  if 10 ≤ s.freeCount then { s with fst := { s.fst with tight := false } } else s

/-- Slots become FREE, with no check for leaving. -/
def State.freeSlots (s : State) (ks : List (Fin 24)) : State := ks.foldl (fun t k => t.setSlot k .free) s

/-- Slots become FREE in an event of the store, and its end checks for leaving the tight condition (R34). -/
def State.releaseSlots (s : State) (ks : List (Fin 24)) : State :=
  if ks.isEmpty then s else (s.freeSlots ks).checkLeaving

/-! ## Records -/

/-- The slots a record's content names: one, or none for a gap. -/
def FieldRecord.slots (r : FieldRecord) : List (Fin 24) :=
  match r.content with
  | .slot k => [k]
  | .gap _ => []

def FieldRecord.hasContent (r : FieldRecord) : Bool :=
  match r.content with
  | .slot _ => true
  | .gap _ => false

/-- Usable line (R23). -/
def FieldRecord.usableLine (r : FieldRecord) (m : Nat) : Bool :=
  r.hasContent && !r.lost.contains m && !r.damaged.contains m

/-- Usable neighbour in a role that requires parity p; an absent record is none (R23, R94). -/
def usableNeighbour (p : Parity) : Option FieldRecord → Bool
  | none => false
  | some r => r.hasContent && !r.poor && r.parity == p

/-- A record turned into a gap: what it keeps and what it loses (R24). A gap keeps its first cause. -/
def FieldRecord.toGap (r : FieldRecord) (c : GapCause) : FieldRecord :=
  match r.content with
  | .gap _ => r
  | .slot _ =>
    { r with
      content := .gap c, trimUsed := none, lost := [], damaged := [], concealed := 0, dsame := none, cprev := none }

/-- A new record at its append: items entered at closure are absent or empty (R22). -/
def newRecord (q : Seq) (p : Parity) (st : RecordState) (c : Content) (rep : Bool) (tr : Option Parity) : FieldRecord :=
  ⟨q, p, st, c, ⟨rep, false, false, false⟩, [], 0, [], tr, none, none, false⟩

/-- Append at the newest end (R25). -/
def State.append (s : State) (n : Feed) (r : FieldRecord) : State := s.setHist n (s.history n ++ [r])

/-! ## Detaching, and the history cap (R26, R27, R89) -/

/-- A record leaves its history while the job in service references it: it is held by that job alone, and its slot is
RETIRING (R26). -/
def State.detach (s : State) (n : Feed) (r : FieldRecord) : State :=
  r.slots.foldl (fun t k => t.setSlot k (.retiring n))
    { s with fst := { s.fst with detached := s.fst.detached ++ [r] } }

/-- A job is skipped: JOB_SKIPPED with its F0 sequence number, and JOBS_SKIPPED (R88). -/
def State.noteSkip (s : State) (j : Job) : State :=
  (s.raise .jobSkipped (.feed j.feed) (.sequence j.f0Seq)).count j.feed .jobsSkipped 1

def dropRef (q : Seq) (o : Option Seq) : Option Seq := if o = some q then none else o

def JobRefs.drop (r : JobRefs) (q : Seq) : JobRefs :=
  ⟨dropRef q r.f0, dropRef q r.prev, dropRef q r.next, dropRef q r.prev2⟩

/-- The job is feed n's and its F0 is record q. -/
def Job.isBuiltFrom (n : Feed) (q : Seq) (j : Job) : Bool := j.feed == n && j.refs.f0 == some q

/-- Waiting jobs lose their reference to the record the cap takes out; a job that loses its F0 is skipped (R27, R89). -/
def State.dropWaitingRefs (s : State) (n : Feed) (q : Seq) : State :=
  let gone := s.fen.waiting.filter (Job.isBuiltFrom n q)
  let rest := (s.fen.waiting.filter (fun j => !Job.isBuiltFrom n q j)).map
    (fun j => if j.feed == n then { j with refs := j.refs.drop q } else j)
  gone.foldl State.noteSkip { s with fen := { s.fen with waiting := rest } }

/-- The history cap, before an append to a history of 8 records (R27). Log entry 15 for its check of the tight flag. -/
def State.historyCap (s : State) (n : Feed) : State :=
  match s.history n with
  | [] => s
  | r :: t =>
    if 8 ≤ (r :: t).length then
      let s1 := s.setHist n t
      let s2 := if s.serviceRefs n r.seq then s1.detach n r else s1.releaseSlots r.slots
      s2.dropWaitingRefs n r.seq
    else s

/-! ## Retention (R32, R33) -/

/-- Retention's walk over the first k records of a history. `behind` says that a record stands before the walk.
It gives the records that remain and the slots that become FREE. -/
def retentionWalk (refd : Seq → Bool) : Nat → Bool → List FieldRecord → List FieldRecord × List (Fin 24)
  | 0, _, h => (h, [])
  | _ + 1, _, [] => ([], [])
  | k + 1, behind, r :: t =>
    if refd r.seq then
      (r :: (retentionWalk refd k true t).1, (retentionWalk refd k true t).2)
    else if behind then
      (r.toGap .trimmedOff :: (retentionWalk refd k true t).1, r.slots ++ (retentionWalk refd k true t).2)
    else
      ((retentionWalk refd k false t).1, r.slots ++ (retentionWalk refd k false t).2)

/-- The keep-newest count: 3, or 2 for class 0 or 1 while the tight condition holds (R32). -/
def keepNewest (tight : Bool) (cls : Fin 4) : Nat := if tight && decide (cls.val ≤ 1) then 2 else 3

/-- The outcome of retention's walk over feed n's history with a keep-newest count. -/
def State.retained (s : State) (n : Feed) (keep : Nat) : List FieldRecord × List (Fin 24) :=
  retentionWalk (s.referenced n) ((s.history n).length - keep) false (s.history n)

/-- Retention applied to a feed (R32, R33), with its check for leaving the tight condition (R34). -/
def State.retain (s : State) (n : Feed) : State :=
  let o := s.retained n (keepNewest s.fst.tight (s.settings n).cls)
  (s.setHist n o.1).releaseSlots o.2

/-- Retention of one feed inside the tight entry: the counts of the tight condition, and no check yet (R34). -/
def State.retainTight (s : State) (n : Feed) : State :=
  let o := s.retained n (keepNewest true (s.settings n).cls)
  (s.setHist n o.1).freeSlots o.2

/-- Entry to the tight condition (R34). `free` is the count that the allocation left. Log entry 16. -/
def State.enterTight (s : State) (free : Nat) : State :=
  let s1 := ({ s with fst := { s.fst with tight := true } }).raise .poolTight .device (.freeCount free)
  (feeds.foldl State.retainTight s1).checkLeaving

/-! ## Allocation at a field start (R28 to R30) -/

/-- A HELD record of feed n: its slot is HELD. -/
def State.isHeld (s : State) (n : Feed) (r : FieldRecord) : Bool := r.slots.any (fun k => s.slot k == .held n)

/-- Candidates for reclaim in feed n's history (R29). -/
def State.candidates (s : State) (n : Feed) : List FieldRecord :=
  ((s.history n).take ((s.history n).length - 2)).filter (fun r => s.isHeld n r && !s.serviceRefs n r.seq)

/-- Of two feeds with candidates, the later one is taken unless its class is higher: lowest class, then highest feed
number (R29). -/
def State.laterVictim (s : State) (best : Option Feed) (n : Feed) : Option Feed :=
  if (s.candidates n).isEmpty then best
  else match best with
    | none => some n
    | some b => if (s.settings n).cls.val ≤ (s.settings b).cls.val then some n else some b

/-- The victim of a reclaim: the feed, its oldest candidate's sequence number, and its slot (R29). -/
def State.victim (s : State) : Option (Feed × Seq × Fin 24) :=
  match feeds.foldl s.laterVictim none with
  | none => none
  | some n =>
    match (s.candidates n).flatMap (fun r => r.slots.map (fun k => (n, r.seq, k))) with
    | [] => none
    | v :: _ => some v

/-- The victim becomes a RECLAIMED gap; POOL_RECLAIM and RECLAIMS (R29). -/
def State.reclaim (s : State) (v : Feed) (q : Seq) : State :=
  ((s.modifyRecord v q (fun r => r.toGap .reclaimed)).raise .poolReclaim (.feed v) (.sequence q)).countDev .reclaims

/-- The store's answer to a slot request: whether the field is stored, and the store after the event (R28). -/
def State.allocate (s : State) (n : Feed) (q : Seq) (p : Parity) (rep : Bool) : Bool × State :=
  let s0 := if 8 ≤ (s.history n).length then s.historyCap n else s
  match s0.lowestFree with
  | some k =>
    let s1 := s0.setSlot k (.filling n)
    let s2 := s1.append n (newRecord q p .opened (.slot k) rep (some p))
    (true, if !s1.fst.tight && decide (s1.freeCount ≤ 6) then s2.enterTight s1.freeCount else s2)
  | none =>
    match s0.victim with
    | some (v, w, k) =>
      (true, ((s0.reclaim v w).setSlot k (.filling n)).append n (newRecord q p .opened (.slot k) rep (some p)))
    | none =>
      (false, (((s0.append n (newRecord q p .opened (.gap .dropped) rep none)).raise .fieldDropped (.feed n)
        (.sequence q)).count n .fieldsDropped 1))

/-- A missing-field expiry's gap record, CLOSED at append, after the cap (R12, R25, R27). -/
def State.appendMissing (s : State) (n : Feed) (q : Seq) (p : Parity) : State :=
  let s0 := if 8 ≤ (s.history n).length then s.historyCap n else s
  s0.append n (newRecord q p .closed (.gap .missing) false none)

/-- The store's part of a closure: the record becomes CLOSED, its FILLING slot HELD (R31). -/
def State.closeRecord (s : State) (n : Feed) (q : Seq) : State :=
  let s1 := match s.record n q with
    | some r => r.slots.foldl (fun (t : State) k => t.setSlot k (.held n)) s
    | none => s
  s1.modifyRecord n q (fun r => { r with state := .closed })

/-! ## Emptying a history, and the end of the job in service (R40, R41) -/

/-- The slots that an emptying makes FREE: those of the records the job in service does not reference (R40). -/
def State.emptiedSlots (s : State) (n : Feed) : List (Fin 24) :=
  ((s.history n).filter (fun r => !s.serviceRefs n r.seq)).flatMap FieldRecord.slots

/-- Emptying a feed's history (R40). Its end checks for leaving the tight condition, at a feed restart as at the other three
events: R34 lists an emptying among the events that leave it and then says that a feed restart does not change the flag, and the
model follows the list (log entry 37). -/
def State.emptyHistory (s : State) (n : Feed) : State :=
  let kept := (s.history n).filter (fun r => s.serviceRefs n r.seq)
  let s1 := s.setHist n []
  let s2 := kept.foldl (fun t r => t.detach n r) s1
  s2.releaseSlots (s.emptiedSlots n)

/-- RETIRING slots at the end of the job in service (R41). -/
def State.retiringSlots (s : State) : List (Fin 24) :=
  (List.finRange 24).filter (fun k => match s.slot k with | .retiring _ => true | _ => false)

/-- The job in service ends for the store: RETIRING slots become FREE and the detached records cease to exist (R41). -/
def State.endDetached (s : State) : State :=
  ({ s with fst := { s.fst with detached := [] } }).releaseSlots s.retiringSlots

/-! ## Checked reads (R36 to R39) -/

/-- What the check of a line's 90 groups of 16 words finds (R36, R37, R38). -/
inductive ReadCheck where
  | clean
  | corrected (words : Nat)
  | damaged
deriving DecidableEq, Repr

/-- Two wrong words of an ascending list fall in one group of 16. -/
def groupClash : List Nat → Bool
  | a :: b :: t => a / 16 == b / 16 || groupClash (b :: t)
  | _ => false

def checkWords (wrong : List Nat) : ReadCheck :=
  if wrong.isEmpty then .clean else if groupClash wrong then .damaged else .corrected wrong.length

/-- A read of line m of a record through the store's check (R37 to R39). `held` says that the reader is the build, which
reads the record the job in service holds. It answers whether the line is delivered. -/
def State.readLine (s : State) (held : Bool) (n : Feed) (q : Seq) (m : Nat) : Bool × State :=
  match (if held then s.heldRecord n q else s.record n q) with
  | none => (false, s)
  | some r =>
    match r.content with
    | .gap _ => (false, s)
    | .slot k =>
      if r.lost.contains m || r.damaged.contains m then (false, s)
      else
        match checkWords (wrongAt s.fst.mem k m) with
        | .clean => (true, s)
        | .corrected w => (true, (s.count n .storeCorrected w).raise .storeCorrected (.feed n) (.sequence q))
        | .damaged =>
          let add := fun (x : FieldRecord) => { x with damaged := insertAscending m x.damaged }
          let s1 := if held then s.modifyHeld n q add else s.modifyRecord n q add
          (false, (s1.count n .linesDamaged 1).raise .storeUncorrectable (.feed n) (.sequence q))

/-- The store writes a trimmed line, with its check codes, into the line area of the field's slot (R36). -/
def State.writeLine (s : State) (k : Fin 24) (m : Nat) (l : Line) : State :=
  { s with fst := { s.fst with mem := memWrite (areaKey k m) l s.fst.mem } }

end Sys2Proof.Machine
end

