-- ==== Sys2Proof/Machine/Engine.lean ====
section
/-! DEFINITION. The frame engine's queue: entering it, arbitration, job start, restarts of a feed (Chapter 5). -/

namespace Sys2Proof.Machine

/-! ## Load copies (R176) -/

def State.copy (s : State) (t : TableId) : LoadCopy := s.tld.copies.getD t.val ⟨false, []⟩

def State.setCopy (s : State) (t : TableId) (c : LoadCopy) : State :=
  { s with tld := { s.tld with copies := s.tld.copies.set t.val c } }

/-- A READY copy returns to IDLE when its reader adopts it (R185). -/
def State.idleCopy (s : State) (t : TableId) : State := s.setCopy t { s.copy t with ready := false }

/-- TABLE_ADOPTED and TABLES_ADOPTED (R80, R93). -/
def State.noteAdoption (s : State) (t : TableId) : State :=
  (s.raise .tableAdopted .device (.table t)).countDev .tablesAdopted

/-- The coefficients of a set from its words: phase q, tap t at position q x taps + t, the coefficient plus 512 (R176). -/
def coefficientRows (taps : Nat) (words : List Word) : CoefficientSet :=
  (List.range 64).map (fun q => (List.range taps).map (fun t => ((words.getD (q * taps + t) 0).toNat : Int) - 512))

/-- The engine adopts the coefficient set of identity t, 1..8, if its copy is READY (R93). -/
def State.adoptSet (s : State) (t : TableId) : State :=
  if (s.copy t).ready then
    let words := (s.copy t).words
    let fen :=
      if t.val ≤ 4 then
        { s.fen with hsets := s.fen.hsets.set (Fin.ofNat 4 (t.val - 1)) (coefficientRows 8 words) }
      else
        { s.fen with vsets := s.fen.vsets.set (Fin.ofNat 4 (t.val - 5)) (coefficientRows 4 words) }
    (({ s with fen := fen }).idleCopy t).noteAdoption t
  else s

/-- Every READY coefficient set is adopted, HSET0 to VSET3 (R93). -/
def State.adoptSets (s : State) : State := ([1, 2, 3, 4, 5, 6, 7, 8] : List TableId).foldl State.adoptSet s

/-! ## Job start (R92 to R95) -/

/-- The record a reference of feed n's job names, in its history. -/
def State.refRecord (s : State) (n : Feed) (r : Option Seq) : Option FieldRecord :=
  match r with
  | none => none
  | some q => s.record n q

/-- The final mode of a job, by the first test that holds (R94). -/
def State.finalMode (s : State) (j : Job) : Mode :=
  let prevOk := usableNeighbour j.f0Parity.opposite (s.refRecord j.feed j.refs.prev)
  let nextOk := usableNeighbour j.f0Parity.opposite (s.refRecord j.feed j.refs.next)
  if decide ((s.settings j.feed).cls.val ≤ 1) && s.fst.tight then .spatial
  else if j.intended == .weavePrev && !prevOk then .spatial
  else if j.intended == .weaveNext && !nextOk then .spatial
  else if j.intended == .adaptive && (!prevOk || !nextOk) then .spatial
  else j.intended

/-- The references a final mode keeps besides F0 (R26). -/
def JobRefs.keptBy (r : JobRefs) (m : Mode) : JobRefs :=
  match m with
  | .spatial => ⟨r.f0, none, none, none⟩
  | .weavePrev => ⟨r.f0, r.prev, none, none⟩
  | .weaveNext => ⟨r.f0, none, r.next, none⟩
  | .adaptive => r

def noReads : BuildReads := ⟨⟨[], []⟩, ⟨[], []⟩, ⟨[], []⟩, ⟨[], []⟩⟩

/-- The job as it enters service: its final mode fixed, its references reduced, its woven frame's line count that of the
structure F0 was stored under (R92, R94, R103, R106). -/
def State.serviceOf (s : State) (j : Job) : Service where
  job := { j with refs := j.refs.keptBy (s.finalMode j) }
  finalMode := s.finalMode j
  withdrawn := false
  lines := s.fieldLines j.feed
  prev2Usable := s.finalMode j == .adaptive && usableNeighbour j.f0Parity (s.refRecord j.feed j.refs.prev2)
  reads := noReads

/-- The build claims the non-sending half of output n; a READY frame in it is discarded (R95). Log entry 23 for the
contents of a FILLING half. -/
def State.claimHalf (s : State) (n : Feed) : State :=
  let t := s.otx.get n
  let h := t.otherHalf
  let s1 := s.setOtx n (t.setOther { h with state := .filling, frame := none })
  if h.state == .ready then s1.count n .framesDiscarded 1 else s1

/-- A job start (R92). -/
def State.startJob (s : State) (j : Job) : State :=
  let s1 := ({ s with fen := { s.fen with waiting := s.fen.waiting.erase j } }).adoptSets
  let s2 := { s1 with fen := { s1.fen with service := some (s1.serviceOf j) } }
  (s2.claimHalf j.feed).retain j.feed

/-! ## Arbitration (R90, R91) -/

/-- Of two waiting jobs, the later in the list is taken only if its feed's class is higher (R90). -/
def State.betterJob (s : State) (best : Option Job) (j : Job) : Option Job :=
  match best with
  | none => some j
  | some b => if (s.settings b.feed).cls.val < (s.settings j.feed).cls.val then some j else some b

/-- The job the engine chooses: highest active class, then nearest the head (R90). -/
def State.chosenJob (s : State) : Option Job := s.fen.waiting.foldl s.betterJob none

/-- The job's F0 record has content (R91). -/
def State.f0HasContent (s : State) (j : Job) : Bool :=
  match s.refRecord j.feed j.refs.f0 with
  | none => false
  | some r => r.hasContent

/-- A chosen job whose F0 has lost its content is skipped, and retention follows (R91). -/
def State.skipAtChoice (s : State) (j : Job) : State :=
  (({ s with fen := { s.fen with waiting := s.fen.waiting.erase j } }).noteSkip j).retain j.feed

/-- The engine chooses while it is IDLE and jobs wait; each turn starts a job or takes one out of the list (R90, R91). -/
def State.arbitrateFor : Nat → State → State
  | 0, s => s
  | k + 1, s =>
    match s.fen.service with
    | some _ => s
    | none =>
      match s.chosenJob with
      | none => s
      | some j => if s.f0HasContent j then s.startJob j else State.arbitrateFor k (s.skipAtChoice j)

/-- The engine's choice (R90): the list holds no more jobs than there are turns. -/
def State.arbitrate (s : State) : State := State.arbitrateFor s.fen.waiting.length s

/-! ## Entering the queue (R88) -/

/-- The feed's jobs that wait, oldest first. -/
def State.waitingOf (s : State) (n : Feed) : List Job := s.fen.waiting.filter (fun j => j.feed == n)

/-- With two jobs of the feed waiting, the older is skipped (R88). -/
def State.skipOlder (s : State) (n : Feed) : State :=
  match s.waitingOf n with
  | j :: _ :: _ => ({ s with fen := { s.fen with waiting := s.fen.waiting.erase j } }).noteSkip j
  | _ => s

/-- A created job enters the queue; an IDLE engine chooses at once (R88, R90). Log entry 25. -/
def State.enqueue (s : State) (j : Job) : State :=
  let s1 := s.skipOlder j.feed
  ({ s1 with fen := { s1.fen with waiting := s1.fen.waiting ++ [j] } }).arbitrate

/-! ## Restarts of the feed (R98, R99) -/

/-- A job in service of the feed is marked withdrawn; its waiting jobs are removed without a skip (R98, R99). -/
def State.withdrawJobs (s : State) (n : Feed) : State :=
  { s with fen := { s.fen with
      service := s.fen.service.map (fun v => if v.job.feed == n then { v with withdrawn := true } else v)
      waiting := s.fen.waiting.filter (fun j => j.feed != n) } }

end Sys2Proof.Machine
end

