-- ==== Sys2Proof/Machine/Cadence.lean ====
section
/-! DEFINITION. The cadence tracker: evidence, hypotheses, states, adoption of a loaded table, job creation (Chapter 4). -/

namespace Sys2Proof.Machine

/-! ## Evidence (R66, R67) -/

/-- The classification of F0's evidence, N being the record after it, by the first test that holds (R67). -/
def classify (a : Settings) (f0 n : FieldRecord) : Evidence :=
  if f0.conditions.parityRepeat || n.conditions.parityRepeat then .brk
  else if !f0.hasContent || f0.poor then .ambig
  else
    match f0.cprev, n.cprev with
    | some cp, some cn =>
      if cn + a.minContrast ≤ cp ∧ 2 * cn ≤ cp then .next
      else if cp + a.minContrast ≤ cn ∧ 2 * cp ≤ cn then
        match f0.dsame with
        | some ds => if ds ≤ a.repeatLimit then .prevRepeat else .prev
        | none => .prev
      else .ambig
    | _, _ => .ambig

/-- Step matching (Table 4-3): none where the evidence is AMBIG, which is neither a match nor a mismatch (R69).
`ds` says that Dsame of F0 is present. -/
def stepMatch (k : StepKind) (e : Evidence) (ds : Bool) : Option Bool :=
  match e, k with
  | .ambig, _ => none
  | .brk, _ => some false
  | .next, .opens => some true
  | .next, .closes => some false
  | .next, .repeats => some false
  | .prev, .opens => some false
  | .prev, .closes => some true
  | .prev, .repeats => some !ds
  | .prevRepeat, .opens => some false
  | .prevRepeat, .closes => some true
  | .prevRepeat, .repeats => some true

/-! ## Hypotheses (R70, R71) -/

/-- Step s of program p, and the step after it, cyclically in the active length (R59). -/
def CadenceTable.stepOf (t : CadenceTable) (p : Fin 4) (s : Nat) : StepKind := (t.programs.get p).step s

def CadenceTable.advance (t : CadenceTable) (p : Fin 4) (s : Nat) : Nat := (s + 1) % (t.programs.get p).length

/-- The update of one hypothesis at an evidence event (R70). -/
def updateHyp (t : CadenceTable) (e : Evidence) (ds : Bool) (h : Hypothesis) : Hypothesis :=
  { h with
    run := match stepMatch (t.stepOf h.program h.current) e ds with
      | some true => min 15 (h.run + 1)
      | some false => 0
      | none => h.run
    current := t.advance h.program h.current }

/-- Ranking of two hypotheses, each with the step it is ranked by: greatest run, lowest program, lowest step (R71). -/
def outranks (a b : Hypothesis × Nat) : Bool :=
  decide (b.1.run < a.1.run) ||
    (a.1.run == b.1.run &&
      (decide (a.1.program.val < b.1.program.val) || (a.1.program == b.1.program && decide (a.2 < b.2))))

/-- The best of the ranked hypotheses (R71). -/
def bestHyp (l : List (Hypothesis × Nat)) : Option (Hypothesis × Nat) :=
  l.foldl (fun best h => match best with
    | none => some h
    | some b => if outranks h b then some h else some b) none

/-- Every run becomes 0. -/
def clearRuns (l : List Hypothesis) : List Hypothesis := l.map (fun h => { h with run := 0 })

/-! ## Breaking a lock (R73) -/

/-- The tracker after a break: BROKEN with the break hold remaining, or SEEKING when the break hold is 0; every run 0. -/
def brokenTracker (hold : Nat) (hyps : List Hypothesis) : Tracker :=
  ⟨if hold = 0 then .seeking else .broken hold, clearRuns hyps⟩

/-- A lock of feed n ends: BROKEN or SEEKING, LOCK_BROKEN with its detail, BREAKS (R73, R63, R81). -/
def State.breakLock (s : State) (n : Feed) (d : Detail) : State :=
  ((s.setTracker n (brokenTracker (s.settings n).breakHold (s.cad.trackers.get n).hyps)).raise .lockBroken (.feed n)
    d).count n .breaks 1

/-! ## The action of the tracker's state (R72 to R76) -/

/-- The tracker's action at an evidence event for F0 with number q, before and after the update of the hypotheses. It
answers F0's step where the state after the event gives one (R78). -/
def State.trackerAction (s : State) (n : Feed) (q : Seq) (e : Evidence) (ds : Bool) : Option StepKind × State :=
  let t := s.cad.table
  let k := s.cad.trackers.get n
  let hyps := k.hyps.map (updateHyp t e ds)
  let upd := s.setTracker n ⟨k.state, hyps⟩
  match k.state with
  | .seeking =>
    match bestHyp (hyps.zip (k.hyps.map (fun h => h.current))) with
    | some (h, step) =>
      if (s.settings n).lockCount ≤ h.run then
        (some (t.stepOf h.program step),
          ((upd.setTracker n ⟨.locked h.program h.current, hyps⟩).raise .lockAcquired (.feed n) (.sequence q)).count n
            .locks 1)
      else (none, upd)
    | none => (none, upd)
  | .locked p step =>
    match stepMatch (t.stepOf p step) e ds with
    | some false => (none, upd.breakLock n (.sequence q))
    | _ => (some (t.stepOf p step), upd.setTracker n ⟨.locked p (t.advance p step), hyps⟩)
  | .broken hold =>
    let left := if e == .brk then (s.settings n).breakHold else hold - 1
    (none, upd.setTracker n ⟨if left = 0 then .seeking else .broken left, hyps⟩)
  | .heldVideo => (none, upd)
  | .heldFilm p step => (some (t.stepOf p step), upd.setTracker n ⟨.heldFilm p (t.advance p step), hyps⟩)

/-- Intended mode from F0's step (R78). -/
def intendedMode : Option StepKind → Mode
  | none => .adaptive
  | some .opens => .weaveNext
  | some .closes => .weavePrev
  | some .repeats => .weavePrev

/-! ## Adoption of a loaded cadence table (R80 to R82) -/

/-- A step word's meaning (Table 9-3); the checks of R182 admit 0, 1 and 2 alone. -/
def stepOfWord (w : Word) : StepKind :=
  if w.toNat = 0 then .opens else if w.toNat = 1 then .closes else .repeats

/-- Program p of a cadence table's words: length at 9p, step s at 9p+1+s (R176). -/
def programOfWords (words : List Word) (p : Nat) : Program :=
  ⟨(words.getD (9 * p) 0).toNat, (List.range 8).map (fun s => stepOfWord (words.getD (9 * p + 1 + s) 0))⟩

def programsOfWords (words : List Word) : Quad Program :=
  ⟨programOfWords words 0, programOfWords words 1, programOfWords words 2, programOfWords words 3⟩

/-- A program is changed when its length differs or a step below the length does (R80). -/
def programChanged (old new : Program) : Bool :=
  old.length != new.length || (List.range new.length).any (fun s => old.step s != new.step s)

/-- Hypotheses after an adoption: those of changed programs are remade, the others keep steps and runs (R80). -/
def adoptedHyps (t : CadenceTable) (changed mask : Quad Bool) (hyps : List Hypothesis) : List Hypothesis :=
  feeds.flatMap (fun p =>
    if changed.get p then (if mask.get p then freshHyps t p else [])
    else hyps.filter (fun h => h.program == p))

/-- Force setting of feed n. -/
def State.setForce (s : State) (n : Feed) (f : Force) : State := s.setActive n { s.settings n with force := f }

/-- The adoption's effect on feed n's tracker (R80 step 3, R81, R82); the new table is already active. -/
def State.adoptFor (changed : Quad Bool) (s : State) (n : Feed) : State :=
  let t := s.cad.table
  let k := s.cad.trackers.get n
  let s1 := s.setTracker n ⟨k.state, adoptedHyps t changed (s.settings n).mask k.hyps⟩
  match k.state with
  | .locked p _ => if changed.get p then s1.breakLock n (.reason .tableChanged) else s1
  | .heldFilm p step =>
    if changed.get p then
      let hyps := (s1.cad.trackers.get n).hyps
      if t.usable.get p then
        let len := (t.programs.get p).length
        let force := match (s.settings n).force with
          | .film r f => Force.film r (f % len)
          | other => other
        (s1.setTracker n ⟨.heldFilm p (step % len), hyps⟩).setForce n force
      else (s1.setTracker n ⟨.heldVideo, hyps⟩).setForce n .video
    else s1
  | _ => s1

/-- Adoption of a READY cadence table (R80). -/
def State.adoptCadence (s : State) : State :=
  if (s.copy 0).ready then
    let new := programsOfWords (s.copy 0).words
    let changed := new.mapIdx (fun p g => programChanged (s.cad.table.programs.get p) g)
    let s1 := ({ s with cad := { s.cad with table := CadenceTable.ofPrograms new } }).idleCopy 0
    (feeds.foldl (State.adoptFor changed) s1).noteAdoption 0
  else s

/-! ## Job creation and the evidence event (R64, R65, R79) -/

/-- F0's frame job (R79): rest is what stands before F0, newest first, and q the number of F+1. -/
def State.newJob (s : State) (n : Feed) (f0 : FieldRecord) (rest : List FieldRecord) (q : Seq) (m : Mode) : Job where
  feed := n
  f0Seq := f0.seq
  f0Parity := f0.parity
  refs := ⟨some f0.seq, (rest[0]?).map (·.seq), some q, (rest[1]?).map (·.seq)⟩
  intended := m
  captured :=
    let a := s.settings n
    ⟨a.floor, a.gain, a.dirSearch, a.width, a.height, a.hset, a.vset⟩

/-- What stands before record q in feed n's history, newest first (R23). -/
def State.before (s : State) (n : Feed) (q : Seq) : List FieldRecord :=
  ((s.history n).takeWhile (fun r => r.seq != q)).reverse

/-- The tracker's part of the closure work of record q: an evidence event where a record stands before it (R64, R65). -/
def State.evidenceEvent (s : State) (n : Feed) (q : Seq) : State :=
  match s.record n q, s.before n q with
  | some new, f0 :: rest =>
    let s1 := s.adoptCadence
    let e := classify (s1.settings n) f0 new
    let o := s1.trackerAction n f0.seq e f0.dsame.isSome
    if f0.hasContent then o.2.enqueue (o.2.newJob n f0 rest q (intendedMode o.1)) else o.2
  | _, _ => s

/-! ## Settings and restarts that reach the tracker (R63, R77, R83) -/

/-- Hypotheses after a mask change: those of programs entering are made, of programs leaving removed (R63). -/
def maskedHyps (t : CadenceTable) (old new : Quad Bool) (hyps : List Hypothesis) : List Hypothesis :=
  feeds.flatMap (fun p =>
    if new.get p then (if old.get p then hyps.filter (fun h => h.program == p) else freshHyps t p) else [])

/-- The tracker is LOCKED on a program that the new mask leaves out (R63). -/
def State.lockLeaves (s : State) (n : Feed) (new : Quad Bool) : Bool :=
  match (s.cad.trackers.get n).state with
  | .locked p _ => !new.get p
  | _ => false

/-- A program mask takes effect; d is the detail of a LOCK_BROKEN it gives (R63). -/
def State.applyMask (s : State) (n : Feed) (new : Quad Bool) (d : Detail) : State :=
  let k := s.cad.trackers.get n
  let a := s.settings n
  let s1 := (s.setTracker n ⟨k.state, maskedHyps s.cad.table a.mask new k.hyps⟩).setActive n { a with mask := new }
  if s.lockLeaves n new then s1.breakLock n d else s1

/-- A force as it takes effect: a FILM step is reduced, and FILM on an unusable program is VIDEO (R77). -/
def CadenceTable.effectiveForce (t : CadenceTable) : Force → Force
  | .release => .release
  | .video => .video
  | .film p step => if t.usable.get p then .film p (step % (t.programs.get p).length) else .video

/-- The tracker state that a force gives to a tracker in state k (R77). -/
def forcedState (k : TrackerState) : Force → TrackerState
  | .video => .heldVideo
  | .film p step => .heldFilm p step
  | .release =>
    match k with
    | .heldVideo => .seeking
    | .heldFilm _ _ => .seeking
    | .seeking => .seeking
    | .locked p step => .locked p step
    | .broken hold => .broken hold

/-- A force takes effect; one equal to the force in effect changes nothing (R77). Log entry 19. -/
def State.applyForce (s : State) (n : Feed) (f : Force) : State :=
  let g := s.cad.table.effectiveForce f
  if (s.settings n).force = g then s
  else
    let k := s.cad.trackers.get n
    (s.setTracker n ⟨forcedState k.state g, k.hyps⟩).setForce n g

/-- The tracker state a reset gives from the force (R83). -/
def CadenceTable.resetState (t : CadenceTable) : Force → TrackerState
  | .release => .seeking
  | .video => .heldVideo
  | .film p step => .heldFilm p (step % (t.programs.get p).length)

/-- A feed event resets its tracker (R83). -/
def State.resetTracker (s : State) (n : Feed) : State :=
  s.setTracker n ⟨s.cad.table.resetState (s.settings n).force, makeHyps s.cad.table (s.settings n).mask⟩

end Sys2Proof.Machine
end

