-- ==== Sys2Proof/Machine/Ingest.lean ====
section
/-! DEFINITION. The ingest conditioner: parity trim, dropout maps, measures, quality watch, closure (Chapter 3). -/

namespace Sys2Proof.Machine

/-- A value clamped to a range (section 0.6.1). -/
def clampInt (lo hi v : Int) : Int := max lo (min hi v)

def clampNat (lo hi v : Nat) : Nat := max lo (min hi v)

/-- A sample from an integer already clamped to 0..1023. -/
def sampleOf (v : Int) : Word := BitVec.ofNat 10 v.toNat

/-! ## Trim (R46) -/

/-- One word trimmed about its centre: 64 for luma, 512 for chroma (R46). -/
def trimValue (t : Trim) (centre : Int) (v : Nat) : Int :=
  clampInt 4 1019 ((((v : Int) - centre) * t.gain + 512) / 1024 + centre + t.lift)

def trimWord (t : Trim) (centre : Int) (w : Word) : Word := sampleOf (trimValue t centre w.toNat)

/-- Every word of a line trimmed (R46). -/
def trimLine (t : Trim) (l : Line) : Line :=
  ⟨l.y.map (trimWord t 64), l.cb.map (trimWord t 512), l.cr.map (trimWord t 512)⟩

/-- The trim set of a parity (R45). -/
def Settings.trimOf (a : Settings) : Parity → Trim
  | .upper => a.upper
  | .lower => a.lower

/-! ## Dropout maps (R47, R48) -/

/-- One map entry applied: LOST over CONCEALED, lines of L or more and other conditions ignored (R48). -/
def DropoutMap.apply (m : DropoutMap) (lines line cond : Nat) : DropoutMap :=
  if lines ≤ line then m
  else if cond = 1 then ⟨insertAscending line m.lost, m.concealed.filter (fun x => x != line)⟩
  else if cond = 2 then
    if m.lost.contains line then m else ⟨m.lost, insertAscending line m.concealed⟩
  else m

/-- Give the record the arrival condition MAP_OVERFLOW and raise the notice, at the first excess entry (R48). -/
def State.mapOverflow (s : State) (n : Feed) (q : Seq) : State :=
  match s.record n q with
  | none => s
  | some r =>
    if r.conditions.mapOverflow then s
    else
      (s.modifyRecord n q (fun x => { x with conditions := { x.conditions with mapOverflow := true } })).raise
        .mapOverflow (.feed n) (.sequence q)

/-- One entry of a map packet taken for the arriving field (R48). -/
def State.takeMapEntry (n : Feed) (s : State) (e : Nat × Nat) : State :=
  match (s.lrx.get n).arriving with
  | none => s
  | some a =>
    let c := s.ing.get n
    if c.mapEntries < 64 then
      let a' := { a with map := a.map.apply (s.fieldLines n) e.1 e.2 }
      (s.setRx n { s.lrx.get n with arriving := some a' }).setIng n { c with mapEntries := c.mapEntries + 1 }
    else s.mapOverflow n a.seq

/-- The entries of a map payload: line number (high word times 256 plus low word, R161) and condition (R163). -/
def mapEntriesOf : List Word → List (Nat × Nat)
  | h :: l :: c :: t => (h.toNat * 256 + l.toNat, c.toNat) :: mapEntriesOf t
  | _ => []

/-! ## Measures (R51 to R53) -/

/-- Luma sample x of a line. -/
def Line.luma (l : Line) (x : Nat) : Nat := (l.y.getD x 0).toNat

/-- The sample positions of the measures: 0, 4, 8, ..., 716 (section 3.4). -/
def measurePositions : List Nat := (List.range 180).map (fun i => 4 * i)

def absDiff (a b : Nat) : Nat := ((a : Int) - (b : Int)).natAbs

/-- Sum of the absolute differences of one line pair (R52). -/
def pairSum (p : Line × Line) : Nat :=
  measurePositions.foldl (fun acc x => acc + absDiff (Line.luma p.1 x) (Line.luma p.2 x)) 0

/-- Sum of the comb values of one trio: upper line, middle line, lower line (R53). -/
def trioSum (t : Line × Line × Line) : Nat :=
  measurePositions.foldl
    (fun acc x => acc + absDiff (2 * Line.luma t.2.1 x) (Line.luma t.1 x + Line.luma t.2.2 x)) 0

/-- Dsame from the compared line pairs; absent when there is none (R52). -/
def dsameOf (pairs : List (Line × Line)) : Option Nat :=
  if pairs.isEmpty then none
  else some (pairs.foldl (fun acc p => acc + pairSum p) 0 * 16 / (180 * pairs.length))

/-- Cprev from the counted trios; absent when there is none (R53). -/
def cprevOf (trios : List (Line × Line × Line)) : Option Nat :=
  if trios.isEmpty then none
  else some (trios.foldl (fun acc t => acc + trioSum t) 0 * 8 / (180 * trios.length))

/-- Line m of a record as the store delivers it, where it is usable. -/
def FieldRecord.lineIf (mem : Memory) (r : FieldRecord) (m : Nat) : Option Line :=
  match r.content with
  | .slot k => if r.usableLine m then some (lineAt mem k m) else none
  | .gap _ => none

/-- The compared pairs of F0 and the record two back (R52). -/
def comparedPairs (mem : Memory) (lines : Nat) (f0 back : FieldRecord) : List (Line × Line) :=
  (List.range lines).filterMap (fun m =>
    match FieldRecord.lineIf mem f0 m, FieldRecord.lineIf mem back m with
    | some a, some b => some (a, b)
    | _, _ => none)

/-- The line of the previous record between lines m and m+1 of F0 (R53). -/
def middleLine (p : Parity) (m : Nat) : Nat :=
  match p with
  | .upper => m
  | .lower => m + 1

/-- The counted trios of F0 and the previous record (R53). -/
def countedTrios (mem : Memory) (lines : Nat) (f0 prev : FieldRecord) : List (Line × Line × Line) :=
  (List.range (lines - 1)).filterMap (fun m =>
    match FieldRecord.lineIf mem f0 m, FieldRecord.lineIf mem prev (middleLine f0.parity m),
        FieldRecord.lineIf mem f0 (m + 1) with
    | some a, some b, some c => some (a, b, c)
    | _, _, _ => none)

/-- Dsame is absent before any read (R52); `blocked` is the tight condition for class 0 or 1 (R35). -/
def dsameRecord (blocked : Bool) (f0 : FieldRecord) (back : Option FieldRecord) : Option FieldRecord :=
  match back with
  | none => none
  | some r => if blocked || !r.hasContent || r.parity != f0.parity then none else some r

/-- Cprev is absent before any read (R53). -/
def cprevRecord (f0 : FieldRecord) (prev : Option FieldRecord) : Option FieldRecord :=
  match prev with
  | none => none
  | some r => if !r.hasContent || r.parity == f0.parity || r.poor then none else some r

/-- The conditioner reads lines of one record through the store's check, in ascending order (R51). -/
def State.readLines (n : Feed) (q : Seq) (ms : List Nat) (s : State) : State :=
  ms.foldl (fun t m => (t.readLine false n q m).2) s

/-- The reads of a closure: the lines of F0, then of the record two back, then of the previous record (R51).
Log entry 18. -/
def State.closureReads (s : State) (n : Feed) (lines : Nat) (f0 : FieldRecord) (back prev : Option FieldRecord) :
    State :=
  let s1 := if back.isSome || prev.isSome then s.readLines n f0.seq (List.range lines) else s
  let s2 := match back with
    | some r => s1.readLines n r.seq (List.range lines)
    | none => s1
  match prev with
  | some r => s2.readLines n r.seq ((List.range (lines - 1)).map (middleLine f0.parity))
  | none => s2

/-- A measure of F0 from another record as both stand after the reads; absent where either is not found. -/
def measureWith {α : Type} (f0 other : Option FieldRecord) (f : FieldRecord → FieldRecord → Option α) : Option α :=
  match f0, other with
  | some a, some b => f a b
  | _, _ => none

/-- Step 2 of the closure: Dsame and Cprev are computed and entered (R52, R53, R56). -/
def State.enterMeasures (s : State) (n : Feed) (q : Seq) : State :=
  match s.record n q with
  | none => s
  | some f0 =>
    let lines := s.fieldLines n
    let before := s.before n q
    let blocked := decide ((s.settings n).cls.val ≤ 1) && s.fst.tight
    let back := dsameRecord blocked f0 before[1]?
    let prev := cprevRecord f0 before[0]?
    let s1 := s.closureReads n lines f0 back prev
    let after := fun (r : Option FieldRecord) => match r with
      | some x => s1.record n x.seq
      | none => none
    let ds := measureWith (s1.record n q) (after back) (fun a b => dsameOf (comparedPairs s1.fst.mem lines a b))
    let cp := measureWith (s1.record n q) (after prev) (fun a b => cprevOf (countedTrios s1.fst.mem lines a b))
    s1.modifyRecord n q (fun r => { r with dsame := ds, cprev := cp })

/-! ## The map at closure (R50) -/

/-- Step 1 of the closure of a stored field: the map is entered, LINES_LOST and LINES_CONCEALED are counted (R50). -/
def State.enterMap (s : State) (n : Feed) (q : Seq) (m : DropoutMap) : State :=
  match s.record n q with
  | none => s
  | some r =>
    let lost := insertAll m.lost r.lost
    let concealed := (m.concealed.filter (fun x => !lost.contains x)).length
    ((s.modifyRecord n q (fun x => { x with lost := lost, concealed := concealed })).count n .linesLost
      lost.length).count n .linesConcealed concealed

/-! ## Quality watch (R54, R55) -/

/-- The measure a limit looks at; none for MOTION with Dsame absent (R55). -/
def Watch.reading (w : Watch) (r : FieldRecord) : Option Nat :=
  match w.measure with
  | .lostLines => some r.lost.length
  | .concealedLines => some r.concealed
  | .motion => r.dsame

/-- A limit is crossed by a record (R54, R55). -/
def Watch.crossed (w : Watch) (r : FieldRecord) : Bool :=
  w.enabled &&
    match w.reading r with
    | none => false
    | some v =>
      match w.direction with
      | .above => decide (w.value < v)
      | .below => decide (v < w.value)

/-- Mark a record poor. -/
def State.markPoor (s : State) (n : Feed) (q : Seq) : State := s.modifyRecord n q (fun r => { r with poor := true })

/-- One limit evaluated at a closure: its notice, and its action (R55). -/
def State.watchLimit (s : State) (n : Feed) (q : Seq) (w : Watch) (k : NoticeKind) : State :=
  match s.record n q with
  | none => s
  | some r =>
    if w.crossed r then
      let s1 := s.raise k (.feed n) (.sequence q)
      if w.action == .poor then s1.markPoor n q else s1
    else s

/-- Step 3 of the closure: a record with MAP_OVERFLOW is poor (R56). -/
def State.overflowPoor (s : State) (n : Feed) (q : Seq) : State :=
  match s.record n q with
  | none => s
  | some r => if r.conditions.mapOverflow then s.markPoor n q else s

/-! ## Closure work (R56, R57) -/

/-- The closure work of a stored field, and the retention that follows it (R56, R31, R32). -/
def State.closureWork (s : State) (n : Feed) (q : Seq) (m : DropoutMap) : State :=
  let s1 := (s.enterMap n q m).enterMeasures n q
  let s2 := s1.overflowPoor n q
  let s3 := (s2.watchLimit n q (s2.settings n).watch1 .quality1).watchLimit n q (s2.settings n).watch2 .quality2
  (s3.evidenceEvent n q).retain n

/-- The closure work of a gap record, and the retention that follows it (R57, R31, R32). -/
def State.gapClosureWork (s : State) (n : Feed) (q : Seq) : State := (s.evidenceEvent n q).retain n

end Sys2Proof.Machine
end

