-- ==== Sys2Proof/Machine/Weave.lean ====
section
/-! DEFINITION. Deinterlace arithmetic: the row plan, S, T, k and the woven frame (Chapter 6). A record's lines are a list
of optional lines: present where the line is usable for the build (R107). -/

namespace Sys2Proof.Machine

/-- What a build's arithmetic reads: line count, parity of F0, final mode, captured settings, and the usable lines of F0
and of the records its final mode reads (R103, R104, R122). -/
structure WeaveInput where
  lines : Nat
  parity : Parity
  mode : Mode
  dirSearch : Bool
  floor : Nat
  gain : Nat
  f0 : List (Option Line)
  prev : List (Option Line)
  next : List (Option Line)
  prev2 : List (Option Line)
deriving DecidableEq, Repr

/-- Where S of a missing row comes from (Table 6-2, R109). -/
inductive SpatialSource where
  | pair
  | single (line : Nat)
  | nearest (line : Nat)
  | fill
deriving DecidableEq, Repr

/-- The weight rule of a missing row (R117). -/
inductive WeightRule where
  | fixed16
  | fixed0
  | motion
deriving DecidableEq, Repr

/-- Row plan (Table 6-2). -/
structure RowPlan where
  row : Nat
  a : Option Nat
  b : Option Nat
  aUsable : Bool
  bUsable : Bool
  source : SpatialSource
  dirSearch : Bool
  temporalLine : Nat
  tAvailable : Bool
  m2Available : Bool
  rule : WeightRule
deriving DecidableEq, Repr

/-- A line of a record, where the number is one of its lines and the line is usable. -/
def usableAt (l : List (Option Line)) (m : Nat) : Option Line := l.getD m none

def isUsableAt (l : List (Option Line)) (m : Option Nat) : Bool :=
  match m with
  | none => false
  | some i => (usableAt l i).isSome

/-- The row that missing line m occupies (Table 6-1). -/
def missingRow (p : Parity) (m : Nat) : Nat :=
  match p with
  | .upper => 2 * m + 1
  | .lower => 2 * m

/-- The F0 line above missing row m, absent at the edge (Table 6-1). -/
def lineAbove (p : Parity) (m : Nat) : Option Nat :=
  match p with
  | .upper => some m
  | .lower => if m = 0 then none else some (m - 1)

/-- The F0 line below missing row m, absent at the edge (Table 6-1). -/
def lineBelow (p : Parity) (lines m : Nat) : Option Nat :=
  match p with
  | .upper => if m + 1 < lines then some (m + 1) else none
  | .lower => some m

/-- The F0 line on a row above missing row m at search step d = 1, 2, ...: rows r-3, r-5, ... (R109). -/
def searchAbove (p : Parity) (m d : Nat) : Option Nat :=
  match p with
  | .upper => if d ≤ m then some (m - d) else none
  | .lower => if d + 1 ≤ m then some (m - 1 - d) else none

/-- The F0 line on a row below missing row m at search step d: rows r+3, r+5, ... (R109). -/
def searchBelow (p : Parity) (lines m d : Nat) : Option Nat :=
  match p with
  | .upper => if m + 1 + d < lines then some (m + 1 + d) else none
  | .lower => if m + d < lines then some (m + d) else none

/-- The search for the nearest usable F0 line, the upper row of each pair before the lower (R109). -/
def nearestLine (w : WeaveInput) (m : Nat) : Option Nat :=
  ((List.range w.lines).flatMap (fun i =>
      (searchAbove w.parity m (i + 1)).toList ++ (searchBelow w.parity w.lines m (i + 1)).toList)).find?
    (fun x => (usableAt w.f0 x).isSome)

/-- The S source of missing row m (R109). -/
def spatialSource (w : WeaveInput) (m : Nat) : SpatialSource :=
  let a := lineAbove w.parity m
  let b := lineBelow w.parity w.lines m
  match isUsableAt w.f0 a, isUsableAt w.f0 b with
  | true, true => .pair
  | true, false => .single (a.getD 0)
  | false, true => .single (b.getD 0)
  | false, false =>
    match nearestLine w m with
    | some l => .nearest l
    | none => .fill

/-- T is available on temporal line m (R113). -/
def temporalAvailable (w : WeaveInput) (m : Nat) : Bool :=
  match w.mode with
  | .spatial => false
  | .weavePrev => (usableAt w.prev m).isSome
  | .weaveNext => (usableAt w.next m).isSome
  | .adaptive => (usableAt w.prev m).isSome && (usableAt w.next m).isSome

/-- M2 is available in missing row m (R115); the F-2 lines are none where F-2 was not a usable neighbour at the start. -/
def m2Available (w : WeaveInput) (m : Nat) : Bool :=
  let a := lineAbove w.parity m
  let b := lineBelow w.parity w.lines m
  w.mode == .adaptive && isUsableAt w.f0 a && isUsableAt w.f0 b && isUsableAt w.prev2 a && isUsableAt w.prev2 b

/-- The weight rule, by the first test that applies (R117). -/
def weightRule (mode : Mode) (tAvail : Bool) (src : SpatialSource) : WeightRule :=
  if mode == .spatial then .fixed16
  else if !tAvail then .fixed16
  else if src == .fill then .fixed0
  else if mode == .weavePrev || mode == .weaveNext then .fixed0
  else .motion

/-- The plan of missing row m (R108). -/
def rowPlan (w : WeaveInput) (m : Nat) : RowPlan where
  row := missingRow w.parity m
  a := lineAbove w.parity m
  b := lineBelow w.parity w.lines m
  aUsable := isUsableAt w.f0 (lineAbove w.parity m)
  bUsable := isUsableAt w.f0 (lineBelow w.parity w.lines m)
  source := spatialSource w m
  dirSearch := w.dirSearch
  temporalLine := m
  tAvailable := temporalAvailable w m
  m2Available := m2Available w m
  rule := weightRule w.mode (temporalAvailable w m) (spatialSource w m)

/-! ## The spatial estimate (R110 to R112) -/

/-- A sample of a row of samples, as a number. -/
def smp (l : List Word) (x : Nat) : Nat := (l.getD x 0).toNat

/-- The rounded mean of two samples. -/
def mean2 (a b : Nat) : Nat := (a + b + 1) / 2

/-- S of a PAIR row at luma position x with direction search on: 0 is preferred, then -1, then +1 (R110). -/
def directedMean (a b : List Word) (x : Nat) : Nat :=
  let d0 := absDiff (smp a x) (smp b x)
  if 1 ≤ x ∧ x + 1 ≤ 719 then
    let dm := absDiff (smp a (x - 1)) (smp b (x + 1))
    let dp := absDiff (smp a (x + 1)) (smp b (x - 1))
    if d0 ≤ dm ∧ d0 ≤ dp then mean2 (smp a x) (smp b x)
    else if dm ≤ dp then mean2 (smp a (x - 1)) (smp b (x + 1))
    else mean2 (smp a (x + 1)) (smp b (x - 1))
  else mean2 (smp a x) (smp b x)

/-- A component of a line: luma, Cb or Cr. -/
inductive Component where
  | y
  | cb
  | cr
deriving DecidableEq, Repr

def Line.component (l : Line) : Component → List Word
  | .y => l.y
  | .cb => l.cb
  | .cr => l.cr

/-- The fill level of a component: 64 for luma, 512 for chroma (Table 0-3). -/
def Component.fillLevel : Component → Nat
  | .y => 64
  | .cb => 512
  | .cr => 512

/-- A component's row of an optional line; the empty row where there is none. -/
def rowOf (c : Component) (l : Option Line) : List Word :=
  match l with
  | some x => Line.component x c
  | none => []

/-- S at position x of component c of the row of a plan (R110 to R112). -/
def spatialEstimate (w : WeaveInput) (p : RowPlan) (c : Component) (x : Nat) : Nat :=
  match p.source with
  | .pair =>
    let a := rowOf c (usableAt w.f0 (p.a.getD 0))
    let b := rowOf c (usableAt w.f0 (p.b.getD 0))
    if c == .y && p.dirSearch then directedMean a b x else mean2 (smp a x) (smp b x)
  | .single l => smp (rowOf c (usableAt w.f0 l)) x
  | .nearest l => smp (rowOf c (usableAt w.f0 l)) x
  | .fill => c.fillLevel

/-! ## The temporal estimate (R113) -/

/-- T at position x of component c; 0 where T is not available, when its weight is 0 (R113, R118). -/
def temporalEstimate (w : WeaveInput) (p : RowPlan) (c : Component) (x : Nat) : Nat :=
  if p.tAvailable then
    match w.mode with
    | .spatial => 0
    | .weavePrev => smp (rowOf c (usableAt w.prev p.temporalLine)) x
    | .weaveNext => smp (rowOf c (usableAt w.next p.temporalLine)) x
    | .adaptive =>
      mean2 (smp (rowOf c (usableAt w.prev p.temporalLine)) x) (smp (rowOf c (usableAt w.next p.temporalLine)) x)
  else 0

/-! ## Motion and the blend weight (R114 to R117) -/

/-- M1 at luma position x (R114). -/
def motion1 (w : WeaveInput) (p : RowPlan) (x : Nat) : Nat :=
  absDiff (smp (rowOf .y (usableAt w.prev p.temporalLine)) x) (smp (rowOf .y (usableAt w.next p.temporalLine)) x)

/-- M2 at luma position x (R115). -/
def motion2 (w : WeaveInput) (p : RowPlan) (x : Nat) : Nat :=
  if p.m2Available then
    let f := fun (l : List (Option Line)) (i : Option Nat) => smp (rowOf .y (usableAt l (i.getD 0))) x
    mean2 (absDiff (f w.f0 p.a) (f w.prev2 p.a)) (absDiff (f w.f0 p.b) (f w.prev2 p.b))
  else 0

/-- k from the motion, the floor and the gain (R116). -/
def blendWeight (floor gain m : Nat) : Nat := if m ≤ floor then 0 else min 16 ((m - floor) * gain / 16)

/-- The blend weight k of luma position x of the row of a plan (R116, R117). -/
def weightAt (w : WeaveInput) (p : RowPlan) (x : Nat) : Nat :=
  match p.rule with
  | .fixed16 => 16
  | .fixed0 => 0
  | .motion => blendWeight w.floor w.gain (max (motion1 w p x) (motion2 w p x))

/-- The output blend O (R118). -/
def blend (t s k : Nat) : Nat := (t * (16 - k) + s * k + 8) / 16

/-- One sample of a missing row (R118); chroma at c uses the k of luma position 2c (R119). -/
def missingSample (w : WeaveInput) (p : RowPlan) (c : Component) (x : Nat) : Word :=
  let k := weightAt w p (if c == .y then x else 2 * x)
  BitVec.ofNat 10 (blend (temporalEstimate w p c x) (spatialEstimate w p c x) k)

/-- A missing row (R118, R119). -/
def missingLine (w : WeaveInput) (m : Nat) : Line :=
  let p := rowPlan w m
  ⟨(List.range 720).map (missingSample w p .y), (List.range 360).map (missingSample w p .cb),
   (List.range 360).map (missingSample w p .cr)⟩

/-! ## Unusable F0 rows and the woven frame (R120, R121) -/

def meanRow (a b : List Word) : List Word := List.zipWith (fun u v => BitVec.ofNat 10 (mean2 u.toNat v.toNat)) a b

/-- The rounded mean of two rows. -/
def meanLine (a b : Line) : Line := ⟨meanRow a.y b.y, meanRow a.cb b.cb, meanRow a.cr b.cr⟩

/-- The missing rows of a woven frame, in order (R108). -/
def missingLines (w : WeaveInput) : List Line := (List.range w.lines).map (missingLine w)

/-- The row of F0 line m: as delivered, or made from the missing rows on its two sides, or at the edge from the one
there is (R103, R120). -/
def f0Row (w : WeaveInput) (missing : List Line) (m : Nat) : Line :=
  match usableAt w.f0 m with
  | some l => l
  | none =>
    let at' := fun i => missing.getD i ⟨[], [], []⟩
    match w.parity with
    | .upper => if m = 0 then at' 0 else meanLine (at' (m - 1)) (at' m)
    | .lower => if m + 1 < w.lines then meanLine (at' m) (at' (m + 1)) else at' m

/-- The woven frame of 2L rows (R103, R121): F0's rows are those of its parity. -/
def wovenFrame (w : WeaveInput) : List Line :=
  let missing := missingLines w
  (List.range w.lines).flatMap (fun m =>
    let f := f0Row w missing m
    let g := missing.getD m ⟨[], [], []⟩
    match w.parity with
    | .upper => [f, g]
    | .lower => [g, f])

end Sys2Proof.Machine
end

