-- ==== Sys2Proof/Machine/Resample.lean ====
section
/-! DEFINITION. Resampling and picture placement (Chapter 7). -/

namespace Sys2Proof.Machine

/-! ## The raster (R124, R125) -/

/-- A width as the part takes it: clamped to 720..1920, rounded down to a multiple of 4 (R124). -/
def takenWidth (w : Nat) : Nat := clampNat 720 1920 w / 4 * 4

/-- A height as the part takes it: clamped to 2L..1080, rounded down to an even number (R124). -/
def takenHeight (st : Structure) (h : Nat) : Nat := clampNat (2 * st.lines) 1080 h / 2 * 2

/-- The re-adjustment of a height at a structure change (R125). -/
def readjustedHeight (st : Structure) (h : Nat) : Nat := max (2 * st.lines) h

/-! ## Positions (R127, R129) -/

/-- The step of a pass: input size times 65536, divided by output size, rounded down (R127, R129). -/
def passStep (size out : Nat) : Int := ((size * 65536 / out : Nat) : Int)

/-- The offset of a pass (R127, R129). -/
def passOffset (step : Int) : Int := (step - 65536) / 2

/-- Position P of output j. -/
def passPosition (step : Int) (j : Nat) : Int := (j : Int) * step + passOffset step

/-- Index i. -/
def passIndex (step : Int) (j : Nat) : Int := passPosition step j / 65536

/-- Fraction, 0..65535. -/
def passFraction (step : Int) (j : Nat) : Nat := (passPosition step j - passIndex step j * 65536).toNat

/-- Phase, 0..63. -/
def passPhase (step : Int) (j : Nat) : Nat := passFraction step j * 64 / 65536

/-- A tap index replaced at the edges: below 0 by 0, above the last by the last (R128, R129). -/
def edgeIndex (last : Nat) (i : Int) : Nat := if i < 0 then 0 else min last i.toNat

/-! ## The filter (R131) -/

/-- Sum of products of taps and coefficients. -/
def tapSum (coefs : List Int) (taps : List Nat) : Int :=
  (List.zipWith (fun (c : Int) (t : Nat) => c * (t : Int)) coefs taps).foldl (fun a b => a + b) 0

/-- The filter: sum of products, plus 64, divided by 128, clamped to 4..1019 (R131). -/
def filterSample (coefs : List Int) (taps : List Nat) : Word :=
  sampleOf (clampInt 4 1019 ((tapSum coefs taps + 64) / 128))

/-! ## The two passes (R128, R129, R130) -/

/-- Output row j of the vertical pass over a woven frame, to H rows (R127, R128). -/
def verticalRow (set : CoefficientSet) (woven : List Line) (h : Nat) (j : Nat) : Line :=
  let step := passStep woven.length h
  let i := passIndex step j
  let coefs := set.getD (passPhase step j) []
  let rows := ([-1, 0, 1, 2] : List Int).map (fun d =>
    woven.getD (edgeIndex (woven.length - 1) (i + d)) ⟨[], [], []⟩)
  let make := fun (c : Component) (n : Nat) =>
    (List.range n).map (fun x => filterSample coefs (rows.map (fun r => smp (Line.component r c) x)))
  ⟨make .y 720, make .cb 360, make .cr 360⟩

/-- One component of a resampled row: `size` samples in, `out` samples out, by the luma step (R129, R130). -/
def horizontalComponent (set : CoefficientSet) (step : Int) (row : List Word) (size out : Nat) : List Word :=
  (List.range out).map (fun j =>
    let i := passIndex step j
    let taps := ([-3, -2, -1, 0, 1, 2, 3, 4] : List Int).map (fun d => smp row (edgeIndex (size - 1) (i + d)))
    filterSample (set.getD (passPhase step j) []) taps)

/-- A row of the resampled picture: W luma samples, W/2 of each chroma component (R129, R130). -/
def horizontalRow (set : CoefficientSet) (w : Nat) (l : Line) : Line :=
  let step := passStep 720 w
  ⟨horizontalComponent set step l.y 720 w, horizontalComponent set step l.cb 360 (w / 2),
   horizontalComponent set step l.cr 360 (w / 2)⟩

/-- The resampled picture of a woven frame (R132). -/
def resampled (hset vset : CoefficientSet) (w h : Nat) (woven : List Line) : List Line :=
  (List.range h).map (fun j => horizontalRow hset w (verticalRow vset woven h j))

/-! ## Placement (R136, R137) -/

/-- One component of an output row with its border at fill level. -/
def placedComponent (c : Component) (left right : Nat) (row : List Word) : List Word :=
  List.replicate left (BitVec.ofNat 10 c.fillLevel) ++ row ++ List.replicate right (BitVec.ofNat 10 c.fillLevel)

/-- An output row that holds a resampled row of width w (R136). -/
def placedRow (w : Nat) (l : Line) : Line :=
  let left := (1920 - w) / 2
  let side := left / 2
  ⟨placedComponent .y left (1920 - w - left) l.y, placedComponent .cb side (960 - w / 2 - side) l.cb,
   placedComponent .cr side (960 - w / 2 - side) l.cr⟩

/-- A row wholly at fill level (R137). -/
def fillRow : Line :=
  ⟨List.replicate 1920 (BitVec.ofNat 10 64), List.replicate 960 (BitVec.ofNat 10 512),
   List.replicate 960 (BitVec.ofNat 10 512)⟩

/-- The fill frame as the transmitter forms it: luma 64 and Cb and Cr 512 at every sample (R142). -/
def fillFrame : Frame := List.replicate 1080 fillRow

/-- The rows of a picture on an output link (R142, R145). -/
def Picture.rows : Picture → Frame
  | .fill => fillFrame
  | .built f => f

/-- The output frame: the resampled picture in the middle of 1920 by 1080 (R136, R137). -/
def placedFrame (w h : Nat) (picture : List Line) : Frame :=
  let top := (1080 - h) / 2
  List.replicate top fillRow ++ picture.map (placedRow w) ++ List.replicate (1080 - h - top) fillRow

/-- The frame a build makes (R138). -/
def builtFrame (hset vset : CoefficientSet) (w h : Nat) (input : WeaveInput) : Frame :=
  placedFrame w h (resampled hset vset w h (wovenFrame input))

end Sys2Proof.Machine
end

