-- ==== Sys2Proof/Machine/Build.lean ====
section
/-! DEFINITION. The build of the job in service: its reads, its frame, its completion (R96, R97, R105 to R107, R121). -/

namespace Sys2Proof.Machine

/-! ## Reads (R105 to R107) -/

/-- The reference of the job in service in a role (R104). -/
def Service.roleRef (v : Service) : BuildRole → Option Seq
  | .f0 => v.job.refs.f0
  | .prev => v.job.refs.prev
  | .next => v.job.refs.next
  | .prev2 => v.job.refs.prev2

/-- The final mode reads the record of a role (R106); F-2 only where it was a usable neighbour at the start. -/
def Service.readsRole (v : Service) : BuildRole → Bool
  | .f0 => true
  | .prev => v.finalMode == .weavePrev || v.finalMode == .adaptive
  | .next => v.finalMode == .weaveNext || v.finalMode == .adaptive
  | .prev2 => v.finalMode == .adaptive && v.prev2Usable

def BuildReads.role (b : BuildReads) : BuildRole → SettledLines
  | .f0 => b.f0
  | .prev => b.prev
  | .next => b.next
  | .prev2 => b.prev2

def BuildReads.setRole (b : BuildReads) (r : BuildRole) (l : SettledLines) : BuildReads :=
  match r with
  | .f0 => { b with f0 := l }
  | .prev => { b with prev := l }
  | .next => { b with next := l }
  | .prev2 => { b with prev2 := l }

/-- The build has settled a line of a role (R107). -/
def Service.settled (v : Service) (r : BuildRole) (m : Nat) : Bool :=
  (v.reads.role r).usable.contains m || (v.reads.role r).unusable.contains m

/-- The line needs no read: it stands in the lost or the damaged set of the record held (R105, R106). -/
def State.unreadable (s : State) (v : Service) (r : BuildRole) (m : Nat) : Bool :=
  match v.roleRef r with
  | none => true
  | some q =>
    match s.heldRecord v.job.feed q with
    | none => true
    | some x => !x.usableLine m

/-- The read of line m in a role is due: F0's lines in ascending order first; then the neighbours' in any order, and of
F-2 the lines whose F0 partner is usable (R105, R106). -/
def State.readDue (s : State) (v : Service) (r : BuildRole) (m : Nat) : Bool :=
  decide (m < v.lines) && v.readsRole r && !v.settled r m &&
    match r with
    | .f0 => (List.range m).all (fun i => v.settled .f0 i || s.unreadable v .f0 i)
    | .prev => (List.range v.lines).all (fun i => v.settled .f0 i || s.unreadable v .f0 i)
    | .next => (List.range v.lines).all (fun i => v.settled .f0 i || s.unreadable v .f0 i)
    | .prev2 =>
      (List.range v.lines).all (fun i => v.settled .f0 i || s.unreadable v .f0 i) &&
        v.reads.f0.usable.contains m

/-- A line's outcome is settled for the build (R107). -/
def Service.settle (v : Service) (r : BuildRole) (m : Nat) (delivered : Bool) : Service :=
  let l := v.reads.role r
  let l' : SettledLines := if delivered then { l with usable := l.usable ++ [m] } else { l with unusable := l.unusable ++ [m] }
  { v with reads := v.reads.setRole r l' }

/-- The build reads line m in a role through the store's check, where that read is due (R96, R105, R106). -/
def State.buildLine (s : State) (r : BuildRole) (m : Nat) : State :=
  match s.fen.service with
  | none => s
  | some v =>
    if s.readDue v r m then
      match v.roleRef r with
      | none => s
      | some q =>
        let o := s.readLine true v.job.feed q m
        { o.2 with fen := { o.2.fen with service := some (v.settle r m o.1) } }
    else s

/-- The reads of a whole build, in one order the manual allows: F0's lines, then the neighbours' (R105, R106). -/
def buildOrder (lines : Nat) : List (BuildRole × Nat) :=
  (List.range lines).map (fun m => (.f0, m)) ++
    (List.range lines).flatMap (fun m => [(.prev, m), (.next, m), (.prev2, m)])

/-- The reads still due when the build ends are taken (log entry 12). -/
def State.finishReads (s : State) : State :=
  match s.fen.service with
  | none => s
  | some v => (buildOrder v.lines).foldl (fun t p => t.buildLine p.1 p.2) s

/-! ## The frame (R121, R126, R138) -/

/-- The usable lines of a role, as delivered to the build: the words as written, which the slot of a record referenced by
the job in service keeps throughout the build (R107). -/
def State.roleLines (s : State) (v : Service) (r : BuildRole) : List (Option Line) :=
  (List.range v.lines).map (fun m =>
    if (v.reads.role r).usable.contains m then
      match v.roleRef r with
      | none => none
      | some q =>
        match s.heldRecord v.job.feed q with
        | none => none
        | some x =>
          match x.content with
          | .slot k => some (lineAt s.fst.mem k m)
          | .gap _ => none
    else none)

/-- What the arithmetic of the build reads. -/
def State.weaveInput (s : State) (v : Service) : WeaveInput where
  lines := v.lines
  parity := v.job.f0Parity
  mode := v.finalMode
  dirSearch := v.job.captured.dirSearch
  floor := v.job.captured.floor
  gain := v.job.captured.gain
  f0 := s.roleLines v .f0
  prev := s.roleLines v .prev
  next := s.roleLines v .next
  prev2 := s.roleLines v .prev2

/-- The finished frame of the job in service, by the active sets as adopted at its start (R93, R138). -/
def State.finishedFrame (s : State) (v : Service) : Frame :=
  let c := v.job.captured
  builtFrame (s.fen.hsets.get c.hset) (s.fen.vsets.get c.vset) c.width c.height (s.weaveInput v)

/-! ## Completion (R97) -/

/-- The claimed half takes the frame: READY, or EMPTY for a withdrawn job (R97, R139, R141). -/
def State.deliver (s : State) (v : Service) : State :=
  let n := v.job.feed
  let t := s.otx.get n
  let h : Half := ⟨if v.withdrawn then .empty else .ready, some (s.finishedFrame v), .field v.job.f0Seq⟩
  let s1 := s.setOtx n (t.setOther h)
  if v.withdrawn then s1 else s1.count n .jobsDone 1

/-- The completion of the job in service (R97): the reads still due, the half, the references and RETIRING slots,
retention, and the next choice. -/
def State.completeJob (s : State) : State :=
  let s0 := s.finishReads
  match s0.fen.service with
  | none => s
  | some v =>
    let s1 := s0.deliver v
    let s2 := ({ s1 with fen := { s1.fen with service := none } }).endDetached
    (s2.retain v.job.feed).arbitrate

end Sys2Proof.Machine
end

