-- ==== Sys2Proof/Machine/Packets.lean ====
section
/-! DEFINITION. Packet layouts: framing a blanking line, report packets, status and counter records (Chapters 1, 9, 11). -/

namespace Sys2Proof.Machine

/-! ## Words (R160, R161) -/

def kindCue : Word := 0x0C1
def kindReport : Word := 0x0D2
def kindMap : Word := 0x0E3
def markerHigh : Word := 0x2A5
def markerLow : Word := 0x15A
/-- KEEP in a settings cue, and an absent value in a report: all ones (R161). -/
def keepWord : Word := 0x3FF

def wordOf (n : Nat) : Word := BitVec.ofNat 10 n

/-- A two-word item: high part, low part (R161). -/
def pairWords (v : Nat) : List Word := [wordOf (v / 256), wordOf (v % 256)]

/-- A 32-bit counter: four words of 8 bits, most significant first (R161). -/
def counterWords (v : Nat) : List Word :=
  [wordOf (v / 16777216 % 256), wordOf (v / 65536 % 256), wordOf (v / 256 % 256), wordOf (v % 256)]

def optWord (o : Option Nat) : Word :=
  match o with
  | some v => wordOf v
  | none => keepWord

/-- The check word: the sum of the words from the kind word to the last payload word, modulo 1024 (R160). -/
def checkSum (ws : List Word) : Word := ws.foldl (fun a b => a + b) 0

/-- The words of a packet that enter its check word (R160). -/
def Packet.summed (p : Packet) : List Word :=
  [p.kind, p.device, p.scope, p.code, p.tag, wordOf p.payload.length] ++ p.payload

def Packet.checkOk (p : Packet) : Bool := p.check == checkSum p.summed

/-- The words of a packet on a link (Table 9-1). -/
def Packet.words (p : Packet) : List Word := [markerHigh, markerLow, markerHigh] ++ p.summed ++ [p.check]

/-! ## Framing a blanking line (R18) -/

/-- What a receiver finds at a marker: a complete packet, or a cut one with those of its six header words (kind, device
number, scope, code, tag, length) that the line holds. -/
inductive Found where
  | complete (p : Packet)
  | cut (header : List Word)
deriving DecidableEq, Repr

/-- What follows a marker, and the words of the line in which the search goes on: after the check word of a complete
packet, after the length word of a packet whose length exceeds 240, nowhere after a packet that passes the end of its
line (R18). -/
def frameAfterMarker : List Word → Found × List Word
  | k :: d :: sc :: c :: tg :: len :: rest =>
    if 240 < len.toNat then (.cut [k, d, sc, c, tg, len], rest)
    else
      match rest.drop len.toNat with
      | chk :: more => (.complete ⟨k, d, sc, c, tg, rest.take len.toNat, chk⟩, more)
      | [] => (.cut [k, d, sc, c, tg, len], [])
  | short => (.cut short, [])

/-- The packets of a blanking line in order; a turn passes one word or one packet (R18). -/
def framePackets : Nat → List Word → List Found
  | 0, _ => []
  | n + 1, a :: b :: c :: rest =>
    if a = markerHigh ∧ b = markerLow ∧ c = markerHigh then
      (frameAfterMarker rest).1 :: framePackets n (frameAfterMarker rest).2
    else framePackets n (b :: c :: rest)
  | _ + 1, _ => []

/-! ## Reports (R162, Table 9-5) -/

def Scope.word : Scope → Word
  | .feed n => wordOf n.val
  | .device => 0x00F

/-- A report packet with its check word (R160, R162). -/
def State.report (s : State) (scope code tag : Word) (payload : List Word) : Packet :=
  let dev := wordOf s.cue.deviceNumber.val
  ⟨kindReport, dev, scope, code, tag, payload,
    checkSum ([kindReport, dev, scope, code, tag, wordOf payload.length] ++ payload)⟩

def ResultCode.word : ResultCode → Word
  | .done => 0x000
  | .doneAdjusted => 0x001
  | .doneAlready => 0x002
  | .refusedKind => 0x010
  | .refusedLength => 0x011
  | .refusedScope => 0x012
  | .refusedValue => 0x013
  | .refusedBusy => 0x014
  | .nothingOpen => 0x020
  | .discarded => 0x021
  | .abandoned => 0x022
  | .tooLate => 0x023

/-- An outcome whose name begins REFUSED_ (R167). -/
def ResultCode.isRefusal : ResultCode → Bool
  | .refusedKind => true
  | .refusedLength => true
  | .refusedScope => true
  | .refusedValue => true
  | .refusedBusy => true
  | .done => false
  | .doneAdjusted => false
  | .doneAlready => false
  | .nothingOpen => false
  | .discarded => false
  | .abandoned => false
  | .tooLate => false

def reasonWord (r : Option Reason) : Word :=
  match r with
  | some x => wordOf x.code
  | none => 0

/-- A RESULT report (Table 9-5): three fixed words, then an item number and a two-word value per adjusted item. -/
def State.resultReport (s : State) (r : CueResult) : Packet :=
  s.report r.scope 0x001 r.tag
    ([r.code, r.outcome.word, reasonWord r.reason] ++ r.items.flatMap (fun i => wordOf i.1 :: pairWords i.2))

/-- The level and mask of a notice kind (R188). -/
def State.noticeSetting (s : State) (k : NoticeKind) : NoticeSetting := s.ntu.settings.getD (k.code - 1) ⟨0, false⟩

/-- A NOTICE report (Table 9-5, R190). -/
def State.noticeReport (s : State) (e : NoticeEntry) : Packet :=
  s.report e.scope.word 0x002 0
    ([wordOf e.kind.code, wordOf (s.noticeSetting e.kind).level, wordOf e.count, wordOf e.detail.cls] ++
      pairWords e.detail.value)

/-! ## Status records (R43, R85, R102, R159, R193) -/

def FeedState.code : FeedState → Nat
  | .off => 0
  | .waiting => 1
  | .running => 2
  | .down => 3

def Structure.code : Structure → Nat
  | .s50 => 0
  | .s60 => 1

def TrackerState.code : TrackerState → Nat
  | .seeking => 0
  | .locked _ _ => 1
  | .broken _ => 2
  | .heldVideo => 3
  | .heldFilm _ _ => 4

/-- Locked program and step, present in LOCKED and HELD_FILM (R62). -/
def TrackerState.lockedAt : TrackerState → Option (Nat × Nat)
  | .locked p step => some (p.val, step)
  | .heldFilm p step => some (p.val, step)
  | .seeking => none
  | .broken _ => none
  | .heldVideo => none

def HalfState.code : HalfState → Nat
  | .sending => 0
  | .empty => 1
  | .filling => 2
  | .ready => 3

/-- The best hypothesis of a status record is ranked by current step (R71). -/
def Tracker.best (k : Tracker) : Option Hypothesis :=
  (bestHyp (k.hyps.map (fun h => (h, h.current)))).map (fun p => p.1)

/-- The pending record holds an item (R171). -/
def Pending.holdsItem (p : Pending) : Bool := p != emptyPending

/-- The 17 words of a feed's status record (Table 9-5, R193). -/
def State.feedStatus (s : State) (n : Feed) : List Word :=
  let k := s.cad.trackers.get n
  let best := k.best
  let t := s.otx.get n
  [wordOf (s.lrx.get n).state.code, wordOf (s.settings n).struct.code, wordOf (s.settings n).cls.val,
   wordOf k.state.code, optWord (k.state.lockedAt.map (·.1)), optWord (k.state.lockedAt.map (·.2)),
   optWord (best.map (·.program.val)), optWord (best.map (·.current)), optWord (best.map (·.run)),
   wordOf (s.history n).length, wordOf (s.slotsHeld n), wordOf (s.waitingOf n).length,
   wordOf t.half0.state.code, wordOf t.half1.state.code, wordOf t.repeatCount, wordOf t.fillFlag.toNat,
   wordOf (Pending.holdsItem (s.cue.staged.get n)).toNat]

/-- The 15 words of the device's status record (Table 9-5, R193). -/
def State.deviceStatus (s : State) : List Word :=
  [wordOf s.freeCount, wordOf s.fst.tight.toNat, optWord (s.tld.load.map (·.table.val))] ++
    (match s.tld.load with
      | some l => pairWords l.partsReceived
      | none => [keepWord, keepWord]) ++
    (List.finRange 9).map (fun t => wordOf (s.copy t).ready.toNat) ++ [wordOf s.cue.deviceNumber.val]

def State.feedCounterRecord (s : State) (n : Feed) : List Word := (s.ntu.feedCounters.get n).toList.flatMap counterWords

def State.deviceCounterRecord (s : State) : List Word := s.ntu.devCounters.toList.flatMap counterWords

/-- A STATUS report (Table 9-5). -/
def State.statusReport (s : State) (sc : Scope) (record : List Word) : Packet := s.report sc.word 0x003 0 record

/-- A COUNTERS report (Table 9-5). -/
def State.countersReport (s : State) (sc : Scope) (record : List Word) : Packet := s.report sc.word 0x004 0 record

/-- A PERIODIC report (Table 9-5, R194). -/
def State.periodicReport (s : State) (n : Feed) : Packet := s.report (wordOf n.val) 0x005 0 (s.feedStatus n)

end Sys2Proof.Machine
end

