-- ==== Sys2Proof/Machine/Output.lean ====
section
/-! DEFINITION. The output transmitters: frame starts, timing sources, the blanking of each frame, the queues (Chapter 8,
and the notice unit's part of it, R190, R192, R194). -/

namespace Sys2Proof.Machine

/-! ## Fixing the frame (R143, R144) -/

/-- A frame held in a half as the picture on the link. -/
def Half.picture (h : Half) : Picture :=
  match h.frame with
  | some f => .built f
  | none => .fill

/-- Detail of OUTPUT_FILL: the source of the SENDING half (R144, section 11.1). -/
def Source.detail : Source → Detail
  | .fill => .absent
  | .field q => .sequence q

/-- The frame of a frame start: the READY half's, a repeat, or the fill frame (R143, R144). -/
def State.fixFrame (s : State) (n : Feed) : Picture × State :=
  let t := s.otx.get n
  if t.otherHalf.state == .ready then
    (t.otherHalf.picture, s.setOtx n { t.swap with repeatCount := 0, fillFlag := false })
  else if t.fillFlag then (.fill, s.count n .framesFill 1)
  else
    let c := t.repeatCount + 1
    if c < (s.settings n).holdLimit then
      (t.sendingHalf.picture, (s.setOtx n { t with repeatCount := c }).count n .framesRepeated 1)
    else
      (.fill, ((s.setOtx n { t with repeatCount := c, fillFlag := true }).count n .framesFill 1).raise .outputFill
        (.feed n) t.sendingHalf.source.detail)

/-! ## Timing sources (R147, R150) -/

/-- The feed is RUNNING. -/
def State.isRunning (s : State) (n : Feed) : Bool := (s.lrx.get n).state == .running

/-- The transmitter runs free: the rows of Table 8-3 where the frame timer runs. -/
def State.runsFree (s : State) (n : Feed) : Bool :=
  let t := s.otx.get n
  match t.source with
  | .free => true
  | .reference => t.reference == some .lost
  | .input => !s.isRunning n

/-- The frame timer starts at one field period of the feed's active structure (R147). -/
def State.startFrameTimer (s : State) (n : Feed) : State :=
  s.setOtx n { s.otx.get n with frameTimer := .running (s.period n) }

def State.stopFrameTimer (s : State) (n : Feed) : State := s.setOtx n { s.otx.get n with frameTimer := .stopped }

/-- The reference watch timer starts at 1.5 field periods (R148). -/
def State.startWatch (s : State) (n : Feed) : State :=
  s.setOtx n { s.otx.get n with watchTimer := .running (s.settings n).struct.periodAndHalf }

/-- A frame start compares the source in use with the setting, and adopts the setting if they differ (R150). -/
def State.adoptSource (s : State) (n : Feed) : State :=
  let t := s.otx.get n
  let want := (s.settings n).timing
  if t.source = want then s
  else
    match want with
    | .free =>
      s.setOtx n
        { t with source := .free, reference := none, watchTimer := .stopped, frameTimer := .running (s.period n) }
    | .reference =>
      s.setOtx n
        { t with
          source := .reference, reference := some .present, frameTimer := .stopped
          watchTimer := .running (s.settings n).struct.periodAndHalf }
    | .input =>
      s.setOtx n
        { t with
          source := .input, reference := none, watchTimer := .stopped
          frameTimer := if s.isRunning n then .stopped else .running (s.period n) }

/-! ## Slots 1 and 2: latched records (R152) -/

def State.latches (s : State) (sc : Scope) : Latches :=
  match sc with
  | .feed n => s.ntu.feedLatches.get n
  | .device => s.ntu.devLatches

def State.setLatches (s : State) (sc : Scope) (l : Latches) : State :=
  match sc with
  | .feed n => { s with ntu := { s.ntu with feedLatches := s.ntu.feedLatches.set n l } }
  | .device => { s with ntu := { s.ntu with devLatches := l } }

/-- The scopes whose records output n sends, first served first: output 0 serves the device before feed 0 (R152). -/
def servedScopes (n : Feed) : List Scope := if n = 0 then [.device, .feed n] else [.feed n]

/-- Slot 1: the first latched status record of the served scopes (R152). -/
def State.drawStatus (s : State) (n : Feed) : List Packet × State :=
  match (servedScopes n).find? (fun sc => (s.latches sc).status.isSome) with
  | none => ([], s)
  | some sc =>
    match (s.latches sc).status with
    | none => ([], s)
    | some r => ([s.statusReport sc r], s.setLatches sc { s.latches sc with status := none })

/-- Slot 2: the first latched counter record of the served scopes whose status latch is empty (R152). It is drawn after slot
1, so a scope's status record and its counter record can leave at one frame start, as in Table 8-7: log entry 33. -/
def State.drawCounters (s : State) (n : Feed) : List Packet × State :=
  match (servedScopes n).find? (fun sc => (s.latches sc).counters.isSome && (s.latches sc).status.isNone) with
  | none => ([], s)
  | some sc =>
    match (s.latches sc).counters with
    | none => ([], s)
    | some r => ([s.countersReport sc r], s.setLatches sc { s.latches sc with counters := none })

/-! ## Slot 3: the periodic report (R153, R194) -/

/-- The feed a due report names: the lowest member above the last-reported feed, else the lowest member (R194). -/
def Periodic.nextFeed (p : Periodic) : Option Feed :=
  let above := feeds.filter (fun n => p.scan.get n && match p.last with
    | some l => decide (l.val < n.val)
    | none => true)
  match above with
  | n :: _ => some n
  | [] => feeds.find? (fun n => p.scan.get n)

def State.setPeriodic (s : State) (p : Periodic) : State := { s with ntu := { s.ntu with periodic := p } }

/-- The notice unit's periodic count at a frame start of output 0, and its report when due (R194), of the state after the frame
is fixed: log entry 36. -/
def State.drawPeriodic (s : State) (n : Feed) : List Packet × State :=
  let p := s.ntu.periodic
  if n ≠ 0 ∨ p.period = 0 then ([], s)
  else
    match p.nextFeed with
    | none => ([], s)
    | some f =>
      if p.period ≤ p.count + 1 then ([s.periodicReport f], s.setPeriodic { p with count := 0, last := some f })
      else ([], s.setPeriodic { p with count := p.count + 1 })

/-! ## Slot 4: results (R153) -/

def State.drawResults (s : State) (n : Feed) : List Packet × State :=
  let t := s.otx.get n
  ((t.results.take 4).map s.resultReport, s.setOtx n { t with results := t.results.drop 4 })

/-! ## Slot 5: notices (R153, R190) -/

/-- The entry is unmasked and of a scope that output n serves (R190). -/
def State.emits (s : State) (n : Feed) (e : NoticeEntry) : Bool :=
  (servedScopes n).contains e.scope && !(s.noticeSetting e.kind).masked

/-- Emission order: level, highest first; then kind code, lowest first. Two entries of one kind, in device scope and in
feed 0's, do not arise, since a kind is raised in one sort of scope alone (R190, Table 11-1). -/
def State.emittedBefore (s : State) (a b : NoticeEntry) : Bool :=
  decide ((s.noticeSetting b.kind).level < (s.noticeSetting a.kind).level) ||
    ((s.noticeSetting a.kind).level == (s.noticeSetting b.kind).level && decide (a.kind.code ≤ b.kind.code))

/-- Insert an entry into a list ranked by an order. -/
def insertRanked (le : NoticeEntry → NoticeEntry → Bool) (e : NoticeEntry) : List NoticeEntry → List NoticeEntry
  | [] => [e]
  | x :: t => if le e x then e :: x :: t else x :: insertRanked le e t

def rankNotices (le : NoticeEntry → NoticeEntry → Bool) (l : List NoticeEntry) : List NoticeEntry :=
  l.foldr (fun e acc => insertRanked le e acc) []

/-- The entries handed to output n at a frame start: the first four in emission order (R190). -/
def State.handedNotices (s : State) (n : Feed) : List NoticeEntry :=
  (rankNotices s.emittedBefore (s.ntu.table.filter (s.emits n))).take 4

def State.drawNotices (s : State) (n : Feed) : List Packet × State :=
  let out := s.handedNotices n
  (out.map s.noticeReport, { s with ntu := { s.ntu with table := s.ntu.table.filter (fun e => !out.contains e) } })

/-! ## Slot 6: carried packets (R154) -/

def State.drawCarry (s : State) (n : Feed) (room : Nat) : List Packet × State :=
  let t := s.otx.get n
  (t.carry.take room, s.setOtx n { t with carry := t.carry.drop room })

/-! ## The blanking and the frame start (R143 to R151) -/

/-- Up to 12 packets in slot order (R151). -/
def State.placeBlanking (s : State) (n : Feed) : List Packet × State :=
  let d1 := s.drawStatus n
  let d2 := d1.2.drawCounters n
  let d3 := d2.2.drawPeriodic n
  let d4 := d3.2.drawResults n
  let d5 := d4.2.drawNotices n
  let front := d1.1 ++ d2.1 ++ d3.1 ++ d4.1 ++ d5.1
  let d6 := d5.2.drawCarry n (12 - front.length)
  (front ++ d6.1, d6.2)

/-- While running free a frame start restarts the frame timer (R147). -/
def State.restartIfFree (s : State) (n : Feed) : State := if s.runsFree n then s.startFrameTimer n else s

/-- A frame start of output n, whatever caused it: the frame, the timer, the source, the blanking (R143 to R151). The
blanking is drawn after the frame is fixed, so an OUTPUT_FILL that this frame start raises may leave in its own slot 5, log
entry 32, and a PERIODIC report of feed 0 gives the halves, the repeat count and the fill flag as this frame start leaves them,
log entry 36. -/
def State.frameStart (s : State) (n : Feed) : State :=
  let f := s.fixFrame n
  let s2 := (f.2.restartIfFree n).adoptSource n
  let b := s2.placeBlanking n
  b.2.setOtx n { b.2.otx.get n with link := some ⟨f.1, b.1⟩ }

/-- The rows of the picture on output n's link (R145); none while no frame is sent (R158). -/
def State.sentRows (s : State) (n : Feed) : Option Frame := (s.otx.get n).link.map (fun v => v.picture.rows)

/-! ## Events that reach the transmitter (R147 to R149) -/

/-- The frame timer of output n expires (R147); a stopped timer does not (log entry 6). -/
def State.frameTimerExpires (s : State) (n : Feed) : State :=
  match (s.otx.get n).frameTimer with
  | .stopped => s
  | .running _ => s.frameStart n

/-- A pulse on REF as transmitter n takes it (R148). -/
def State.pulse (s : State) (n : Feed) : State :=
  let t := s.otx.get n
  if t.source == .reference then
    let s1 := s.setOtx n
      { t with
        reference := some .present, frameTimer := .stopped
        watchTimer := .running (s.settings n).struct.periodAndHalf }
    s1.frameStart n
  else s

/-- The reference watch timer of output n expires (R148); a stopped one does not (log entry 6). REFERENCE_LOST is raised before
the expiry's own frame start, so it takes part in the ranking of that frame start's slot 5: log entry 35. -/
def State.watchExpires (s : State) (n : Feed) : State :=
  let t := s.otx.get n
  match t.watchTimer with
  | .stopped => s
  | .running _ =>
    let s1 := s.setOtx n { t with reference := some .lost, watchTimer := .stopped }
    (s1.raise .referenceLost (.feed n) (.reason .noPulse)).frameStart n

/-- A field start handed to transmitter n, with the feed state it leaves (R20, R149). -/
def State.outputFieldStart (s : State) (n : Feed) : State :=
  let t := s.otx.get n
  if t.source == .input then
    if s.isRunning n then (s.stopFrameTimer n).frameStart n
    else if t.frameTimer == .stopped then s.startFrameTimer n
    else s
  else s

/-- A missing-field expiry handed to transmitter n (R20, R149). -/
def State.outputExpiry (s : State) (n : Feed) : State :=
  if (s.otx.get n).source == .input then s.frameStart n else s

/-- A feed restart ends the RUNNING state of an INPUT output: it begins to run free (R157). `wasRunning` is the feed
state before the restart. -/
def State.outputFeedRestart (s : State) (n : Feed) (wasRunning : Bool) : State :=
  if (s.otx.get n).source == .input && wasRunning then s.startFrameTimer n else s

/-! ## Queues (R155, R156) -/

/-- A result is appended, or dropped by a full queue (R155). -/
def State.appendResult (s : State) (n : Feed) (r : CueResult) : State :=
  let t := s.otx.get n
  if t.results.length < 8 then s.setOtx n { t with results := t.results ++ [r] }
  else (s.raise .resultOverflow (.feed n) (.tag r.tag)).countDev .resultsLost

/-- A carried packet is appended, or dropped by a full queue (R156). -/
def State.appendCarry (s : State) (n : Feed) (p : Packet) : State :=
  let t := s.otx.get n
  if t.carry.length < 16 then s.setOtx n { t with carry := t.carry ++ [p] }
  else (s.raise .carryOverflow (.feed n) (.kindWord p.kind)).count n .carriedLost 1

end Sys2Proof.Machine
end

