-- ==== Sys2Proof/Machine/Operands.lean ====
section
/-! DEFINITION. The operand forms of the cues: items, their clamping and rounding, KEEP, malformed pairs, and the items of
each cue kind (Table 9-3, R161, R165, R168). -/

namespace Sys2Proof.Machine

/-- An item as taken: absent for KEEP, and the entry of an adjusted item for the result (R167). -/
structure Taken (α : Type) where
  value : Option α
  adjusted : List (Nat × Nat)
deriving DecidableEq, Repr

/-! ## Items (R161, R168) -/

/-- An enumerated item that allows KEEP, with the values 0..n-1; none where the cue is refused (R165 test 6). -/
def enumItem (n : Nat) (w : Word) : Option (Option Nat) :=
  if w = keepWord then some none else if w.toNat < n then some (some w.toNat) else none

/-- An enumerated item without KEEP. -/
def plainItem (lo hi : Nat) (w : Word) : Option Nat := if lo ≤ w.toNat ∧ w.toNat ≤ hi then some w.toNat else none

/-- The value taken for a value sent, with the result's entry where the two differ (R165 test 7). -/
def takenValue (no v sent : Nat) : Taken Nat := ⟨some v, if v = sent then [] else [(no, v)]⟩

/-- A numeric one-word item, clamped (R168). -/
def numItem (no lo hi : Nat) (w : Word) : Taken Nat :=
  if w = keepWord then ⟨none, []⟩ else takenValue no (clampNat lo hi w.toNat) w.toNat

/-- A two-word item: none where malformed, absent where KEEP (R161). -/
def pairItem (h l : Word) : Option (Option Nat) :=
  if h = keepWord ∧ l = keepWord then some none
  else if 255 < h.toNat ∨ 255 < l.toNat then none
  else some (some (h.toNat * 256 + l.toNat))

/-- A two-word item taken through an adjustment (R168, R124). -/
def pairTaken (no : Nat) (f : Nat → Nat) (h l : Word) : Option (Taken Nat) :=
  match pairItem h l with
  | none => none
  | some none => some ⟨none, []⟩
  | some (some v) => some (takenValue no (f v) v)

/-- A signed lift: the word less 512, clamped to -32..31; its entry carries the offset of 512 (R161, R168). -/
def liftItem (no : Nat) (w : Word) : Taken Int :=
  if w = keepWord then ⟨none, []⟩
  else
    let sent : Int := (w.toNat : Int) - 512
    let v := clampInt (-32) 31 sent
    ⟨some v, if v = sent then [] else [(no, (v + 512).toNat)]⟩

/-- A program mask or scan set of four words (R168). -/
def maskItem (a b c d : Word) : Option (Option (Quad Bool)) :=
  if a = keepWord ∧ b = keepWord ∧ c = keepWord ∧ d = keepWord then some none
  else if a.toNat ≤ 1 ∧ b.toNat ≤ 1 ∧ c.toNat ≤ 1 ∧ d.toNat ≤ 1 then
    some (some ⟨a.toNat == 1, b.toNat == 1, c.toNat == 1, d.toNat == 1⟩)
  else none

/-! ## Enumerated values (Table 9-3) -/

def structureOf (v : Nat) : Structure := if v = 0 then .s50 else .s60

def timingOf (v : Nat) : TimingSource := if v = 0 then .free else if v = 1 then .reference else .input

def measureOf (v : Nat) : WatchMeasure := if v = 0 then .lostLines else if v = 1 then .concealedLines else .motion

def directionOf (v : Nat) : WatchDirection := if v = 0 then .above else .below

def actionOf (v : Nat) : WatchAction := if v = 0 then .note else .poor

/-! ## Feed settings cues: the items to stage or apply, and the adjusted entries; none where refused at test 6 -/

/-- FEED_CONFIG (Table 9-3). -/
def feedConfigItems : List Word → Option (Pending × List (Nat × Nat))
  | [e, st, cl, ti, ho] =>
    match enumItem 2 e, enumItem 2 st, enumItem 3 ti with
    | some e', some st', some ti' =>
      let c := numItem 3 0 3 cl
      let h := numItem 5 1 250 ho
      some ({ emptyPending with
          enable := e'.map (fun v => v == 1), struct := st'.map structureOf, cls := c.value.map (Fin.ofNat 4),
          timing := ti'.map timingOf, holdLimit := h.value }, c.adjusted ++ h.adjusted)
    | _, _, _ => none
  | _ => none

/-- RASTER_SET (Table 9-3), against the structure active when the cue is taken (R124, R168). -/
def rasterItems (st : Structure) : List Word → Option (Pending × List (Nat × Nat))
  | [wh, wl, hh, hl, hs, vs] =>
    match pairTaken 1 takenWidth wh wl, pairTaken 2 (takenHeight st) hh hl, enumItem 4 hs, enumItem 4 vs with
    | some w, some h, some hs', some vs' =>
      some ({ emptyPending with
          width := w.value, height := h.value, hset := hs'.map (Fin.ofNat 4), vset := vs'.map (Fin.ofNat 4) },
        w.adjusted ++ h.adjusted)
    | _, _, _, _ => none
  | _ => none

/-- TRIM_SET (Table 9-3). -/
def trimItems : List Word → Option (Pending × List (Nat × Nat))
  | [uh, ul, up, lh, ll, lo] =>
    match pairTaken 1 (clampNat 896 1152) uh ul, pairTaken 3 (clampNat 896 1152) lh ll with
    | some ug, some lg =>
      let u := liftItem 2 up
      let l := liftItem 4 lo
      some ({ emptyPending with
          upperGain := ug.value, upperLift := u.value, lowerGain := lg.value, lowerLift := l.value },
        ug.adjusted ++ u.adjusted ++ lg.adjusted ++ l.adjusted)
    | _, _ => none
  | _ => none

/-- MOTION_SET (Table 9-3). -/
def motionItems : List Word → Option (Pending × List (Nat × Nat))
  | [fl, ga, di] =>
    match enumItem 2 di with
    | some d =>
      let f := numItem 1 0 255 fl
      let g := numItem 2 1 64 ga
      some ({ emptyPending with floor := f.value, gain := g.value, dirSearch := d.map (fun v => v == 1) },
        f.adjusted ++ g.adjusted)
    | none => none
  | _ => none

/-- CADENCE_SET (Table 9-3). -/
def cadenceItems : List Word → Option (Pending × List (Nat × Nat))
  | [lc, bh, rh, rl, ch, cl, m0, m1, m2, m3] =>
    match pairTaken 3 (clampNat 0 16383) rh rl, pairTaken 4 (clampNat 0 16383) ch cl, maskItem m0 m1 m2 m3 with
    | some r, some c, some m =>
      let l := numItem 1 2 15 lc
      let b := numItem 2 0 15 bh
      some ({ emptyPending with
          lockCount := l.value, breakHold := b.value, repeatLimit := r.value, minContrast := c.value, mask := m },
        l.adjusted ++ b.adjusted ++ r.adjusted ++ c.adjusted)
    | _, _, _ => none
  | _ => none

/-- CADENCE_FORCE (Table 9-3, R168): items 2 and 3 are read for FILM alone, and FILM needs a usable program. A step word
above 7, all ones among them, is 7 (log entry 20). -/
def forceItems (t : CadenceTable) : List Word → Option (Pending × List (Nat × Nat))
  | [f, p, st] =>
    match plainItem 0 2 f with
    | some 0 => some ({ emptyPending with force := some .release }, [])
    | some 1 => some ({ emptyPending with force := some .video }, [])
    | some _ =>
      match plainItem 0 3 p with
      | some v =>
        if t.usable.get (Fin.ofNat 4 v) then
          let step := takenValue 3 (min 7 st.toNat) st.toNat
          some ({ emptyPending with force := step.value.map (Force.film (Fin.ofNat 4 v)) }, step.adjusted)
        else none
      | none => none
    | none => none
  | _ => none

/-- WATCH_SET (Table 9-3). -/
def watchItems : List Word → Option (Pending × List (Nat × Nat))
  | [li, en, me, di, ac, vh, vl] =>
    match plainItem 1 2 li, enumItem 2 en, enumItem 3 me, enumItem 2 di, enumItem 2 ac,
        pairTaken 6 (clampNat 0 16383) vh vl with
    | some k, some e, some m, some d, some a, some v =>
      let items : WatchItems :=
        ⟨e.map (fun x => x == 1), m.map measureOf, d.map directionOf, a.map actionOf, v.value⟩
      some (if k = 1 then { emptyPending with watch1 := items } else { emptyPending with watch2 := items }, v.adjusted)
    | _, _, _, _, _, _ => none
  | _ => none

/-! ## Device cues -/

/-- NOTICE_SET (Table 9-3): the kind, the level and the mask. -/
def noticeItems : List Word → Option (Nat × Option Nat × Option Bool × List (Nat × Nat))
  | [k, le, ma] =>
    match plainItem 1 24 k, enumItem 2 ma with
    | some c, some m =>
      let l := numItem 2 0 3 le
      some (c, l.value, m.map (fun v => v == 1), l.adjusted)
    | _, _ => none
  | _ => none

/-- REPORT_SET (Table 9-3): the period and the scan set. -/
def reportItems : List Word → Option (Option Nat × Option (Quad Bool) × List (Nat × Nat))
  | [p, a, b, c, d] =>
    match maskItem a b c d with
    | some m =>
      let n := numItem 1 0 16 p
      some (n.value, m, n.adjusted)
    | none => none
  | _ => none

/-- SNAPSHOT (Table 9-3): clear or not. -/
def snapshotItems : List Word → Option Bool
  | [w] => (plainItem 0 1 w).map (fun v => v == 1)
  | _ => none

/-- TABLE_OPEN (Table 9-3): identity and declared count, neither of them KEEP. -/
def openItems : List Word → Option (TableId × Nat)
  | [t, h, l] =>
    match plainItem 0 8 t, pairItem h l with
    | some v, some (some c) => some (Fin.ofNat 9 v, c)
    | _, _ => none
  | _ => none

/-- TABLE_PART (Table 9-3): part index word, LAST or not, data words. -/
def partItems : List Word → Option (Nat × Bool × List Word)
  | i :: c :: ws => (plainItem 0 1 c).map (fun v => (i.toNat, v == 1, ws))
  | _ => none

end Sys2Proof.Machine
end

