-- ==== Sys2Proof/Machine/Settings.lean ====
section
/-! DEFINITION. Settings: staging, becoming active, and what that does to the feed (R14, R15, R63, R77, R125, R170, R171). -/

namespace Sys2Proof.Machine

/-! ## The pending record (R170) -/

/-- An entry after a later cue: replaced where the cue carries the item. -/
def laterWins {α : Type} (new old : Option α) : Option α :=
  match new with
  | some v => some v
  | none => old

def WatchItems.merge (new old : WatchItems) : WatchItems :=
  ⟨laterWins new.enabled old.enabled, laterWins new.measure old.measure, laterWins new.direction old.direction,
   laterWins new.action old.action, laterWins new.value old.value⟩

/-- A pending record after the items of a later cue, item by item (R170). -/
def Pending.merge (new old : Pending) : Pending where
  enable := laterWins new.enable old.enable
  struct := laterWins new.struct old.struct
  cls := laterWins new.cls old.cls
  timing := laterWins new.timing old.timing
  holdLimit := laterWins new.holdLimit old.holdLimit
  width := laterWins new.width old.width
  height := laterWins new.height old.height
  hset := laterWins new.hset old.hset
  vset := laterWins new.vset old.vset
  upperGain := laterWins new.upperGain old.upperGain
  upperLift := laterWins new.upperLift old.upperLift
  lowerGain := laterWins new.lowerGain old.lowerGain
  lowerLift := laterWins new.lowerLift old.lowerLift
  floor := laterWins new.floor old.floor
  gain := laterWins new.gain old.gain
  dirSearch := laterWins new.dirSearch old.dirSearch
  lockCount := laterWins new.lockCount old.lockCount
  breakHold := laterWins new.breakHold old.breakHold
  repeatLimit := laterWins new.repeatLimit old.repeatLimit
  minContrast := laterWins new.minContrast old.minContrast
  mask := laterWins new.mask old.mask
  force := laterWins new.force old.force
  watch1 := new.watch1.merge old.watch1
  watch2 := new.watch2.merge old.watch2

/-! ## Becoming active -/

def WatchItems.over (p : WatchItems) (w : Watch) : Watch :=
  ⟨p.enabled.getD w.enabled, p.measure.getD w.measure, p.direction.getD w.direction, p.action.getD w.action,
   p.value.getD w.value⟩

/-- The height after the re-adjustment that a change of structure makes (R125). -/
def heightAfter (old new : Structure) (h : Nat) : Nat := if new = old then h else readjustedHeight new h

/-- The active record with the present items, but for the mask and the force, whose effects the tracker gives. The
height is adjusted against the structure that the items leave (R125, R171). -/
def Settings.over (a : Settings) (p : Pending) : Settings where
  enable := p.enable.getD a.enable
  struct := p.struct.getD a.struct
  cls := p.cls.getD a.cls
  timing := p.timing.getD a.timing
  holdLimit := p.holdLimit.getD a.holdLimit
  width := p.width.getD a.width
  height := heightAfter a.struct (p.struct.getD a.struct) (p.height.getD a.height)
  hset := p.hset.getD a.hset
  vset := p.vset.getD a.vset
  upper := ⟨p.upperGain.getD a.upper.gain, p.upperLift.getD a.upper.lift⟩
  lower := ⟨p.lowerGain.getD a.lower.gain, p.lowerLift.getD a.lower.lift⟩
  floor := p.floor.getD a.floor
  gain := p.gain.getD a.gain
  dirSearch := p.dirSearch.getD a.dirSearch
  lockCount := p.lockCount.getD a.lockCount
  breakHold := p.breakHold.getD a.breakHold
  repeatLimit := p.repeatLimit.getD a.repeatLimit
  minContrast := p.minContrast.getD a.minContrast
  mask := a.mask
  force := a.force
  watch1 := p.watch1.over a.watch1
  watch2 := p.watch2.over a.watch2

/-- A program mask becomes active; q is the number of the field start that applies it. Where that field start has no
number, the detail of a LOCK_BROKEN is free (log entry 3). A mask equal to the active one changes nothing (R63). -/
def State.takeMask (s : State) (n : Feed) (new : Quad Bool) (q : Option Seq) : State :=
  if (s.settings n).mask = new then s
  else
    match q with
    | some v => s.applyMask n new (.sequence v)
    | none =>
      if s.lockLeaves n new then
        s.nextChoice.2.applyMask n new (.sequence (Config.unstatedSeq s.nextChoice.1))
      else s.applyMask n new .absent

/-- The order of a mask and a force matters: the force would end the lock that the mask breaks. -/
def State.orderMatters (s : State) (n : Feed) (m : Quad Bool) (f : Force) : Bool :=
  (s.settings n).mask != m && s.lockLeaves n m && !(s.applyForce n f).lockLeaves n m

/-- A mask and a force become active together; where the order matters it is free (log entry 4). -/
def State.takeMaskAndForce (s : State) (n : Feed) (m : Quad Bool) (f : Force) (q : Option Seq) : State :=
  if s.orderMatters n m f then
    if Config.maskBeforeForce s.nextChoice.1 then (s.nextChoice.2.takeMask n m q).applyForce n f
    else (s.nextChoice.2.applyForce n f).takeMask n m q
  else (s.takeMask n m q).applyForce n f

/-- The items that reach the tracker become active (R63, R77). -/
def State.takeTrackerItems (s : State) (n : Feed) (p : Pending) (q : Option Seq) : State :=
  match p.mask, p.force with
  | some m, some f => s.takeMaskAndForce n m f q
  | some m, none => s.takeMask n m q
  | none, some f => s.applyForce n f
  | none, none => s

/-- Every present item becomes active together (R171). The values stand before the mask and the force take effect, so a break
that the mask makes counts a break hold that comes with it: log entry 34. -/
def State.activate (s : State) (n : Feed) (p : Pending) (q : Option Seq) : State :=
  (s.setActive n ((s.settings n).over p)).takeTrackerItems n p q

/-! ## Effects on the feed -/

/-- The feed's history is emptied, its tracker is reset, its jobs are withdrawn: what a structure change, a disable, an
entry to DOWN and a feed restart do alike (R40, R83, R98, R99). -/
def State.clearFeed (s : State) (n : Feed) : State := ((s.emptyHistory n).resetTracker n).withdrawJobs n

/-- Entry to OFF by a disable (R14). The counter and the expected parity are kept; log entry 21. -/
def State.enterOff (s : State) (n : Feed) : State :=
  ((s.setRx n { s.lrx.get n with state := .off, timer := .stopped, misses := 0, arriving := none }).setIng n
    powerOnConditioner).clearFeed n

/-- A structure change in the items against the active structure; one equal to it is none (R15). -/
def Pending.changesStructure (p : Pending) (a : Settings) : Bool := p.struct.getD a.struct != a.struct

/-- The items take effect at once for a feed that is not RUNNING (R170, R14, R15). -/
def State.applyAtOnce (s : State) (n : Feed) (p : Pending) : State :=
  let s1 := s.activate n p none
  let s2 := if p.changesStructure (s.settings n) then s1.clearFeed n else s1
  match p.enable with
  | none => s2
  | some true =>
    if (s2.lrx.get n).state = .off then s2.setRx n { s2.lrx.get n with state := .waiting } else s2
  | some false => if (s2.lrx.get n).state = .off then s2 else s2.enterOff n

/-- A settings cue's items for feed n: staged while it is RUNNING, applied at once otherwise (R170). -/
def State.stageOrApply (s : State) (n : Feed) (p : Pending) : State :=
  if s.isRunning n then s.setStaged n (p.merge (s.cue.staged.get n)) else s.applyAtOnce n p

end Sys2Proof.Machine
end

