-- ==== Sys2Proof/Machine/Loader.lean ====
section
/-! DEFINITION. The table loader (Chapter 10). -/

namespace Sys2Proof.Machine

/-- The outcome of carrying out a cue: its result code, reason and adjusted items (R167). -/
structure Answer where
  outcome : ResultCode
  reason : Option Reason
  items : List (Nat × Nat)
deriving DecidableEq, Repr

/-- An outcome with no reason and no items. -/
def Answer.plain (c : ResultCode) : Answer := ⟨c, none, []⟩

/-- DONE or DONE_ADJUSTED, by whether items were adjusted (R165 tests 7 and 8). -/
def Answer.settings (items : List (Nat × Nat)) : Answer :=
  if items.isEmpty then Answer.plain .done else ⟨.doneAdjusted, none, items⟩

def State.setLoad (s : State) (l : Option LoadRecord) : State := { s with tld := { s.tld with load := l } }

/-- The open load is discarded: LOAD_DISCARDED in device scope with a reason (R178, R180, R181, R184). -/
def State.discardLoad (s : State) (r : Reason) : State := (s.setLoad none).raise .loadDiscarded .device (.reason r)

/-! ## Opening (R178) -/

/-- A TABLE_OPEN of table t with declared count c (R178). -/
def State.openLoad (s : State) (t : TableId) (c : Nat) : Answer × State :=
  if (s.copy t).ready then (Answer.plain .refusedBusy, s)
  else if c ≠ tableSize t then (Answer.plain .refusedValue, s)
  else
    (Answer.plain .done, (if s.tld.load.isSome then s.discardLoad .superseded else s).setLoad (some ⟨t, c, 0, 0, 0⟩))

/-! ## Parts (R179, R180) -/

/-- Words written into a list from a position on. -/
def writeWords (pos : Nat) (ws l : List Word) : List Word := l.take pos ++ ws ++ l.drop (pos + ws.length)

/-- The loader accepts a part (R179). -/
def LoadRecord.accepts (r : LoadRecord) (index : Nat) (last : Bool) (ws : List Word) : Bool :=
  index == r.partsReceived % 256 && decide (r.wordsReceived + ws.length ≤ r.declared) &&
    (!last || r.wordsReceived + ws.length == r.declared)

/-- The record after an accepted part (R179). -/
def LoadRecord.afterPart (r : LoadRecord) (ws : List Word) : LoadRecord :=
  { r with partsReceived := r.partsReceived + 1, wordsReceived := r.wordsReceived + ws.length, events := 0 }

/-! ## Checks (R182) -/

/-- A cadence table's words: lengths 0..8, steps 0..2. -/
def cadenceWordsOk (ws : List Word) : Bool :=
  (List.range 36).all (fun i =>
    if i % 9 = 0 then decide ((ws.getD i 0).toNat ≤ 8) else decide ((ws.getD i 0).toNat ≤ 2))

/-- A coefficient set's words: each coefficient in -128..255, each phase summing to 128. -/
def coefficientWordsOk (taps : Nat) (ws : List Word) : Bool :=
  (coefficientRows taps ws).all (fun row =>
    row.all (fun c => decide ((-128 : Int) ≤ c) && decide (c ≤ (255 : Int))) &&
      row.foldl (fun (a b : Int) => a + b) 0 == (128 : Int))

/-- The checks of a complete table (R182). -/
def tableChecks (t : TableId) (ws : List Word) : Bool :=
  if t.val = 0 then cadenceWordsOk ws else if t.val ≤ 4 then coefficientWordsOk 8 ws else coefficientWordsOk 4 ws

/-- The load closes at an accepted LAST part: the copy becomes READY, or the table is refused (R181). -/
def State.closeLoad (s : State) (t : TableId) : Answer × State :=
  if tableChecks t (s.copy t).words then
    (Answer.plain .done, (s.setLoad none).setCopy t { s.copy t with ready := true })
  else (⟨.discarded, some .tableRefused, []⟩, s.discardLoad .tableRefused)

/-- A TABLE_PART (R179, R180, R181). -/
def State.takePart (s : State) (index : Nat) (last : Bool) (ws : List Word) : Answer × State :=
  match s.tld.load with
  | none => (Answer.plain .nothingOpen, s)
  | some r =>
    if r.accepts index last ws then
      let c := s.copy r.table
      let s1 := (s.setCopy r.table { c with words := writeWords r.wordsReceived ws c.words }).setLoad
        (some (r.afterPart ws))
      if last then s1.closeLoad r.table else (Answer.plain .done, s1)
    else (⟨.discarded, some .sequence, []⟩, s.discardLoad .sequence)

/-! ## Abandon and stall (R183, R184) -/

/-- A TABLE_ABANDON (R183). -/
def State.abandonLoad (s : State) : Answer × State :=
  match s.tld.load with
  | none => (Answer.plain .tooLate, s)
  | some _ => (Answer.plain .abandoned, s.setLoad none)

/-- A field start or missing-field expiry of feed 0 reaches the loader (R184). -/
def State.loaderEvent (s : State) : State :=
  match s.tld.load with
  | none => s
  | some r => if 8 ≤ r.events + 1 then s.discardLoad .stalled else s.setLoad (some { r with events := r.events + 1 })

/-- The event count of the open load reaches 8: the load is discarded as stalled (R184). It does so in the loader's
event that finds the count at 7; with no such event due nothing happens (log entries 6 and 13). -/
def State.loadStalls (s : State) : State :=
  match s.tld.load with
  | none => s
  | some r => if 8 ≤ r.events + 1 then s.discardLoad .stalled else s

end Sys2Proof.Machine
end

