-- ==== Sys2Proof/Machine/Receiver.lean ====
section
/-! DEFINITION. The link receivers: field starts, active lines, closures, missing-field expiries, map packets (Chapter 1,
R45, R47, R49). -/

namespace Sys2Proof.Machine

/-! ## Closing a field (R8, R9) -/

/-- A field with its number closes: the store's part, FIELDS_STORED for a stored field, and the closure work (R8, R31). -/
def State.closeField (s : State) (n : Feed) (a : Arriving) : State :=
  let s1 := s.closeRecord n a.seq
  if a.dropped then s1.gapClosureWork n a.seq else (s1.count n .fieldsStored 1).closureWork n a.seq a.map

/-- Lines that never arrived join the lost set, except in a gap record; the record gets SHORT (R9). -/
def FieldRecord.short (r : FieldRecord) (received lines : Nat) : FieldRecord :=
  { r with
    conditions := { r.conditions with short := true }
    lost := if r.hasContent then insertAll ((List.range lines).drop received) r.lost else r.lost }

/-- A field whose arrival ends before its last line is SHORT and closes (R9). -/
def State.closeShort (s : State) (n : Feed) (a : Arriving) : State :=
  ((s.modifyRecord n a.seq (fun r => r.short a.linesReceived (s.fieldLines n))).raise .fieldShort (.feed n)
    (.sequence a.seq)).closeField n a

/-- The end of an arrival by a field start or an expiry: a field short of its lines closes SHORT, a dropped field that
has them closes, a stored field that has them has closed already (R8, R9). -/
def State.closeArriving (s : State) (n : Feed) : State :=
  match (s.lrx.get n).arriving with
  | none => s
  | some a =>
    if a.linesReceived < s.fieldLines n then s.closeShort n a
    else if a.dropped then s.closeField n a
    else s

/-! ## Opening a field (R3 steps 4 to 7, R45) -/

/-- Steps 4 to 6 of R3: the number is assigned, the miss count cleared, the timer started, the field made arriving. The
expected parity becomes the opposite of the field's (R3 step 3, R4, R15). The working items start afresh (R44). -/
def State.admitField (s : State) (n : Feed) (p : Parity) : State :=
  let rx := s.lrx.get n
  (s.setRx n
    { state := .running
      counter := rx.counter + 1
      expected := p.opposite
      timer := .running (s.settings n).struct.periodAndHalf
      misses := 0
      arriving := some ⟨rx.counter, p, 0, false, false, ⟨[], []⟩⟩ }).setIng n powerOnConditioner

/-- The arriving field is marked dropped (R3 step 7, R30). -/
def Receiver.markDropped (r : Receiver) : Receiver :=
  { r with arriving := r.arriving.map (fun a => { a with dropped := true }) }

/-- Steps 4 to 7 of R3 for a field of parity p; `rep` is its PARITY_REPEAT condition. A stored field takes the trim set
of its parity as its working trim (R45). -/
def State.openField (s : State) (n : Feed) (p : Parity) (rep : Bool) : State :=
  let q := (s.lrx.get n).counter
  let o := (s.admitField n p).allocate n q p rep
  if o.1 then o.2.setIng n ⟨some ((o.2.settings n).trimOf p), 0⟩
  else o.2.setRx n (Receiver.markDropped (o.2.lrx.get n))

/-- The parity check of a field start in RUNNING (R6). -/
def State.checkParity (s : State) (n : Feed) (p : Parity) : State :=
  if p = (s.lrx.get n).expected then s
  else (s.raise .parityRepeat (.feed n) (.sequence (s.lrx.get n).counter)).count n .parityRepeats 1

/-! ## Field start (R3, R4, R5, R14, R15) -/

/-- A field start that finds pending items: they become active and the record is emptied (R171). A disable takes the path
of R14, a structure change the path of R15. -/
def State.startWithItems (s : State) (n : Feed) (p : Parity) (items : Pending) : State :=
  let s0 := s.setStaged n emptyPending
  let q := if items.enable = some false then none else some (s.lrx.get n).counter
  let s1 := s0.activate n items q
  if items.enable = some false then s1.enterOff n
  else if items.changesStructure (s.settings n) then (s1.clearFeed n).openField n p false
  else (s1.checkParity n p).openField n p (p != (s1.lrx.get n).expected)

/-- A field start in RUNNING (R3). -/
def State.startRunning (s : State) (n : Feed) (p : Parity) : State :=
  let s1 := s.closeArriving n
  let items := s1.cue.staged.get n
  if Pending.holdsItem items then s1.startWithItems n p items
  else (s1.checkParity n p).openField n p (p != (s1.lrx.get n).expected)

/-- The receiver's own work at a field start (R3, R4, R5). -/
def State.receiverFieldStart (s : State) (n : Feed) (p : Parity) : State :=
  match (s.lrx.get n).state with
  | .off => s.setRx n { s.lrx.get n with expected := p.opposite }
  | .waiting => s.openField n p false
  | .down => (s.raise .feedUp (.feed n) (.sequence (s.lrx.get n).counter)).openField n p false
  | .running => s.startRunning n p

/-- The loader counts the events of feed 0 (R20, R184). -/
def State.handToLoader (s : State) (n : Feed) : State := if n = 0 then s.loaderEvent else s

/-- A field start of link n: the receiver's work, then the transmitter, then the loader (R3, R20). Log entry 14. -/
def State.fieldStarts (s : State) (n : Feed) (p : Parity) : State :=
  ((s.receiverFieldStart n p).outputFieldStart n).handToLoader n

/-! ## Active lines (R8, R10, R49) -/

/-- Line m of a stored field: trimmed by the working trim and written, unless the map has it as LOST (R46, R49). -/
def State.storeLine (s : State) (n : Feed) (a : Arriving) (m : Nat) (l : Line) : State :=
  if a.map.lost.contains m then s
  else
    match s.record n a.seq, (s.ing.get n).workingTrim with
    | some r, some t => r.slots.foldl (fun (u : State) k => u.writeLine k m (trimLine t l)) s
    | _, _ => s

/-- A surplus line: the first one gives LONG and the notice, where the record still exists (R10). -/
def State.surplusLine (s : State) (n : Feed) (a : Arriving) : State :=
  if a.surplusSeen then s
  else
    let s1 := s.setRx n { s.lrx.get n with arriving := some { a with surplusSeen := true } }
    match s1.record n a.seq with
    | none => s1
    | some _ =>
      (s1.modifyRecord n a.seq (fun r => { r with conditions := { r.conditions with long := true } })).raise
        .fieldLong (.feed n) (.sequence a.seq)

/-- The next line of the arriving field (R8): a stored field that has its last line closes. -/
def State.nextLine (s : State) (n : Feed) (a : Arriving) (l : Line) : State :=
  let a' := { a with linesReceived := a.linesReceived + 1 }
  let s1 := s.setRx n { s.lrx.get n with arriving := some a' }
  if a.dropped then s1
  else
    let s2 := s1.storeLine n a a.linesReceived l
    if a.linesReceived + 1 = s.fieldLines n then s2.closeField n a' else s2

/-- An active line of link n (R1, R8, R10). -/
def State.activeLineArrives (s : State) (n : Feed) (l : Line) : State :=
  match (s.lrx.get n).arriving with
  | none => s
  | some a => if a.linesReceived < s.fieldLines n then s.nextLine n a l else s.surplusLine n a

/-! ## Missing-field expiry (R12, R13) -/

/-- The timer after an expiry that brings the count to k: stopped by the eighth (R12, R13). -/
def timerAfterMiss (k period : Nat) : Timer := if 8 ≤ k then .stopped else .running period

/-- Steps 2 to 7 of R12. -/
def State.missField (s : State) (n : Feed) : State :=
  let rx := s.lrx.get n
  let s1 := s.appendMissing n rx.counter rx.expected
  let s2 := s1.setRx n
    { s1.lrx.get n with
      counter := rx.counter + 1, expected := rx.expected.opposite, misses := min 8 (rx.misses + 1) }
  let s3 := (s2.raise .fieldMissing (.feed n) (.sequence rx.counter)).count n .fieldsMissing 1
  let s4 := s3.setRx n { s3.lrx.get n with timer := timerAfterMiss (rx.misses + 1) (s3.period n) }
  let s5 := s4.gapClosureWork n rx.counter
  (s5.setRx n { s5.lrx.get n with arriving := none }).setIng n powerOnConditioner

/-- Entry to DOWN: q is the number of the eighth gap record. Pending items become active at once (R13). -/
def State.goDown (s : State) (n : Feed) (q : Seq) : State :=
  let s1 := (s.setRx n { s.lrx.get n with timer := .stopped, state := .down }).raise .feedDown (.feed n) (.sequence q)
  let s2 := s1.clearFeed n
  let items := s2.cue.staged.get n
  if Pending.holdsItem items then (s2.setStaged n emptyPending).applyAtOnce n items else s2

/-- The receiver's own work at a missing-field expiry in RUNNING (R12, R13). -/
def State.receiverExpiry (s : State) (n : Feed) : State :=
  let s1 := s.closeArriving n
  let q := (s1.lrx.get n).counter
  let s2 := s1.missField n
  if (s2.lrx.get n).misses = 8 then s2.goDown n q else s2

/-- The missing-field timer of feed n expires; a stopped timer does not (R11, R12, R20). Log entries 6 and 14. -/
def State.missingFieldExpires (s : State) (n : Feed) : State :=
  match (s.lrx.get n).state, (s.lrx.get n).timer with
  | .running, .running _ => ((s.receiverExpiry n).outputExpiry n).handToLoader n
  | _, _ => s

/-! ## Map packets (R47) -/

/-- A complete map packet reaches the conditioner (R47). -/
def State.takeMapPacket (s : State) (n : Feed) (p : Packet) : State :=
  match (s.lrx.get n).arriving with
  | none => s
  | some a =>
    if p.checkOk && p.payload.length % 3 == 0 && a.linesReceived == 0 then
      (mapEntriesOf p.payload).foldl (State.takeMapEntry n) s
    else s

end Sys2Proof.Machine
end

