-- ==== Sys2Proof/Machine/Restart.lean ====
section
/-! DEFINITION. Restarts of a feed and of the device, release and hold of RESET (R16, R17, R158, R173, R174, R187, R195). -/

namespace Sys2Proof.Machine

/-! ## Feed restart (R173) -/

/-- The receiver at a feed restart (R16). -/
def State.restartReceiver (s : State) (n : Feed) : State :=
  (s.setRx n
    { s.lrx.get n with
      state := if (s.settings n).enable then .waiting else .off
      timer := .stopped
      misses := 0
      arriving := none }).setIng n powerOnConditioner

/-- The notice unit at a feed restart: the feed's counters become 0, its latches empty (R195). -/
def State.clearNoticeFeed (s : State) (n : Feed) : State :=
  { s with ntu := { s.ntu with
      feedCounters := s.ntu.feedCounters.set n {}
      feedLatches := s.ntu.feedLatches.set n emptyLatches } }

/-- A feed restart of feed n (R173). -/
def State.feedRestarts (s : State) (n : Feed) : State :=
  let running := s.isRunning n
  let s1 := ((s.setStaged n emptyPending).restartReceiver n).clearFeed n
  (s1.outputFeedRestart n running).clearNoticeFeed n

/-! ## Device restart (R174) -/

/-- Power-on values for a cadence table: every tracker in SEEKING, hypotheses from the default mask (R84). -/
def powerOnTrackers (t : CadenceTable) : CadenceTracker := ⟨t, Quad.all ⟨.seeking, makeHyps t powerOnSettings.mask⟩⟩

/-- A transmitter at a device restart: power-on values, and the frame on the link runs on (R158). -/
def restartedTransmitter (t : Transmitter) : Transmitter := { powerOnTransmitter with link := t.link }

/-- A device restart before its cue's own result: power-on values but for the cadence table, the coefficient sets, the
load copies, the notice levels and masks, and the external memory (R174, R42, R187). -/
def State.deviceRestarts (s : State) (d : Straps) : State where
  lrx := Quad.all powerOnReceiver
  ing := Quad.all powerOnConditioner
  fst := { State.powerOnValues.fst with mem := s.fst.mem }
  cad := powerOnTrackers s.cad.table
  fen := { s.fen with service := none, waiting := [] }
  otx := ⟨restartedTransmitter s.otx.q0, restartedTransmitter s.otx.q1, restartedTransmitter s.otx.q2,
    restartedTransmitter s.otx.q3⟩
  cue := ⟨d.number, Quad.all powerOnSettings, Quad.all emptyPending⟩
  tld := { s.tld with load := none }
  ntu := { State.powerOnValues.ntu with settings := s.ntu.settings }
  resetHeld := s.resetHeld
  choices := s.choices
  pending := s.pending

/-! ## RESET (R17, R158) -/

/-- Every transmitter takes a frame start, outputs 0 to 3 (R158). -/
def State.allFrameStarts (s : State) : State := feeds.foldl State.frameStart s

/-- The part at release of RESET, before its frame starts: power-on values, and the straps as read (R17, R42). The
external memory, which is outside the part, is as it was (log entry 2). -/
def State.released (s : State) (d : Straps) : State :=
  { State.powerOnValues with
    fst := { State.powerOnValues.fst with mem := s.fst.mem }
    cue := { State.powerOnValues.cue with deviceNumber := d.number }
    choices := s.choices
    pending := s.pending }

/-- Release of RESET, and the frame start that each transmitter takes at once (R17, R158). -/
def State.powersOn (s : State) (d : Straps) : State := (s.released d).allFrameStarts

/-- RESET is asserted and held: no frame is sent on the outputs, and the part takes nothing until release (R17, R158). -/
def State.holdsReset (s : State) : State :=
  { s with
    resetHeld := true
    otx := ⟨{ s.otx.q0 with link := none }, { s.otx.q1 with link := none }, { s.otx.q2 with link := none },
      { s.otx.q3 with link := none }⟩ }

end Sys2Proof.Machine
end

