-- ==== Sys2Proof/Machine/Cues.lean ====
section
/-! DEFINITION. The cue decoder: the tests, the cue kinds, results; and the routing of packets (Chapter 9, R18, R19). -/

namespace Sys2Proof.Machine

/-! ## Tests (R165, R166) -/

/-- The scopes a kind allows (Table 9-3). -/
inductive ScopeRule where
  | feedOnly
  | deviceOnly
  | either
deriving DecidableEq, Repr

/-- The scope a scope word names (Table 9-1). -/
def scopeOfWord (w : Word) : Option Scope :=
  if w.toNat < 4 then some (.feed (Fin.ofNat 4 w.toNat)) else if w = 0x00F then some .device else none

def ScopeRule.allows : ScopeRule → Scope → Bool
  | .feedOnly, .feed _ => true
  | .feedOnly, .device => false
  | .deviceOnly, .feed _ => false
  | .deviceOnly, .device => true
  | .either, _ => true

/-- The scope a cue of link n may name: link 0 any, another link its own feed alone (R166). -/
def linkMayName (n : Feed) : Scope → Bool
  | .feed m => n == 0 || m == n
  | .device => n == 0

/-- The scope of a cue that passes test 5 (R166). -/
def checkedScope (n : Feed) (r : ScopeRule) (w : Word) : Option Scope :=
  match scopeOfWord w with
  | none => none
  | some sc => if r.allows sc && linkMayName n sc then some sc else none

/-- The cue as a packet. -/
def CueWords.packet (c : CueWords) (code : Word) : Packet :=
  ⟨kindCue, c.device, c.scope, code, c.tag, c.payload, c.check⟩

/-- A cue addressed to this part or to every part: it reaches the decoder (R19, R164). -/
def State.isAddressed (s : State) (device : Word) : Bool :=
  device == wordOf s.cue.deviceNumber.val || device == 0x00F

/-- A cue is discarded at test 1: CUE_DISCARDED in the scope of the carrying link, CUES_DISCARDED (R165). -/
def State.discardCue (s : State) (n : Feed) (d : Detail) : State :=
  (s.raise .cueDiscarded (.feed n) d).countDev .cuesDiscarded

/-- The result is made and appended, and the cue is counted (R167). -/
def State.answer (s : State) (n : Feed) (code : Word) (c : CueWords) (a : Answer) : State :=
  (s.appendResult n ⟨c.scope, code, c.tag, a.outcome, a.reason, a.items⟩).countDev
    (if a.outcome.isRefusal then .cuesRefused else .cuesTaken)

/-- A cue at the decoder: a part that is not addressed does not take it; then the tests in order (R164, R165). `run`
carries out a cue that has passed tests 1 to 5, test 6 among its outcomes. -/
def State.takeCue (s : State) (n : Feed) (code : Word) (c : CueWords) (lengthOk : Nat → Bool) (rule : ScopeRule)
    (run : Scope → State → Answer × State) : State :=
  if !s.isAddressed c.device then s
  else if !(CueWords.packet c code).checkOk then s.discardCue n (.tag c.tag)
  else if !lengthOk c.payload.length then s.answer n code c (Answer.plain .refusedLength)
  else
    match checkedScope n rule c.scope with
    | none => s.answer n code c (Answer.plain .refusedScope)
    | some sc => (run sc s).2.answer n code c (run sc s).1

/-- A code that names no cue kind (R165 test 3). -/
def State.takeUnknownCue (s : State) (n : Feed) (code : Word) (c : CueWords) : State :=
  if !s.isAddressed c.device then s
  else if !(CueWords.packet c code).checkOk then s.discardCue n (.tag c.tag)
  else s.answer n code c (Answer.plain .refusedKind)

/-! ## Carrying out settings cues (R165 tests 6 to 8, R170) -/

def refusedBy (c : ResultCode) (s : State) : Answer × State := (Answer.plain c, s)

/-- A feed settings cue with the items read from its payload: refused whole, or staged or applied. -/
def State.carrySettings (items : Feed → State → Option (Pending × List (Nat × Nat))) (sc : Scope) (s : State) :
    Answer × State :=
  match sc with
  | .device => refusedBy .refusedScope s
  | .feed m =>
    match items m s with
    | none => refusedBy .refusedValue s
    | some (p, adj) => (Answer.settings adj, s.stageOrApply m p)

/-- A feed settings cue of link n. -/
def State.settingsCue (s : State) (n : Feed) (code : Word) (len : Nat) (c : CueWords)
    (items : Feed → State → Option (Pending × List (Nat × Nat))) : State :=
  s.takeCue n code c (fun l => l == len) .feedOnly (State.carrySettings items)

def State.cueFeedConfig (s : State) (n : Feed) (c : CueWords) : State :=
  s.settingsCue n 0x001 5 c (fun _ _ => feedConfigItems c.payload)

def State.cueRasterSet (s : State) (n : Feed) (c : CueWords) : State :=
  s.settingsCue n 0x002 6 c (fun m t => rasterItems (t.settings m).struct c.payload)

def State.cueTrimSet (s : State) (n : Feed) (c : CueWords) : State :=
  s.settingsCue n 0x003 6 c (fun _ _ => trimItems c.payload)

def State.cueMotionSet (s : State) (n : Feed) (c : CueWords) : State :=
  s.settingsCue n 0x004 3 c (fun _ _ => motionItems c.payload)

def State.cueCadenceSet (s : State) (n : Feed) (c : CueWords) : State :=
  s.settingsCue n 0x005 10 c (fun _ _ => cadenceItems c.payload)

def State.cueCadenceForce (s : State) (n : Feed) (c : CueWords) : State :=
  s.settingsCue n 0x006 3 c (fun _ t => forceItems t.cad.table c.payload)

def State.cueWatchSet (s : State) (n : Feed) (c : CueWords) : State :=
  s.settingsCue n 0x007 7 c (fun _ _ => watchItems c.payload)

/-! ## Restarts by cue (R173, R174) -/

def State.carryFeedRestart (sc : Scope) (s : State) : Answer × State :=
  match sc with
  | .device => refusedBy .refusedScope s
  | .feed m => (Answer.plain .done, s.feedRestarts m)

def State.cueFeedRestart (s : State) (n : Feed) (c : CueWords) : State :=
  s.takeCue n 0x008 c (fun l => l == 0) .feedOnly State.carryFeedRestart

/-- A device restart's result is made after the restart, so CUES_TAKEN then stands at 1 (R174). -/
def State.cueDeviceRestart (s : State) (n : Feed) (c : CueWords) (d : Straps) : State :=
  s.takeCue n 0x010 c (fun l => l == 0) .deviceOnly (fun _ t => (Answer.plain .done, t.deviceRestarts d))

/-! ## Table cues (R172, Chapter 10) -/

def State.carryTableOpen (payload : List Word) (_ : Scope) (s : State) : Answer × State :=
  match openItems payload with
  | none => refusedBy .refusedValue s
  | some (t, c) => s.openLoad t c

def State.cueTableOpen (s : State) (n : Feed) (c : CueWords) : State :=
  s.takeCue n 0x009 c (fun l => l == 3) .deviceOnly (State.carryTableOpen c.payload)

def State.carryTablePart (payload : List Word) (_ : Scope) (s : State) : Answer × State :=
  match partItems payload with
  | none => refusedBy .refusedValue s
  | some (i, last, ws) => s.takePart i last ws

def State.cueTablePart (s : State) (n : Feed) (c : CueWords) : State :=
  s.takeCue n 0x00A c (fun l => decide (3 ≤ l) && decide (l ≤ 240)) .deviceOnly (State.carryTablePart c.payload)

def State.cueTableAbandon (s : State) (n : Feed) (c : CueWords) : State :=
  s.takeCue n 0x00B c (fun l => l == 0) .deviceOnly (fun _ t => t.abandonLoad)

/-! ## Notice unit cues (R172, R188, R192, R194) -/

/-- The level and mask of the kind with code k, each item unless KEEP (R188). -/
def State.setNotice (s : State) (k : Nat) (level : Option Nat) (masked : Option Bool) : State :=
  let old := s.ntu.settings.getD (k - 1) ⟨0, false⟩
  { s with ntu := { s.ntu with
      settings := s.ntu.settings.set (k - 1) ⟨level.getD old.level, masked.getD old.masked⟩ } }

def State.carryNoticeSet (payload : List Word) (_ : Scope) (s : State) : Answer × State :=
  match noticeItems payload with
  | none => refusedBy .refusedValue s
  | some (k, level, masked, adj) => (Answer.settings adj, s.setNotice k level masked)

def State.cueNoticeSet (s : State) (n : Feed) (c : CueWords) : State :=
  s.takeCue n 0x00C c (fun l => l == 3) .deviceOnly (State.carryNoticeSet c.payload)

/-- Period and scan set, each unless KEEP; the count and the last-reported feed start afresh (R194). -/
def State.setReport (s : State) (period : Option Nat) (scan : Option (Quad Bool)) : State :=
  s.setPeriodic ⟨period.getD s.ntu.periodic.period, scan.getD s.ntu.periodic.scan, 0, none⟩

def State.carryReportSet (payload : List Word) (_ : Scope) (s : State) : Answer × State :=
  match reportItems payload with
  | none => refusedBy .refusedValue s
  | some (period, scan, adj) => (Answer.settings adj, s.setReport period scan)

def State.cueReportSet (s : State) (n : Feed) (c : CueWords) : State :=
  s.takeCue n 0x00D c (fun l => l == 5) .deviceOnly (State.carryReportSet c.payload)

/-- The counters of a scope, in the order of Table 11-2, as words. -/
def State.counterRecord (s : State) : Scope → List Word
  | .feed n => s.feedCounterRecord n
  | .device => s.deviceCounterRecord

def State.clearCounters (s : State) : Scope → State
  | .feed n => { s with ntu := { s.ntu with feedCounters := s.ntu.feedCounters.set n {} } }
  | .device => { s with ntu := { s.ntu with devCounters := {} } }

/-- The counter latch of a scope is filled, or found full (R192). -/
def State.latchCounters (s : State) (sc : Scope) (clear : Bool) : Answer × State :=
  if (s.latches sc).counters.isSome then (Answer.plain .doneAlready, s)
  else
    let s1 := s.setLatches sc { s.latches sc with counters := some (s.counterRecord sc) }
    (Answer.plain .done, if clear then s1.clearCounters sc else s1)

def State.carrySnapshot (payload : List Word) (sc : Scope) (s : State) : Answer × State :=
  match snapshotItems payload with
  | none => refusedBy .refusedValue s
  | some clear => s.latchCounters sc clear

def State.cueSnapshot (s : State) (n : Feed) (c : CueWords) : State :=
  s.takeCue n 0x00E c (fun l => l == 1) .either (State.carrySnapshot c.payload)

def State.statusRecord (s : State) : Scope → List Word
  | .feed n => s.feedStatus n
  | .device => s.deviceStatus

/-- The status latch of a scope is filled, or found full (R192). -/
def State.latchStatus (sc : Scope) (s : State) : Answer × State :=
  if (s.latches sc).status.isSome then (Answer.plain .doneAlready, s)
  else (Answer.plain .done, s.setLatches sc { s.latches sc with status := some (s.statusRecord sc) })

def State.cueStatusQuery (s : State) (n : Feed) (c : CueWords) : State :=
  s.takeCue n 0x00F c (fun l => l == 0) .either State.latchStatus

/-! ## Cues by code (Table 9-3) -/

/-- The code names a cue kind. -/
def isCueKind (code : Word) : Bool := decide (1 ≤ code.toNat) && decide (code.toNat ≤ 16)

/-- A complete cue of any code word. -/
def State.cueByCode (s : State) (n : Feed) (code : Word) (c : CueWords) (d : Straps) : State :=
  match code.toNat with
  | 0x001 => s.cueFeedConfig n c
  | 0x002 => s.cueRasterSet n c
  | 0x003 => s.cueTrimSet n c
  | 0x004 => s.cueMotionSet n c
  | 0x005 => s.cueCadenceSet n c
  | 0x006 => s.cueCadenceForce n c
  | 0x007 => s.cueWatchSet n c
  | 0x008 => s.cueFeedRestart n c
  | 0x009 => s.cueTableOpen n c
  | 0x00A => s.cueTablePart n c
  | 0x00B => s.cueTableAbandon n c
  | 0x00C => s.cueNoticeSet n c
  | 0x00D => s.cueReportSet n c
  | 0x00E => s.cueSnapshot n c
  | 0x00F => s.cueStatusQuery n c
  | 0x010 => s.cueDeviceRestart n c d
  | _ => s.takeUnknownCue n code c

/-! ## Routing (R18, R19) -/

/-- A complete packet of link n, by its kind and device number (R19). A cue addressed to 15 leaves a copy in the carry
queue, whatever the part's own number (log entry 8). -/
def State.routePacket (s : State) (n : Feed) (d : Straps) (p : Packet) : State :=
  let cue : CueWords := ⟨p.device, p.scope, p.tag, p.payload, p.check⟩
  if p.kind = kindCue then
    if p.device = 0x00F then (s.appendCarry n p).cueByCode n p.code cue d
    else if s.isAddressed p.device then s.cueByCode n p.code cue d
    else s.appendCarry n p
  else if p.kind = kindMap then s.takeMapPacket n p
  else s.appendCarry n p

/-- The detail of a cut cue: its tag word as received, or absent where the line ended before it (R165). -/
def cutDetail (header : List Word) : Detail :=
  match header[4]? with
  | some t => .tag t
  | none => .absent

/-- A cut packet: a cue addressed to the part is discarded by the decoder, any other disappears (R18). -/
def State.routeCut (s : State) (n : Feed) (header : List Word) : State :=
  match header with
  | k :: dev :: _ => if k = kindCue ∧ s.isAddressed dev then s.discardCue n (cutDetail header) else s
  | _ => s

/-- What is found at a marker of a blanking line of link n. -/
def State.takeFound (n : Feed) (d : Straps) (s : State) : Found → State
  | .complete p => s.routePacket n d p
  | .cut h => s.routeCut n h

/-- A blanking line of link n: its packets in order (R18, R164). -/
def State.blankingLine (s : State) (n : Feed) (ws : List Word) (d : Straps) : State :=
  (framePackets ws.length ws).foldl (State.takeFound n d) s

end Sys2Proof.Machine
end

