-- ==== Sys2Proof/Machine/Events.lean ====
section
/-! DEFINITION. The meanings of the commands that are not cues: RESET, lines and packets of the links, timers, the studio
reference, builds. While RESET is held the part takes nothing but its release (R17, R158), log entry 7. -/

namespace Sys2Proof.Machine

/-- The answer of a command that the part takes only while RESET is released: what it does, or nothing (R17, R158). -/
def unlessHeld (s t : State) : Host.Outcome State Fault Refusal := if s.resetHeld then .next s else .next t

/-- POWER_ON: release of RESET (R17, R42, R61, R84, R134, R158, R187, R195). -/
def execPowerOn (d : Straps) (s : State) : Host.Outcome State Fault Refusal := .next (s.powersOn d)

/-- RESET_ASSERTED: RESET goes to asserted and is held (R17, R158). -/
def execResetAsserted (s : State) : Host.Outcome State Fault Refusal := .next s.holdsReset

/-- FIELD_START on link n (R3, R4, R5, R14, R15, R20). -/
def execFieldStart (n : Feed) (p : Parity) (us : List Upset) (s : State) : Host.Outcome State Fault Refusal :=
  unlessHeld s ((s.upset us).fieldStarts n p)

/-- ACTIVE_LINE on link n (R1, R8, R10, R46, R49, R56). The words gone wrong are taken before the line is written, so the
last line of a field is clean at the reads of the closure it brings (R37): the model's choice, log entry 5. -/
def execActiveLine (n : Feed) (l : Line) (us : List Upset) (s : State) : Host.Outcome State Fault Refusal :=
  unlessHeld s ((s.upset us).activeLineArrives n l)

/-- BLANKING_PACKET: a blanking line of link n, with the packets found in it (R18, R19, R47, R164). Log entries 9, 10. -/
def execBlankingPacket (n : Feed) (ws : List Word) (d : Straps) (s : State) : Host.Outcome State Fault Refusal :=
  unlessHeld s (s.blankingLine n ws d)

/-- MISSING_FIELD_EXPIRY of feed n (R11, R12, R13, R20). -/
def execMissingFieldExpiry (n : Feed) (us : List Upset) (s : State) : Host.Outcome State Fault Refusal :=
  unlessHeld s ((s.upset us).missingFieldExpires n)

/-- FRAME_TIMER_EXPIRY of output n (R147). -/
def execFrameTimerExpiry (n : Feed) (s : State) : Host.Outcome State Fault Refusal :=
  unlessHeld s (s.frameTimerExpires n)

/-- REF_PULSE: the pulse reaches the four transmitters, outputs 0 to 3 (R148). Log entry 11. -/
def execRefPulse (s : State) : Host.Outcome State Fault Refusal := unlessHeld s (feeds.foldl State.pulse s)

/-- REFERENCE_WATCH_EXPIRY of output n (R148). -/
def execReferenceWatchExpiry (n : Feed) (s : State) : Host.Outcome State Fault Refusal :=
  unlessHeld s (s.watchExpires n)

/-- JOB_COMPLETION: the build of the job in service ends (R97); without a job nothing ends (log entry 6). -/
def execJobCompletion (s : State) : Host.Outcome State Fault Refusal := unlessHeld s s.completeJob

/-- LOAD_STALL: the feed-0 event count of the open load reaches 8 (R184). Log entry 13. -/
def execLoadStall (s : State) : Host.Outcome State Fault Refusal := unlessHeld s s.loadStalls

/-- BUILD_READ: the build reads a line of a record (R37, R38, R96, R105, R106, R107). -/
def execBuildRead (r : BuildRole) (m : Fin 288) (us : List Upset) (s : State) : Host.Outcome State Fault Refusal :=
  unlessHeld s ((s.upset us).buildLine r m.val)

end Sys2Proof.Machine
end

