-- ==== Sys2Proof/Machine/CueCommands.lean ====
section
/-! DEFINITION. The meanings of the cues: each is one event of the cue decoder, for a cue carried on link n (R164). -/

namespace Sys2Proof.Machine

/-- FEED_CONFIG cue (R14, R15, R165 to R171). -/
def execFeedConfig (n : Feed) (c : CueWords) (s : State) : Host.Outcome State Fault Refusal := unlessHeld s (s.cueFeedConfig n c)

/-- RASTER_SET cue (R124, R165 to R171). -/
def execRasterSet (n : Feed) (c : CueWords) (s : State) : Host.Outcome State Fault Refusal := unlessHeld s (s.cueRasterSet n c)

/-- TRIM_SET cue (R44, R165 to R171). -/
def execTrimSet (n : Feed) (c : CueWords) (s : State) : Host.Outcome State Fault Refusal := unlessHeld s (s.cueTrimSet n c)

/-- MOTION_SET cue (R122, R165 to R171). -/
def execMotionSet (n : Feed) (c : CueWords) (s : State) : Host.Outcome State Fault Refusal := unlessHeld s (s.cueMotionSet n c)

/-- CADENCE_SET cue (R63, R165 to R171). -/
def execCadenceSet (n : Feed) (c : CueWords) (s : State) : Host.Outcome State Fault Refusal := unlessHeld s (s.cueCadenceSet n c)

/-- CADENCE_FORCE cue (R77, R165 to R171). -/
def execCadenceForce (n : Feed) (c : CueWords) (s : State) : Host.Outcome State Fault Refusal := unlessHeld s (s.cueCadenceForce n c)

/-- WATCH_SET cue (R54, R165 to R171). -/
def execWatchSet (n : Feed) (c : CueWords) (s : State) : Host.Outcome State Fault Refusal := unlessHeld s (s.cueWatchSet n c)

/-- FEED_RESTART cue (R173). -/
def execFeedRestart (n : Feed) (c : CueWords) (s : State) : Host.Outcome State Fault Refusal := unlessHeld s (s.cueFeedRestart n c)

/-- TABLE_OPEN cue (R178). -/
def execTableOpen (n : Feed) (c : CueWords) (s : State) : Host.Outcome State Fault Refusal := unlessHeld s (s.cueTableOpen n c)

/-- TABLE_PART cue (R179 to R182). -/
def execTablePart (n : Feed) (c : CueWords) (s : State) : Host.Outcome State Fault Refusal := unlessHeld s (s.cueTablePart n c)

/-- TABLE_ABANDON cue (R183). -/
def execTableAbandon (n : Feed) (c : CueWords) (s : State) : Host.Outcome State Fault Refusal := unlessHeld s (s.cueTableAbandon n c)

/-- NOTICE_SET cue (R172, R188). -/
def execNoticeSet (n : Feed) (c : CueWords) (s : State) : Host.Outcome State Fault Refusal := unlessHeld s (s.cueNoticeSet n c)

/-- REPORT_SET cue (R172, R194). -/
def execReportSet (n : Feed) (c : CueWords) (s : State) : Host.Outcome State Fault Refusal := unlessHeld s (s.cueReportSet n c)

/-- SNAPSHOT cue (R172, R192). -/
def execSnapshot (n : Feed) (c : CueWords) (s : State) : Host.Outcome State Fault Refusal := unlessHeld s (s.cueSnapshot n c)

/-- STATUS_QUERY cue (R172, R192, R193). -/
def execStatusQuery (n : Feed) (c : CueWords) (s : State) : Host.Outcome State Fault Refusal := unlessHeld s (s.cueStatusQuery n c)

/-- DEVICE_RESTART cue (R174); d are the straps as the restart reads them. -/
def execDeviceRestart (n : Feed) (c : CueWords) (d : Straps) (s : State) : Host.Outcome State Fault Refusal :=
  unlessHeld s (s.cueDeviceRestart n c d)

/-- UNKNOWN_CUE_KIND: a cue whose code word names no kind (R165 test 3). A code that names one is no such cue, and the
command does nothing (log entry 6). -/
def execUnknownCueKind (n : Feed) (code : Word) (c : CueWords) (s : State) : Host.Outcome State Fault Refusal :=
  unlessHeld s (if isCueKind code then s else s.takeUnknownCue n code c)

end Sys2Proof.Machine
end

