-- ==== Sys2Proof/Machine/Dispatch.lean ====
section
/-! DEFINITION. One arm per command. -/

namespace Sys2Proof.Machine

/-- The effect of a command on everything but the queue. -/
def exec (i : Instr) (s : State) : Host.Outcome State Fault Refusal :=
  match i with
  | .powerOn d => Sys2Proof.Machine.execPowerOn d s
  | .resetAsserted => Sys2Proof.Machine.execResetAsserted s
  | .fieldStart n p us => Sys2Proof.Machine.execFieldStart n p us s
  | .activeLine n l us => Sys2Proof.Machine.execActiveLine n l us s
  | .blankingPacket n ws d => Sys2Proof.Machine.execBlankingPacket n ws d s
  | .missingFieldExpiry n us => Sys2Proof.Machine.execMissingFieldExpiry n us s
  | .frameTimerExpiry n => Sys2Proof.Machine.execFrameTimerExpiry n s
  | .refPulse => Sys2Proof.Machine.execRefPulse s
  | .referenceWatchExpiry n => Sys2Proof.Machine.execReferenceWatchExpiry n s
  | .jobCompletion => Sys2Proof.Machine.execJobCompletion s
  | .loadStall => Sys2Proof.Machine.execLoadStall s
  | .feedConfig n c => Sys2Proof.Machine.execFeedConfig n c s
  | .rasterSet n c => Sys2Proof.Machine.execRasterSet n c s
  | .trimSet n c => Sys2Proof.Machine.execTrimSet n c s
  | .motionSet n c => Sys2Proof.Machine.execMotionSet n c s
  | .cadenceSet n c => Sys2Proof.Machine.execCadenceSet n c s
  | .cadenceForce n c => Sys2Proof.Machine.execCadenceForce n c s
  | .watchSet n c => Sys2Proof.Machine.execWatchSet n c s
  | .feedRestart n c => Sys2Proof.Machine.execFeedRestart n c s
  | .tableOpen n c => Sys2Proof.Machine.execTableOpen n c s
  | .tablePart n c => Sys2Proof.Machine.execTablePart n c s
  | .tableAbandon n c => Sys2Proof.Machine.execTableAbandon n c s
  | .noticeSet n c => Sys2Proof.Machine.execNoticeSet n c s
  | .reportSet n c => Sys2Proof.Machine.execReportSet n c s
  | .snapshot n c => Sys2Proof.Machine.execSnapshot n c s
  | .statusQuery n c => Sys2Proof.Machine.execStatusQuery n c s
  | .deviceRestart n c d => Sys2Proof.Machine.execDeviceRestart n c d s
  | .unknownCueKind n code c => Sys2Proof.Machine.execUnknownCueKind n code c s
  | .buildRead r m us => Sys2Proof.Machine.execBuildRead r m us s

end Sys2Proof.Machine
end

