-- ==== Sys2Proof/Safety.lean ====
section
/-! DEFINITION. The terms in which claims about the part are made: runs, what holds of every state of a run, and when a cue
passes the decoder's tests. -/

namespace Sys2Proof.Machine

/-! ## Runs -/

/-- A run: t follows from s by steps that answer a next state. -/
inductive Runs : State → State → Prop where
  | here (s : State) : Runs s s
  | more (s t u : State) : Runs s t → step t = .next u → Runs s u

/-! ## What every step keeps -/

/-- Exactly one half of an output is SENDING (R142). -/
def Transmitter.oneSending (t : Transmitter) : Bool := (t.half0.state == .sending) != (t.half1.state == .sending)

abbrev State.oneSendingEach (s : State) : Prop := ∀ n : Feed, (s.otx.get n).oneSending = true

/-- At most one entry per kind and scope, each with a count within 1..255 (R189). -/
abbrev noticesOk (l : List NoticeEntry) : Prop :=
  l.Pairwise (fun a b => ¬(a.kind = b.kind ∧ a.scope = b.scope)) ∧ ∀ e ∈ l, 1 ≤ e.count ∧ e.count ≤ 255

abbrev State.noticesOk (s : State) : Prop := Sys2Proof.Machine.noticesOk s.ntu.table

/-- A result queue holds at most 8 entries, a carry queue at most 16 packets (R155, R156). -/
abbrev State.queuesOk (s : State) : Prop :=
  ∀ n : Feed, (s.otx.get n).results.length ≤ 8 ∧ (s.otx.get n).carry.length ≤ 16

/-- The external memory keeps its canonical form (R36). -/
abbrev State.memoryOk (s : State) : Prop := Memory.wf s.fst.mem

/-- The part has 24 slots (R21). -/
abbrev State.slotsOk (s : State) : Prop := s.fst.slots.length = 24

/-- The level and the mask of each of the 24 notice kinds (R188) and the nine load copies (R177). -/
abbrev State.sizesOk (s : State) : Prop := s.ntu.settings.length = 24 ∧ s.tld.copies.length = 9

/-- Every sample of a frame lies within 4..1019 (R145). -/
abbrev frameLegal (f : Frame) : Prop := ∀ l ∈ f, ∀ x ∈ l.y ++ l.cb ++ l.cr, 4 ≤ x.toNat ∧ x.toNat ≤ 1019

/-- The frames in the two halves and the picture on the link are within the legal range (R137, R145). -/
abbrev Transmitter.framesOk (t : Transmitter) : Prop :=
  (∀ f, t.half0.frame = some f → frameLegal f) ∧ (∀ f, t.half1.frame = some f → frameLegal f) ∧
    ∀ v, t.link = some v → frameLegal v.picture.rows

abbrev State.framesOk (s : State) : Prop := ∀ n : Feed, (s.otx.get n).framesOk

/-- No feed's history holds more than 8 records (R25). -/
abbrev State.historiesOk (s : State) : Prop := ∀ n : Feed, (s.history n).length ≤ 8

/-! ## The ownership of slots (R21, R25, R26) -/

/-- The state of the slot that a record of feed n's history names: FILLING for an OPEN record, HELD for a CLOSED one (R21). -/
def FieldRecord.slotState (n : Feed) (r : FieldRecord) : Slot :=
  match r.state with
  | .opened => .filling n
  | .closed => .held n

/-- The slots that a history of feed n names, each with the state it then has. -/
def namedBy (n : Feed) (h : List FieldRecord) : List (Fin 24 × Slot) :=
  h.flatMap (fun r => r.slots.map (fun k => (k, r.slotState n)))

/-- The slots that the detached records name: RETIRING, of the feed of the job in service (R26). -/
def State.retiringNames (s : State) : List (Fin 24 × Slot) :=
  match s.fen.service with
  | none => []
  | some v => s.fst.detached.flatMap (fun r => r.slots.map (fun k => (k, .retiring v.job.feed)))

/-- Every slot that a record names, with the state it then has. -/
def State.namings (s : State) : List (Fin 24 × Slot) :=
  feeds.flatMap (fun n => namedBy n (s.history n)) ++ s.retiringNames

/-- The slots and the records agree, c being the numbers that the feeds consume next: no slot is named twice, a named slot is in
the state its record gives it, a slot that is not FREE is named; a record is detached only for a job in service; and each
history has at most 8 records, their numbers the last ones consumed, in order (R21, R25, R26). -/
abbrev State.storeOkAt (s : State) (c : Feed → Seq) : Prop :=
  s.slotsOk ∧ (s.namings.map Prod.fst).Nodup ∧ (∀ x ∈ s.namings, s.slot x.1 = x.2) ∧
    (∀ k : Fin 24, s.slot k = .free ∨ k ∈ s.namings.map Prod.fst) ∧ (s.fen.service = none → s.fst.detached = []) ∧
    ∀ n : Feed, (s.history n).length ≤ 8 ∧
      (s.history n).map (fun r => r.seq) =
        (List.range (s.history n).length).map (fun i => c n - BitVec.ofNat 16 ((s.history n).length - i))

abbrev State.storeOk (s : State) : Prop := s.storeOkAt (fun n => (s.lrx.get n).counter)

/-! ## Limits -/

/-- Every counter fits its 32 bits (R191). -/
abbrev NoticeUnit.countersOk (u : NoticeUnit) : Prop :=
  (∀ n : Feed, ∀ x ∈ (u.feedCounters.get n).toList, x ≤ 4294967295) ∧ ∀ x ∈ u.devCounters.toList, x ≤ 4294967295

/-- At most two jobs of a feed wait (R87, R88). -/
abbrev State.waitingOk (s : State) : Prop := ∀ n : Feed, (s.waitingOf n).length ≤ 2

/-- The repeat count lies within 0..250, and while the fill flag is clear a further repeat does so too (R144). -/
abbrev Transmitter.repeatsOk (t : Transmitter) : Prop :=
  t.repeatCount ≤ 250 ∧ (t.fillFlag = false → t.repeatCount < 250)

/-- A trim, a width and a height in their ranges (R45, R124). -/
abbrev gainOk (g : Nat) : Prop := 896 ≤ g ∧ g ≤ 1152

abbrev liftOk (l : Int) : Prop := -32 ≤ l ∧ l ≤ 31

abbrev widthOk (w : Nat) : Prop := 720 ≤ w ∧ w ≤ 1920 ∧ w % 4 = 0

abbrev heightOk (st : Structure) (h : Nat) : Prop := 2 * st.lines ≤ h ∧ h ≤ 1080 ∧ h % 2 = 0

/-- The active settings of a feed lie in their ranges (Table 9-7). -/
abbrev Settings.inRange (a : Settings) : Prop :=
  (1 ≤ a.holdLimit ∧ a.holdLimit ≤ 250) ∧ widthOk a.width ∧ heightOk a.struct a.height ∧
    (gainOk a.upper.gain ∧ liftOk a.upper.lift) ∧ (gainOk a.lower.gain ∧ liftOk a.lower.lift) ∧ a.floor ≤ 255 ∧
    (1 ≤ a.gain ∧ a.gain ≤ 64) ∧ (2 ≤ a.lockCount ∧ a.lockCount ≤ 15) ∧ a.breakHold ≤ 15 ∧ a.repeatLimit ≤ 16383 ∧
    a.minContrast ≤ 16383 ∧ a.watch1.value ≤ 16383 ∧ a.watch2.value ≤ 16383

/-- The items that a pending record holds lie in their ranges; the height is adjusted to the active structure st (R170, R125). -/
abbrev Pending.inRange (p : Pending) (st : Structure) : Prop :=
  (∀ v, p.holdLimit = some v → 1 ≤ v ∧ v ≤ 250) ∧ (∀ v, p.width = some v → widthOk v) ∧
    (∀ v, p.height = some v → heightOk st v) ∧ (∀ v, p.upperGain = some v → gainOk v) ∧
    (∀ v, p.upperLift = some v → liftOk v) ∧ (∀ v, p.lowerGain = some v → gainOk v) ∧
    (∀ v, p.lowerLift = some v → liftOk v) ∧ (∀ v, p.floor = some v → v ≤ 255) ∧
    (∀ v, p.gain = some v → 1 ≤ v ∧ v ≤ 64) ∧ (∀ v, p.lockCount = some v → 2 ≤ v ∧ v ≤ 15) ∧
    (∀ v, p.breakHold = some v → v ≤ 15) ∧ (∀ v, p.repeatLimit = some v → v ≤ 16383) ∧
    (∀ v, p.minContrast = some v → v ≤ 16383) ∧ (∀ v, p.watch1.value = some v → v ≤ 16383) ∧
    (∀ v, p.watch2.value = some v → v ≤ 16383)

/-- The hypotheses of a tracker: runs of at most 15, programs that are usable and in the mask, steps below the length (R68, R70,
R80). -/
abbrev hypsOk (t : CadenceTable) (mask : Quad Bool) (hyps : List Hypothesis) : Prop :=
  ∀ h ∈ hyps, h.run ≤ 15 ∧ mask.get h.program = true ∧ t.usable.get h.program = true ∧
    h.current < (t.programs.get h.program).length

/-- A tracker state agrees with the force in effect: HELD_VIDEO exactly under VIDEO, HELD_FILM exactly under FILM on its program,
which is usable; a LOCKED program is usable and in the mask; a locked or held step is below the length, and a break hold
remaining lies within 1..15 (R62, R63, R73, R77, R81, R82). -/
abbrev TrackerState.agrees (t : CadenceTable) (a : Settings) (k : TrackerState) : Prop :=
  match k with
  | .seeking => a.force = .release
  | .locked p st =>
    a.force = .release ∧ a.mask.get p = true ∧ t.usable.get p = true ∧ st < (t.programs.get p).length
  | .broken hold => a.force = .release ∧ 1 ≤ hold ∧ hold ≤ 15
  | .heldVideo => a.force = .video
  | .heldFilm p st => (∃ f, a.force = .film p f) ∧ t.usable.get p = true ∧ st < (t.programs.get p).length

abbrev trackerOk (t : CadenceTable) (a : Settings) (k : Tracker) : Prop := hypsOk t a.mask k.hyps ∧ k.state.agrees t a

/-- The limits of the counters, the waiting jobs, the outputs, the settings and the trackers; the usability of the active cadence
table is that of its programs (R60); and only a RUNNING feed has pending items (R13, R170, R171). -/
abbrev State.limitsOk (s : State) : Prop :=
  s.ntu.countersOk ∧ s.waitingOk ∧ s.cad.table = CadenceTable.ofPrograms s.cad.table.programs ∧
    ∀ n : Feed,
      (s.otx.get n).repeatsOk ∧ (s.settings n).inRange ∧ (s.cue.staged.get n).inRange (s.settings n).struct ∧
        ((s.lrx.get n).state ≠ .running → s.cue.staged.get n = emptyPending) ∧
        trackerOk s.cad.table (s.settings n) (s.cad.trackers.get n)

/-- What an adopted cadence table may make of a force: nothing, VIDEO, or FILM on the same program with its step reduced
(R82). -/
abbrev Force.adopts (f g : Force) : Prop := g = f ∨ g = .video ∨ ∃ p a b, f = .film p a ∧ g = .film p b ∧ b ≤ a

/-! ## Cues -/

/-- The link, the code word and the other words of a cue command. -/
def cueParts : Instr → Option (Feed × Word × CueWords)
  | .feedConfig n c => some (n, 0x001, c)
  | .rasterSet n c => some (n, 0x002, c)
  | .trimSet n c => some (n, 0x003, c)
  | .motionSet n c => some (n, 0x004, c)
  | .cadenceSet n c => some (n, 0x005, c)
  | .cadenceForce n c => some (n, 0x006, c)
  | .watchSet n c => some (n, 0x007, c)
  | .feedRestart n c => some (n, 0x008, c)
  | .tableOpen n c => some (n, 0x009, c)
  | .tablePart n c => some (n, 0x00A, c)
  | .tableAbandon n c => some (n, 0x00B, c)
  | .noticeSet n c => some (n, 0x00C, c)
  | .reportSet n c => some (n, 0x00D, c)
  | .snapshot n c => some (n, 0x00E, c)
  | .statusQuery n c => some (n, 0x00F, c)
  | .deviceRestart n c _ => some (n, 0x010, c)
  | .unknownCueKind n code c => some (n, code, c)
  | _ => none

/-- The part takes the cue: RESET is released and the cue is addressed to this part or to every part (R19, R164). -/
abbrev State.takes (s : State) (c : CueWords) : Prop := s.resetHeld = false ∧ s.isAddressed c.device = true

/-- The check word is right (R160). -/
abbrev cueChecks (c : CueWords) (code : Word) : Prop := (CueWords.packet c code).checkOk = true

/-- The cue passes tests 1 to 5 but for its length: it is taken, its check word is right, its scope word names sc and its
link may name that scope (R165, R166). -/
abbrev State.admits (s : State) (n : Feed) (code : Word) (c : CueWords) (sc : Scope) : Prop :=
  s.takes c ∧ cueChecks c code ∧ scopeOfWord c.scope = some sc ∧ linkMayName n sc = true

/-- The payload length that a kind's code allows (Table 9-3). -/
def cueLengthOk (code : Word) (l : Nat) : Bool :=
  match code.toNat with
  | 0x001 => l == 5
  | 0x002 => l == 6
  | 0x003 => l == 6
  | 0x004 => l == 3
  | 0x005 => l == 10
  | 0x006 => l == 3
  | 0x007 => l == 7
  | 0x008 => l == 0
  | 0x009 => l == 3
  | 0x00A => decide (3 ≤ l) && decide (l ≤ 240)
  | 0x00B => l == 0
  | 0x00C => l == 3
  | 0x00D => l == 5
  | 0x00E => l == 1
  | 0x00F => l == 0
  | 0x010 => l == 0
  | _ => false

/-- The scopes that a kind's code allows (Table 9-3): codes 001..008 feed, 00E and 00F either, the others device. -/
def cueScopeRule (code : Word) : ScopeRule :=
  if code.toNat ≤ 8 then .feedOnly else if code.toNat = 14 ∨ code.toNat = 15 then .either else .deviceOnly

/-- The items of a feed settings cue for feed m; none where test 6 refuses it, and for every other command. -/
def settingsItems (i : Instr) (s : State) (m : Feed) : Option (Pending × List (Nat × Nat)) :=
  match i with
  | .feedConfig _ c => feedConfigItems c.payload
  | .rasterSet _ c => rasterItems (s.settings m).struct c.payload
  | .trimSet _ c => trimItems c.payload
  | .motionSet _ c => motionItems c.payload
  | .cadenceSet _ c => cadenceItems c.payload
  | .cadenceForce _ c => forceItems s.cad.table c.payload
  | .watchSet _ c => watchItems c.payload
  | _ => none

/-! ## Items of a payload (R161, R165 tests 6 and 7, R168) -/

/-- An enumerated item of n values, or KEEP. -/
def oneOf (n : Nat) (w : Word) : Bool := w == keepWord || decide (w.toNat < n)

/-- A two-word item that is well formed, or KEEP. -/
def pairFormed (h l : Word) : Bool :=
  (h == keepWord && l == keepWord) || (decide (h.toNat ≤ 255) && decide (l.toNat ≤ 255))

/-- Four words that are each 0 or 1, or all KEEP. -/
def maskFormed (a b c d : Word) : Bool :=
  (a == keepWord && b == keepWord && c == keepWord && d == keepWord) ||
    (decide (a.toNat ≤ 1) && decide (b.toNat ≤ 1) && decide (c.toNat ≤ 1) && decide (d.toNat ≤ 1))

/-- What a one-word item gives: nothing for KEEP. -/
def itemOf {α : Type} (f : Nat → α) (w : Word) : Option α := if w = keepWord then none else some (f w.toNat)

/-- What a two-word item gives: nothing for KEEP. -/
def pairOf {α : Type} (f : Nat → α) (h l : Word) : Option α :=
  if h = keepWord ∧ l = keepWord then none else some (f (h.toNat * 256 + l.toNat))

/-- The result's entry of item no, taken through f: none for KEEP or where the value taken is the value sent. -/
def entryOf (no : Nat) (f : Nat → Nat) (w : Word) : List (Nat × Nat) :=
  if w = keepWord ∨ f w.toNat = w.toNat then [] else [(no, f w.toNat)]

def pairEntryOf (no : Nat) (f : Nat → Nat) (h l : Word) : List (Nat × Nat) :=
  if (h = keepWord ∧ l = keepWord) ∨ f (h.toNat * 256 + l.toNat) = h.toNat * 256 + l.toNat then []
  else [(no, f (h.toNat * 256 + l.toNat))]

/-- The payloads that test 6 refuses, by code: an enumerated item outside its list, a malformed two-word item, a FILM force on
an unusable program (R161, R165 test 6, R168, Table 9-3). -/
def valueRefused (t : CadenceTable) (code : Word) (payload : List Word) : Bool :=
  match code.toNat, payload with
  | 0x001, [e, st, _, ti, _] => !(oneOf 2 e && oneOf 2 st && oneOf 3 ti)
  | 0x002, [wh, wl, hh, hl, hs, vs] => !(pairFormed wh wl && pairFormed hh hl && oneOf 4 hs && oneOf 4 vs)
  | 0x003, [uh, ul, _, lh, ll, _] => !(pairFormed uh ul && pairFormed lh ll)
  | 0x004, [_, _, di] => !oneOf 2 di
  | 0x005, [_, _, rh, rl, ch, cl, m0, m1, m2, m3] => !(pairFormed rh rl && pairFormed ch cl && maskFormed m0 m1 m2 m3)
  | 0x006, [f, p, _] =>
    !(decide (f.toNat ≤ 1) || (f == 2 && decide (p.toNat ≤ 3) && t.usable.get (Fin.ofNat 4 p.toNat)))
  | 0x007, [li, en, me, di, ac, vh, vl] =>
    !((li == 1 || li == 2) && oneOf 2 en && oneOf 3 me && oneOf 2 di && oneOf 2 ac && pairFormed vh vl)
  | 0x009, [k, h, l] => decide (8 < k.toNat) || decide (255 < h.toNat) || decide (255 < l.toNat)
  | 0x00A, _ :: k :: _ => decide (1 < k.toNat)
  | 0x00C, [k, _, m] => decide (k.toNat < 1) || decide (24 < k.toNat) || !oneOf 2 m
  | 0x00D, [_, a, b, c, d] => !maskFormed a b c d
  | 0x00E, [w] => decide (1 < w.toNat)
  | _, _ => false

/-- A result as the decoder makes it (R162, R167). -/
def resultOf (code : Word) (c : CueWords) (a : Answer) : CueResult :=
  ⟨c.scope, code, c.tag, a.outcome, a.reason, a.items⟩

end Sys2Proof.Machine
end

