-- ==== Sys2Proof/WellFormed.lean ====
section
/-! DEFINITION. Which commands a link can deliver: the sizes the manual gives. Every operand range that a type already
bounds (feeds, slots, line areas) needs no check here. -/

namespace Sys2Proof

/-- An active line carries 720 luma, 360 Cb and 360 Cr samples (section 0.6.2). -/
def Line.isActive (l : Line) : Bool :=
  l.y.length == 720 && l.cb.length == 360 && l.cr.length == 360

/-- A complete cue has a payload of at most 240 words (R18, Table 9-1). -/
def CueWords.isFramed (c : CueWords) : Bool := decide (c.payload.length ≤ 240)

/-- The command is one that can arrive. The cue kinds' codes are 001..010 hexadecimal (Table 9-3). -/
def Instr.wellFormed : Instr → Bool
  | .powerOn _ => true
  | .resetAsserted => true
  | .fieldStart _ _ _ => true
  | .activeLine _ l _ => l.isActive
  | .blankingPacket _ _ _ => true
  | .missingFieldExpiry _ _ => true
  | .frameTimerExpiry _ => true
  | .refPulse => true
  | .referenceWatchExpiry _ => true
  | .jobCompletion => true
  | .loadStall => true
  | .feedConfig _ c => c.isFramed
  | .rasterSet _ c => c.isFramed
  | .trimSet _ c => c.isFramed
  | .motionSet _ c => c.isFramed
  | .cadenceSet _ c => c.isFramed
  | .cadenceForce _ c => c.isFramed
  | .watchSet _ c => c.isFramed
  | .feedRestart _ c => c.isFramed
  | .tableOpen _ c => c.isFramed
  | .tablePart _ c => c.isFramed
  | .tableAbandon _ c => c.isFramed
  | .noticeSet _ c => c.isFramed
  | .reportSet _ c => c.isFramed
  | .snapshot _ c => c.isFramed
  | .statusQuery _ c => c.isFramed
  | .deviceRestart _ c _ => c.isFramed
  | .unknownCueKind _ code c => c.isFramed && !(decide (1 ≤ code.toNat) && decide (code.toNat ≤ 16))
  | .buildRead _ _ _ => true

end Sys2Proof
end

