-- ==== Sys2Proof/Certificates/Slice0/Obligations.lean ====
section
/-! DEFINITION. The statements for the provers. -/

open Sys2Proof Sys2Proof.Machine

/-! ## The step -/

/-- With a command at the front of the queue, a step is that command on the state with the queue's rest. That events come
from a queue, one a step, is the model's choice (log entry 1). -/
def Obligations.StepTakesFrontCommand : Prop :=
  ∀ (c : Instr) (q : List Instr) (s : State), s.pending = c :: q → step s = exec c (s.withPending q)

/-- Every command answers a next state in every state, and leaves the waiting commands as they are. -/
def Obligations.EveryCommandCompletes : Prop :=
  ∀ (c : Instr) (s : State), ∃ t, exec c s = .next t ∧ t.pending = s.pending

/-! ## What every step keeps -/

/-- After every step exactly one half of each output is SENDING (R142), and every sample of the frames that the halves hold
and of the picture on each link, the fill frame among them, lies within 4..1019 (R137, R145). -/
def Obligations.StepKeepsHalvesAndFrames : Prop :=
  ∀ s t : State, step s = .next t → (s.oneSendingEach → t.oneSendingEach) ∧ (s.framesOk → t.framesOk)

/-- Every step keeps the external memory in its canonical form; in the pending notice table one entry per kind and scope,
counts 1..255 (R189); at most 8 results and 16 packets in each queue (R155, R156); a level and a mask for each of the 24
notice kinds (R188), and nine load copies (R177). -/
def Obligations.StepKeepsMemoryAndQueues : Prop :=
  ∀ s t : State, step s = .next t →
    (s.memoryOk → t.memoryOk) ∧ (s.noticesOk → s.queuesOk → t.noticesOk ∧ t.queuesOk) ∧ (s.sizesOk → t.sizesOk)

/-- Every step keeps every history at no more than 8 records (R25, R27). Every step keeps the limits of the rest: counters
within 32 bits (R191); at most two jobs of a feed waiting (R87, R88); repeat counts within 0..250 (R144); active and pending
settings in their ranges, and no pending items of a feed that is not RUNNING (Table 9-7, R124, R125, R171); hypothesis runs of at
most 15, on usable programs in the mask (R68, R70, R80); a LOCKED program usable and in the mask, a held tracker under its force,
a break hold remaining within 1..15 (R62, R63, R73, R77, R81, R82). -/
def Obligations.StepKeepsLimits : Prop :=
  ∀ s t : State, step s = .next t → (s.historiesOk → t.historiesOk) ∧ (s.limitsOk → t.limitsOk)

/-- The part keeps its 24 slots, and the slots held by the four feeds and the FREE slots sum to 24 (R21, R43). Every step keeps
the agreement of slots and records: a FILLING slot is named by the one OPEN record, a HELD slot by the one CLOSED record, of its
feed's history, a RETIRING slot by the one record that the job in service of its feed holds detached, and no other record names
it; a record names its slot alone; a history's numbers are the last ones consumed (R21, R25, R26). -/
def Obligations.StepKeepsSlotOwnership : Prop :=
  ∀ s t : State, step s = .next t →
    (s.slotsOk → t.slotsOk ∧ t.slotsHeld 0 + t.slotsHeld 1 + t.slotsHeld 2 + t.slotsHeld 3 + t.freeCount = 24) ∧
    (s.storeOk → t.storeOk)

/-- The state right after reset has all of these. -/
def Obligations.ResetMeetsInvariants : Prop :=
  State.reset.oneSendingEach ∧ State.reset.framesOk ∧ State.reset.memoryOk ∧ State.reset.noticesOk ∧
    State.reset.queuesOk ∧ State.reset.slotsOk ∧ State.reset.sizesOk ∧ State.reset.historiesOk ∧ State.reset.storeOk ∧
    State.reset.limitsOk

/-! ## RESET -/

/-- The state right after reset, item by item (Tables 1-1, 3-1, 4-2, 5-1, 8-1, 9-7, 11-1, R42, R61, R134, R158, R187, R188,
R195). By the model's choice the queue is empty (log entry 1), the external memory has nothing written (log entry 2), the device
number is that of straps that are all released (log entry 7), and the step entries of programs 0 and 1 at and beyond their
lengths are OPENS (log entry 24). -/
def Obligations.ResetValues : Prop :=
  (∀ n : Feed,
    State.reset.lrx.get n = ⟨.off, 0, .upper, .stopped, 0, none⟩ ∧
    State.reset.ing.get n = ⟨none, 0⟩ ∧
    State.reset.history n = [] ∧
    State.reset.cad.trackers.get n =
      ⟨.seeking, [⟨0, 0, 0, 0⟩, ⟨0, 1, 1, 0⟩, ⟨1, 0, 0, 0⟩, ⟨1, 1, 1, 0⟩, ⟨1, 2, 2, 0⟩, ⟨1, 3, 3, 0⟩, ⟨1, 4, 4, 0⟩]⟩ ∧
    State.reset.otx.get n =
      ⟨⟨.sending, none, .fill⟩, ⟨.empty, none, .fill⟩, 0, true, .free, none, .running 200000, .stopped, [], [],
        some ⟨.fill, []⟩⟩ ∧
    State.reset.settings n =
      { enable := false, struct := .s50, cls := 1, timing := .free, holdLimit := 50, width := 1440, height := 1080
        hset := 0, vset := 0, upper := ⟨1024, 0⟩, lower := ⟨1024, 0⟩, floor := 12, gain := 4, dirSearch := true
        lockCount := 6, breakHold := 4, repeatLimit := 64, minContrast := 32, mask := ⟨true, true, false, false⟩
        force := .release, watch1 := ⟨false, .lostLines, .above, .note, 0⟩
        watch2 := ⟨false, .lostLines, .above, .note, 0⟩ } ∧
    State.reset.cue.staged.get n = {} ∧
    State.reset.ntu.feedCounters.get n = { framesFill := 1 } ∧
    State.reset.ntu.feedLatches.get n = ⟨none, none⟩) ∧
  State.reset.fst.slots = List.replicate 24 .free ∧ State.reset.fst.mem = [] ∧ State.reset.fst.detached = [] ∧
  State.reset.fst.tight = false ∧
  State.reset.cad.table.programs =
    ⟨⟨2, [.opens, .closes, .opens, .opens, .opens, .opens, .opens, .opens]⟩,
      ⟨5, [.opens, .closes, .repeats, .opens, .closes, .opens, .opens, .opens]⟩,
      ⟨0, List.replicate 8 .opens⟩, ⟨0, List.replicate 8 .opens⟩⟩ ∧
  State.reset.cad.table.usable = ⟨true, true, false, false⟩ ∧
  State.reset.fen.service = none ∧ State.reset.fen.waiting = [] ∧
  (∀ (k : Fin 4) (q : Nat), q < 64 →
    (State.reset.fen.hsets.get k).length = 64 ∧ (State.reset.fen.vsets.get k).length = 64 ∧
    (State.reset.fen.hsets.get k).getD q [] = [0, 0, 0, 128 - 2 * (q : Int), 2 * (q : Int), 0, 0, 0] ∧
    (State.reset.fen.vsets.get k).getD q [] = [0, 128 - 2 * (q : Int), 2 * (q : Int), 0]) ∧
  State.reset.tld.load = none ∧ (∀ t : TableId, (State.reset.copy t).ready = false) ∧
  State.reset.ntu.table = [] ∧ State.reset.ntu.devCounters = {} ∧ State.reset.ntu.devLatches = ⟨none, none⟩ ∧
  State.reset.ntu.settings.map (fun x => x.level) =
    [1, 3, 2, 3, 2, 1, 1, 1, 1, 2, 1, 1, 0, 2, 2, 3, 1, 2, 2, 1, 1, 1, 2, 1] ∧
  (∀ i, i < 24 → (State.reset.ntu.settings.getD i ⟨0, false⟩).masked = (i == 12)) ∧
  State.reset.ntu.periodic = ⟨0, ⟨false, false, false, false⟩, 0, none⟩ ∧
  State.reset.cue.deviceNumber = 0 ∧ State.reset.resetHeld = false ∧ State.reset.pending = []

/-- POWER_ON gives the state right after reset with the straps' number, in every state; each strap adds its weight where its
line is asserted (R17, R158); the external memory, the queue and the model's own counter are kept (the model's choices, log
entries 1, 2 and 3). RESET_ASSERTED holds RESET and ends the frames on the four links, and nothing else changes (R158);
while RESET is held, every command but POWER_ON and RESET_ASSERTED changes nothing (R17, log entry 7). -/
def Obligations.PowerOnAndReset : Prop :=
  (∀ (d : Straps) (s : State),
    exec (.powerOn d) s =
      .next
        { State.reset with
          fst := { State.reset.fst with mem := s.fst.mem }
          cue := { State.reset.cue with deviceNumber := d.number }
          choices := s.choices
          pending := s.pending }) ∧
  (∀ d : Straps,
    d.number.val =
      (if d.devnum0 then 1 else 0) + (if d.devnum1 then 2 else 0) + (if d.devnum2 then 4 else 0) +
        (if d.devnum3 then 8 else 0)) ∧
  (∀ s : State,
    exec .resetAsserted s =
      .next { s with resetHeld := true, otx := s.otx.mapIdx (fun _ t => { t with link := none }) }) ∧
  (∀ (c : Instr) (s : State), s.resetHeld = true → (∀ d, c ≠ .powerOn d) → c ≠ .resetAsserted → exec c s = .next s)

/-- An empty queue, the expiry of a stopped timer, the completion of no job, a read for no job and a stall that is not due
change nothing but the words gone wrong (the model's choices, log entries 1, 5 and 6). -/
def Obligations.EventsRuledOutDoNothing : Prop :=
  (∀ s : State, s.pending = [] → step s = .next s) ∧
  ∀ (n : Feed) (us : List Upset) (r : BuildRole) (m : Fin 288) (s : State), s.resetHeld = false →
    (((s.lrx.get n).state ≠ .running ∨ (s.lrx.get n).timer = .stopped) →
      exec (.missingFieldExpiry n us) s = .next (s.upset us)) ∧
    ((s.otx.get n).frameTimer = .stopped → exec (.frameTimerExpiry n) s = .next s) ∧
    ((s.otx.get n).watchTimer = .stopped → exec (.referenceWatchExpiry n) s = .next s) ∧
    (s.fen.service = none → exec .jobCompletion s = .next s ∧ exec (.buildRead r m us) s = .next (s.upset us)) ∧
    ((s.tld.load = none ∨ ∃ l, s.tld.load = some l ∧ l.events < 7) → exec .loadStall s = .next s)

/-! ## Field starts -/

/-- A field start in OFF sets the expected parity alone (R5). In WAITING it opens a field; in DOWN it raises FEED_UP with the
field's number first (R4); in RUNNING with no pending items it first ends the arriving field and checks the parity (R3). Then
the transmitter and after it the loader take it (R20), an order that is the model's (log entry 14); the words that go wrong come
before all of it (the model's choice, log entry 5). An opened field: RUNNING, the next number, the opposite parity expected, 1.5
field periods, no misses (R3, R7, R11); stored, with the newest record OPEN in its slot and the trim of its parity as the
working trim (R45), or, where the store has no slot for it, dropped, with a DROPPED gap and no working trim. -/
def Obligations.FieldStartOpens : Prop :=
  (∀ (n : Feed) (p : Parity) (us : List Upset) (s : State), s.resetHeld = false →
    let started := fun (u : State) => Host.Outcome.next (State.handToLoader (State.outputFieldStart u n) n)
    ((s.lrx.get n).state = .off →
      exec (.fieldStart n p us) s = started ((s.upset us).setRx n { s.lrx.get n with expected := p.opposite })) ∧
    ((s.lrx.get n).state = .waiting → exec (.fieldStart n p us) s = started ((s.upset us).openField n p false)) ∧
    ((s.lrx.get n).state = .down →
      exec (.fieldStart n p us) s =
        started (((s.upset us).raise .feedUp (.feed n) (.sequence (s.lrx.get n).counter)).openField n p false)) ∧
    ((s.lrx.get n).state = .running → s.cue.staged.get n = emptyPending →
      let u := (s.upset us).closeArriving n
      exec (.fieldStart n p us) s =
        started (if p = (s.lrx.get n).expected then u.openField n p false
          else ((u.raise .parityRepeat (.feed n) (.sequence (s.lrx.get n).counter)).count n .parityRepeats 1).openField n p
            true)) ∧
    (((s.lrx.get n).state = .waiting ∨ (s.lrx.get n).state = .down ∨
        ((s.lrx.get n).state = .running ∧ s.cue.staged.get n = emptyPending)) →
      ∃ (t : State) (dropped : Bool), exec (.fieldStart n p us) s = .next t ∧
        t.lrx.get n =
          ⟨.running, (s.lrx.get n).counter + 1, p.opposite, .running (s.settings n).struct.periodAndHalf, 0,
            some ⟨(s.lrx.get n).counter, p, 0, dropped, false, ⟨[], []⟩⟩⟩)) ∧
  (∀ (s : State) (n : Feed) (p : Parity) (rep : Bool),
    let q := (s.lrx.get n).counter
    let t := s.openField n p rep
    let conditions : Conditions := ⟨rep, false, false, false⟩
    ∃ dropped : Bool, ((s.admitField n p).allocate n q p rep).1 = !dropped ∧
      t.lrx.get n =
        ⟨.running, q + 1, p.opposite, .running (s.settings n).struct.periodAndHalf, 0,
          some ⟨q, p, 0, dropped, false, ⟨[], []⟩⟩⟩ ∧
      (dropped = false →
        (∃ k : Fin 24, (t.history n).getLast? =
          some ⟨q, p, .opened, .slot k, conditions, [], 0, [], some p, none, none, false⟩) ∧
        t.ing.get n = ⟨some (if p = .upper then (s.settings n).upper else (s.settings n).lower), 0⟩) ∧
      (dropped = true →
        (t.history n).getLast? =
          some ⟨q, p, .opened, .gap .dropped, conditions, [], 0, [], none, none, none, false⟩ ∧
        t.ing.get n = ⟨none, 0⟩))

/-- A field start in RUNNING that applies a disable (R14, R171): the arriving field ends (R9), the pending record becomes empty
and every item active together, a mask and a force by the tracker's rules (R63, R77); there is no numbered field, so a lock that a
mask breaks has a free detail (log entry 3), and the order of a mask and a force is free where it matters (log entry 4). Then the
feed enters OFF: the timer stopped, no misses, no field arriving, no working items, the history empty, the tracker reset (R83), a
job in service withdrawn (R98) and no job waiting (R99); the counter is kept, and by the model's choice the expected parity (log
entry 21). By the model's choice the words that go wrong come first (log entry 5) and the transmitter before the loader (log entry
14). -/
def Obligations.FieldStartAppliesDisable : Prop :=
  ∀ (n : Feed) (p : Parity) (us : List Upset) (s : State) (items : Pending), s.resetHeld = false →
    (s.lrx.get n).state = .running → s.cue.staged.get n = items → items.enable = some false →
    let ended := (s.upset us).closeArriving n
    let a := ended.settings n
    ∃ u : State, u = (ended.setStaged n emptyPending).activate n items none ∧
      u.settings n =
        { a.over items with
          mask := items.mask.getD a.mask
          force := match items.force with
            | some f => ended.cad.table.effectiveForce f
            | none => a.force } ∧
      u.cue.staged.get n = emptyPending ∧ u.lrx = ended.lrx ∧ u.fst = ended.fst ∧ u.fen = ended.fen ∧
      u.otx = ended.otx ∧ u.tld = ended.tld ∧ u.cad.table = ended.cad.table ∧
      (let stopped : Receiver := { s.lrx.get n with state := .off, timer := .stopped, misses := 0, arriving := none }
       exec (.fieldStart n p us) s =
          .next (State.handToLoader (State.outputFieldStart (((u.setRx n stopped).setIng n ⟨none, 0⟩).clearFeed n) n) n) ∧
        ∃ t : State, exec (.fieldStart n p us) s = .next t ∧ t.lrx.get n = stopped ∧ t.ing.get n = ⟨none, 0⟩ ∧
          t.history n = [] ∧ t.cue.staged.get n = emptyPending ∧ t.settings n = u.settings n ∧
          (t.settings n).enable = false ∧ t.cad = (u.resetTracker n).cad ∧
          t.fen =
            { ended.fen with
              service := ended.fen.service.map (fun v => { v with withdrawn := v.withdrawn || v.job.feed == n })
              waiting := ended.fen.waiting.filter (fun j => j.feed != n) })

/-- A field start in RUNNING that applies a structure change, without a disable (R15): the arriving field ends under the old
structure, SHORT where lines are missing (R9); every pending item becomes active together (R171), the height adjusted against the
new structure (R125); the history is emptied, the tracker reset (R83), a job in service withdrawn and the waiting ones removed (R98,
R99); the field opens without a parity check, so without PARITY_REPEAT, under 1.5 field periods of the new structure, as the one
record of the history, OPEN in its slot or, where there is none, a DROPPED gap. The model's choices: words go wrong first (log entry
5), the order of a mask and a force is free where it matters (log entry 4), a break by a mask counts the new break hold (log entry
34), and the transmitter comes before the loader (log entry 14). -/
def Obligations.FieldStartChangesStructure : Prop :=
  ∀ (n : Feed) (p : Parity) (us : List Upset) (s : State) (items : Pending) (st : Structure), s.resetHeld = false →
    (s.lrx.get n).state = .running → s.cue.staged.get n = items → items.enable ≠ some false →
    items.struct = some st → st ≠ (s.settings n).struct →
    let q := (s.lrx.get n).counter
    let ended := (s.upset us).closeArriving n
    let a := ended.settings n
    ∃ u : State, u = (ended.setStaged n emptyPending).activate n items (some q) ∧
      u.settings n =
        { a.over items with
          mask := items.mask.getD a.mask
          force := match items.force with
            | some f => ended.cad.table.effectiveForce f
            | none => a.force } ∧
      (u.settings n).struct = st ∧ (u.settings n).height = max (2 * st.lines) (items.height.getD a.height) ∧
      u.cue.staged.get n = emptyPending ∧ u.lrx = ended.lrx ∧ u.fst = ended.fst ∧ u.fen = ended.fen ∧
      u.otx = ended.otx ∧ u.tld = ended.tld ∧ u.cad.table = ended.cad.table ∧
      (let opened := (u.clearFeed n).openField n p false
       exec (.fieldStart n p us) s = .next (State.handToLoader (State.outputFieldStart opened n) n) ∧
        (opened.ntu.feedCounters.get n).parityRepeats = (ended.ntu.feedCounters.get n).parityRepeats ∧
        (∀ e ∈ opened.ntu.table, e.kind = .parityRepeat → e ∈ ended.ntu.table) ∧
        ∃ (t : State) (dropped : Bool) (c : Content), exec (.fieldStart n p us) s = .next t ∧
          t.settings n = u.settings n ∧
          t.history n =
            [⟨q, p, .opened, c, ⟨false, false, false, false⟩, [], 0, [], if dropped then none else some p, none, none, false⟩] ∧
          (dropped = false → ∃ k, c = .slot k) ∧ (dropped = true → c = .gap .dropped) ∧
          t.lrx.get n =
            ⟨.running, q + 1, p.opposite, .running st.periodAndHalf, 0, some ⟨q, p, 0, dropped, false, ⟨[], []⟩⟩⟩ ∧
          t.cad = (u.resetTracker n).cad ∧
          t.fen =
            { ended.fen with
              service := ended.fen.service.map (fun v => { v with withdrawn := v.withdrawn || v.job.feed == n })
              waiting := ended.fen.waiting.filter (fun j => j.feed != n) })

/-- A field start in RUNNING that applies pending items with neither a disable nor a structure change: the arriving field
ends, the pending record becomes empty and every item active together (R171), a mask and a force by the tracker's rules
(R63, R77); then the parity check, PARITY_REPEAT with the field's number and PARITY_REPEATS (R6), and the field opens under
the new settings (R45). By the model's choice the words that go wrong come first (log entry 5), the order of a mask and a force is
free where it matters (log entry 4), a break by a mask counts the new break hold (log entry 34), and the transmitter comes before
the loader (log entry 14). -/
def Obligations.FieldStartAppliesItems : Prop :=
  ∀ (n : Feed) (p : Parity) (us : List Upset) (s : State) (items : Pending), s.resetHeld = false →
    (s.lrx.get n).state = .running → s.cue.staged.get n = items → items ≠ emptyPending → items.enable ≠ some false →
    (items.struct = none ∨ items.struct = some (s.settings n).struct) →
    let q := (s.lrx.get n).counter
    let ended := (s.upset us).closeArriving n
    let a := ended.settings n
    ∃ u : State, u = (ended.setStaged n emptyPending).activate n items (some q) ∧
      exec (.fieldStart n p us) s =
        .next (State.handToLoader (State.outputFieldStart
          (if p = (s.lrx.get n).expected then u.openField n p false
            else ((u.raise .parityRepeat (.feed n) (.sequence q)).count n .parityRepeats 1).openField n p true) n) n) ∧
      u.settings n =
        { a.over items with
          mask := items.mask.getD a.mask
          force := match items.force with
            | some f => ended.cad.table.effectiveForce f
            | none => a.force } ∧
      u.cue.staged.get n = emptyPending ∧ u.lrx = ended.lrx ∧ u.fst = ended.fst ∧ u.fen = ended.fen ∧
      u.otx = ended.otx ∧ u.tld = ended.tld ∧ u.cad.table = ended.cad.table

/-- The end of an arrival by a field start or an expiry (R8, R9): no field arriving, nothing; a field short of its lines gets
SHORT, raises FIELD_SHORT, and, where it is stored, its lines that never arrived join the lost set, ascending; then it
closes. A dropped field that has its lines closes; a stored one has closed already. -/
def Obligations.ShortClosure : Prop :=
  (∀ (s : State) (n : Feed),
    ((s.lrx.get n).arriving = none → s.closeArriving n = s) ∧
    (∀ a, (s.lrx.get n).arriving = some a →
      (a.linesReceived < s.fieldLines n →
        s.closeArriving n =
          ((s.modifyRecord n a.seq (fun r => r.short a.linesReceived (s.fieldLines n))).raise .fieldShort (.feed n)
            (.sequence a.seq)).closeField n a) ∧
      (s.fieldLines n ≤ a.linesReceived → a.dropped = true → s.closeArriving n = s.closeField n a) ∧
      (s.fieldLines n ≤ a.linesReceived → a.dropped = false → s.closeArriving n = s))) ∧
  (∀ (r : FieldRecord) (received lines : Nat),
    r.short received lines =
      { r with conditions := { r.conditions with short := true }, lost := (r.short received lines).lost } ∧
    ((∃ c, r.content = .gap c) → (r.short received lines).lost = r.lost) ∧
    ((∃ k, r.content = .slot k) →
      (∀ m, m ∈ (r.short received lines).lost ↔ m ∈ r.lost ∨ (received ≤ m ∧ m < lines)) ∧
      (r.lost.Pairwise (fun a b => a < b) → (r.short received lines).lost.Pairwise (fun a b => a < b))))

/-- What a field start, an active line, an expiry, a timer, a pulse, a completion, a stall or a build read leaves
unchanged: the device number, the notice levels and masks, RESET, and of every other feed the receiver, the working items,
the pending settings and the active settings but for a force, which an adopted table may make VIDEO or, in FILM, reduce in
its step (R82). And every line of the external memory reads as before after every command but an active line. -/
def Obligations.EventFrame : Prop :=
  (∀ (c : Instr) (s t : State) (m : Feed), exec c s = .next t →
    ((∃ n p us, c = .fieldStart n p us ∧ m ≠ n) ∨ (∃ n l us, c = .activeLine n l us ∧ m ≠ n) ∨
      (∃ n us, c = .missingFieldExpiry n us ∧ m ≠ n) ∨ (∃ n, c = .frameTimerExpiry n) ∨ c = .refPulse ∨
      (∃ n, c = .referenceWatchExpiry n) ∨ c = .jobCompletion ∨ c = .loadStall ∨
      (∃ r i us, c = .buildRead r i us)) →
    t.cue.deviceNumber = s.cue.deviceNumber ∧ t.ntu.settings = s.ntu.settings ∧ t.resetHeld = s.resetHeld ∧
    t.lrx.get m = s.lrx.get m ∧ t.ing.get m = s.ing.get m ∧ t.cue.staged.get m = s.cue.staged.get m ∧
    ∃ f, (s.settings m).force.adopts f ∧ t.settings m = { s.settings m with force := f }) ∧
  (∀ (c : Instr) (s t : State) (k : Fin 24) (i : Nat), exec c s = .next t → (∀ n l us, c ≠ .activeLine n l us) →
    lineAt t.fst.mem k i = lineAt s.fst.mem k i)

/-! ## The field store -/

/-- The store's answer to a slot request (R28), after the history cap (R27). The lowest FREE slot becomes FILLING, and an
allocation that leaves 6 or fewer FREE slots while the tight flag is clear enters the tight condition (R34). With no FREE
slot, the victim is, of the HELD records that the job in service does not reference and that are not among the two newest of
their history, the oldest of the feed of lowest class, of those the highest number: it becomes a RECLAIMED gap, its slot is
FILLING, POOL_RECLAIM and RECLAIMS (R29). With no candidate the field is dropped: a DROPPED gap, FIELD_DROPPED,
FIELDS_DROPPED (R30). The field's record is appended. By the model's reading the cap's check for leaving the tight condition
comes before the slot is taken (log entry 15), and the append before the retention of a tight entry (log entry 16). -/
def Obligations.StoreAllocates : Prop :=
  ∀ (s : State) (n : Feed) (q : Seq) (p : Parity) (rep : Bool), s.slotsOk →
    let s0 := if 8 ≤ (s.history n).length then s.historyCap n else s
    let appended := fun (u : State) (c : Content) (tr : Option Parity) =>
      u.setHist n (u.history n ++ [⟨q, p, .opened, c, ⟨rep, false, false, false⟩, [], 0, [], tr, none, none, false⟩])
    let candidate := fun (m : Feed) (i : Nat) (r : FieldRecord) (k : Fin 24) =>
      i + 2 < (s0.history m).length ∧ (s0.history m)[i]? = some r ∧ r.content = .slot k ∧ s0.slot k = .held m ∧
        s0.serviceRefs m r.seq = false
    (∀ k : Fin 24, s0.slot k = .free → (∀ j, j < k → s0.slot j ≠ .free) →
      let s1 := appended (s0.setSlot k (.filling n)) (.slot k) (some p)
      s.allocate n q p rep =
        (true, if s0.fst.tight = false ∧ s0.freeCount ≤ 7 then s1.enterTight (s0.freeCount - 1) else s1)) ∧
    ((∀ k : Fin 24, s0.slot k ≠ .free) →
      (∀ (v : Feed) (i : Nat) (r : FieldRecord) (k : Fin 24), candidate v i r k →
        (∀ j x l, j < i → ¬candidate v j x l) →
        (∀ m j x l, candidate m j x l →
          (s0.settings v).cls < (s0.settings m).cls ∨ ((s0.settings v).cls = (s0.settings m).cls ∧ m ≤ v)) →
        let gap := fun (x : FieldRecord) => x.toGap .reclaimed
        let s1 := ((s0.modifyRecord v r.seq gap).raise .poolReclaim (.feed v) (.sequence r.seq)).countDev .reclaims
        s.allocate n q p rep = (true, appended (s1.setSlot k (.filling n)) (.slot k) (some p))) ∧
      ((∀ m i r k, ¬candidate m i r k) →
        s.allocate n q p rep =
          (false, ((appended s0 (.gap .dropped) none).raise .fieldDropped (.feed n) (.sequence q)).count n .fieldsDropped
            1)))

/-- Retention (R32, R33): of the records before the keep-newest newest, 3, or 2 for class 0 or 1 while tight, the
unreferenced ones at the head are removed, those behind a referenced one become TRIMMED-OFF gaps, and their slots FREE.
Released slots are FREE, and the tight flag is cleared at the end where 10 or more are FREE (R34). A record that becomes a gap
keeps its number, parity, state, conditions and poor mark (R24). The tight entry: POOL_TIGHT with the FREE count, the flag,
retention of every feed with its counts, and then the check for leaving (R34). The history cap takes the head out: its slot
FREE, or RETIRING with the record detached; waiting jobs lose it (R27). The model's readings: the cap makes its own check for
leaving (log entry 15), the tight entry one check after its four retentions (log entry 16), and no retention follows a skip
that the cap makes (log entry 17). -/
def Obligations.RetentionAndTight : Prop :=
  let kept := fun (s : State) (n : Feed) (keep : Nat) =>
    let walked := (s.history n).take ((s.history n).length - keep)
    (walked.dropWhile (fun r => !s.referenced n r.seq)).map
        (fun r => if s.referenced n r.seq = true then r else r.toGap .trimmedOff) ++
      (s.history n).drop ((s.history n).length - keep)
  let given := fun (s : State) (n : Feed) (keep : Nat) =>
    (((s.history n).take ((s.history n).length - keep)).filter (fun r => !s.referenced n r.seq)).flatMap FieldRecord.slots
  (∀ (s : State) (n : Feed),
    let keep := if s.fst.tight = true ∧ (s.settings n).cls.val ≤ 1 then 2 else 3
    s.retain n = (s.setHist n (kept s n keep)).releaseSlots (given s n keep)) ∧
  (∀ (s : State) (ks : List (Fin 24)), s.slotsOk →
    let t := s.releaseSlots ks
    t = { s with fst := { s.fst with slots := t.fst.slots, tight := t.fst.tight } } ∧
    (∀ k : Fin 24, t.slot k = if k ∈ ks then .free else s.slot k) ∧
    t.fst.tight = if ks ≠ [] ∧ 10 ≤ t.freeCount then false else s.fst.tight) ∧
  (∀ (r : FieldRecord) (c : GapCause),
    ((∃ d, r.content = .gap d) → r.toGap c = r) ∧
    ((∃ k, r.content = .slot k) →
      r.toGap c = ⟨r.seq, r.parity, r.state, .gap c, r.conditions, [], 0, [], none, none, none, r.poor⟩)) ∧
  (∀ (s : State) (free : Nat), s.slotsOk →
    let keep := fun (n : Feed) => if (s.settings n).cls.val ≤ 1 then 2 else 3
    let t := s.enterTight free
    t = { s with fst := { s.fst with slots := t.fst.slots, hist := t.fst.hist, tight := t.fst.tight }
                 ntu := (s.raise .poolTight .device (.freeCount free)).ntu } ∧
    (∀ n : Feed, t.history n = kept s n (keep n)) ∧
    (∀ k : Fin 24, t.slot k = if ∃ n : Feed, k ∈ given s n (keep n) then .free else s.slot k) ∧
    t.fst.tight = decide (t.freeCount < 10)) ∧
  (∀ (s : State) (n : Feed) (r : FieldRecord) (l : List FieldRecord), s.history n = r :: l → 7 ≤ l.length →
    s.historyCap n =
      ((if s.serviceRefs n r.seq = true then (s.setHist n l).detach n r
        else (s.setHist n l).releaseSlots r.slots).dropWaitingRefs n r.seq) ∧
    (∀ u : State, u.slotsOk →
      (u.detach n r).fst.detached = u.fst.detached ++ [r] ∧
      (∀ k : Fin 24, (u.detach n r).slot k = if r.content = .slot k then .retiring n else u.slot k)))

/-! ## Active lines -/

/-- An active line before a stored field's last (R8). While no field is arriving it changes nothing (R1); of a dropped field
it is counted and discarded; the first surplus line gives LONG and FIELD_LONG where the record still exists, a later one
nothing (R10). Of a stored field, line m goes, trimmed, to line area m of the field's slot unless the map has it as LOST
(R46, R49); the line count rises by one; every other line area reads as before, and nothing else changes (R36). The words that
go wrong do so before the line is written: the model's choice (log entry 5). -/
def Obligations.LinesBeforeLast : Prop :=
  (∀ (n : Feed) (l : Line) (us : List Upset) (s : State), s.resetHeld = false →
    ((s.lrx.get n).arriving = none → exec (.activeLine n l us) s = .next (s.upset us)) ∧
    (∀ a, (s.lrx.get n).arriving = some a → a.linesReceived < s.fieldLines n → a.dropped = true →
      exec (.activeLine n l us) s =
        .next ((s.upset us).setRx n
          { s.lrx.get n with arriving := some { a with linesReceived := a.linesReceived + 1 } })) ∧
    (∀ a, (s.lrx.get n).arriving = some a → s.fieldLines n ≤ a.linesReceived →
      let marked := (s.upset us).setRx n { s.lrx.get n with arriving := some { a with surplusSeen := true } }
      (a.surplusSeen = true → exec (.activeLine n l us) s = .next (s.upset us)) ∧
      (a.surplusSeen = false →
        (s.record n a.seq = none → exec (.activeLine n l us) s = .next marked) ∧
        (∀ r, s.record n a.seq = some r →
          exec (.activeLine n l us) s =
            .next ((marked.modifyRecord n a.seq
              (fun x => { x with conditions := { x.conditions with long := true } })).raise .fieldLong (.feed n)
                (.sequence a.seq)))))) ∧
  (∀ (n : Feed) (l : Line) (us : List Upset) (s : State) (a : Arriving) (r : FieldRecord) (k : Fin 24) (tr : Trim),
    s.resetHeld = false → (s.lrx.get n).arriving = some a → a.dropped = false →
    a.linesReceived + 1 < s.fieldLines n → s.record n a.seq = some r → r.content = .slot k →
    (s.ing.get n).workingTrim = some tr →
    ∃ t : State, exec (.activeLine n l us) s = .next t ∧
      t = { s.upset us with
            lrx := s.lrx.set n { s.lrx.get n with arriving := some { a with linesReceived := a.linesReceived + 1 } }
            fst := t.fst } ∧
      t.fst = { s.fst with mem := t.fst.mem } ∧
      (∀ (j : Fin 24) (i : Nat), i < 288 → (j ≠ k ∨ i ≠ a.linesReceived) →
        lineAt t.fst.mem j i = lineAt s.fst.mem j i) ∧
      (a.map.lost.contains a.linesReceived = true → t.fst.mem = (s.upset us).fst.mem) ∧
      (a.map.lost.contains a.linesReceived = false →
        lineAt t.fst.mem k a.linesReceived = trimLine tr l ∧ wrongAt t.fst.mem k a.linesReceived = []))

/-- The last line of a stored field is counted and stored as any other, and then the field closes, staying as the arriving
field with its line count at L (R8). At a closure the record becomes CLOSED and its slot HELD; the closure of a stored field
counts FIELDS_STORED and then does the closure work, that of a dropped field the gap's (R31, R56, R57); the closure writes no
line, and every line area but the last line's reads as before (R36). Words that go wrong
are taken before the line is written, so the closure finds the last line clean: the model's choice (log entry 5). -/
def Obligations.LastLineCloses : Prop :=
  (∀ (n : Feed) (l : Line) (us : List Upset) (s : State) (a : Arriving), s.resetHeld = false →
    (s.lrx.get n).arriving = some a → a.dropped = false → a.linesReceived + 1 = s.fieldLines n →
    let full := { a with linesReceived := s.fieldLines n }
    let counted := (s.upset us).setRx n { s.lrx.get n with arriving := some full }
    let stored := counted.storeLine n a a.linesReceived l
    exec (.activeLine n l us) s = .next (stored.closeField n full) ∧
    (stored.closeField n full).lrx.get n = { s.lrx.get n with arriving := some full } ∧
    (stored.closeField n full).fst.mem = stored.fst.mem ∧
    (∀ (j : Fin 24) (i : Nat), i < 288 →
      (∀ r k, s.record n a.seq = some r → r.content = .slot k → j ≠ k ∨ i ≠ a.linesReceived) →
      lineAt stored.fst.mem j i = lineAt s.fst.mem j i) ∧
    (a.map.lost.contains a.linesReceived = true → stored = counted) ∧
    (∀ r k tr, a.map.lost.contains a.linesReceived = false → s.record n a.seq = some r → r.content = .slot k →
      (s.ing.get n).workingTrim = some tr →
      stored = counted.writeLine k a.linesReceived (trimLine tr l) ∧ lineAt stored.fst.mem k a.linesReceived = trimLine tr l ∧
      wrongAt stored.fst.mem k a.linesReceived = [])) ∧
  (∀ (n : Feed) (s : State) (q : Seq) (r : FieldRecord) (k : Fin 24), s.slotsOk → s.record n q = some r →
    r.content = .slot k →
    (s.closeRecord n q).record n q = some { r with state := .closed } ∧ (s.closeRecord n q).slot k = .held n ∧
    (∀ j, j ≠ k → (s.closeRecord n q).slot j = s.slot j)) ∧
  (∀ (n : Feed) (s : State) (a : Arriving),
    (a.dropped = false →
      s.closeField n a = ((s.closeRecord n a.seq).count n .fieldsStored 1).closureWork n a.seq a.map) ∧
    (a.dropped = true → s.closeField n a = (s.closeRecord n a.seq).gapClosureWork n a.seq))

/-- The trim of a word: about 64 for luma and 512 for chroma, times the gain, rounded, lifted, clamped to 4..1019; a gain
of 1024 with a lift of 0 returns every word in 4..1019 unchanged; a line that is written goes to the store trimmed with
the field's working trim (R46). -/
def Obligations.TrimOfLine : Prop :=
  (∀ (t : Trim) (l : Line),
    (trimLine t l).y = l.y.map (trimWord t 64) ∧ (trimLine t l).cb = l.cb.map (trimWord t 512) ∧
    (trimLine t l).cr = l.cr.map (trimWord t 512) ∧
    (∀ (c : Int) (w : Word),
      ((trimWord t c w).toNat : Int) =
        max 4 (min 1019 ((((w.toNat : Int) - c) * t.gain + 512) / 1024 + c + t.lift)) ∧
      4 ≤ (trimWord t c w).toNat ∧ (trimWord t c w).toNat ≤ 1019) ∧
    (t = ⟨1024, 0⟩ → ∀ (c : Int) (w : Word), 4 ≤ w.toNat → w.toNat ≤ 1019 → trimWord t c w = w)) ∧
  (∀ (s : State) (n : Feed) (a : Arriving) (m : Nat) (l : Line) (r : FieldRecord) (k : Fin 24) (t : Trim),
    a.map.lost.contains m = false → s.record n a.seq = some r → r.content = .slot k →
    (s.ing.get n).workingTrim = some t → s.storeLine n a m l = s.writeLine k m (trimLine t l))

/-! ## Missing-field expiries -/

/-- An expiry in RUNNING ends the arriving field, consumes a number, turns the expected parity over, counts a miss and leaves
no field arriving; then the transmitter and the loader take it (R20). One that is not the eighth restarts the timer at one
field period (R12). The eighth, of a feed without pending items, puts it in DOWN, stops the timer, empties its history and
leaves no job of it waiting (R13); pending items become active at once and the record is emptied, and a disable among them
takes the feed on to OFF (R13, R171). The missed field's record is a CLOSED gap, MISSING, after the history cap, with
FIELD_MISSING and FIELDS_MISSING, and then has a gap's closure work (R12, R57). The model's choices: words go wrong first (log
entry 5), the transmitter before the loader (log entry 14), and at DOWN the tracker as R83 resets it (log entry 22). -/
def Obligations.MissingFieldExpires : Prop :=
  (∀ (n : Feed) (us : List Upset) (s : State) (v : Nat), s.resetHeld = false → (s.lrx.get n).state = .running →
    (s.lrx.get n).timer = .running v →
    let missed := ((s.upset us).closeArriving n).missField n
    ((s.lrx.get n).misses < 7 →
      exec (.missingFieldExpiry n us) s = .next ((missed.outputExpiry n).handToLoader n) ∧
      ∃ t : State, exec (.missingFieldExpiry n us) s = .next t ∧
        t.lrx.get n =
          ⟨.running, (s.lrx.get n).counter + 1, (s.lrx.get n).expected.opposite, .running (s.period n),
            (s.lrx.get n).misses + 1, none⟩) ∧
    ((s.lrx.get n).misses = 7 → s.cue.staged.get n = emptyPending →
      exec (.missingFieldExpiry n us) s =
        .next ((((missed.setRx n { missed.lrx.get n with state := .down, timer := .stopped }).raise .feedDown (.feed n)
          (.sequence (s.lrx.get n).counter)).clearFeed n).outputExpiry n |>.handToLoader n) ∧
      ∃ t : State, exec (.missingFieldExpiry n us) s = .next t ∧
        t.lrx.get n =
          ⟨.down, (s.lrx.get n).counter + 1, (s.lrx.get n).expected.opposite, .stopped, 8, none⟩ ∧
        t.history n = [] ∧ t.fen.waiting.filter (fun j => j.feed == n) = []) ∧
    (∀ items, (s.lrx.get n).misses = 7 → s.cue.staged.get n = items → items ≠ emptyPending →
      exec (.missingFieldExpiry n us) s =
        .next ((((((missed.setRx n { missed.lrx.get n with state := .down, timer := .stopped }).raise .feedDown (.feed n)
          (.sequence (s.lrx.get n).counter)).clearFeed n).setStaged n emptyPending).applyAtOnce n
          items).outputExpiry n |>.handToLoader n) ∧
      ∃ t : State, exec (.missingFieldExpiry n us) s = .next t ∧
        t.lrx.get n =
          ⟨if items.enable = some false then .off else .down, (s.lrx.get n).counter + 1, (s.lrx.get n).expected.opposite,
            .stopped, if items.enable = some false then 0 else 8, none⟩ ∧
        t.cue.staged.get n = emptyPending ∧ t.history n = [] ∧ t.fen.waiting.filter (fun j => j.feed == n) = [])) ∧
  (∀ (n : Feed) (s : State),
    let q := (s.lrx.get n).counter
    let s0 := if 8 ≤ (s.history n).length then s.historyCap n else s
    let appended := s0.setHist n (s0.history n ++
      [⟨q, (s.lrx.get n).expected, .closed, .gap .missing, ⟨false, false, false, false⟩, [], 0, [], none, none, none,
        false⟩])
    let k := (s.lrx.get n).misses + 1
    let rx : Receiver := { s.lrx.get n with
      counter := q + 1, expected := (s.lrx.get n).expected.opposite, misses := min 8 k
      timer := if 8 ≤ k then .stopped else .running (s.period n) }
    let closed := (((appended.setRx n rx).raise .fieldMissing (.feed n) (.sequence q)).count n .fieldsMissing
      1).gapClosureWork n q
    s.missField n = (closed.setRx n { rx with arriving := none }).setIng n ⟨none, 0⟩)

/-! ## Blanking lines -/

/-- A blanking line without a marker changes nothing (R18). One that holds one complete packet, neither CUE nor MAP: the
packet joins the carry queue of the output of the same feed, unchanged and without a check, or is dropped with
CARRY_OVERFLOW by a full queue (R19, R156). One that holds one complete cue: for another device number it is carried; for the
part's own number, not 15, it is the cue command of its code, UNKNOWN_CUE_KIND for a code outside 1..16 (R19, R164), in the same
step (the model's choice, log entry 9);
for 15 it is carried, also where 15 is the part's own number (log entry 8), and then taken (R156). Several packets of a line are
taken in order in one step (the model's choice, log entry 10), and words outside packets pass. A packet is cut whose length word exceeds 240, the search going on after that
word, or whose words pass the end of the line, which ends it (R18). A cut cue of the part is discarded: CUE_DISCARDED with its
tag, absent where the line ends before it, and CUES_DISCARDED; another cut packet does nothing (R18, R165 test 1). -/
def Obligations.PacketsRouted : Prop :=
  (∀ (n : Feed) (ws : List Word) (d : Straps) (s : State),
    (∀ i, ¬(ws[i]? = some markerHigh ∧ ws[i + 1]? = some markerLow ∧ ws[i + 2]? = some markerHigh)) →
    exec (.blankingPacket n ws d) s = .next s) ∧
  (∀ (n : Feed) (p : Packet) (d : Straps) (s : State), s.resetHeld = false → p.payload.length ≤ 240 →
    p.kind ≠ kindCue → p.kind ≠ kindMap →
    ((s.otx.get n).carry.length < 16 →
      exec (.blankingPacket n p.words d) s =
        .next (s.setOtx n { s.otx.get n with carry := (s.otx.get n).carry ++ [p] })) ∧
    (16 ≤ (s.otx.get n).carry.length →
      exec (.blankingPacket n p.words d) s =
        .next ((s.raise .carryOverflow (.feed n) (.kindWord p.kind)).count n .carriedLost 1))) ∧
  (∀ (n : Feed) (c : CueWords) (code : Word) (d : Straps) (s : State), s.resetHeld = false →
    c.payload.length ≤ 240 →
    (s.isAddressed c.device = false →
      exec (.blankingPacket n (CueWords.packet c code).words d) s = .next (s.appendCarry n (CueWords.packet c code))) ∧
    (s.isAddressed c.device = true → c.device ≠ 0x00F →
      exec (.blankingPacket n (CueWords.packet c code).words d) s = .next (s.cueByCode n code c d)) ∧
    (c.device = 0x00F →
      exec (.blankingPacket n (CueWords.packet c code).words d) s =
        .next ((s.appendCarry n (CueWords.packet c code)).cueByCode n code c d))) ∧
  (∀ (n : Feed) (c : CueWords) (code : Word) (d : Straps) (s : State), s.resetHeld = false →
    exec
      ([.unknownCueKind n code c, .feedConfig n c, .rasterSet n c, .trimSet n c, .motionSet n c, .cadenceSet n c,
        .cadenceForce n c, .watchSet n c, .feedRestart n c, .tableOpen n c, .tablePart n c, .tableAbandon n c, .noticeSet n c,
        .reportSet n c, .snapshot n c, .statusQuery n c, .deviceRestart n c d].getD code.toNat (.unknownCueKind n code c)) s =
      .next (s.cueByCode n code c d)) ∧
  (∀ (s : State) (w : Word), s.isAddressed w = true ↔ w.toNat = s.cue.deviceNumber.val ∨ w.toNat = 15) ∧
  (∀ (n : Feed) (w : Word) (p : Packet) (ws : List Word) (d : Straps) (s t : State),
    exec (.blankingPacket n [] d) s = .next s ∧
    (¬(w = markerHigh ∧ ∃ rest, ws = markerLow :: markerHigh :: rest) →
      exec (.blankingPacket n (w :: ws) d) s = exec (.blankingPacket n ws d) s) ∧
    (p.payload.length ≤ 240 → exec (.blankingPacket n p.words d) s = .next t →
      exec (.blankingPacket n (p.words ++ ws) d) s = exec (.blankingPacket n ws d) t)) ∧
  (∀ (n : Feed) (ws : List Word) (d : Straps) (s : State), s.resetHeld = false →
    let line := fun (x : List Word) => markerHigh :: markerLow :: markerHigh :: x
    let discarded := fun (o : Detail) => (s.raise .cueDiscarded (.feed n) o).countDev .cuesDiscarded
    (∀ k dev sc c tg len : Word,
      let cut := if k = kindCue ∧ s.isAddressed dev = true then discarded (.tag tg) else s
      (240 < len.toNat →
        exec (.blankingPacket n (line (k :: dev :: sc :: c :: tg :: len :: ws)) d) s = exec (.blankingPacket n ws d) cut) ∧
      (len.toNat ≤ 240 → ws.length ≤ len.toNat →
        exec (.blankingPacket n (line (k :: dev :: sc :: c :: tg :: len :: ws)) d) s = .next cut)) ∧
    (ws.length < 6 →
      (∀ dev, ws[0]? = some kindCue → ws[1]? = some dev → s.isAddressed dev = true →
        (∀ tg, ws[4]? = some tg → exec (.blankingPacket n (line ws) d) s = .next (discarded (.tag tg))) ∧
        (ws[4]? = none → exec (.blankingPacket n (line ws) d) s = .next (discarded .absent))) ∧
      ((∀ dev, ws[1]? = some dev → ws[0]? ≠ some kindCue ∨ s.isAddressed dev = false) →
        exec (.blankingPacket n (line ws) d) s = .next s)))

/-- A blanking line that holds one complete map packet: it is discarded where no field is arriving, where the field has
its first line, where the check word is wrong and where the length is no whole number of entries; else its entries are
taken in order (R47), whatever its code and tag words hold (log entry 30, DEDUCED). An entry below the count of 64 is counted
and applied: LOST over CONCEALED, lines of L or more and other conditions ignored; at 64 the first further entry gives
MAP_OVERFLOW, condition and notice, and nothing is applied (R48). -/
def Obligations.MapPacketTaken : Prop :=
  (∀ (n : Feed) (p : Packet) (d : Straps) (s : State), s.resetHeld = false → p.payload.length ≤ 240 →
    p.kind = kindMap →
    (((s.lrx.get n).arriving = none ∨ (∃ a, (s.lrx.get n).arriving = some a ∧ 0 < a.linesReceived) ∨
        p.checkOk = false ∨ p.payload.length % 3 ≠ 0) →
      exec (.blankingPacket n p.words d) s = .next s) ∧
    (∀ a, (s.lrx.get n).arriving = some a → a.linesReceived = 0 → p.checkOk = true → p.payload.length % 3 = 0 →
      exec (.blankingPacket n p.words d) s = .next ((mapEntriesOf p.payload).foldl (State.takeMapEntry n) s))) ∧
  (∀ (h l c : Word) (ws : List Word),
    mapEntriesOf [] = [] ∧ mapEntriesOf (h :: l :: c :: ws) = (h.toNat * 256 + l.toNat, c.toNat) :: mapEntriesOf ws) ∧
  (∀ (n : Feed) (s : State) (a : Arriving) (line cond : Nat), (s.lrx.get n).arriving = some a →
    let k := (s.ing.get n).mapEntries
    (k < 64 →
      s.takeMapEntry n (line, cond) =
        (s.setRx n { s.lrx.get n with arriving := some { a with map := a.map.apply (s.fieldLines n) line cond } }).setIng n
          { s.ing.get n with mapEntries := k + 1 }) ∧
    (64 ≤ k →
      (s.record n a.seq = none → s.takeMapEntry n (line, cond) = s) ∧
      (∀ r, s.record n a.seq = some r →
        (r.conditions.mapOverflow = true → s.takeMapEntry n (line, cond) = s) ∧
        (r.conditions.mapOverflow = false →
          s.takeMapEntry n (line, cond) =
            (s.modifyRecord n a.seq (fun x => { x with conditions := { x.conditions with mapOverflow := true } })).raise
              .mapOverflow (.feed n) (.sequence a.seq))))) ∧
  (∀ (m : DropoutMap) (lines line cond x : Nat),
    (x ∈ (m.apply lines line cond).lost ↔ x ∈ m.lost ∨ (x = line ∧ line < lines ∧ cond = 1)) ∧
    (x ∈ (m.apply lines line cond).concealed ↔
      (x ∈ m.concealed ∧ ¬(x = line ∧ line < lines ∧ cond = 1)) ∨ (x = line ∧ line < lines ∧ cond = 2 ∧ line ∉ m.lost)))

/-! ## Closures -/

/-- Dsame: over the compared line pairs and the 180 positions 0, 4, ..., 716, the sum of the absolute differences, times 16,
divided by the number of samples, at most 16368; absent with no pair (R52). Cprev: over the counted trios, the sum of twice the
middle sample less its neighbours, times 8, divided by the number, at most 16240; absent with no trio (R53). The compared
lines are those usable in both records; a trio takes lines m and m+1 of F0 and of the previous record line m for an UPPER F0,
m+1 for a LOWER one. The record two back enters where it has content and F0's parity and the tight flag does not rule it out
for class 0 or 1; the previous record where it has content, the other parity and no poor mark. Both measures are computed after
the reads: every line of F0 where a measure is not absent before them, every line of the record two back, and each middle line
of the previous record, where those enter (R51); their order is the model's (log entry 18). Both are entered in the record. -/
def Obligations.Measures : Prop :=
  let ys := fun (l : Line) (i : Nat) => ((l.y.getD (4 * i) 0).toNat : Int)
  (∀ pairs : List (Line × Line),
    let sum := (pairs.map (fun p => ((List.range 180).map (fun i => (ys p.1 i - ys p.2 i).natAbs)).sum)).sum
    (pairs = [] → dsameOf pairs = none) ∧ (pairs ≠ [] → dsameOf pairs = some (sum * 16 / (180 * pairs.length))) ∧
    (∀ d, dsameOf pairs = some d → d ≤ 16368)) ∧
  (∀ trios : List (Line × Line × Line),
    let sum := (trios.map (fun t =>
      ((List.range 180).map (fun i => (2 * ys t.2.1 i - ys t.1 i - ys t.2.2 i).natAbs)).sum)).sum
    (trios = [] → cprevOf trios = none) ∧ (trios ≠ [] → cprevOf trios = some (sum * 8 / (180 * trios.length))) ∧
    ((∀ t ∈ trios, ∀ i, i < 180 →
        (4 ≤ ys t.1 i ∧ ys t.1 i ≤ 1019) ∧ (4 ≤ ys t.2.1 i ∧ ys t.2.1 i ≤ 1019) ∧
          (4 ≤ ys t.2.2 i ∧ ys t.2.2 i ≤ 1019)) →
      ∀ c, cprevOf trios = some c → c ≤ 16240)) ∧
  (∀ (mem : Memory) (lines : Nat) (f0 x : FieldRecord) (k l : Fin 24), f0.content = .slot k → x.content = .slot l →
    let ok := fun (r : FieldRecord) (m : Nat) => !r.lost.contains m && !r.damaged.contains m
    let mid := fun (m : Nat) => if f0.parity = .upper then m else m + 1
    comparedPairs mem lines f0 x =
      ((List.range lines).filter (fun m => ok f0 m && ok x m)).map (fun m => (lineAt mem k m, lineAt mem l m)) ∧
    countedTrios mem lines f0 x =
      ((List.range (lines - 1)).filter (fun m => ok f0 m && ok x (mid m) && ok f0 (m + 1))).map
        (fun m => (lineAt mem k m, lineAt mem l (mid m), lineAt mem k (m + 1)))) ∧
  (∀ (blocked : Bool) (f0 r : FieldRecord) (o : Option FieldRecord),
    (dsameRecord blocked f0 o = some r ↔
      o = some r ∧ blocked = false ∧ (∃ k, r.content = .slot k) ∧ r.parity = f0.parity) ∧
    (cprevRecord f0 o = some r ↔
      o = some r ∧ (∃ k, r.content = .slot k) ∧ r.parity ≠ f0.parity ∧ r.poor = false)) ∧
  (∀ (s : State) (n : Feed) (q : Seq) (earlier later : List FieldRecord) (f0 : FieldRecord),
    s.history n = earlier ++ f0 :: later → f0.seq = q → (∀ r ∈ earlier, r.seq ≠ q) →
    let blocked := decide ((s.settings n).cls.val ≤ 1) && s.fst.tight
    let prev := cprevRecord f0 earlier.reverse[0]?
    let back := dsameRecord blocked f0 earlier.reverse[1]?
    let mid := fun (m : Nat) => if f0.parity = .upper then m else m + 1
    let due :=
      (if back.isSome = true ∨ prev.isSome = true then (List.range (s.fieldLines n)).map (fun m => (q, m)) else []) ++
        back.toList.flatMap (fun r => (List.range (s.fieldLines n)).map (fun m => (r.seq, m))) ++
        prev.toList.flatMap (fun r => (List.range (s.fieldLines n - 1)).map (fun m => (r.seq, mid m)))
    let u := due.foldl (fun (t : State) x => (t.readLine false n x.1 x.2).2) s
    let now := fun (o : Option FieldRecord) => o.bind (fun r => u.record n r.seq)
    let ds := (u.record n q).bind (fun a => (now back).bind (fun b => dsameOf (comparedPairs u.fst.mem (s.fieldLines n) a b)))
    let cp := (u.record n q).bind (fun a => (now prev).bind (fun b => cprevOf (countedTrios u.fst.mem (s.fieldLines n) a b)))
    s.enterMeasures n q = u.modifyRecord n q (fun r => { r with dsame := ds, cprev := cp }))

/-- The closure work of a stored field, in order: the map, the measures, the poor mark of MAP_OVERFLOW, the two watch limits,
the evidence, retention (R56); that of a gap is the last two (R57). The map: its LOST lines join the lost set, the concealed
count is that of its CONCEALED lines outside it, LINES_LOST and LINES_CONCEALED are counted (R50). A limit that is enabled and
whose measure stands above, or below, its value raises its notice with the field's number, and POOR marks the record; MOTION
without Dsame is not crossed (R54, R55). -/
def Obligations.ClosureMapAndWatch : Prop :=
  (∀ (s : State) (n : Feed) (q : Seq) (m : DropoutMap),
    let s1 := (s.enterMap n q m).enterMeasures n q
    let s2 := s1.overflowPoor n q
    let s3 := s2.watchLimit n q (s2.settings n).watch1 .quality1
    let s4 := s3.watchLimit n q (s2.settings n).watch2 .quality2
    s.closureWork n q m = (s4.evidenceEvent n q).retain n ∧ s.gapClosureWork n q = (s.evidenceEvent n q).retain n) ∧
  (∀ (s : State) (n : Feed) (q : Seq) (m : DropoutMap) (r : FieldRecord), s.record n q = some r →
    ∃ (lost : List Nat) (concealed : Nat),
      s.enterMap n q m =
        ((s.modifyRecord n q (fun x => { x with lost := lost, concealed := concealed })).count n .linesLost
          lost.length).count n .linesConcealed concealed ∧
      (∀ x, x ∈ lost ↔ x ∈ r.lost ∨ x ∈ m.lost) ∧
      (r.lost.Pairwise (fun a b => a < b) → lost.Pairwise (fun a b => a < b)) ∧
      concealed = m.concealed.countP (fun x => decide (x ∉ r.lost) && decide (x ∉ m.lost))) ∧
  (∀ (s : State) (n : Feed) (q : Seq) (r : FieldRecord), s.record n q = some r →
    (r.conditions.mapOverflow = true → s.overflowPoor n q = s.modifyRecord n q (fun x => { x with poor := true })) ∧
    (r.conditions.mapOverflow = false → s.overflowPoor n q = s) ∧
    (∀ (w : Watch) (k : NoticeKind),
      let crossed := w.enabled = true ∧ ∃ v,
        (match w.measure with
          | .lostLines => some r.lost.length
          | .concealedLines => some r.concealed
          | .motion => r.dsame) = some v ∧
        (match w.direction with
          | .above => w.value < v
          | .below => v < w.value)
      (¬crossed → s.watchLimit n q w k = s) ∧
      (crossed → w.action = .note → s.watchLimit n q w k = s.raise k (.feed n) (.sequence q)) ∧
      (crossed → w.action = .poor →
        s.watchLimit n q w k =
          (s.raise k (.feed n) (.sequence q)).modifyRecord n q (fun x => { x with poor := true }))))

/-! ## Frame starts -/

/-- A frame start fixes its frame (R143, R144), restarts a free timer (R147), compares the source (R150), places the blanking
(R151) and holds both on the link (R145). With the other half READY that half becomes SENDING and its frame is sent, the
SENDING half becomes EMPTY, the repeat count 0, the fill flag clear, nothing raised or counted. Without: with the fill flag
set the fill frame, FRAMES_FILL; else the count rises, and below the hold limit the SENDING half's frame again,
FRAMES_REPEATED, at it the fill frame, the flag set, FRAMES_FILL, and OUTPUT_FILL with the half's source. The fill frame: luma
64, Cb and Cr 512 at every sample of 1080 rows (R142). The model's choices: an absent detail where the source is FILL, which no
run reaches (log entry 29), and a blanking drawn after the frame is fixed (log entries 32 and 36). -/
def Obligations.FrameFixed : Prop :=
  (∀ (n : Feed) (s : State),
    let f := s.fixFrame n
    let b := ((f.2.restartIfFree n).adoptSource n).placeBlanking n
    s.frameStart n = b.2.setOtx n { b.2.otx.get n with link := some ⟨f.1, b.1⟩ } ∧
    (s.frameStart n).sentRows n = some f.1.rows) ∧
  (∀ (n : Feed) (s : State) (f : Frame), (s.otx.get n).oneSending = true → (s.otx.get n).otherHalf.state = .ready →
    (s.otx.get n).otherHalf.frame = some f →
    let t := s.frameStart n
    s.fixFrame n = (.built f, s.setOtx n ((s.fixFrame n).2.otx.get n)) ∧
    (t.otx.get n).sendingHalf = { (s.otx.get n).otherHalf with state := .sending } ∧
    (t.otx.get n).otherHalf = { (s.otx.get n).sendingHalf with state := .empty } ∧
    (t.otx.get n).oneSending = true ∧
    (t.otx.get n).repeatCount = 0 ∧ (t.otx.get n).fillFlag = false ∧ t.sentRows n = some f ∧
    t.ntu.table.Sublist s.ntu.table ∧ t.ntu.feedCounters = s.ntu.feedCounters ∧
    t.ntu.devCounters = s.ntu.devCounters) ∧
  (∀ (n : Feed) (s : State), (s.otx.get n).otherHalf.state ≠ .ready →
    let o := s.otx.get n
    let t := s.frameStart n
    let u := t.otx.get n
    let source := match o.sendingHalf.source with
      | .fill => Detail.absent
      | .field q => Detail.sequence q
    u.half0 = o.half0 ∧ u.half1 = o.half1 ∧
    (o.fillFlag = true →
      s.fixFrame n = (.fill, s.count n .framesFill 1) ∧
      u.repeatCount = o.repeatCount ∧ u.fillFlag = true ∧ t.sentRows n = some fillFrame ∧
      t.ntu.feedCounters.get n = (s.ntu.feedCounters.get n).add .framesFill 1) ∧
    (o.fillFlag = false → o.repeatCount + 1 < (s.settings n).holdLimit →
      (s.fixFrame n).2 = (s.setOtx n { o with repeatCount := o.repeatCount + 1 }).count n .framesRepeated 1 ∧
      u.repeatCount = o.repeatCount + 1 ∧ u.fillFlag = false ∧
      (∀ f, o.sendingHalf.frame = some f → t.sentRows n = some f) ∧
      t.ntu.feedCounters.get n = (s.ntu.feedCounters.get n).add .framesRepeated 1) ∧
    (o.fillFlag = false → (s.settings n).holdLimit ≤ o.repeatCount + 1 →
      s.fixFrame n =
        (.fill, ((s.setOtx n { o with repeatCount := o.repeatCount + 1, fillFlag := true }).count n .framesFill 1).raise
          .outputFill (.feed n) source) ∧
      u.repeatCount = o.repeatCount + 1 ∧ u.fillFlag = true ∧ t.sentRows n = some fillFrame ∧
      t.ntu.feedCounters.get n = (s.ntu.feedCounters.get n).add .framesFill 1)) ∧
  (Picture.fill.rows = fillFrame ∧ fillFrame.length = 1080 ∧
    ∀ l ∈ fillFrame, (l.y.length = 1920 ∧ ∀ x ∈ l.y, x = 64) ∧ (l.cb.length = 960 ∧ ∀ x ∈ l.cb, x = 512) ∧
      (l.cr.length = 960 ∧ ∀ x ∈ l.cr, x = 512))

/-- The frame timer's expiry is a frame start; while the output still runs free, with no new timing source to adopt, it
restarts the timer at one field period (R147). A frame start of any cause places at most 12 packets (R151). -/
def Obligations.FrameTimerExpires : Prop :=
  (∀ (n : Feed) (s : State) (v : Nat), s.resetHeld = false → (s.otx.get n).frameTimer = .running v →
    exec (.frameTimerExpiry n) s = .next (s.frameStart n) ∧
    (s.runsFree n = true → (s.otx.get n).source = (s.settings n).timing →
      ((s.frameStart n).otx.get n).frameTimer = .running (s.period n))) ∧
  (∀ (n : Feed) (s : State), ∃ v, ((s.frameStart n).otx.get n).link = some v ∧ v.packets.length ≤ 12)

/-- A pulse on REF reaches the transmitters 0 to 3, in an order that is the model's (log entry 11). One whose source in use is
not REFERENCE ignores it; for one whose source is REFERENCE it is a frame start, with the reference PRESENT, the frame timer
stopped and the watch timer at 1.5 field periods. The watch timer's expiry: the reference is LOST, the watch stopped,
REFERENCE_LOST raised with NO_PULSE, and after it, by the model's choice (log entry 35), a frame start, which starts the frame
timer at one field period (R148) unless the setting has changed (R150). -/
def Obligations.ReferenceEvents : Prop :=
  (∀ s : State, s.resetHeld = false → exec .refPulse s = .next ((((s.pulse 0).pulse 1).pulse 2).pulse 3)) ∧
  (∀ (n : Feed) (s : State),
    ((s.otx.get n).source ≠ .reference → s.pulse n = s) ∧
    ((s.otx.get n).source = .reference →
      let t := s.setOtx n { s.otx.get n with
        reference := some .present, frameTimer := .stopped
        watchTimer := .running (s.settings n).struct.periodAndHalf }
      s.pulse n = t.frameStart n ∧
      ((s.settings n).timing = .reference →
        ((s.pulse n).otx.get n).source = .reference ∧ ((s.pulse n).otx.get n).reference = some .present ∧
        ((s.pulse n).otx.get n).frameTimer = .stopped ∧
        ((s.pulse n).otx.get n).watchTimer = .running (s.settings n).struct.periodAndHalf)) ∧
    (∀ m : Feed, m ≠ n → (s.pulse n).otx.get m = s.otx.get m)) ∧
  (∀ (n : Feed) (s : State) (v : Nat), s.resetHeld = false → (s.otx.get n).watchTimer = .running v →
    let t := (s.setOtx n { s.otx.get n with reference := some .lost, watchTimer := .stopped }).raise .referenceLost
      (.feed n) (.reason .noPulse)
    let u := (t.frameStart n).otx.get n
    exec (.referenceWatchExpiry n) s = .next (t.frameStart n) ∧
    ((s.otx.get n).source = .reference → (s.settings n).timing = .reference →
      u.source = .reference ∧ u.reference = some .lost ∧ u.watchTimer = .stopped ∧
      u.frameTimer = .running (s.period n)))

/-- At a frame start: the timer of an output that runs free (Table 8-3) restarts at one field period (R147); a setting equal
to the source in use changes nothing, another is adopted with its reference state and timers (R150). While the source in use
is INPUT, a field start that leaves the feed RUNNING stops the frame timer and is a frame start, one that leaves it otherwise
starts a stopped timer and is ignored by an output that runs free, and a missing-field expiry is a frame start; for another
source neither does anything (R149). A restart of a RUNNING feed under INPUT starts the timer (R157). -/
def Obligations.SourceAdoptionAndInput : Prop :=
  ∀ (n : Feed) (s : State),
    let o := s.otx.get n
    let period := Timer.running (s.period n)
    let free := o.source = .free ∨ (o.source = .reference ∧ o.reference = some .lost) ∨
      (o.source = .input ∧ (s.lrx.get n).state ≠ .running)
    (free → s.restartIfFree n = s.setOtx n { o with frameTimer := period }) ∧ (¬free → s.restartIfFree n = s) ∧
    (o.source = (s.settings n).timing → s.adoptSource n = s) ∧
    (o.source ≠ (s.settings n).timing →
      ((s.settings n).timing = .free →
        s.adoptSource n =
          s.setOtx n { o with source := .free, reference := none, watchTimer := .stopped, frameTimer := period }) ∧
      ((s.settings n).timing = .reference →
        s.adoptSource n =
          s.setOtx n { o with
            source := .reference, reference := some .present, frameTimer := .stopped
            watchTimer := .running (s.settings n).struct.periodAndHalf }) ∧
      ((s.settings n).timing = .input →
        s.adoptSource n =
          s.setOtx n { o with
            source := .input, reference := none, watchTimer := .stopped
            frameTimer := if (s.lrx.get n).state = .running then .stopped else period })) ∧
    (o.source ≠ .input →
      s.outputFieldStart n = s ∧ s.outputExpiry n = s ∧ ∀ b : Bool, s.outputFeedRestart n b = s) ∧
    (o.source = .input →
      ((s.lrx.get n).state = .running →
        s.outputFieldStart n = (s.setOtx n { o with frameTimer := .stopped }).frameStart n) ∧
      ((s.lrx.get n).state ≠ .running →
        (o.frameTimer = .stopped → s.outputFieldStart n = s.setOtx n { o with frameTimer := period }) ∧
        (o.frameTimer ≠ .stopped → s.outputFieldStart n = s)) ∧
      s.outputExpiry n = s.frameStart n ∧ s.outputFeedRestart n true = s.setOtx n { o with frameTimer := period } ∧
      s.outputFeedRestart n false = s)

/-- The blanking of a frame, slot by slot, each drawn as the one before leaves the part (R151). Status latches: output 0
serves the device before feed 0, another its feed (R152). Counter latches likewise, where no status record of the scope still
waits; both may leave at one frame start, as Table 8-7 has it (log entry 33). The periodic report of output 0: due at the
period's count, for the lowest member of the scan set above the last, else the lowest (R153, R194). Up to 4 results, oldest
first (R153). Up to 4 unmasked notices of the served scopes, by level and then by code, one that this frame start raised
among them (R190, log entry 32). Carried packets to the rest of 12 (R154). A report packet has the part's number and a right check
word (R160, R162); a RESULT its code, outcome, reason and adjusted items, a NOTICE its kind, level, count and detail (Tables 9-4
to 9-6, 11-1). A PERIODIC report is of the state after the frame is fixed (log entry 36). -/
def Obligations.BlankingSlots : Prop :=
  (∀ (n : Feed) (s : State),
    let d1 := s.drawStatus n
    let d2 := d1.2.drawCounters n
    let d3 := d2.2.drawPeriodic n
    let d4 := d3.2.drawResults n
    let d5 := d4.2.drawNotices n
    let front := d1.1 ++ d2.1 ++ d3.1 ++ d4.1 ++ d5.1
    let d6 := d5.2.drawCarry n (12 - front.length)
    s.placeBlanking n = (front ++ d6.1, d6.2) ∧ front.length ≤ 11) ∧
  (∀ (n : Feed) (s : State) (sc : Scope) (r : List Word),
    let first := fun (waits : Scope → Bool) =>
      waits sc = true ∧ ((n = 0 ∧ sc = .device) ∨ (sc = .feed n ∧ (n = 0 → waits .device = false)))
    let none' := fun (waits : Scope → Bool) => waits (.feed n) = false ∧ (n = 0 → waits .device = false)
    let status := fun (x : Scope) => (s.latches x).status.isSome
    let counters := fun (x : Scope) => (s.latches x).counters.isSome && (s.latches x).status.isNone
    (none' status → s.drawStatus n = ([], s)) ∧ (none' counters → s.drawCounters n = ([], s)) ∧
    (first status → (s.latches sc).status = some r →
      s.drawStatus n = ([s.report sc.word 0x003 0 r], s.setLatches sc { s.latches sc with status := none })) ∧
    (first counters → (s.latches sc).counters = some r →
      s.drawCounters n = ([s.report sc.word 0x004 0 r], s.setLatches sc { s.latches sc with counters := none }))) ∧
  (∀ s : State,
    let p := s.ntu.periodic
    (∀ n : Feed, n ≠ 0 → s.drawPeriodic n = ([], s)) ∧
    ((p.period = 0 ∨ ∀ f, p.scan.get f = false) → s.drawPeriodic 0 = ([], s)) ∧
    (∀ f : Feed, p.period ≠ 0 → p.scan.get f = true →
      let above := fun (g : Feed) => p.scan.get g = true ∧ ∀ l, p.last = some l → l < g
      ((above f ∧ ∀ g, above g → f ≤ g) ∨ ((∀ g, ¬above g) ∧ ∀ g, p.scan.get g = true → f ≤ g)) →
      (p.count + 1 < p.period → s.drawPeriodic 0 = ([], s.setPeriodic { p with count := p.count + 1 })) ∧
      (p.period ≤ p.count + 1 →
        s.drawPeriodic 0 =
          ([s.report (wordOf f.val) 0x005 0 (s.feedStatus f)], s.setPeriodic { p with count := 0, last := some f })))) ∧
  (∀ (n : Feed) (s : State) (room : Nat),
    s.drawResults n =
      (((s.otx.get n).results.take 4).map s.resultReport,
        s.setOtx n { s.otx.get n with results := (s.otx.get n).results.drop 4 }) ∧
    s.drawCarry n room =
      ((s.otx.get n).carry.take room, s.setOtx n { s.otx.get n with carry := (s.otx.get n).carry.drop room })) ∧
  (∀ (n : Feed) (s : State), s.noticesOk →
    let served := fun (e : NoticeEntry) => (e.scope = .feed n ∨ (n = 0 ∧ e.scope = .device)) ∧ e ∈ s.ntu.table ∧
      (s.noticeSetting e.kind).masked = false
    let level := fun (e : NoticeEntry) => (s.noticeSetting e.kind).level
    let before := fun (a b : NoticeEntry) => level b < level a ∨ (level a = level b ∧ a.kind.code ≤ b.kind.code)
    ∃ out : List NoticeEntry,
      s.drawNotices n =
        (out.map s.noticeReport,
          { s with ntu := { s.ntu with table := s.ntu.table.filter (fun e => decide (e ∉ out)) } }) ∧
      out.length ≤ 4 ∧ out.Nodup ∧ (∀ e ∈ out, served e) ∧ out.Pairwise before ∧
      (∀ e, served e → e ∉ out → out.length = 4 ∧ ∀ x ∈ out, before x e)) ∧
  (∀ s : State,
    let word := fun (v : Nat) => (BitVec.ofNat 10 v : Word)
    let reason := fun (r : Reason) => match r with
      | .superseded => 1
      | .sequence => 2
      | .stalled => 3
      | .tableRefused => 4
      | .noPulse => 5
      | .tableChanged => 7
    (∀ (sc code tag : Word) (payload : List Word),
      let head := [0x0D2, word s.cue.deviceNumber.val, sc, code, tag, word payload.length]
      s.report sc code tag payload =
        ⟨0x0D2, word s.cue.deviceNumber.val, sc, code, tag, payload, (head ++ payload).foldl (fun x y => x + y) 0⟩) ∧
    (∀ r : CueResult,
      let outcome : Word := match r.outcome with
        | .done => 0x000
        | .doneAdjusted => 0x001
        | .doneAlready => 0x002
        | .refusedKind => 0x010
        | .refusedLength => 0x011
        | .refusedScope => 0x012
        | .refusedValue => 0x013
        | .refusedBusy => 0x014
        | .nothingOpen => 0x020
        | .discarded => 0x021
        | .abandoned => 0x022
        | .tooLate => 0x023
      s.resultReport r =
        s.report r.scope 0x001 r.tag
          ([r.code, outcome, word ((r.reason.map reason).getD 0)] ++
            r.items.flatMap (fun i => [word i.1, word (i.2 / 256), word (i.2 % 256)]))) ∧
    (∀ e : NoticeEntry,
      let scope : Word := match e.scope with
        | .feed n => word n.val
        | .device => 0x00F
      let detail : Nat × Nat := match e.detail with
        | .absent => (0, 0)
        | .sequence q => (1, q.toNat)
        | .reason r => (2, reason r)
        | .table t => (3, t.val)
        | .tag w => (4, w.toNat)
        | .freeCount f => (5, f)
        | .kindWord w => (6, w.toNat)
      s.noticeReport e =
        s.report scope 0x002 0
          [word e.kind.code, word (s.noticeSetting e.kind).level, word e.count, word detail.1, word (detail.2 / 256),
            word (detail.2 % 256)])) ∧
  ([.feedUp, .feedDown, .fieldMissing, .fieldDropped, .parityRepeat, .fieldShort, .fieldLong, .mapOverflow, .lockAcquired,
      .lockBroken, .quality1, .quality2, .storeCorrected, .storeUncorrectable, .poolTight, .poolReclaim, .jobSkipped,
      .outputFill, .referenceLost, .cueDiscarded, .resultOverflow, .carryOverflow, .loadDiscarded, .tableAdopted].map
    NoticeKind.code = List.range' 1 24)

/-! ## Notices -/

/-- A raise makes an entry with count 1 and its detail, or adds one to the count of the entry of its kind and scope,
leaving 255 at 255 and keeping its detail; it keeps one entry per kind and scope and counts within 1..255, whatever the
masks (R189). A count adds its amount to the one counter it names, up to 4294967295, where the counter stays (R191). -/
def Obligations.RaiseNotice : Prop :=
  ∀ (s : State) (k : NoticeKind) (sc : Scope) (d : Detail),
    s.raise k sc d = { s with ntu := { s.ntu with table := (s.raise k sc d).ntu.table } } ∧
    ((∀ e ∈ s.ntu.table, ¬(e.kind = k ∧ e.scope = sc)) → (s.raise k sc d).ntu.table = s.ntu.table ++ [⟨k, sc, 1, d⟩]) ∧
    ((∃ e ∈ s.ntu.table, e.kind = k ∧ e.scope = sc) →
      (s.raise k sc d).ntu.table =
        s.ntu.table.map (fun e =>
          if e.kind = k ∧ e.scope = sc then { e with count := if e.count < 255 then e.count + 1 else 255 } else e)) ∧
    (s.noticesOk → (s.raise k sc d).noticesOk) ∧
    (∀ (n : Feed) (c : FeedCounter) (j : Nat),
      s.count n c j =
        { s with ntu := { s.ntu with feedCounters := s.ntu.feedCounters.set n ((s.ntu.feedCounters.get n).add c j) } }) ∧
    (∀ c : DeviceCounter, s.countDev c = { s with ntu := { s.ntu with devCounters := s.ntu.devCounters.add c 1 } }) ∧
    (∀ (f : FeedCounters) (j : Nat),
      let up := fun (v : Nat) => if v + j ≤ 4294967295 then v + j else 4294967295
      f.add .fieldsStored j = { f with fieldsStored := up f.fieldsStored } ∧
      f.add .fieldsMissing j = { f with fieldsMissing := up f.fieldsMissing } ∧
      f.add .fieldsDropped j = { f with fieldsDropped := up f.fieldsDropped } ∧
      f.add .parityRepeats j = { f with parityRepeats := up f.parityRepeats } ∧
      f.add .linesLost j = { f with linesLost := up f.linesLost } ∧
      f.add .linesConcealed j = { f with linesConcealed := up f.linesConcealed } ∧
      f.add .storeCorrected j = { f with storeCorrected := up f.storeCorrected } ∧
      f.add .linesDamaged j = { f with linesDamaged := up f.linesDamaged } ∧
      f.add .locks j = { f with locks := up f.locks } ∧ f.add .breaks j = { f with breaks := up f.breaks } ∧
      f.add .jobsDone j = { f with jobsDone := up f.jobsDone } ∧
      f.add .jobsSkipped j = { f with jobsSkipped := up f.jobsSkipped } ∧
      f.add .framesRepeated j = { f with framesRepeated := up f.framesRepeated } ∧
      f.add .framesFill j = { f with framesFill := up f.framesFill } ∧
      f.add .framesDiscarded j = { f with framesDiscarded := up f.framesDiscarded } ∧
      f.add .carriedLost j = { f with carriedLost := up f.carriedLost }) ∧
    (∀ (f : DeviceCounters) (j : Nat),
      let up := fun (v : Nat) => if v + j ≤ 4294967295 then v + j else 4294967295
      f.add .cuesTaken j = { f with cuesTaken := up f.cuesTaken } ∧
      f.add .cuesDiscarded j = { f with cuesDiscarded := up f.cuesDiscarded } ∧
      f.add .cuesRefused j = { f with cuesRefused := up f.cuesRefused } ∧
      f.add .reclaims j = { f with reclaims := up f.reclaims } ∧
      f.add .tablesAdopted j = { f with tablesAdopted := up f.tablesAdopted } ∧
      f.add .resultsLost j = { f with resultsLost := up f.resultsLost })

/-! ## Checked reads -/

/-- Two wrong words fall in one group of 16 exactly where the check finds a clash (R36, R38). A read of a record's line, by
the conditioner or by the build, which reads the record the job holds: a gap's, a lost or a damaged line is not read (R39); a
clean one is delivered; a corrected one is delivered, its words counted and STORE_CORRECTED raised (R37); a damaged one is not
delivered, joins the damaged set, is counted and STORE_UNCORRECTABLE raised (R38). A read that is due settles its line for the
build (R107). Due is an unsettled line of F0, once each line before it is settled or needs no read (R105), and then an unsettled
line of the neighbours that the final mode reads, of F-2 one whose F0 line is usable (R106). By the model's choice the words go
wrong before the read (log entry 5), and a read that is not due does nothing (log entry 6). -/
def Obligations.CheckedReads : Prop :=
  (∀ ws : List Nat, ws.Pairwise (fun a b => a < b) →
    (checkWords ws = .clean ↔ ws = []) ∧
    (checkWords ws = .damaged ↔ ∃ a ∈ ws, ∃ b ∈ ws, a ≠ b ∧ a / 16 = b / 16) ∧
    (∀ k, checkWords ws = .corrected k → k = ws.length ∧ k ≠ 0)) ∧
  (∀ (s : State) (build : Bool) (n : Feed) (q : Seq) (m : Nat) (x : FieldRecord),
    (if build then s.heldRecord n q else s.record n q) = some x →
    ((∃ c, x.content = .gap c) → s.readLine build n q m = (false, s)) ∧
    (∀ k : Fin 24, x.content = .slot k →
      (m ∈ x.lost ∨ m ∈ x.damaged → s.readLine build n q m = (false, s)) ∧
      (m ∉ x.lost → m ∉ x.damaged →
        let add := fun (y : FieldRecord) => { y with damaged := insertAscending m y.damaged }
        (checkWords (wrongAt s.fst.mem k m) = .clean → s.readLine build n q m = (true, s)) ∧
        (∀ w, checkWords (wrongAt s.fst.mem k m) = .corrected w →
          s.readLine build n q m =
            (true, (s.count n .storeCorrected w).raise .storeCorrected (.feed n) (.sequence q))) ∧
        (checkWords (wrongAt s.fst.mem k m) = .damaged →
          s.readLine build n q m =
            (false, ((if build then s.modifyHeld n q add else s.modifyRecord n q add).count n .linesDamaged 1).raise
              .storeUncorrectable (.feed n) (.sequence q)))))) ∧
  (∀ (r : BuildRole) (m : Fin 288) (us : List Upset) (s : State) (v : Service) (q : Seq),
    s.resetHeld = false → s.fen.service = some v →
    (s.readDue v r m.val = false → exec (.buildRead r m us) s = .next (s.upset us)) ∧
    (s.readDue v r m.val = true → v.roleRef r = some q →
      let o := (s.upset us).readLine true v.job.feed q m.val
      exec (.buildRead r m us) s = .next { o.2 with fen := { o.2.fen with service := some (v.settle r m.val o.1) } })) ∧
  (∀ (s : State) (v : Service) (r : BuildRole) (m : Nat),
    let ready := fun (i : Nat) => i ∈ v.reads.f0.usable ∨ i ∈ v.reads.f0.unusable ∨
      ∀ q x k, v.job.refs.f0 = some q → s.heldRecord v.job.feed q = some x → x.content = .slot k → i ∈ x.lost ∨ i ∈ x.damaged
    let lines := match r with
      | .f0 => v.reads.f0
      | .prev => v.reads.prev
      | .next => v.reads.next
      | .prev2 => v.reads.prev2
    (s.readDue v r m = true ↔
      m < v.lines ∧ m ∉ lines.usable ∧ m ∉ lines.unusable ∧
        ((r = .f0 ∧ ∀ i, i < m → ready i) ∨
          ((∀ i, i < v.lines → ready i) ∧
            ((r = .prev ∧ (v.finalMode = .weavePrev ∨ v.finalMode = .adaptive)) ∨
              (r = .next ∧ (v.finalMode = .weaveNext ∨ v.finalMode = .adaptive)) ∨
              (r = .prev2 ∧ v.finalMode = .adaptive ∧ v.prev2Usable = true ∧ m ∈ v.reads.f0.usable))))) ∧
    (∀ b : Bool,
      let settled := if b then SettledLines.mk (lines.usable ++ [m]) lines.unusable
        else SettledLines.mk lines.usable (lines.unusable ++ [m])
      v.settle r m b = { v with reads := match r with
        | .f0 => { v.reads with f0 := settled }
        | .prev => { v.reads with prev := settled }
        | .next => { v.reads with next := settled }
        | .prev2 => { v.reads with prev2 := settled } }) ∧
    v.roleRef r = (match r with
      | .f0 => v.job.refs.f0
      | .prev => v.job.refs.prev
      | .next => v.job.refs.next
      | .prev2 => v.job.refs.prev2))

/-! ## Frame jobs -/

/-- A created job enters at the newest end; where two of its feed wait, the older is first skipped, JOB_SKIPPED with its F0
number and JOBS_SKIPPED (R88). A head that the cap takes out: waiting jobs of its feed lose it, and one whose F0 it was is
skipped (R89). An IDLE engine chooses the job of highest class, of those the earliest (R90); one whose F0 has no content is
skipped, with retention, and it chooses again (R91), else the job starts. The model's readings: no retention at once after a skip
by the cap (log entry 17), an IDLE engine chooses within the event that creates the job (log entry 25), and a reference is a
record's number (log entry 28). -/
def Obligations.JobQueue : Prop :=
  (∀ (s : State) (j : Job),
    ((s.fen.waiting.filter (fun x => x.feed == j.feed)).length ≤ 1 →
      s.enqueue j = ({ s with fen := { s.fen with waiting := s.fen.waiting ++ [j] } }).arbitrate) ∧
    (∀ (pre post : List Job) (o : Job), s.fen.waiting = pre ++ o :: post → o.feed = j.feed →
      (∀ x ∈ pre, x.feed ≠ j.feed) → (∃ x ∈ post, x.feed = j.feed) →
      let u := (s.raise .jobSkipped (.feed o.feed) (.sequence o.f0Seq)).count o.feed .jobsSkipped 1
      s.enqueue j = ({ u with fen := { s.fen with waiting := pre ++ post ++ [j] } }).arbitrate)) ∧
  (∀ (s : State) (n : Feed) (q : Seq),
    let drop := fun (o : Option Seq) => if o = some q then none else o
    let skipped := s.fen.waiting.filter (fun j => decide (j.feed = n ∧ j.refs.f0 = some q))
    let left := (s.fen.waiting.filter (fun j => !decide (j.feed = n ∧ j.refs.f0 = some q))).map (fun j =>
      if j.feed = n then
        { j with refs := ⟨drop j.refs.f0, drop j.refs.prev, drop j.refs.next, drop j.refs.prev2⟩ }
      else j)
    s.dropWaitingRefs n q = skipped.foldl State.noteSkip { s with fen := { s.fen with waiting := left } } ∧
    ∀ (u : State) (j : Job),
      u.noteSkip j = (u.raise .jobSkipped (.feed j.feed) (.sequence j.f0Seq)).count j.feed .jobsSkipped 1) ∧
  (∀ s : State,
    (s.fen.service ≠ none → s.arbitrate = s) ∧ (s.fen.waiting = [] → s.arbitrate = s) ∧
    (∀ (pre post : List Job) (j : Job), s.fen.service = none → s.fen.waiting = pre ++ j :: post →
      (∀ x ∈ pre, (s.settings x.feed).cls < (s.settings j.feed).cls) →
      (∀ x ∈ post, (s.settings x.feed).cls ≤ (s.settings j.feed).cls) →
      let content := ∃ q r k, j.refs.f0 = some q ∧ s.record j.feed q = some r ∧ r.content = .slot k
      (content → s.arbitrate = s.startJob j) ∧
      (¬content →
        let u := (s.raise .jobSkipped (.feed j.feed) (.sequence j.f0Seq)).count j.feed .jobsSkipped 1
        s.arbitrate = (({ u with fen := { s.fen with waiting := pre ++ post } }).retain j.feed).arbitrate)))

/-- A job start (R92): the job leaves the list; every READY coefficient set is adopted, HSET0 to VSET3, its copy IDLE, with
TABLE_ADOPTED and TABLES_ADOPTED (R93); the final mode is fixed and the references it does not read are given up (R26); the
half that is not SENDING becomes FILLING, a READY one discarded with FRAMES_DISCARDED (R95); retention. The frame of a
FILLING half is none, the model's choice (log entry 23). -/
def Obligations.JobStarts : Prop :=
  (∀ (s : State) (j : Job),
    let u := ({ s with fen := { s.fen with waiting := s.fen.waiting.erase j } }).adoptSets
    let mode := u.finalMode j
    let refs : JobRefs :=
      { f0 := j.refs.f0
        prev := if mode = .weavePrev ∨ mode = .adaptive then j.refs.prev else none
        next := if mode = .weaveNext ∨ mode = .adaptive then j.refs.next else none
        prev2 := if mode = .adaptive then j.refs.prev2 else none }
    let usable2 := decide (mode = .adaptive) && usableNeighbour j.f0Parity (u.refRecord j.feed j.refs.prev2)
    let v : Service :=
      ⟨{ j with refs := refs }, mode, false, u.fieldLines j.feed, usable2, ⟨⟨[], []⟩, ⟨[], []⟩, ⟨[], []⟩, ⟨[], []⟩⟩⟩
    s.startJob j = (({ u with fen := { u.fen with service := some v } }).claimHalf j.feed).retain j.feed) ∧
  (∀ s : State,
    s.adoptSets =
      (((((((s.adoptSet 1).adoptSet 2).adoptSet 3).adoptSet 4).adoptSet 5).adoptSet 6).adoptSet 7).adoptSet 8) ∧
  (∀ (s : State) (t : TableId), t ≠ 0 → s.tld.copies.length = 9 →
    ((s.copy t).ready = false → s.adoptSet t = s) ∧
    ((s.copy t).ready = true →
      let u := s.adoptSet t
      let taps := if t.val ≤ 4 then 8 else 4
      let set := if t.val ≤ 4 then u.fen.hsets.get (Fin.ofNat 4 (t.val - 1)) else u.fen.vsets.get (Fin.ofNat 4 (t.val - 5))
      u = { s with
            fen := { s.fen with hsets := u.fen.hsets, vsets := u.fen.vsets }
            tld := { s.tld with copies := s.tld.copies.set t.val ⟨false, (s.copy t).words⟩ }
            ntu := ((s.raise .tableAdopted .device (.table t)).countDev .tablesAdopted).ntu } ∧
      (∀ k : Fin 4, (k.val + 1 ≠ t.val → u.fen.hsets.get k = s.fen.hsets.get k) ∧
        (k.val + 5 ≠ t.val → u.fen.vsets.get k = s.fen.vsets.get k)) ∧
      set.length = 64 ∧
      (∀ q, q < 64 → (set.getD q []).length = taps ∧
        ∀ i, i < taps → (set.getD q []).getD i 0 = (((s.copy t).words.getD (q * taps + i) 0).toNat : Int) - 512))) ∧
  (∀ (s : State) (n : Feed),
    let o := s.otx.get n
    let claimed := s.setOtx n (o.setOther ⟨.filling, none, o.otherHalf.source⟩)
    (o.otherHalf.state = .ready → s.claimHalf n = claimed.count n .framesDiscarded 1) ∧
    (o.otherHalf.state ≠ .ready → s.claimHalf n = claimed) ∧
    (o.oneSending = true →
      (claimed.otx.get n).sendingHalf = o.sendingHalf ∧ (claimed.otx.get n).otherHalf.state = .filling))

/-- The final mode by the first test that holds, and the usable neighbour: not absent, with content, not poor, of the
required parity; F-2 does not change the mode (R94). -/
def Obligations.FinalModeOfJob : Prop :=
  (∀ (s : State) (j : Job),
    let prevOk := usableNeighbour j.f0Parity.opposite (s.refRecord j.feed j.refs.prev)
    let nextOk := usableNeighbour j.f0Parity.opposite (s.refRecord j.feed j.refs.next)
    ((s.settings j.feed).cls.val ≤ 1 → s.fst.tight = true → s.finalMode j = .spatial) ∧
    (¬((s.settings j.feed).cls.val ≤ 1 ∧ s.fst.tight = true) →
      (j.intended = .weavePrev → s.finalMode j = if prevOk then .weavePrev else .spatial) ∧
      (j.intended = .weaveNext → s.finalMode j = if nextOk then .weaveNext else .spatial) ∧
      (j.intended = .adaptive → s.finalMode j = if prevOk && nextOk then .adaptive else .spatial) ∧
      (j.intended = .spatial → s.finalMode j = .spatial)) ∧
    (∀ x, s.finalMode { j with refs := { j.refs with prev2 := x } } = s.finalMode j)) ∧
  (∀ p : Parity, usableNeighbour p none = false ∧
    ∀ r : FieldRecord, usableNeighbour p (some r) = true ↔
      (∃ k, r.content = .slot k) ∧ r.poor = false ∧ r.parity = p)

/-- The completion of the job in service, once its due reads are made (log entry 12): the claimed half is READY with the
finished frame and JOBS_DONE counted, or EMPTY for a withdrawn job (R97), which keeps the built frame in it by the model's
choice (log entry 23); the source is F0's number (R141). The frame: the woven frame of the lines that the reads of each role
delivered, by the job's final mode and captured motion settings (R121, R122), resampled to the captured raster by the two active
sets (R126) and placed (R138). The detached records end and their slots are FREE (R41), retention
follows, and the engine chooses among the jobs waiting (R90). -/
def Obligations.JobCompletes : Prop :=
  ∀ (s : State) (v : Service), s.resetHeld = false → s.finishReads.fen.service = some v →
    let s0 := s.finishReads
    let n := v.job.feed
    let half : Half := ⟨if v.withdrawn then .empty else .ready, some (s0.finishedFrame v), .field v.job.f0Seq⟩
    let delivered := s0.setOtx n ((s0.otx.get n).setOther half)
    let counted := if v.withdrawn then delivered else delivered.count n .jobsDone 1
    let ended := ({ counted with fen := { counted.fen with service := none } }).endDetached
    exec .jobCompletion s = .next ((ended.retain n).arbitrate) ∧
    s0.otx = s.otx ∧ ended.fst.detached = [] ∧
    (s.slotsOk → ∀ k : Fin 24, ended.slot k = if (∃ m, s0.slot k = .retiring m) then .free else s0.slot k) ∧
    ((s.otx.get n).oneSending = true →
      (ended.otx.get n).otherHalf = half ∧ (ended.otx.get n).sendingHalf = (s.otx.get n).sendingHalf) ∧
    (∃ w, s.fen.service = some w ∧ v = { w with reads := v.reads }) ∧
    (s.fen.waiting = [] →
      ((ended.retain n).arbitrate).fen.service = none ∧ ((ended.retain n).arbitrate).fen.waiting = []) ∧
    (let c := v.job.captured
     ∃ w : WeaveInput,
      s0.finishedFrame v =
        placedFrame c.width c.height
          (resampled (s0.fen.hsets.get c.hset) (s0.fen.vsets.get c.vset) c.width c.height (wovenFrame w)) ∧
      w = { w with
            lines := v.lines, parity := v.job.f0Parity, mode := v.finalMode, dirSearch := c.dirSearch, floor := c.floor
            gain := c.gain } ∧
      (∀ r : BuildRole,
        let part := match r with
          | .f0 => (w.f0, v.job.refs.f0, v.reads.f0.usable)
          | .prev => (w.prev, v.job.refs.prev, v.reads.prev.usable)
          | .next => (w.next, v.job.refs.next, v.reads.next.usable)
          | .prev2 => (w.prev2, v.job.refs.prev2, v.reads.prev2.usable)
        part.1.length = v.lines ∧
        ∀ m l, part.1.getD m none = some l ↔
          m < v.lines ∧ m ∈ part.2.2 ∧
            ∃ q x k, part.2.1 = some q ∧ s0.heldRecord n q = some x ∧ x.content = .slot k ∧ l = lineAt s0.fst.mem k m))

/-- What a feed restart, a disable, an entry to DOWN and a structure change do alike: the history is empty; records that the
job in service references are detached and their slots RETIRING, the others' slots FREE, with the check for leaving the tight
condition (R40), at a feed restart too (the model's reading of R34, log entry 37); the tracker is reset (R83); a job in service of the feed is withdrawn (R98) and its waiting jobs are removed
without a skip, nothing raised or counted (R99). -/
def Obligations.ClearedFeed : Prop :=
  ∀ (s : State) (n : Feed), s.slotsOk →
    let t := s.clearFeed n
    let held := (s.history n).filter (fun r => s.serviceRefs n r.seq)
    let others := (s.history n).filter (fun r => !s.serviceRefs n r.seq)
    t = { s with
          fst :=
            { s.fst with
              slots := t.fst.slots, hist := s.fst.hist.set n [], detached := s.fst.detached ++ held, tight := t.fst.tight }
          cad := (s.resetTracker n).cad
          fen :=
            { s.fen with
              service := s.fen.service.map (fun v => { v with withdrawn := v.withdrawn || v.job.feed == n })
              waiting := s.fen.waiting.filter (fun j => j.feed != n) } } ∧
    (∀ k : Fin 24,
      t.slot k =
        if (∃ r ∈ others, r.content = .slot k) then .free
        else if (∃ r ∈ held, r.content = .slot k) then .retiring n
        else s.slot k) ∧
    t.fst.tight = (if (∃ r ∈ others, ∃ k, r.content = .slot k) ∧ 10 ≤ t.freeCount then false else s.fst.tight)

/-! ## Deinterlacing -/

/-- The plan of missing row m: it is row 2m+1 for an UPPER F0, 2m for a LOWER one, between the F0 lines a and b, one of them
absent at the edge (R103, R104). S comes from both, from the one that is usable, from the nearest usable F0 line, the upper at
equal distance, or is the fill level (R109, R112); its direction is the one of least difference, 0 before -1 before +1 (R110,
R111). T is the neighbours' line m where each needed one is usable (R113). The weight rule, motion and k (R114 to R117). An
unusable F0 row is the mean of the missing rows beside it, or the one there is (R120); the frame has 2L rows (R103). -/
def Obligations.RowPlan : Prop :=
  (∀ (w : WeaveInput) (m : Nat), m < w.lines →
    let rowOfLine := fun (l : Nat) => if w.parity = .upper then 2 * l else 2 * l + 1
    let p := rowPlan w m
    let f0 := fun (l : Nat) => ((w.f0.getD l none).isSome = true ∧ l < w.lines)
    let away := fun (l : Nat) => ((rowOfLine l : Int) - p.row).natAbs
    (p.row = if w.parity = .upper then 2 * m + 1 else 2 * m) ∧ p.temporalLine = m ∧
    (∀ l, p.a = some l ↔ l < w.lines ∧ rowOfLine l + 1 = p.row) ∧
    (∀ l, p.b = some l ↔ l < w.lines ∧ rowOfLine l = p.row + 1) ∧
    (p.aUsable = true ↔ ∃ l, p.a = some l ∧ f0 l) ∧ (p.bUsable = true ↔ ∃ l, p.b = some l ∧ f0 l) ∧
    (p.aUsable = true → p.bUsable = true → p.source = .pair) ∧
    (∀ l, p.a = some l → p.aUsable = true → p.bUsable = false → p.source = .single l) ∧
    (∀ l, p.b = some l → p.aUsable = false → p.bUsable = true → p.source = .single l) ∧
    (p.aUsable = false → p.bUsable = false →
      (∀ l, f0 l → (∀ x, f0 x → away l < away x ∨ (away l = away x ∧ l ≤ x)) → p.source = .nearest l) ∧
      ((∀ l, ¬f0 l) → p.source = .fill)) ∧
    (p.tAvailable = true ↔
      (w.mode = .weavePrev ∧ (w.prev.getD m none).isSome = true) ∨
      (w.mode = .weaveNext ∧ (w.next.getD m none).isSome = true) ∨
      (w.mode = .adaptive ∧ (w.prev.getD m none).isSome = true ∧ (w.next.getD m none).isSome = true)) ∧
    (p.m2Available = true ↔
      w.mode = .adaptive ∧ ∃ i j, p.a = some i ∧ p.b = some j ∧ f0 i ∧ f0 j ∧ (w.prev2.getD i none).isSome = true ∧
        (w.prev2.getD j none).isSome = true) ∧
    (p.rule =
      if w.mode = .spatial ∨ p.tAvailable = false then .fixed16
      else if p.source = .fill ∨ w.mode = .weavePrev ∨ w.mode = .weaveNext then .fixed0
      else .motion)) ∧
  (∀ (a b : List Word) (x : Nat), x < 720 →
    let at' := fun (l : List Word) (i : Nat) => (l.getD i 0).toNat
    let mean := fun (u v : Nat) => (u + v + 1) / 2
    let d := fun (u v : Nat) => ((u : Int) - v).natAbs
    let straight := d (at' a x) (at' b x)
    let minus := d (at' a (x - 1)) (at' b (x + 1))
    let plus := d (at' a (x + 1)) (at' b (x - 1))
    ((x = 0 ∨ x = 719) → directedMean a b x = mean (at' a x) (at' b x)) ∧
    (0 < x → x < 719 →
      (straight ≤ minus → straight ≤ plus → directedMean a b x = mean (at' a x) (at' b x)) ∧
      (minus < straight → minus ≤ plus → directedMean a b x = mean (at' a (x - 1)) (at' b (x + 1))) ∧
      (plus < straight → plus < minus → directedMean a b x = mean (at' a (x + 1)) (at' b (x - 1))))) ∧
  (∀ (w : WeaveInput) (m x : Nat) (c : Component),
    let p := rowPlan w m
    let at' := fun (l : List (Option Line)) (i : Nat) (k : Component) => smp (rowOf k (l.getD i none)) x
    let d := fun (u v : Nat) => ((u : Int) - v).natAbs
    let mean := fun (u v : Nat) => (u + v + 1) / 2
    (∀ i j, p.source = .pair → p.a = some i → p.b = some j →
      spatialEstimate w p c x =
        if c = .y ∧ w.dirSearch = true then directedMean (rowOf .y (w.f0.getD i none)) (rowOf .y (w.f0.getD j none)) x
        else mean (at' w.f0 i c) (at' w.f0 j c)) ∧
    (∀ l, (p.source = .single l ∨ p.source = .nearest l) → spatialEstimate w p c x = at' w.f0 l c) ∧
    (p.source = .fill → spatialEstimate w p c x = if c = .y then 64 else 512) ∧
    (p.tAvailable = true →
      temporalEstimate w p c x =
        if w.mode = .weavePrev then at' w.prev m c
        else if w.mode = .weaveNext then at' w.next m c
        else mean (at' w.prev m c) (at' w.next m c)) ∧
    (p.rule = .fixed16 → weightAt w p x = 16) ∧ (p.rule = .fixed0 → weightAt w p x = 0) ∧
    (p.rule = .motion →
      let m1 := d (at' w.prev m .y) (at' w.next m .y)
      let m2 := fun (i j : Nat) =>
        if p.m2Available = true then mean (d (at' w.f0 i .y) (at' w.prev2 i .y)) (d (at' w.f0 j .y) (at' w.prev2 j .y)) else 0
      let k := fun (motion : Nat) => if motion ≤ w.floor then 0 else min 16 ((motion - w.floor) * w.gain / 16)
      weightAt w p x = k (max m1 (m2 (p.a.getD 0) (p.b.getD 0))))) ∧
  (∀ (w : WeaveInput),
    let row := fun (i : Nat) => (wovenFrame w).getD i ⟨[], [], []⟩
    let mean := fun (a b : Line) => Line.mk
      (List.zipWith (fun (u v : Word) => BitVec.ofNat 10 ((u.toNat + v.toNat + 1) / 2)) a.y b.y)
      (List.zipWith (fun (u v : Word) => BitVec.ofNat 10 ((u.toNat + v.toNat + 1) / 2)) a.cb b.cb)
      (List.zipWith (fun (u v : Word) => BitVec.ofNat 10 ((u.toNat + v.toNat + 1) / 2)) a.cr b.cr)
    (wovenFrame w).length = 2 * w.lines ∧
    (∀ m, m < w.lines →
      let own := if w.parity = .upper then 2 * m else 2 * m + 1
      row (if w.parity = .upper then 2 * m + 1 else 2 * m) = missingLine w m ∧
      (∀ l, w.f0.getD m none = some l → row own = l) ∧
      (w.f0.getD m none = none →
        row own =
          if own = 0 then row 1
          else if own + 1 = 2 * w.lines then row (own - 1)
          else mean (row (own - 1)) (row (own + 1)))))

/-- A missing row of the woven frame: each sample is the blend of S and T by k; O lies within 4..1019 where S and T do;
with k 16, as where T is not available, it is S, with k 0 it is T (R118, R119). -/
def Obligations.BlendOfMissingRow : Prop :=
  (∀ (w : WeaveInput) (m x : Nat), x < 720 →
    ((missingLine w m).y.getD x 0) =
      BitVec.ofNat 10 (blend (temporalEstimate w (rowPlan w m) .y x) (spatialEstimate w (rowPlan w m) .y x)
        (weightAt w (rowPlan w m) x))) ∧
  (∀ (w : WeaveInput) (m c : Nat), c < 360 →
    ((missingLine w m).cb.getD c 0) =
      BitVec.ofNat 10 (blend (temporalEstimate w (rowPlan w m) .cb c) (spatialEstimate w (rowPlan w m) .cb c)
        (weightAt w (rowPlan w m) (2 * c))) ∧
    ((missingLine w m).cr.getD c 0) =
      BitVec.ofNat 10 (blend (temporalEstimate w (rowPlan w m) .cr c) (spatialEstimate w (rowPlan w m) .cr c)
        (weightAt w (rowPlan w m) (2 * c)))) ∧
  (∀ (w : WeaveInput) (m x : Nat), weightAt w (rowPlan w m) x ≤ 16 ∧
    ((rowPlan w m).tAvailable = false → weightAt w (rowPlan w m) x = 16) ∧
    (w.mode = .spatial → (rowPlan w m).source = .fill → x < 720 → (missingLine w m).y.getD x 0 = 64)) ∧
  (∀ t s k : Nat, k ≤ 16 → blend t s k = (t * (16 - k) + s * k + 8) / 16 ∧
    (4 ≤ t → t ≤ 1019 → 4 ≤ s → s ≤ 1019 → 4 ≤ blend t s k ∧ blend t s k ≤ 1019) ∧
    blend t s 16 = s ∧ blend t s 0 = t)

/-! ## Resampling and placement -/

/-- The filter of both passes: sum of products plus 64, divided by 128 and clamped to 4..1019; every sample of the
resampled picture lies within 4..1019 whatever the sets; equal taps under a row that sums to 128 give the sample back
(R131). The position of output j: j steps plus the offset, its index the part above 65536, its phase the fraction in 64ths
(R127, R129). The taps of the vertical pass are the four rows around the index, those of the horizontal pass the eight samples
around it, an index beyond an edge being the edge's (R128, R129), chroma by the luma step (R130). -/
def Obligations.FilterOfPasses : Prop :=
  (∀ (coefs : List Int) (taps : List Nat),
    ((filterSample coefs taps).toNat : Int) =
      max 4 (min 1019 (((List.zipWith (fun (c : Int) (t : Nat) => c * (t : Int)) coefs taps).sum + 64) / 128))) ∧
  (∀ (coefs : List Int) (v : Nat), coefs.sum = 128 → 4 ≤ v → v ≤ 1019 →
    (filterSample coefs (List.replicate coefs.length v)).toNat = v) ∧
  (∀ (size out j : Nat), 0 < out →
    let step : Int := ((size * 65536 / out : Nat) : Int)
    let position : Int := j * step + (step - 65536) / 2
    passStep size out = step ∧ passIndex step j * 65536 ≤ position ∧ position < (passIndex step j + 1) * 65536 ∧
    (passPhase step j : Int) = (position - passIndex step j * 65536) / 1024 ∧ passPhase step j < 64) ∧
  (∀ (last : Nat) (i : Int), (i < 0 → edgeIndex last i = 0) ∧ ((last : Int) < i → edgeIndex last i = last) ∧
    (0 ≤ i → i ≤ last → (edgeIndex last i : Int) = i)) ∧
  (∀ (set : CoefficientSet) (woven : List Line) (h j x : Nat),
    let step := passStep woven.length h
    let tap := fun (d : Int) => woven.getD (edgeIndex (woven.length - 1) (passIndex step j + d)) ⟨[], [], []⟩
    let out := fun (c : Component) => filterSample (set.getD (passPhase step j) [])
      [smp (Line.component (tap (-1)) c) x, smp (Line.component (tap 0) c) x, smp (Line.component (tap 1) c) x,
        smp (Line.component (tap 2) c) x]
    let row := verticalRow set woven h j
    (x < 720 → row.y.getD x 0 = out .y) ∧ (x < 360 → row.cb.getD x 0 = out .cb ∧ row.cr.getD x 0 = out .cr) ∧
    row.y.length = 720 ∧ row.cb.length = 360 ∧ row.cr.length = 360) ∧
  (∀ (set : CoefficientSet) (step : Int) (row : List Word) (size out j : Nat), j < out →
    let tap := fun (d : Int) => (row.getD (edgeIndex (size - 1) (passIndex step j + d)) 0).toNat
    (horizontalComponent set step row size out).length = out ∧
    (horizontalComponent set step row size out).getD j 0 =
      filterSample (set.getD (passPhase step j) [])
        [tap (-3), tap (-2), tap (-1), tap 0, tap 1, tap 2, tap 3, tap 4]) ∧
  (∀ (hset vset : CoefficientSet) (woven : List Line) (w h j : Nat),
    let row := verticalRow vset woven h j
    let step := passStep 720 w
    (∀ x ∈ row.y ++ row.cb ++ row.cr, 4 ≤ x.toNat ∧ x.toNat ≤ 1019) ∧
    (resampled hset vset w h woven).length = h ∧
    (∀ l ∈ resampled hset vset w h woven, ∀ x ∈ l.y ++ l.cb ++ l.cr, 4 ≤ x.toNat ∧ x.toNat ≤ 1019) ∧
    (j < h →
      (resampled hset vset w h woven).getD j ⟨[], [], []⟩ =
        ⟨horizontalComponent hset step row.y 720 w, horizontalComponent hset step row.cb 360 (w / 2),
          horizontalComponent hset step row.cr 360 (w / 2)⟩))

/-- The placement of a picture of W samples by H rows, W a multiple of 4 and H even: 1080 rows of 1920, 960 and 960
samples, resampled row j at row top + j, sample x at column left + x, chroma c at position left / 2 + c (R136); every other
sample is at fill level, 64 and 512 (R137). -/
def Obligations.PictureIsPlaced : Prop :=
  ∀ (w h : Nat) (pic : List Line), w ≤ 1920 → h ≤ 1080 → w % 4 = 0 → h % 2 = 0 → pic.length = h →
    (∀ l ∈ pic, l.y.length = w ∧ l.cb.length = w / 2 ∧ l.cr.length = w / 2) →
    let f := placedFrame w h pic
    let left := (1920 - w) / 2
    let top := (1080 - h) / 2
    f.length = 1080 ∧
    (∀ l ∈ f, l.y.length = 1920 ∧ l.cb.length = 960 ∧ l.cr.length = 960) ∧
    2 * left + w = 1920 ∧ 2 * top + h = 1080 ∧ left % 2 = 0 ∧
    (∀ j, j < h →
      (∀ x, x < w → (f.getD (top + j) fillRow).y.getD (left + x) 0 = (pic.getD j fillRow).y.getD x 0) ∧
      (∀ c, c < w / 2 →
        (f.getD (top + j) fillRow).cb.getD (left / 2 + c) 0 = (pic.getD j fillRow).cb.getD c 0 ∧
        (f.getD (top + j) fillRow).cr.getD (left / 2 + c) 0 = (pic.getD j fillRow).cr.getD c 0)) ∧
    (∀ i x c, i < 1080 → x < 1920 → c < 960 →
      (i < top ∨ top + h ≤ i ∨ x < left ∨ left + w ≤ x → (f.getD i fillRow).y.getD x 0 = 64) ∧
      (i < top ∨ top + h ≤ i ∨ c < left / 2 ∨ left / 2 + w / 2 ≤ c →
        (f.getD i fillRow).cb.getD c 0 = 512 ∧ (f.getD i fillRow).cr.getD c 0 = 512))

/-! ## The cadence tracker -/

/-- An evidence event (R64, R65): none where no record stands before the closed one in its history; else the cadence table is
adopted, F0 classified, the hypotheses updated, the state's action taken, and a job created where F0 has content. The job's
references to F-1, F+1 and F-2, each a record's number (log entry 28), its intended mode and its captured settings (R79). The
evidence of F0, by the first test that holds (R67). The update of a hypothesis: a match adds one to the run up to 15, a
mismatch clears it, AMBIG leaves it; the current step advances cyclically (R70). Which evidence a step matches (R69). -/
def Obligations.EvidenceAndUpdate : Prop :=
  (∀ (s : State) (n : Feed) (q : Seq),
    (((∀ r ∈ s.history n, r.seq ≠ q) ∨ ∃ r l, s.history n = r :: l ∧ r.seq = q) → s.evidenceEvent n q = s) ∧
    (∀ (earlier later : List FieldRecord) (f0 new : FieldRecord), s.history n = earlier ++ f0 :: new :: later →
      new.seq = q → f0.seq ≠ q → (∀ r ∈ earlier, r.seq ≠ q) →
      let u := s.adoptCadence
      let o := u.trackerAction n f0.seq (classify (u.settings n) f0 new) f0.dsame.isSome
      let a := s.settings n
      let job : Job :=
        { feed := n, f0Seq := f0.seq, f0Parity := f0.parity
          refs :=
            { f0 := some f0.seq, prev := earlier.reverse[0]?.map (fun r => r.seq), next := some q
              prev2 := earlier.reverse[1]?.map (fun r => r.seq) }
          intended := intendedMode o.1
          captured :=
            { floor := a.floor, gain := a.gain, dirSearch := a.dirSearch, width := a.width, height := a.height
              hset := a.hset, vset := a.vset } }
      ((∃ c, f0.content = .gap c) → s.evidenceEvent n q = o.2) ∧
      ((∃ k, f0.content = .slot k) → s.evidenceEvent n q = o.2.enqueue job))) ∧
  (∀ (a : Settings) (f0 n : FieldRecord),
    ((f0.conditions.parityRepeat = true ∨ n.conditions.parityRepeat = true) → classify a f0 n = .brk) ∧
    (f0.conditions.parityRepeat = false → n.conditions.parityRepeat = false →
      (((∃ c, f0.content = .gap c) ∨ f0.poor = true ∨ f0.cprev = none ∨ n.cprev = none) → classify a f0 n = .ambig) ∧
      (∀ (k : Fin 24) (cp cn : Nat), f0.content = .slot k → f0.poor = false → f0.cprev = some cp → n.cprev = some cn →
        (cn + a.minContrast ≤ cp → 2 * cn ≤ cp → classify a f0 n = .next) ∧
        (¬(cn + a.minContrast ≤ cp ∧ 2 * cn ≤ cp) →
          (cp + a.minContrast ≤ cn → 2 * cp ≤ cn →
            (∀ ds, f0.dsame = some ds → ds ≤ a.repeatLimit → classify a f0 n = .prevRepeat) ∧
            ((∀ ds, f0.dsame = some ds → a.repeatLimit < ds) → classify a f0 n = .prev)) ∧
          (¬(cp + a.minContrast ≤ cn ∧ 2 * cp ≤ cn) → classify a f0 n = .ambig))))) ∧
  (∀ (t : CadenceTable) (e : Evidence) (ds : Bool) (h : Hypothesis),
    let u := updateHyp t e ds h
    u.program = h.program ∧ u.start = h.start ∧
    u.current = (h.current + 1) % (t.programs.get h.program).length ∧
    (stepMatch ((t.programs.get h.program).step h.current) e ds = some true →
      u.run = if h.run < 15 then h.run + 1 else 15) ∧
    (stepMatch ((t.programs.get h.program).step h.current) e ds = some false → u.run = 0) ∧
    (stepMatch ((t.programs.get h.program).step h.current) e ds = none ↔ e = .ambig) ∧
    (e = .ambig → u.run = h.run) ∧ (e = .brk → u.run = 0)) ∧
  (∀ (k : StepKind) (e : Evidence) (ds : Bool),
    stepMatch k e ds = some true ↔
      (k = .opens ∧ e = .next) ∨ (k = .closes ∧ (e = .prev ∨ e = .prevRepeat)) ∨
        (k = .repeats ∧ (e = .prevRepeat ∨ (e = .prev ∧ ds = false))))

/-- The action of the tracker's state at an evidence event for F0 with number q (R72 to R76, R78). SEEKING locks to the
first hypothesis in the order of R71 whose run has reached the lock count; LOCKED goes on or breaks; BROKEN counts its hold
down; HELD_VIDEO stays; HELD_FILM advances. F0's step, where there is one, gives the intended mode. -/
def Obligations.TrackerActs : Prop :=
  (∀ (s : State) (n : Feed) (q : Seq) (e : Evidence) (ds : Bool),
    let k := s.cad.trackers.get n
    let hyps := k.hyps.map (updateHyp s.cad.table e ds)
    let o := s.trackerAction n q e ds
    let hold := (s.settings n).breakHold
    (k.state = .seeking →
      ((∀ h ∈ hyps, h.run < (s.settings n).lockCount) → o = (none, s.setTracker n ⟨.seeking, hyps⟩)) ∧
      (∀ h ∈ k.hyps, (s.settings n).lockCount ≤ (updateHyp s.cad.table e ds h).run →
        (∀ x ∈ k.hyps, x ≠ h →
          (updateHyp s.cad.table e ds x).run < (updateHyp s.cad.table e ds h).run ∨
          ((updateHyp s.cad.table e ds x).run = (updateHyp s.cad.table e ds h).run ∧
            (h.program.val < x.program.val ∨ (h.program = x.program ∧ h.current < x.current)))) →
        o =
          (some ((s.cad.table.programs.get h.program).step h.current),
            ((s.setTracker n ⟨.locked h.program (updateHyp s.cad.table e ds h).current, hyps⟩).raise .lockAcquired
              (.feed n) (.sequence q)).count n .locks 1))) ∧
    (∀ p st, k.state = .locked p st →
      let step := (s.cad.table.programs.get p).step st
      (stepMatch step e ds = some false →
        o =
          (none,
            ((s.setTracker n ⟨if hold = 0 then .seeking else .broken hold,
              hyps.map (fun h => { h with run := 0 })⟩).raise .lockBroken (.feed n) (.sequence q)).count n .breaks 1)) ∧
      (stepMatch step e ds ≠ some false →
        o = (some step, s.setTracker n ⟨.locked p ((st + 1) % (s.cad.table.programs.get p).length), hyps⟩))) ∧
    (∀ left, k.state = .broken left →
      let left' := if e = .brk then hold else left - 1
      o = (none, s.setTracker n ⟨if left' = 0 then .seeking else .broken left', hyps⟩)) ∧
    (k.state = .heldVideo → o = (none, s.setTracker n ⟨.heldVideo, hyps⟩)) ∧
    (∀ p st, k.state = .heldFilm p st →
      o =
        (some ((s.cad.table.programs.get p).step st),
          s.setTracker n ⟨.heldFilm p ((st + 1) % (s.cad.table.programs.get p).length), hyps⟩))) ∧
  intendedMode none = .adaptive ∧ intendedMode (some .opens) = .weaveNext ∧ intendedMode (some .closes) = .weavePrev ∧
  intendedMode (some .repeats) = .weavePrev

/-- A reset of a feed's tracker sets its state from the force and raises and counts nothing (R83). It remakes the hypotheses: one
for each usable program of the mask and each start step below its length, with the current step equal to the start step and run
0 (R68). -/
def Obligations.TrackerReset : Prop :=
  ∀ (s : State) (n : Feed),
    s.resetTracker n =
      { s with cad := { s.cad with trackers := s.cad.trackers.set n ((s.resetTracker n).cad.trackers.get n) } } ∧
    ((s.resetTracker n).cad.trackers.get n).hyps = makeHyps s.cad.table (s.settings n).mask ∧
    (∀ h ∈ ((s.resetTracker n).cad.trackers.get n).hyps,
      h.run = 0 ∧ h.current = h.start ∧ (s.settings n).mask.get h.program = true ∧
      s.cad.table.usable.get h.program = true ∧ h.start < (s.cad.table.programs.get h.program).length) ∧
    (∀ (p : Fin 4) (f : Nat), (s.settings n).mask.get p = true → s.cad.table.usable.get p = true →
      f < (s.cad.table.programs.get p).length → ⟨p, f, f, 0⟩ ∈ ((s.resetTracker n).cad.trackers.get n).hyps) ∧
    ((s.resetTracker n).cad.trackers.get n).hyps.Pairwise (fun g h => g.program ≠ h.program ∨ g.start ≠ h.start) ∧
    ((s.settings n).force = .release → ((s.resetTracker n).cad.trackers.get n).state = .seeking) ∧
    ((s.settings n).force = .video → ((s.resetTracker n).cad.trackers.get n).state = .heldVideo) ∧
    (∀ p f, (s.settings n).force = .film p f →
      ((s.resetTracker n).cad.trackers.get n).state = .heldFilm p (f % (s.cad.table.programs.get p).length))

/-- Adoption of a READY cadence table (R80): programs from its words, usability by R60; a program is changed where its length or
a step below it differs; the copy IDLE. Every tracker's hypotheses of changed programs are remade where usable and in the mask,
the others kept. LOCKED on a changed program breaks with TABLE_CHANGED (R81); HELD_FILM on one goes on in it with its steps
reduced, or becomes HELD_VIDEO with the force VIDEO (R82). TABLE_ADOPTED, TABLES_ADOPTED. -/
def Obligations.TableAdoption : Prop :=
  (∀ s : State, (s.copy 0).ready = false → s.adoptCadence = s) ∧
  (∀ (old new : Program),
    programChanged old new = true ↔
      old.length ≠ new.length ∨ ∃ i, i < new.length ∧ old.step i ≠ new.step i) ∧
  (∀ s : State, (s.copy 0).ready = true →
    let t := s.adoptCadence
    let words := (s.copy 0).words
    let new := t.cad.table
    let changed := fun (p : Fin 4) => programChanged (s.cad.table.programs.get p) (new.programs.get p)
    let broken : Feed → Bool := fun n => match (s.cad.trackers.get n).state with
      | .locked p _ => changed p
      | _ => false
    (∀ p : Fin 4,
      let g := new.programs.get p
      g.length = (words.getD (9 * p.val) 0).toNat ∧ g.steps.length = 8 ∧
      (∀ i, i < 8 →
        let w := (words.getD (9 * p.val + 1 + i) 0).toNat
        g.step i = if w = 0 then .opens else if w = 1 then .closes else .repeats) ∧
      (new.usable.get p = true ↔
        2 ≤ g.length ∧ (∃ i, i < g.length ∧ g.step i = .opens) ∧
        (∀ i, i < g.length → g.step i = .opens → g.step ((i + 1) % g.length) = .closes) ∧
        (∀ i, i < g.length → g.step i = .repeats → g.step ((i + g.length - 1) % g.length) ≠ .opens))) ∧
    (∀ n : Feed,
      let k := s.cad.trackers.get n
      let a := s.settings n
      let hyps := feeds.flatMap (fun p =>
        if changed p = true then
          if a.mask.get p = true ∧ new.usable.get p = true then
            (List.range (new.programs.get p).length).map (fun i => ⟨p, i, i, 0⟩)
          else []
        else k.hyps.filter (fun h => h.program == p))
      (broken n = true →
        t.cad.trackers.get n =
          ⟨if a.breakHold = 0 then .seeking else .broken a.breakHold, hyps.map (fun h => { h with run := 0 })⟩ ∧
        t.settings n = a) ∧
      (broken n = false → (∀ p st, k.state = .heldFilm p st → changed p = false) →
        t.cad.trackers.get n = ⟨k.state, hyps⟩ ∧ t.settings n = a) ∧
      (∀ p st, k.state = .heldFilm p st → changed p = true →
        (new.usable.get p = true →
          t.cad.trackers.get n = ⟨.heldFilm p (st % (new.programs.get p).length), hyps⟩ ∧
          t.settings n = { a with force := match a.force with
            | .film r f => .film r (f % (new.programs.get p).length)
            | other => other }) ∧
        (new.usable.get p = false →
          t.cad.trackers.get n = ⟨.heldVideo, hyps⟩ ∧ t.settings n = { a with force := .video }))) ∧
    t = { s with
          cad := t.cad
          cue := { s.cue with active := t.cue.active }
          tld := { s.tld with copies := s.tld.copies.set 0 ⟨false, words⟩ }
          ntu :=
            (((feeds.foldl (fun (u : State) n =>
              if broken n then (u.raise .lockBroken (.feed n) (.reason .tableChanged)).count n .breaks 1 else u) s).raise
                .tableAdopted .device (.table 0)).countDev .tablesAdopted).ntu })

/-- A program mask takes effect: programs that enter it gain fresh hypotheses where usable, those that leave lose theirs; a
tracker LOCKED on one that leaves breaks, with the number of the field start as detail, a free number where there is none (log
entry 3); one equal to the active mask changes nothing (R63). A force takes effect: its FILM step reduced, an unusable
program VIDEO; HELD_VIDEO, HELD_FILM, or from a held state SEEKING; one equal to that in effect changes nothing (R77, log entry
19). Both together: the mask first, but a free order where the order matters (log entry 4). -/
def Obligations.MaskAndForce : Prop :=
  (∀ (s : State) (n : Feed) (new : Quad Bool) (q : Option Seq),
    let k := s.cad.trackers.get n
    let a := s.settings n
    let hyps := feeds.flatMap (fun p =>
      if new.get p = true then
        if a.mask.get p = true then k.hyps.filter (fun h => h.program == p)
        else if s.cad.table.usable.get p = true then
          (List.range (s.cad.table.programs.get p).length).map (fun i => ⟨p, i, i, 0⟩)
        else []
      else [])
    let leaves := ∃ p st, k.state = .locked p st ∧ new.get p = false
    let broken := fun (u : State) (d : Detail) =>
      (((u.setTracker n ⟨if a.breakHold = 0 then .seeking else .broken a.breakHold,
        hyps.map (fun h => { h with run := 0 })⟩).setActive n { a with mask := new }).raise .lockBroken (.feed n) d).count n
          .breaks 1
    (a.mask = new → s.takeMask n new q = s) ∧
    (a.mask ≠ new →
      (¬leaves → s.takeMask n new q = (s.setTracker n ⟨k.state, hyps⟩).setActive n { a with mask := new }) ∧
      (leaves →
        (∀ v, q = some v → s.takeMask n new q = broken s (.sequence v)) ∧
        (q = none →
          s.takeMask n new q =
            broken { s with choices := s.choices + 1 } (.sequence (Config.unstatedSeq s.choices)))))) ∧
  (∀ (s : State) (n : Feed) (f : Force),
    let k := s.cad.trackers.get n
    let g := s.cad.table.effectiveForce f
    ((f = .release ∨ f = .video) → g = f) ∧
    (∀ p st, f = .film p st →
      g = if s.cad.table.usable.get p = true then .film p (st % (s.cad.table.programs.get p).length) else .video) ∧
    ((s.settings n).force = g → s.applyForce n f = s) ∧
    ((s.settings n).force ≠ g →
      let put := fun (x : TrackerState) => (s.setTracker n ⟨x, k.hyps⟩).setActive n { s.settings n with force := g }
      (g = .video → s.applyForce n f = put .heldVideo) ∧
      (∀ p st, g = .film p st → s.applyForce n f = put (.heldFilm p st)) ∧
      (g = .release →
        ((k.state = .heldVideo ∨ ∃ p st, k.state = .heldFilm p st) → s.applyForce n f = put .seeking) ∧
        (k.state ≠ .heldVideo → (∀ p st, k.state ≠ .heldFilm p st) → s.applyForce n f = put k.state)))) ∧
  (∀ (s : State) (n : Feed) (p : Pending) (q : Option Seq),
    (p.mask = none → p.force = none → s.takeTrackerItems n p q = s) ∧
    (∀ m, p.mask = some m → p.force = none → s.takeTrackerItems n p q = s.takeMask n m q) ∧
    (∀ f, p.mask = none → p.force = some f → s.takeTrackerItems n p q = s.applyForce n f) ∧
    (∀ m f, p.mask = some m → p.force = some f →
      let leaves := fun (u : State) => ∃ r st, (u.cad.trackers.get n).state = .locked r st ∧ m.get r = false
      let matters := (s.settings n).mask ≠ m ∧ leaves s ∧ ¬leaves (s.applyForce n f)
      let u : State := { s with choices := s.choices + 1 }
      (¬matters → s.takeTrackerItems n p q = (s.takeMask n m q).applyForce n f) ∧
      (matters →
        s.takeTrackerItems n p q =
          if Config.maskBeforeForce s.choices then (u.takeMask n m q).applyForce n f
          else (u.applyForce n f).takeMask n m q)))

/-! ## Cues: the tests -/

/-- A cue that is addressed neither to the part nor to every part changes nothing at the decoder (R164, R165 test 2). One of the
part with a wrong check word is discarded: CUE_DISCARDED with its tag, CUES_DISCARDED, no result (test 1). Then, in order, and
nothing else happening: a code that names no kind, REFUSED_KIND (test 3); a length that is not the kind's, REFUSED_LENGTH (test
4); a scope word that names no scope, a scope the kind does not allow, or from link 1, 2 or 3 another than its own feed,
REFUSED_SCOPE (test 5, R166); a payload with a value outside its list, a malformed pair or a FILM force on an unusable program,
REFUSED_VALUE (test 6). -/
def Obligations.CueTests : Prop :=
  (∀ (i : Instr) (n : Feed) (code : Word) (c : CueWords) (s : State), cueParts i = some (n, code, c) →
    (s.isAddressed c.device = false → exec i s = .next s) ∧
    (i.wellFormed = true → s.takes c → ¬cueChecks c code →
      exec i s = .next ((s.raise .cueDiscarded (.feed n) (.tag c.tag)).countDev .cuesDiscarded))) ∧
  (∀ (n : Feed) (code : Word) (c : CueWords) (s : State), (code.toNat = 0 ∨ 16 < code.toNat) → s.takes c →
    cueChecks c code → exec (.unknownCueKind n code c) s = .next (s.answer n code c ⟨.refusedKind, none, []⟩)) ∧
  (∀ (i : Instr) (n : Feed) (code : Word) (c : CueWords) (s : State), (∀ m k e, i ≠ .unknownCueKind m k e) →
    cueParts i = some (n, code, c) → s.takes c → cueChecks c code →
    (cueLengthOk code c.payload.length = false →
      exec i s = .next (s.answer n code c ⟨.refusedLength, none, []⟩)) ∧
    (cueLengthOk code c.payload.length = true →
      ((scopeOfWord c.scope = none ∨
        (∃ sc, scopeOfWord c.scope = some sc ∧ ((cueScopeRule code).allows sc = false ∨ (n ≠ 0 ∧ sc ≠ .feed n)))) →
        exec i s = .next (s.answer n code c ⟨.refusedScope, none, []⟩)) ∧
      (∀ sc, scopeOfWord c.scope = some sc → (cueScopeRule code).allows sc = true → (n = 0 ∨ sc = .feed n) →
        valueRefused s.cad.table code c.payload = true →
        exec i s = .next (s.answer n code c ⟨.refusedValue, none, []⟩))))

/-- The result of a cue, for every link, code, cue and answer (R167): it is appended to the result queue of the cue's output
where that holds fewer than 8; a full queue stays as it is, with RESULT_OVERFLOW of the tag and RESULTS_LOST (R155). In either
case the cue is counted: CUES_REFUSED for an outcome whose name begins REFUSED_, CUES_TAKEN for another. Shown also on
TABLE_ABANDON with no load open. -/
def Obligations.ResultOfCue : Prop :=
  (∀ (s : State) (n : Feed) (code : Word) (c : CueWords) (a : Answer),
    let counter := fun (u : State) => u.countDev
      (if a.outcome ∈ [.refusedKind, .refusedLength, .refusedScope, .refusedValue, .refusedBusy] then .cuesRefused
        else .cuesTaken)
    ((s.otx.get n).results.length < 8 →
      s.answer n code c a =
        counter (s.setOtx n { s.otx.get n with
          results := (s.otx.get n).results ++ [⟨c.scope, code, c.tag, a.outcome, a.reason, a.items⟩] })) ∧
    (8 ≤ (s.otx.get n).results.length →
      s.answer n code c a =
        counter ((s.raise .resultOverflow (.feed n) (.tag c.tag)).countDev .resultsLost))) ∧
  (∀ (n : Feed) (c : CueWords) (s : State), s.admits n 0x00B c .device → c.payload = [] → s.tld.load = none →
    8 ≤ (s.otx.get n).results.length →
    exec (.tableAbandon n c) s =
      .next (((s.raise .resultOverflow (.feed n) (.tag c.tag)).countDev .resultsLost).countDev .cuesTaken))

/-! ## Settings cues -/

/-- A settings cue: for a RUNNING feed its items are staged, later cues winning item by item; for a feed in another state
they take effect at once. The result is DONE or, with the adjusted items, DONE_ADJUSTED (R165, R167, R170). -/
def Obligations.SettingsCues : Prop :=
  (∀ (i : Instr) (n m : Feed) (code : Word) (c : CueWords) (s : State) (p : Pending) (adj : List (Nat × Nat)),
    cueParts i = some (n, code, c) → s.admits n code c (.feed m) → settingsItems i s m = some (p, adj) →
    let a : Answer := ⟨if adj = [] then .done else .doneAdjusted, none, adj⟩
    ((s.lrx.get m).state = .running →
      exec i s = .next ((s.setStaged m (p.merge (s.cue.staged.get m))).answer n code c a)) ∧
    ((s.lrx.get m).state ≠ .running → exec i s = .next ((s.applyAtOnce m p).answer n code c a))) ∧
  (∀ p o : Pending,
    let watch := fun (x y : WatchItems) => WatchItems.mk (x.enabled.or y.enabled) (x.measure.or y.measure)
      (x.direction.or y.direction) (x.action.or y.action) (x.value.or y.value)
    p.merge o =
      { enable := p.enable.or o.enable, struct := p.struct.or o.struct, cls := p.cls.or o.cls
        timing := p.timing.or o.timing, holdLimit := p.holdLimit.or o.holdLimit, width := p.width.or o.width
        height := p.height.or o.height, hset := p.hset.or o.hset, vset := p.vset.or o.vset
        upperGain := p.upperGain.or o.upperGain, upperLift := p.upperLift.or o.upperLift
        lowerGain := p.lowerGain.or o.lowerGain, lowerLift := p.lowerLift.or o.lowerLift
        floor := p.floor.or o.floor, gain := p.gain.or o.gain, dirSearch := p.dirSearch.or o.dirSearch
        lockCount := p.lockCount.or o.lockCount, breakHold := p.breakHold.or o.breakHold
        repeatLimit := p.repeatLimit.or o.repeatLimit, minContrast := p.minContrast.or o.minContrast
        mask := p.mask.or o.mask, force := p.force.or o.force
        watch1 := watch p.watch1 o.watch1, watch2 := watch p.watch2 o.watch2 })

/-- The items of the seven settings cues, word by word (Table 9-3, R161, R165 tests 6 and 7, R168): which payloads are
taken, what each item becomes, none for KEEP, and the entries of the adjusted items in order. The step of a FILM force has
no KEEP: all ones is taken as 7, the model's reading (log entry 20). -/
def Obligations.ItemsOfSettingsCues : Prop :=
  (∀ e st cl ti ho : Word,
    feedConfigItems [e, st, cl, ti, ho] =
      if oneOf 2 e && oneOf 2 st && oneOf 3 ti then
        some
          ({ enable := itemOf (fun v => v == 1) e
             struct := itemOf (fun v => if v = 0 then .s50 else .s60) st
             cls := itemOf (fun v => Fin.ofNat 4 (clampNat 0 3 v)) cl
             timing := itemOf (fun v => if v = 0 then .free else if v = 1 then .reference else .input) ti
             holdLimit := itemOf (clampNat 1 250) ho },
           entryOf 3 (clampNat 0 3) cl ++ entryOf 5 (clampNat 1 250) ho)
      else none) ∧
  (∀ (s : Structure) (wh wl hh hl hs vs : Word),
    rasterItems s [wh, wl, hh, hl, hs, vs] =
      if pairFormed wh wl && pairFormed hh hl && oneOf 4 hs && oneOf 4 vs then
        some
          ({ width := pairOf takenWidth wh wl
             height := pairOf (takenHeight s) hh hl
             hset := itemOf (Fin.ofNat 4) hs
             vset := itemOf (Fin.ofNat 4) vs },
           pairEntryOf 1 takenWidth wh wl ++ pairEntryOf 2 (takenHeight s) hh hl)
      else none) ∧
  (∀ uh ul up lh ll lo : Word,
    trimItems [uh, ul, up, lh, ll, lo] =
      if pairFormed uh ul && pairFormed lh ll then
        some
          ({ upperGain := pairOf (clampNat 896 1152) uh ul
             upperLift := itemOf (fun v => ((clampNat 480 543 v : Nat) : Int) - 512) up
             lowerGain := pairOf (clampNat 896 1152) lh ll
             lowerLift := itemOf (fun v => ((clampNat 480 543 v : Nat) : Int) - 512) lo },
           pairEntryOf 1 (clampNat 896 1152) uh ul ++ entryOf 2 (clampNat 480 543) up ++
             pairEntryOf 3 (clampNat 896 1152) lh ll ++ entryOf 4 (clampNat 480 543) lo)
      else none) ∧
  (∀ fl ga di : Word,
    motionItems [fl, ga, di] =
      if oneOf 2 di then
        some
          ({ floor := itemOf (clampNat 0 255) fl
             gain := itemOf (clampNat 1 64) ga
             dirSearch := itemOf (fun v => v == 1) di },
           entryOf 1 (clampNat 0 255) fl ++ entryOf 2 (clampNat 1 64) ga)
      else none) ∧
  (∀ lc bh rh rl ch cl m0 m1 m2 m3 : Word,
    cadenceItems [lc, bh, rh, rl, ch, cl, m0, m1, m2, m3] =
      if pairFormed rh rl && pairFormed ch cl && maskFormed m0 m1 m2 m3 then
        some
          ({ lockCount := itemOf (clampNat 2 15) lc
             breakHold := itemOf (clampNat 0 15) bh
             repeatLimit := pairOf (clampNat 0 16383) rh rl
             minContrast := pairOf (clampNat 0 16383) ch cl
             mask := itemOf (fun _ => ⟨m0 == 1, m1 == 1, m2 == 1, m3 == 1⟩) m0 },
           entryOf 1 (clampNat 2 15) lc ++ entryOf 2 (clampNat 0 15) bh ++
             pairEntryOf 3 (clampNat 0 16383) rh rl ++ pairEntryOf 4 (clampNat 0 16383) ch cl)
      else none) ∧
  (∀ (t : CadenceTable) (f p st : Word),
    forceItems t [f, p, st] =
      if f = 0 then some ({ force := some .release }, [])
      else if f = 1 then some ({ force := some .video }, [])
      else if f = 2 ∧ p.toNat ≤ 3 ∧ t.usable.get (Fin.ofNat 4 p.toNat) = true then
        some ({ force := some (.film (Fin.ofNat 4 p.toNat) (min 7 st.toNat)) }, if 7 < st.toNat then [(3, 7)] else [])
      else none) ∧
  (∀ li en me di ac vh vl : Word,
    watchItems [li, en, me, di, ac, vh, vl] =
      if (li == 1 || li == 2) && oneOf 2 en && oneOf 3 me && oneOf 2 di && oneOf 2 ac && pairFormed vh vl then
        let items : WatchItems :=
          { enabled := itemOf (fun v => v == 1) en
            measure := itemOf (fun v => if v = 0 then .lostLines else if v = 1 then .concealedLines else .motion) me
            direction := itemOf (fun v => if v = 0 then .above else .below) di
            action := itemOf (fun v => if v = 0 then .note else .poor) ac
            value := pairOf (clampNat 0 16383) vh vl }
        some (if li = 1 then { watch1 := items } else { watch2 := items }, pairEntryOf 6 (clampNat 0 16383) vh vl)
      else none)

/-- What taking effect at once does. Every item but the mask and the force becomes active, the height re-adjusted at a change of
structure; the mask and the force by the tracker's rules (R63, R77), with no field start's number. A change of structure then
clears the feed (R15); an enable takes OFF to WAITING; a disable takes WAITING and DOWN to OFF, clearing the feed (R14), with
the counter and, by the model's choice, the expected parity kept (log entry 21) (R170). A break by a mask counts a break hold that
comes with it (log entry 34). -/
def Obligations.AtOnceEffects : Prop :=
  (∀ (s : State) (m : Feed) (p : Pending),
    let active := (s.setActive m ((s.settings m).over p)).takeTrackerItems m p none
    let changes := ∃ st, p.struct = some st ∧ st ≠ (s.settings m).struct
    ∃ v : State, (changes → v = active.clearFeed m) ∧ (¬changes → v = active) ∧ v.lrx = s.lrx ∧
      v.settings m =
        { (s.settings m).over p with
          mask := p.mask.getD (s.settings m).mask
          force := match p.force with
            | some f => s.cad.table.effectiveForce f
            | none => (s.settings m).force } ∧
      (p.enable = none → s.applyAtOnce m p = v) ∧
      (p.enable = some true →
        ((s.lrx.get m).state = .off → s.applyAtOnce m p = v.setRx m { s.lrx.get m with state := .waiting }) ∧
        ((s.lrx.get m).state ≠ .off → s.applyAtOnce m p = v)) ∧
      (p.enable = some false →
        ((s.lrx.get m).state = .off → s.applyAtOnce m p = v) ∧
        ((s.lrx.get m).state ≠ .off →
          s.applyAtOnce m p =
            ((v.setRx m { s.lrx.get m with state := .off, timer := .stopped, misses := 0, arriving := none }).setIng m
              ⟨none, 0⟩).clearFeed m))) ∧
  (∀ (s : State) (m : Feed) (p : Pending), p.mask = none → p.force = none → p.enable = none →
    p.changesStructure (s.settings m) = false → s.applyAtOnce m p = s.setActive m ((s.settings m).over p)) ∧
  (∀ (a : Settings) (p : Pending),
    let watch := fun (x : WatchItems) (y : Watch) => Watch.mk (x.enabled.getD y.enabled) (x.measure.getD y.measure)
      (x.direction.getD y.direction) (x.action.getD y.action) (x.value.getD y.value)
    let st := p.struct.getD a.struct
    let h := p.height.getD a.height
    a.over p =
      { enable := p.enable.getD a.enable, struct := st, cls := p.cls.getD a.cls
        timing := p.timing.getD a.timing, holdLimit := p.holdLimit.getD a.holdLimit, width := p.width.getD a.width
        height := if st = a.struct then h else max (2 * st.lines) h
        hset := p.hset.getD a.hset, vset := p.vset.getD a.vset
        upper := ⟨p.upperGain.getD a.upper.gain, p.upperLift.getD a.upper.lift⟩
        lower := ⟨p.lowerGain.getD a.lower.gain, p.lowerLift.getD a.lower.lift⟩
        floor := p.floor.getD a.floor, gain := p.gain.getD a.gain, dirSearch := p.dirSearch.getD a.dirSearch
        lockCount := p.lockCount.getD a.lockCount, breakHold := p.breakHold.getD a.breakHold
        repeatLimit := p.repeatLimit.getD a.repeatLimit, minContrast := p.minContrast.getD a.minContrast
        mask := a.mask, force := a.force, watch1 := watch p.watch1 a.watch1, watch2 := watch p.watch2 a.watch2 })

/-- The values taken: a width clamped to 720..1920 and rounded down to a multiple of 4, a height clamped to 2L..1080 and
rounded down to an even number (R124); the height after a change of structure (R125). -/
def Obligations.RasterAdjustment : Prop :=
  (∀ w : Nat, 720 ≤ takenWidth w ∧ takenWidth w ≤ 1920 ∧ takenWidth w % 4 = 0 ∧ (w < 720 → takenWidth w = 720) ∧
    (1920 < w → takenWidth w = 1920) ∧ (720 ≤ w → w ≤ 1920 → takenWidth w ≤ w ∧ w < takenWidth w + 4)) ∧
  (∀ (st : Structure) (h : Nat), 2 * st.lines ≤ takenHeight st h ∧ takenHeight st h ≤ 1080 ∧
    takenHeight st h % 2 = 0 ∧ (h < 2 * st.lines → takenHeight st h = 2 * st.lines) ∧
    (1080 < h → takenHeight st h = 1080) ∧
    (2 * st.lines ≤ h → h ≤ 1080 → takenHeight st h ≤ h ∧ h < takenHeight st h + 2)) ∧
  (∀ (a : Settings) (p : Pending) (st : Structure), p.struct = some st → p.height = none → st ≠ a.struct →
    (a.over p).height = if a.height < 2 * st.lines then 2 * st.lines else a.height)

/-! ## Device cues -/

/-- A FEED_RESTART: WAITING or OFF by the enable, the timer stopped, no misses, no field arriving, the counter and the
expected parity kept; the pending record, the history, the feed's counters and latches empty; the tracker by its force;
no job of the feed waiting; the active settings, the pending notices and the other feeds' receivers kept; the outputs kept,
but that one under INPUT begins to run free (R157); result DONE (R16, R173, R195). -/
def Obligations.FeedRestarts : Prop :=
  ∀ (n m : Feed) (c : CueWords) (s : State), s.admits n 0x008 c (.feed m) → c.payload = [] →
    ∃ t : State, exec (.feedRestart n c) s = .next (t.answer n 0x008 c ⟨.done, none, []⟩) ∧
      t.lrx.get m =
        { s.lrx.get m with
          state := if (s.settings m).enable then .waiting else .off
          timer := .stopped, misses := 0, arriving := none } ∧
      (∀ k, k ≠ m → t.lrx.get k = s.lrx.get k) ∧
      t.cue = { s.cue with staged := s.cue.staged.set m emptyPending } ∧
      t.history m = [] ∧
      t.cad.trackers.get m = ⟨s.cad.table.resetState (s.settings m).force, makeHyps s.cad.table (s.settings m).mask⟩ ∧
      t.fen.waiting = s.fen.waiting.filter (fun j => j.feed != m) ∧
      t.ntu.feedCounters.get m = {} ∧ t.ntu.feedLatches.get m = ⟨none, none⟩ ∧ t.ntu.table = s.ntu.table ∧
      t.ntu.devCounters = s.ntu.devCounters ∧
      t = { (s.setStaged m emptyPending).clearFeed m with
            lrx := t.lrx, ing := s.ing.set m ⟨none, 0⟩, otx := t.otx, ntu := t.ntu } ∧
      (∀ k, (k ≠ m ∨ (s.otx.get m).source ≠ .input ∨ (s.lrx.get m).state ≠ .running) → t.otx.get k = s.otx.get k) ∧
      ((s.otx.get m).source = .input → (s.lrx.get m).state = .running →
        t.otx.get m = { s.otx.get m with frameTimer := .running (s.period m) })

/-- A DEVICE_RESTART: power-on values everywhere but for the cadence table, the coefficient sets, the load copies, the
notice levels and masks and the external memory; the straps are read again; CUES_TAKEN stands at 1 and the result is the
one entry of output 0's queue (R174). -/
def Obligations.DeviceRestarts : Prop :=
  ∀ (n : Feed) (c : CueWords) (d : Straps) (s : State), s.admits n 0x010 c .device → c.payload = [] →
    ∃ t : State, exec (.deviceRestart n c d) s = .next t ∧ n = 0 ∧
      t.lrx = Quad.all powerOnReceiver ∧ t.ing = Quad.all powerOnConditioner ∧
      t.fst = ⟨List.replicate 24 .free, s.fst.mem, Quad.all [], [], false⟩ ∧
      t.cad = ⟨s.cad.table, Quad.all ⟨.seeking, makeHyps s.cad.table ⟨true, true, false, false⟩⟩⟩ ∧
      t.fen = ⟨none, [], s.fen.hsets, s.fen.vsets⟩ ∧
      t.cue = ⟨d.number, Quad.all powerOnSettings, Quad.all {}⟩ ∧
      t.tld = ⟨none, s.tld.copies⟩ ∧
      t.ntu =
        ⟨s.ntu.settings, [], Quad.all {}, { cuesTaken := 1 }, Quad.all ⟨none, none⟩, ⟨none, none⟩,
          ⟨0, ⟨false, false, false, false⟩, 0, none⟩⟩ ∧
      (∀ k : Feed,
        t.otx.get k =
          { powerOnTransmitter with
            link := (s.otx.get k).link
            results := if k = 0 then [resultOf 0x010 c ⟨.done, none, []⟩] else [] })

/-- A TABLE_OPEN: an identity above 8, a malformed count or KEEP is refused with REFUSED_VALUE; REFUSED_BUSY where the
load copy is READY; REFUSED_VALUE where the count is not the table's size; else DONE with a new load record, an open load
being discarded as superseded (R165, R178). -/
def Obligations.TableOpens : Prop :=
  ∀ (n : Feed) (c : CueWords) (s : State) (w h l : Word), s.admits n 0x009 c .device → c.payload = [w, h, l] →
    let answer := fun (t : State) (o : ResultCode) => Host.Outcome.next (t.answer n 0x009 c ⟨o, none, []⟩)
    let count := h.toNat * 256 + l.toNat
    ((8 < w.toNat ∨ 255 < h.toNat ∨ 255 < l.toNat) → exec (.tableOpen n c) s = answer s .refusedValue) ∧
    (∀ t : TableId, w.toNat = t.val → h.toNat ≤ 255 → l.toNat ≤ 255 →
      ((s.copy t).ready = true → exec (.tableOpen n c) s = answer s .refusedBusy) ∧
      ((s.copy t).ready = false → count ≠ tableSize t → exec (.tableOpen n c) s = answer s .refusedValue) ∧
      ((s.copy t).ready = false → count = tableSize t →
        (s.tld.load = none →
          exec (.tableOpen n c) s =
            answer { s with tld := { s.tld with load := some ⟨t, count, 0, 0, 0⟩ } } .done) ∧
        (∀ r, s.tld.load = some r →
          exec (.tableOpen n c) s =
            answer ({ s with tld := { s.tld with load := some ⟨t, count, 0, 0, 0⟩ } }.raise .loadDiscarded .device
              (.reason .superseded)) .done)))

/-- A TABLE_PART: NOTHING_OPEN with no load open; an accepted MORE part writes its words from the words received on, and
counts them; a part out of order or of a wrong count ends the load as a sequence fault; an accepted LAST part closes the
load, READY or refused by the checks (R179, R180, R181). The checks of a complete table: a cadence table's lengths within 0..8
and its 32 steps 0, 1 or 2; a coefficient set's words within 384..767 and each phase's coefficients summing to 128 (R182). -/
def Obligations.TablePartsAndChecks : Prop :=
  (∀ (n : Feed) (c : CueWords) (s : State) (i k : Word) (ws : List Word), s.admits n 0x00A c .device →
    c.payload = i :: k :: ws → ws ≠ [] → c.payload.length ≤ 240 → k.toNat ≤ 1 →
    let answer := fun (t : State) (a : Answer) => Host.Outcome.next (t.answer n 0x00A c a)
    (s.tld.load = none → exec (.tablePart n c) s = answer s ⟨.nothingOpen, none, []⟩) ∧
    (∀ r, s.tld.load = some r →
      let fits := i.toNat = r.partsReceived % 256 ∧ r.wordsReceived + ws.length ≤ r.declared ∧
        (k.toNat = 1 → r.wordsReceived + ws.length = r.declared)
      let words := writeWords r.wordsReceived ws (s.copy r.table).words
      (¬fits →
        exec (.tablePart n c) s =
          answer ({ s with tld := { s.tld with load := none } }.raise .loadDiscarded .device (.reason .sequence))
            ⟨.discarded, some .sequence, []⟩) ∧
      (fits → k.toNat = 0 →
        exec (.tablePart n c) s =
          answer
            { s with tld :=
              ⟨some ⟨r.table, r.declared, r.partsReceived + 1, r.wordsReceived + ws.length, 0⟩,
                s.tld.copies.set r.table.val { s.copy r.table with words := words }⟩ }
            ⟨.done, none, []⟩) ∧
      (fits → k.toNat = 1 → s.tld.copies.length = 9 →
        (tableChecks r.table words = true →
          exec (.tablePart n c) s =
            answer { s with tld := ⟨none, s.tld.copies.set r.table.val ⟨true, words⟩⟩ } ⟨.done, none, []⟩) ∧
        (tableChecks r.table words = false →
          exec (.tablePart n c) s =
            answer
              ({ s with tld :=
                ⟨none, s.tld.copies.set r.table.val { s.copy r.table with words := words }⟩ }.raise .loadDiscarded .device
                (.reason .tableRefused))
              ⟨.discarded, some .tableRefused, []⟩)))) ∧
  (∀ ws : List Word,
    tableChecks 0 ws = true ↔
      ∀ p, p < 4 → (ws.getD (9 * p) 0).toNat ≤ 8 ∧ ∀ s, s < 8 → (ws.getD (9 * p + 1 + s) 0).toNat ≤ 2) ∧
  (∀ (t : TableId) (ws : List Word), t ≠ 0 →
    let taps := if t.val ≤ 4 then 8 else 4
    (tableChecks t ws = true ↔
      ∀ q, q < 64 →
        (∀ i, i < taps → 384 ≤ (ws.getD (q * taps + i) 0).toNat ∧ (ws.getD (q * taps + i) 0).toNat ≤ 767) ∧
        ((List.range taps).map (fun i => ((ws.getD (q * taps + i) 0).toNat : Int) - 512)).sum = 128))

/-- A TABLE_ABANDON: with a load open, the load record becomes absent and nothing else changes, the copies among it, and
the result is ABANDONED; with none open nothing changes and the result is TOO_LATE (R183). The loader at an event of feed 0: one
more event while a load is open; the eighth discards the load with the reason STALLED; with no load open nothing changes.
Of the receivers' field events, the loader takes those of feed 0 alone (R20). LOAD_STALL is the loader's share of the eighth
(R184, log entry 13). -/
def Obligations.LoadEnds : Prop :=
  (∀ (n : Feed) (c : CueWords) (s : State), s.admits n 0x00B c .device → c.payload = [] →
    (∀ r, s.tld.load = some r →
      exec (.tableAbandon n c) s =
        .next ({ s with tld := { s.tld with load := none } }.answer n 0x00B c ⟨.abandoned, none, []⟩)) ∧
    (s.tld.load = none →
      exec (.tableAbandon n c) s = .next (s.answer n 0x00B c ⟨.tooLate, none, []⟩))) ∧
  (∀ s : State,
    (s.tld.load = none → s.loaderEvent = s) ∧
    (∀ r, s.tld.load = some r → r.events < 7 →
      s.loaderEvent = { s with tld := { s.tld with load := some { r with events := r.events + 1 } } }) ∧
    (∀ r, s.tld.load = some r → r.events = 7 →
      s.loaderEvent = { s with tld := { s.tld with load := none } }.raise .loadDiscarded .device (.reason .stalled) ∧
      (s.resetHeld = false →
        exec .loadStall s =
          .next ({ s with tld := { s.tld with load := none } }.raise .loadDiscarded .device (.reason .stalled))))) ∧
  (∀ (s : State) (n : Feed), s.handToLoader n = if n = 0 then s.loaderEvent else s)

/-- NOTICE_SET sets the level and the mask of the named kind, each unless KEEP, and nothing else; a level above 3 is taken
as 3 (R172, R188). REPORT_SET sets the period and the scan set, each unless KEEP, and starts the count and the scan position
afresh, also with both items KEEP; a period above 16 is taken as 16, with DONE_ADJUSTED (R165, R172, R194). -/
def Obligations.NoticeUnitCues : Prop :=
  (∀ (n : Feed) (c : CueWords) (s : State) (k l m : Word), s.admits n 0x00C c .device → c.payload = [k, l, m] →
    s.ntu.settings.length = 24 → 1 ≤ k.toNat → k.toNat ≤ 24 → (m.toNat ≤ 1 ∨ m = keepWord) →
    ∃ t : State,
      exec (.noticeSet n c) s =
        .next (t.answer n 0x00C c
          (if 3 < l.toNat ∧ l ≠ keepWord then ⟨.doneAdjusted, none, [(2, 3)]⟩ else ⟨.done, none, []⟩)) ∧
      t = { s with ntu := { s.ntu with settings := t.ntu.settings } } ∧
      ∀ j, j < 24 →
        t.ntu.settings.getD j ⟨0, false⟩ =
          (if j + 1 = k.toNat then
            ⟨if l = keepWord then (s.ntu.settings.getD j ⟨0, false⟩).level else min 3 l.toNat,
              if m = keepWord then (s.ntu.settings.getD j ⟨0, false⟩).masked else m.toNat == 1⟩
          else s.ntu.settings.getD j ⟨0, false⟩)) ∧
  (∀ (n : Feed) (c : CueWords) (s : State) (p w0 w1 w2 w3 : Word), s.admits n 0x00D c .device →
    c.payload = [p, w0, w1, w2, w3] → maskFormed w0 w1 w2 w3 = true →
    let keepScan := w0 = keepWord ∧ w1 = keepWord ∧ w2 = keepWord ∧ w3 = keepWord
    exec (.reportSet n c) s =
      .next ({ s with ntu := { s.ntu with
        periodic :=
          ⟨if p = keepWord then s.ntu.periodic.period else min 16 p.toNat,
            if keepScan then s.ntu.periodic.scan
              else ⟨w0.toNat == 1, w1.toNat == 1, w2.toNat == 1, w3.toNat == 1⟩, 0, none⟩ } }.answer n 0x00D c
        (if p ≠ keepWord ∧ 16 < p.toNat then ⟨.doneAdjusted, none, [(1, 16)]⟩ else ⟨.done, none, []⟩)))

/-- SNAPSHOT and STATUS_QUERY: an empty latch of the scope takes the record as it stands, with DONE, and SNAPSHOT with
clear then clears the scope's counters; a full latch stays, with DONE_ALREADY (R172, R192). The records word by word (R193, Table
9-5): a counter in four words; the 17 words of a feed's status, the best hypothesis by its current step (R71), an absent value
all ones (R161); the 15 words of the device's status. -/
def Obligations.LatchCues : Prop :=
  (let word := fun (v : Nat) => (BitVec.ofNat 10 v : Word)
   let four := fun (v : Nat) => [word (v / 16777216 % 256), word (v / 65536 % 256), word (v / 256 % 256), word (v % 256)]
   let optional := fun (o : Option Nat) => match o with
     | some v => word v
     | none => 0x3FF
   ∀ s : State,
    (∀ n : Feed,
      let f := s.ntu.feedCounters.get n
      s.counterRecord (.feed n) =
        [f.fieldsStored, f.fieldsMissing, f.fieldsDropped, f.parityRepeats, f.linesLost, f.linesConcealed, f.storeCorrected,
          f.linesDamaged, f.locks, f.breaks, f.jobsDone, f.jobsSkipped, f.framesRepeated, f.framesFill, f.framesDiscarded,
          f.carriedLost].flatMap four ∧
      s.clearCounters (.feed n) = { s with ntu := { s.ntu with feedCounters := s.ntu.feedCounters.set n {} } }) ∧
    (let f := s.ntu.devCounters
     s.counterRecord .device =
      [f.cuesTaken, f.cuesDiscarded, f.cuesRefused, f.reclaims, f.tablesAdopted, f.resultsLost].flatMap four ∧
     s.clearCounters .device = { s with ntu := { s.ntu with devCounters := {} } }) ∧
    (∀ n : Feed,
      let k := s.cad.trackers.get n
      let o := s.otx.get n
      let half := fun (h : Half) => match h.state with
        | .sending => word 0
        | .empty => word 1
        | .filling => word 2
        | .ready => word 3
      let tracker : Word × Option Nat × Option Nat := match k.state with
        | .seeking => (0, none, none)
        | .locked p st => (1, some p.val, some st)
        | .broken _ => (2, none, none)
        | .heldVideo => (3, none, none)
        | .heldFilm p st => (4, some p.val, some st)
      ∃ best : Option Hypothesis, (best = none ↔ k.hyps = []) ∧
        (∀ h, best = some h → h ∈ k.hyps ∧ ∀ x ∈ k.hyps, x.run < h.run ∨ (x.run = h.run ∧
          (h.program < x.program ∨ (h.program = x.program ∧ h.current ≤ x.current)))) ∧
        s.statusRecord (.feed n) =
          [match (s.lrx.get n).state with
            | .off => 0
            | .waiting => 1
            | .running => 2
            | .down => 3,
            match (s.settings n).struct with
            | .s50 => 0
            | .s60 => 1,
            word (s.settings n).cls.val, tracker.1, optional tracker.2.1, optional tracker.2.2,
            optional (best.map (fun h => h.program.val)), optional (best.map (fun h => h.current)),
            optional (best.map (fun h => h.run)), word (s.history n).length,
            word (s.fst.slots.countP (fun x => x == .filling n || x == .held n || x == .retiring n)),
            word (s.fen.waiting.countP (fun j => j.feed == n)), half o.half0, half o.half1, word o.repeatCount,
            if o.fillFlag = true then 1 else 0, if s.cue.staged.get n = emptyPending then 0 else 1]) ∧
    s.statusRecord .device =
      [word (s.fst.slots.countP (fun x => x == .free)), if s.fst.tight = true then 1 else 0,
        optional (s.tld.load.map (fun l => l.table.val)), optional (s.tld.load.map (fun l => l.partsReceived / 256)),
        optional (s.tld.load.map (fun l => l.partsReceived % 256))] ++
        (List.finRange 9).map (fun t => if (s.tld.copies.getD t.val ⟨false, []⟩).ready = true then 1 else 0) ++
        [word s.cue.deviceNumber.val]) ∧
  ∀ (n : Feed) (c : CueWords) (s : State) (sc : Scope) (w : Word),
    (s.admits n 0x00E c sc → c.payload = [w] → w.toNat ≤ 1 →
      ((s.latches sc).counters.isSome = true →
        exec (.snapshot n c) s = .next (s.answer n 0x00E c ⟨.doneAlready, none, []⟩)) ∧
      ((s.latches sc).counters = none →
        let t := s.setLatches sc ⟨(s.latches sc).status, some (s.counterRecord sc)⟩
        exec (.snapshot n c) s =
          .next ((if w.toNat = 1 then t.clearCounters sc else t).answer n 0x00E c ⟨.done, none, []⟩))) ∧
    (s.admits n 0x00F c sc → c.payload = [] →
      ((s.latches sc).status.isSome = true →
        exec (.statusQuery n c) s = .next (s.answer n 0x00F c ⟨.doneAlready, none, []⟩)) ∧
      ((s.latches sc).status = none →
        exec (.statusQuery n c) s =
          .next ((s.setLatches sc ⟨some (s.statusRecord sc), (s.latches sc).counters⟩).answer n 0x00F c ⟨.done, none, []⟩)))
end

