-- ==== Sys2Proof/Laws/State.lean ====
section
/-! SUPPORT. One lemma per field of State for each update: what the update leaves in the field, by rfl. -/

namespace Sys2Proof.Machine

/-! ## Quadruples -/

@[simp] theorem Quad_get_set_same {α : Type} (q : Quad α) (n : Fin 4) (a : α) : (q.set n a).get n = a := by
  fin_cases n <;> rfl

theorem Quad_get_set_other {α : Type} (q : Quad α) (n m : Fin 4) (a : α) (h : m ≠ n) : (q.set n a).get m = q.get m := by
  fin_cases n <;> fin_cases m <;> first | rfl | exact absurd rfl h

theorem Quad_get_set {α : Type} (q : Quad α) (n m : Fin 4) (a : α) :
    (q.set n a).get m = if m = n then a else q.get m := by
  by_cases h : m = n
  · subst h
    simp
  · simp [h, Quad_get_set_other q n m a h]

@[simp] theorem Quad_set_get {α : Type} (q : Quad α) (n : Fin 4) : q.set n (q.get n) = q := by
  fin_cases n <;> rfl

@[simp] theorem Quad_get_all {α : Type} (a : α) (n : Fin 4) : (Quad.all a).get n = a := by
  fin_cases n <;> rfl

/-! ## setRx -/

@[simp] theorem setRx_lrx (s : State) (n : Feed) (r : Receiver) :
    (s.setRx n r).lrx = s.lrx.set n r := rfl

@[simp] theorem setRx_ing (s : State) (n : Feed) (r : Receiver) : (s.setRx n r).ing = s.ing := rfl

@[simp] theorem setRx_fst (s : State) (n : Feed) (r : Receiver) : (s.setRx n r).fst = s.fst := rfl

@[simp] theorem setRx_cad (s : State) (n : Feed) (r : Receiver) : (s.setRx n r).cad = s.cad := rfl

@[simp] theorem setRx_fen (s : State) (n : Feed) (r : Receiver) : (s.setRx n r).fen = s.fen := rfl

@[simp] theorem setRx_otx (s : State) (n : Feed) (r : Receiver) : (s.setRx n r).otx = s.otx := rfl

@[simp] theorem setRx_cue (s : State) (n : Feed) (r : Receiver) : (s.setRx n r).cue = s.cue := rfl

@[simp] theorem setRx_tld (s : State) (n : Feed) (r : Receiver) : (s.setRx n r).tld = s.tld := rfl

@[simp] theorem setRx_ntu (s : State) (n : Feed) (r : Receiver) : (s.setRx n r).ntu = s.ntu := rfl

@[simp] theorem setRx_resetHeld (s : State) (n : Feed) (r : Receiver) : (s.setRx n r).resetHeld = s.resetHeld := rfl

@[simp] theorem setRx_choices (s : State) (n : Feed) (r : Receiver) : (s.setRx n r).choices = s.choices := rfl

@[simp] theorem setRx_pending (s : State) (n : Feed) (r : Receiver) : (s.setRx n r).pending = s.pending := rfl

/-! ## setIng -/

@[simp] theorem setIng_lrx (s : State) (n : Feed) (c : Conditioner) : (s.setIng n c).lrx = s.lrx := rfl

@[simp] theorem setIng_ing (s : State) (n : Feed) (c : Conditioner) :
    (s.setIng n c).ing = s.ing.set n c := rfl

@[simp] theorem setIng_fst (s : State) (n : Feed) (c : Conditioner) : (s.setIng n c).fst = s.fst := rfl

@[simp] theorem setIng_cad (s : State) (n : Feed) (c : Conditioner) : (s.setIng n c).cad = s.cad := rfl

@[simp] theorem setIng_fen (s : State) (n : Feed) (c : Conditioner) : (s.setIng n c).fen = s.fen := rfl

@[simp] theorem setIng_otx (s : State) (n : Feed) (c : Conditioner) : (s.setIng n c).otx = s.otx := rfl

@[simp] theorem setIng_cue (s : State) (n : Feed) (c : Conditioner) : (s.setIng n c).cue = s.cue := rfl

@[simp] theorem setIng_tld (s : State) (n : Feed) (c : Conditioner) : (s.setIng n c).tld = s.tld := rfl

@[simp] theorem setIng_ntu (s : State) (n : Feed) (c : Conditioner) : (s.setIng n c).ntu = s.ntu := rfl

@[simp] theorem setIng_resetHeld (s : State) (n : Feed) (c : Conditioner) : (s.setIng n c).resetHeld = s.resetHeld := rfl

@[simp] theorem setIng_choices (s : State) (n : Feed) (c : Conditioner) : (s.setIng n c).choices = s.choices := rfl

@[simp] theorem setIng_pending (s : State) (n : Feed) (c : Conditioner) : (s.setIng n c).pending = s.pending := rfl

/-! ## setOtx -/

@[simp] theorem setOtx_lrx (s : State) (n : Feed) (t : Transmitter) : (s.setOtx n t).lrx = s.lrx := rfl

@[simp] theorem setOtx_ing (s : State) (n : Feed) (t : Transmitter) : (s.setOtx n t).ing = s.ing := rfl

@[simp] theorem setOtx_fst (s : State) (n : Feed) (t : Transmitter) : (s.setOtx n t).fst = s.fst := rfl

@[simp] theorem setOtx_cad (s : State) (n : Feed) (t : Transmitter) : (s.setOtx n t).cad = s.cad := rfl

@[simp] theorem setOtx_fen (s : State) (n : Feed) (t : Transmitter) : (s.setOtx n t).fen = s.fen := rfl

@[simp] theorem setOtx_otx (s : State) (n : Feed) (t : Transmitter) :
    (s.setOtx n t).otx = s.otx.set n t := rfl

@[simp] theorem setOtx_cue (s : State) (n : Feed) (t : Transmitter) : (s.setOtx n t).cue = s.cue := rfl

@[simp] theorem setOtx_tld (s : State) (n : Feed) (t : Transmitter) : (s.setOtx n t).tld = s.tld := rfl

@[simp] theorem setOtx_ntu (s : State) (n : Feed) (t : Transmitter) : (s.setOtx n t).ntu = s.ntu := rfl

@[simp] theorem setOtx_resetHeld (s : State) (n : Feed) (t : Transmitter) : (s.setOtx n t).resetHeld = s.resetHeld := rfl

@[simp] theorem setOtx_choices (s : State) (n : Feed) (t : Transmitter) : (s.setOtx n t).choices = s.choices := rfl

@[simp] theorem setOtx_pending (s : State) (n : Feed) (t : Transmitter) : (s.setOtx n t).pending = s.pending := rfl

/-! ## setActive -/

@[simp] theorem setActive_lrx (s : State) (n : Feed) (a : Settings) : (s.setActive n a).lrx = s.lrx := rfl

@[simp] theorem setActive_ing (s : State) (n : Feed) (a : Settings) : (s.setActive n a).ing = s.ing := rfl

@[simp] theorem setActive_fst (s : State) (n : Feed) (a : Settings) : (s.setActive n a).fst = s.fst := rfl

@[simp] theorem setActive_cad (s : State) (n : Feed) (a : Settings) : (s.setActive n a).cad = s.cad := rfl

@[simp] theorem setActive_fen (s : State) (n : Feed) (a : Settings) : (s.setActive n a).fen = s.fen := rfl

@[simp] theorem setActive_otx (s : State) (n : Feed) (a : Settings) : (s.setActive n a).otx = s.otx := rfl

@[simp] theorem setActive_cue (s : State) (n : Feed) (a : Settings) :
    (s.setActive n a).cue = { s.cue with active := s.cue.active.set n a } := rfl

@[simp] theorem setActive_tld (s : State) (n : Feed) (a : Settings) : (s.setActive n a).tld = s.tld := rfl

@[simp] theorem setActive_ntu (s : State) (n : Feed) (a : Settings) : (s.setActive n a).ntu = s.ntu := rfl

@[simp] theorem setActive_resetHeld (s : State) (n : Feed) (a : Settings) : (s.setActive n a).resetHeld = s.resetHeld := rfl

@[simp] theorem setActive_choices (s : State) (n : Feed) (a : Settings) : (s.setActive n a).choices = s.choices := rfl

@[simp] theorem setActive_pending (s : State) (n : Feed) (a : Settings) : (s.setActive n a).pending = s.pending := rfl

/-! ## setStaged -/

@[simp] theorem setStaged_lrx (s : State) (n : Feed) (p : Pending) : (s.setStaged n p).lrx = s.lrx := rfl

@[simp] theorem setStaged_ing (s : State) (n : Feed) (p : Pending) : (s.setStaged n p).ing = s.ing := rfl

@[simp] theorem setStaged_fst (s : State) (n : Feed) (p : Pending) : (s.setStaged n p).fst = s.fst := rfl

@[simp] theorem setStaged_cad (s : State) (n : Feed) (p : Pending) : (s.setStaged n p).cad = s.cad := rfl

@[simp] theorem setStaged_fen (s : State) (n : Feed) (p : Pending) : (s.setStaged n p).fen = s.fen := rfl

@[simp] theorem setStaged_otx (s : State) (n : Feed) (p : Pending) : (s.setStaged n p).otx = s.otx := rfl

@[simp] theorem setStaged_cue (s : State) (n : Feed) (p : Pending) :
    (s.setStaged n p).cue = { s.cue with staged := s.cue.staged.set n p } := rfl

@[simp] theorem setStaged_tld (s : State) (n : Feed) (p : Pending) : (s.setStaged n p).tld = s.tld := rfl

@[simp] theorem setStaged_ntu (s : State) (n : Feed) (p : Pending) : (s.setStaged n p).ntu = s.ntu := rfl

@[simp] theorem setStaged_resetHeld (s : State) (n : Feed) (p : Pending) : (s.setStaged n p).resetHeld = s.resetHeld := rfl

@[simp] theorem setStaged_choices (s : State) (n : Feed) (p : Pending) : (s.setStaged n p).choices = s.choices := rfl

@[simp] theorem setStaged_pending (s : State) (n : Feed) (p : Pending) : (s.setStaged n p).pending = s.pending := rfl

/-! ## setTracker -/

@[simp] theorem setTracker_lrx (s : State) (n : Feed) (k : Tracker) : (s.setTracker n k).lrx = s.lrx := rfl

@[simp] theorem setTracker_ing (s : State) (n : Feed) (k : Tracker) : (s.setTracker n k).ing = s.ing := rfl

@[simp] theorem setTracker_fst (s : State) (n : Feed) (k : Tracker) : (s.setTracker n k).fst = s.fst := rfl

@[simp] theorem setTracker_cad (s : State) (n : Feed) (k : Tracker) :
    (s.setTracker n k).cad = { s.cad with trackers := s.cad.trackers.set n k } := rfl

@[simp] theorem setTracker_fen (s : State) (n : Feed) (k : Tracker) : (s.setTracker n k).fen = s.fen := rfl

@[simp] theorem setTracker_otx (s : State) (n : Feed) (k : Tracker) : (s.setTracker n k).otx = s.otx := rfl

@[simp] theorem setTracker_cue (s : State) (n : Feed) (k : Tracker) : (s.setTracker n k).cue = s.cue := rfl

@[simp] theorem setTracker_tld (s : State) (n : Feed) (k : Tracker) : (s.setTracker n k).tld = s.tld := rfl

@[simp] theorem setTracker_ntu (s : State) (n : Feed) (k : Tracker) : (s.setTracker n k).ntu = s.ntu := rfl

@[simp] theorem setTracker_resetHeld (s : State) (n : Feed) (k : Tracker) : (s.setTracker n k).resetHeld = s.resetHeld := rfl

@[simp] theorem setTracker_choices (s : State) (n : Feed) (k : Tracker) : (s.setTracker n k).choices = s.choices := rfl

@[simp] theorem setTracker_pending (s : State) (n : Feed) (k : Tracker) : (s.setTracker n k).pending = s.pending := rfl

/-! ## setHist -/

@[simp] theorem setHist_lrx (s : State) (n : Feed) (h : List FieldRecord) : (s.setHist n h).lrx = s.lrx := rfl

@[simp] theorem setHist_ing (s : State) (n : Feed) (h : List FieldRecord) : (s.setHist n h).ing = s.ing := rfl

@[simp] theorem setHist_fst (s : State) (n : Feed) (h : List FieldRecord) :
    (s.setHist n h).fst = { s.fst with hist := s.fst.hist.set n h } := rfl

@[simp] theorem setHist_cad (s : State) (n : Feed) (h : List FieldRecord) : (s.setHist n h).cad = s.cad := rfl

@[simp] theorem setHist_fen (s : State) (n : Feed) (h : List FieldRecord) : (s.setHist n h).fen = s.fen := rfl

@[simp] theorem setHist_otx (s : State) (n : Feed) (h : List FieldRecord) : (s.setHist n h).otx = s.otx := rfl

@[simp] theorem setHist_cue (s : State) (n : Feed) (h : List FieldRecord) : (s.setHist n h).cue = s.cue := rfl

@[simp] theorem setHist_tld (s : State) (n : Feed) (h : List FieldRecord) : (s.setHist n h).tld = s.tld := rfl

@[simp] theorem setHist_ntu (s : State) (n : Feed) (h : List FieldRecord) : (s.setHist n h).ntu = s.ntu := rfl

@[simp] theorem setHist_resetHeld (s : State) (n : Feed) (h : List FieldRecord) : (s.setHist n h).resetHeld = s.resetHeld := rfl

@[simp] theorem setHist_choices (s : State) (n : Feed) (h : List FieldRecord) : (s.setHist n h).choices = s.choices := rfl

@[simp] theorem setHist_pending (s : State) (n : Feed) (h : List FieldRecord) : (s.setHist n h).pending = s.pending := rfl

/-! ## setSlot -/

@[simp] theorem setSlot_lrx (s : State) (k : Fin 24) (v : Slot) : (s.setSlot k v).lrx = s.lrx := rfl

@[simp] theorem setSlot_ing (s : State) (k : Fin 24) (v : Slot) : (s.setSlot k v).ing = s.ing := rfl

@[simp] theorem setSlot_fst (s : State) (k : Fin 24) (v : Slot) :
    (s.setSlot k v).fst = { s.fst with slots := s.fst.slots.set k.val v } := rfl

@[simp] theorem setSlot_cad (s : State) (k : Fin 24) (v : Slot) : (s.setSlot k v).cad = s.cad := rfl

@[simp] theorem setSlot_fen (s : State) (k : Fin 24) (v : Slot) : (s.setSlot k v).fen = s.fen := rfl

@[simp] theorem setSlot_otx (s : State) (k : Fin 24) (v : Slot) : (s.setSlot k v).otx = s.otx := rfl

@[simp] theorem setSlot_cue (s : State) (k : Fin 24) (v : Slot) : (s.setSlot k v).cue = s.cue := rfl

@[simp] theorem setSlot_tld (s : State) (k : Fin 24) (v : Slot) : (s.setSlot k v).tld = s.tld := rfl

@[simp] theorem setSlot_ntu (s : State) (k : Fin 24) (v : Slot) : (s.setSlot k v).ntu = s.ntu := rfl

@[simp] theorem setSlot_resetHeld (s : State) (k : Fin 24) (v : Slot) : (s.setSlot k v).resetHeld = s.resetHeld := rfl

@[simp] theorem setSlot_choices (s : State) (k : Fin 24) (v : Slot) : (s.setSlot k v).choices = s.choices := rfl

@[simp] theorem setSlot_pending (s : State) (k : Fin 24) (v : Slot) : (s.setSlot k v).pending = s.pending := rfl

/-! ## writeLine -/

@[simp] theorem writeLine_lrx (s : State) (k : Fin 24) (m : Nat) (l : Line) : (s.writeLine k m l).lrx = s.lrx := rfl

@[simp] theorem writeLine_ing (s : State) (k : Fin 24) (m : Nat) (l : Line) : (s.writeLine k m l).ing = s.ing := rfl

@[simp] theorem writeLine_fst (s : State) (k : Fin 24) (m : Nat) (l : Line) :
    (s.writeLine k m l).fst = { s.fst with mem := memWrite (areaKey k m) l s.fst.mem } := rfl

@[simp] theorem writeLine_cad (s : State) (k : Fin 24) (m : Nat) (l : Line) : (s.writeLine k m l).cad = s.cad := rfl

@[simp] theorem writeLine_fen (s : State) (k : Fin 24) (m : Nat) (l : Line) : (s.writeLine k m l).fen = s.fen := rfl

@[simp] theorem writeLine_otx (s : State) (k : Fin 24) (m : Nat) (l : Line) : (s.writeLine k m l).otx = s.otx := rfl

@[simp] theorem writeLine_cue (s : State) (k : Fin 24) (m : Nat) (l : Line) : (s.writeLine k m l).cue = s.cue := rfl

@[simp] theorem writeLine_tld (s : State) (k : Fin 24) (m : Nat) (l : Line) : (s.writeLine k m l).tld = s.tld := rfl

@[simp] theorem writeLine_ntu (s : State) (k : Fin 24) (m : Nat) (l : Line) : (s.writeLine k m l).ntu = s.ntu := rfl

@[simp] theorem writeLine_resetHeld (s : State) (k : Fin 24) (m : Nat) (l : Line) : (s.writeLine k m l).resetHeld = s.resetHeld := rfl

@[simp] theorem writeLine_choices (s : State) (k : Fin 24) (m : Nat) (l : Line) : (s.writeLine k m l).choices = s.choices := rfl

@[simp] theorem writeLine_pending (s : State) (k : Fin 24) (m : Nat) (l : Line) : (s.writeLine k m l).pending = s.pending := rfl

/-! ## raise -/

@[simp] theorem raise_lrx (s : State) (k : NoticeKind) (sc : Scope) (d : Detail) : (s.raise k sc d).lrx = s.lrx := rfl

@[simp] theorem raise_ing (s : State) (k : NoticeKind) (sc : Scope) (d : Detail) : (s.raise k sc d).ing = s.ing := rfl

@[simp] theorem raise_fst (s : State) (k : NoticeKind) (sc : Scope) (d : Detail) : (s.raise k sc d).fst = s.fst := rfl

@[simp] theorem raise_cad (s : State) (k : NoticeKind) (sc : Scope) (d : Detail) : (s.raise k sc d).cad = s.cad := rfl

@[simp] theorem raise_fen (s : State) (k : NoticeKind) (sc : Scope) (d : Detail) : (s.raise k sc d).fen = s.fen := rfl

@[simp] theorem raise_otx (s : State) (k : NoticeKind) (sc : Scope) (d : Detail) : (s.raise k sc d).otx = s.otx := rfl

@[simp] theorem raise_cue (s : State) (k : NoticeKind) (sc : Scope) (d : Detail) : (s.raise k sc d).cue = s.cue := rfl

@[simp] theorem raise_tld (s : State) (k : NoticeKind) (sc : Scope) (d : Detail) : (s.raise k sc d).tld = s.tld := rfl

@[simp] theorem raise_ntu (s : State) (k : NoticeKind) (sc : Scope) (d : Detail) :
    (s.raise k sc d).ntu = { s.ntu with table := addNotice k sc d s.ntu.table } := rfl

@[simp] theorem raise_resetHeld (s : State) (k : NoticeKind) (sc : Scope) (d : Detail) : (s.raise k sc d).resetHeld = s.resetHeld := rfl

@[simp] theorem raise_choices (s : State) (k : NoticeKind) (sc : Scope) (d : Detail) : (s.raise k sc d).choices = s.choices := rfl

@[simp] theorem raise_pending (s : State) (k : NoticeKind) (sc : Scope) (d : Detail) : (s.raise k sc d).pending = s.pending := rfl

/-! ## count -/

@[simp] theorem count_lrx (s : State) (n : Feed) (c : FeedCounter) (k : Nat) : (s.count n c k).lrx = s.lrx := rfl

@[simp] theorem count_ing (s : State) (n : Feed) (c : FeedCounter) (k : Nat) : (s.count n c k).ing = s.ing := rfl

@[simp] theorem count_fst (s : State) (n : Feed) (c : FeedCounter) (k : Nat) : (s.count n c k).fst = s.fst := rfl

@[simp] theorem count_cad (s : State) (n : Feed) (c : FeedCounter) (k : Nat) : (s.count n c k).cad = s.cad := rfl

@[simp] theorem count_fen (s : State) (n : Feed) (c : FeedCounter) (k : Nat) : (s.count n c k).fen = s.fen := rfl

@[simp] theorem count_otx (s : State) (n : Feed) (c : FeedCounter) (k : Nat) : (s.count n c k).otx = s.otx := rfl

@[simp] theorem count_cue (s : State) (n : Feed) (c : FeedCounter) (k : Nat) : (s.count n c k).cue = s.cue := rfl

@[simp] theorem count_tld (s : State) (n : Feed) (c : FeedCounter) (k : Nat) : (s.count n c k).tld = s.tld := rfl

@[simp] theorem count_ntu (s : State) (n : Feed) (c : FeedCounter) (k : Nat) :
    (s.count n c k).ntu = { s.ntu with feedCounters := s.ntu.feedCounters.set n ((s.ntu.feedCounters.get n).add c k) } := rfl

@[simp] theorem count_resetHeld (s : State) (n : Feed) (c : FeedCounter) (k : Nat) : (s.count n c k).resetHeld = s.resetHeld := rfl

@[simp] theorem count_choices (s : State) (n : Feed) (c : FeedCounter) (k : Nat) : (s.count n c k).choices = s.choices := rfl

@[simp] theorem count_pending (s : State) (n : Feed) (c : FeedCounter) (k : Nat) : (s.count n c k).pending = s.pending := rfl

/-! ## countDev -/

@[simp] theorem countDev_lrx (s : State) (c : DeviceCounter) : (s.countDev c).lrx = s.lrx := rfl

@[simp] theorem countDev_ing (s : State) (c : DeviceCounter) : (s.countDev c).ing = s.ing := rfl

@[simp] theorem countDev_fst (s : State) (c : DeviceCounter) : (s.countDev c).fst = s.fst := rfl

@[simp] theorem countDev_cad (s : State) (c : DeviceCounter) : (s.countDev c).cad = s.cad := rfl

@[simp] theorem countDev_fen (s : State) (c : DeviceCounter) : (s.countDev c).fen = s.fen := rfl

@[simp] theorem countDev_otx (s : State) (c : DeviceCounter) : (s.countDev c).otx = s.otx := rfl

@[simp] theorem countDev_cue (s : State) (c : DeviceCounter) : (s.countDev c).cue = s.cue := rfl

@[simp] theorem countDev_tld (s : State) (c : DeviceCounter) : (s.countDev c).tld = s.tld := rfl

@[simp] theorem countDev_ntu (s : State) (c : DeviceCounter) :
    (s.countDev c).ntu = { s.ntu with devCounters := s.ntu.devCounters.add c 1 } := rfl

@[simp] theorem countDev_resetHeld (s : State) (c : DeviceCounter) : (s.countDev c).resetHeld = s.resetHeld := rfl

@[simp] theorem countDev_choices (s : State) (c : DeviceCounter) : (s.countDev c).choices = s.choices := rfl

@[simp] theorem countDev_pending (s : State) (c : DeviceCounter) : (s.countDev c).pending = s.pending := rfl

/-! ## setLoad -/

@[simp] theorem setLoad_lrx (s : State) (l : Option LoadRecord) : (s.setLoad l).lrx = s.lrx := rfl

@[simp] theorem setLoad_ing (s : State) (l : Option LoadRecord) : (s.setLoad l).ing = s.ing := rfl

@[simp] theorem setLoad_fst (s : State) (l : Option LoadRecord) : (s.setLoad l).fst = s.fst := rfl

@[simp] theorem setLoad_cad (s : State) (l : Option LoadRecord) : (s.setLoad l).cad = s.cad := rfl

@[simp] theorem setLoad_fen (s : State) (l : Option LoadRecord) : (s.setLoad l).fen = s.fen := rfl

@[simp] theorem setLoad_otx (s : State) (l : Option LoadRecord) : (s.setLoad l).otx = s.otx := rfl

@[simp] theorem setLoad_cue (s : State) (l : Option LoadRecord) : (s.setLoad l).cue = s.cue := rfl

@[simp] theorem setLoad_tld (s : State) (l : Option LoadRecord) :
    (s.setLoad l).tld = { s.tld with load := l } := rfl

@[simp] theorem setLoad_ntu (s : State) (l : Option LoadRecord) : (s.setLoad l).ntu = s.ntu := rfl

@[simp] theorem setLoad_resetHeld (s : State) (l : Option LoadRecord) : (s.setLoad l).resetHeld = s.resetHeld := rfl

@[simp] theorem setLoad_choices (s : State) (l : Option LoadRecord) : (s.setLoad l).choices = s.choices := rfl

@[simp] theorem setLoad_pending (s : State) (l : Option LoadRecord) : (s.setLoad l).pending = s.pending := rfl

/-! ## setCopy -/

@[simp] theorem setCopy_lrx (s : State) (t : TableId) (c : LoadCopy) : (s.setCopy t c).lrx = s.lrx := rfl

@[simp] theorem setCopy_ing (s : State) (t : TableId) (c : LoadCopy) : (s.setCopy t c).ing = s.ing := rfl

@[simp] theorem setCopy_fst (s : State) (t : TableId) (c : LoadCopy) : (s.setCopy t c).fst = s.fst := rfl

@[simp] theorem setCopy_cad (s : State) (t : TableId) (c : LoadCopy) : (s.setCopy t c).cad = s.cad := rfl

@[simp] theorem setCopy_fen (s : State) (t : TableId) (c : LoadCopy) : (s.setCopy t c).fen = s.fen := rfl

@[simp] theorem setCopy_otx (s : State) (t : TableId) (c : LoadCopy) : (s.setCopy t c).otx = s.otx := rfl

@[simp] theorem setCopy_cue (s : State) (t : TableId) (c : LoadCopy) : (s.setCopy t c).cue = s.cue := rfl

@[simp] theorem setCopy_tld (s : State) (t : TableId) (c : LoadCopy) :
    (s.setCopy t c).tld = { s.tld with copies := s.tld.copies.set t.val c } := rfl

@[simp] theorem setCopy_ntu (s : State) (t : TableId) (c : LoadCopy) : (s.setCopy t c).ntu = s.ntu := rfl

@[simp] theorem setCopy_resetHeld (s : State) (t : TableId) (c : LoadCopy) : (s.setCopy t c).resetHeld = s.resetHeld := rfl

@[simp] theorem setCopy_choices (s : State) (t : TableId) (c : LoadCopy) : (s.setCopy t c).choices = s.choices := rfl

@[simp] theorem setCopy_pending (s : State) (t : TableId) (c : LoadCopy) : (s.setCopy t c).pending = s.pending := rfl

/-! ## setPeriodic -/

@[simp] theorem setPeriodic_lrx (s : State) (p : Periodic) : (s.setPeriodic p).lrx = s.lrx := rfl

@[simp] theorem setPeriodic_ing (s : State) (p : Periodic) : (s.setPeriodic p).ing = s.ing := rfl

@[simp] theorem setPeriodic_fst (s : State) (p : Periodic) : (s.setPeriodic p).fst = s.fst := rfl

@[simp] theorem setPeriodic_cad (s : State) (p : Periodic) : (s.setPeriodic p).cad = s.cad := rfl

@[simp] theorem setPeriodic_fen (s : State) (p : Periodic) : (s.setPeriodic p).fen = s.fen := rfl

@[simp] theorem setPeriodic_otx (s : State) (p : Periodic) : (s.setPeriodic p).otx = s.otx := rfl

@[simp] theorem setPeriodic_cue (s : State) (p : Periodic) : (s.setPeriodic p).cue = s.cue := rfl

@[simp] theorem setPeriodic_tld (s : State) (p : Periodic) : (s.setPeriodic p).tld = s.tld := rfl

@[simp] theorem setPeriodic_ntu (s : State) (p : Periodic) :
    (s.setPeriodic p).ntu = { s.ntu with periodic := p } := rfl

@[simp] theorem setPeriodic_resetHeld (s : State) (p : Periodic) : (s.setPeriodic p).resetHeld = s.resetHeld := rfl

@[simp] theorem setPeriodic_choices (s : State) (p : Periodic) : (s.setPeriodic p).choices = s.choices := rfl

@[simp] theorem setPeriodic_pending (s : State) (p : Periodic) : (s.setPeriodic p).pending = s.pending := rfl

/-! ## withPending -/

@[simp] theorem withPending_lrx (s : State) (q : List Instr) : (s.withPending q).lrx = s.lrx := rfl

@[simp] theorem withPending_ing (s : State) (q : List Instr) : (s.withPending q).ing = s.ing := rfl

@[simp] theorem withPending_fst (s : State) (q : List Instr) : (s.withPending q).fst = s.fst := rfl

@[simp] theorem withPending_cad (s : State) (q : List Instr) : (s.withPending q).cad = s.cad := rfl

@[simp] theorem withPending_fen (s : State) (q : List Instr) : (s.withPending q).fen = s.fen := rfl

@[simp] theorem withPending_otx (s : State) (q : List Instr) : (s.withPending q).otx = s.otx := rfl

@[simp] theorem withPending_cue (s : State) (q : List Instr) : (s.withPending q).cue = s.cue := rfl

@[simp] theorem withPending_tld (s : State) (q : List Instr) : (s.withPending q).tld = s.tld := rfl

@[simp] theorem withPending_ntu (s : State) (q : List Instr) : (s.withPending q).ntu = s.ntu := rfl

@[simp] theorem withPending_resetHeld (s : State) (q : List Instr) : (s.withPending q).resetHeld = s.resetHeld := rfl

@[simp] theorem withPending_choices (s : State) (q : List Instr) : (s.withPending q).choices = s.choices := rfl

@[simp] theorem withPending_pending (s : State) (q : List Instr) :
    (s.withPending q).pending = q := rfl

end Sys2Proof.Machine
end

