-- ==== Sys2Proof/Laws/Cues.lean ====
section
/-! SUPPORT. The decoder's tests, each said once for every cue kind (R164, R165, R166), and results (R155, R167). -/

namespace Sys2Proof.Machine

theorem unlessHeld_released (s t : State) (h : s.resetHeld = false) : unlessHeld s t = .next t := by
  unfold unlessHeld
  simp [h]

/-! ## Results -/

/-- Output n's result queue has room (R155). -/
abbrev State.hasRoom (s : State) (n : Feed) : Prop := (s.otx.get n).results.length < 8

/-- The state after a result is appended to output n's queue, where it has room, and the cue is counted (R155, R167). -/
def State.withResult (s : State) (n : Feed) (r : CueResult) : State :=
  { s with
    otx := s.otx.set n { s.otx.get n with results := (s.otx.get n).results ++ [r] }
    ntu := { s.ntu with devCounters := s.ntu.devCounters.add (if r.outcome.isRefusal then .cuesRefused else .cuesTaken) 1 } }

/-- With room in the queue, an answer appends the result and counts the cue. -/
theorem answer_withResult (s : State) (n : Feed) (code : Word) (c : CueWords) (a : Answer) (h : s.hasRoom n) :
    s.answer n code c a = s.withResult n (resultOf code c a) := by
  unfold State.answer State.appendResult
  simp only
  rw [if_pos (show (s.otx.get n).results.length < 8 from h)]
  rfl

/-! ## The tests -/

theorem takeCue_notAddressed (s : State) (n : Feed) (code : Word) (c : CueWords) (len : Nat → Bool) (rule : ScopeRule)
    (run : Scope → State → Answer × State) (h : s.isAddressed c.device = false) :
    s.takeCue n code c len rule run = s := by
  unfold State.takeCue
  simp [h]

theorem takeCue_badCheck (s : State) (n : Feed) (code : Word) (c : CueWords) (len : Nat → Bool) (rule : ScopeRule)
    (run : Scope → State → Answer × State) (h : s.isAddressed c.device = true)
    (hc : (CueWords.packet c code).checkOk = false) :
    s.takeCue n code c len rule run = s.discardCue n (.tag c.tag) := by
  unfold State.takeCue
  simp [h, hc]

theorem takeCue_badLength (s : State) (n : Feed) (code : Word) (c : CueWords) (len : Nat → Bool) (rule : ScopeRule)
    (run : Scope → State → Answer × State) (h : s.isAddressed c.device = true)
    (hc : (CueWords.packet c code).checkOk = true) (hl : len c.payload.length = false) :
    s.takeCue n code c len rule run = s.answer n code c (Answer.plain .refusedLength) := by
  unfold State.takeCue
  simp [h, hc, hl]

theorem takeCue_badScope (s : State) (n : Feed) (code : Word) (c : CueWords) (len : Nat → Bool) (rule : ScopeRule)
    (run : Scope → State → Answer × State) (h : s.isAddressed c.device = true)
    (hc : (CueWords.packet c code).checkOk = true) (hl : len c.payload.length = true)
    (hs : checkedScope n rule c.scope = none) :
    s.takeCue n code c len rule run = s.answer n code c (Answer.plain .refusedScope) := by
  unfold State.takeCue
  simp [h, hc, hl, hs]

theorem takeCue_runs (s : State) (n : Feed) (code : Word) (c : CueWords) (len : Nat → Bool) (rule : ScopeRule)
    (run : Scope → State → Answer × State) (sc : Scope) (h : s.isAddressed c.device = true)
    (hc : (CueWords.packet c code).checkOk = true) (hl : len c.payload.length = true)
    (hs : checkedScope n rule c.scope = some sc) :
    s.takeCue n code c len rule run = (run sc s).2.answer n code c (run sc s).1 := by
  unfold State.takeCue
  simp [h, hc, hl, hs]

theorem checkedScope_admits (s : State) (n : Feed) (code : Word) (c : CueWords) (sc : Scope) (rule : ScopeRule)
    (h : s.admits n code c sc) (hr : rule.allows sc = true) : checkedScope n rule c.scope = some sc := by
  unfold checkedScope
  simp [h.2.2.1, h.2.2.2, hr]

/-- A cue that passes tests 1 to 5 is carried out, and answered where the queue then has room. -/
theorem takeCue_admitted (s : State) (n : Feed) (code : Word) (c : CueWords) (len : Nat → Bool) (rule : ScopeRule)
    (run : Scope → State → Answer × State) (sc : Scope) (h : s.admits n code c sc) (hr : rule.allows sc = true)
    (hl : len c.payload.length = true) (hq : (run sc s).2.hasRoom n) :
    unlessHeld s (s.takeCue n code c len rule run) = .next ((run sc s).2.withResult n (resultOf code c (run sc s).1)) := by
  rw [unlessHeld_released s _ h.1.1,
    takeCue_runs s n code c len rule run sc h.1.2 h.2.1 hl (checkedScope_admits s n code c sc rule h hr),
    answer_withResult _ _ _ _ _ hq]

/-! ## Every cue command is the decoder's tests with what its kind carries out -/

/-- What a cue command carries out once it has passed tests 1 to 5. -/
def cueRun : Instr → Scope → State → Answer × State
  | .feedConfig _ c => State.carrySettings (fun _ _ => feedConfigItems c.payload)
  | .rasterSet _ c => State.carrySettings (fun m t => rasterItems (t.settings m).struct c.payload)
  | .trimSet _ c => State.carrySettings (fun _ _ => trimItems c.payload)
  | .motionSet _ c => State.carrySettings (fun _ _ => motionItems c.payload)
  | .cadenceSet _ c => State.carrySettings (fun _ _ => cadenceItems c.payload)
  | .cadenceForce _ c => State.carrySettings (fun _ t => forceItems t.cad.table c.payload)
  | .watchSet _ c => State.carrySettings (fun _ _ => watchItems c.payload)
  | .feedRestart _ _ => State.carryFeedRestart
  | .tableOpen _ c => State.carryTableOpen c.payload
  | .tablePart _ c => State.carryTablePart c.payload
  | .tableAbandon _ _ => fun _ t => t.abandonLoad
  | .noticeSet _ c => State.carryNoticeSet c.payload
  | .reportSet _ c => State.carryReportSet c.payload
  | .snapshot _ c => State.carrySnapshot c.payload
  | .statusQuery _ _ => State.latchStatus
  | .deviceRestart _ _ d => fun _ t => (Answer.plain .done, t.deviceRestarts d)
  | _ => fun _ t => (Answer.plain .refusedKind, t)

/-- A cue command of a kind is the tests by its kind's length and scopes, then what the kind carries out. -/
theorem exec_cue (i : Instr) (n : Feed) (code : Word) (c : CueWords) (s : State) (hu : ∀ m k e, i ≠ .unknownCueKind m k e)
    (h : cueParts i = some (n, code, c)) :
    exec i s = unlessHeld s (s.takeCue n code c (cueLengthOk code) (cueScopeRule code) (cueRun i)) := by
  cases i with
  | unknownCueKind m k e => exact absurd rfl (hu m k e)
  | feedConfig m e | rasterSet m e | trimSet m e | motionSet m e | cadenceSet m e | cadenceForce m e | watchSet m e
  | feedRestart m e | tableOpen m e | tablePart m e | tableAbandon m e | noticeSet m e | reportSet m e | snapshot m e
  | statusQuery m e | deviceRestart m e d =>
    simp only [cueParts, Option.some.injEq, Prod.mk.injEq] at h
    obtain ⟨rfl, rfl, rfl⟩ := h
    rfl
  | _ => simp [cueParts] at h

/-- An admitted cue of its kind's length and scope: what its kind carries out, with the result, where the queue has room. -/
theorem exec_admitted (i : Instr) (n : Feed) (code : Word) (c : CueWords) (s : State) (sc : Scope)
    (hu : ∀ m k e, i ≠ .unknownCueKind m k e) (h : cueParts i = some (n, code, c)) (ha : s.admits n code c sc)
    (hr : (cueScopeRule code).allows sc = true) (hl : cueLengthOk code c.payload.length = true)
    (hq : (cueRun i sc s).2.hasRoom n) :
    exec i s = .next ((cueRun i sc s).2.withResult n (resultOf code c (cueRun i sc s).1)) := by
  rw [exec_cue i n code c s hu h, takeCue_admitted s n code c _ _ _ sc ha hr hl hq]

/-- A settings cue that test 6 refuses changes nothing; one that it takes is staged or applied (R165, R170). -/
theorem cueRun_settings (i : Instr) (n m : Feed) (code : Word) (c : CueWords) (s : State) (hu : ∀ m k e, i ≠ .unknownCueKind m k e)
    (h : cueParts i = some (n, code, c)) (hc : code.toNat ≤ 7) :
    cueRun i (.feed m) s =
      match settingsItems i s m with
      | none => (Answer.plain .refusedValue, s)
      | some (p, adj) => (Answer.settings adj, s.stageOrApply m p) := by
  cases i with
  | unknownCueKind m k e => exact absurd rfl (hu m k e)
  | feedConfig a e | rasterSet a e | trimSet a e | motionSet a e | cadenceSet a e | cadenceForce a e | watchSet a e => rfl
  | feedRestart m e | tableOpen m e | tablePart m e | tableAbandon m e | noticeSet m e | reportSet m e | snapshot m e
  | statusQuery m e | deviceRestart m e d =>
    simp only [cueParts, Option.some.injEq, Prod.mk.injEq] at h
    obtain ⟨_, rfl, _⟩ := h
    exact absurd hc (by decide)
  | _ => simp [cueParts] at h

end Sys2Proof.Machine
end

