-- ==== Sys2Proof/Laws/Notices.lean ====
section
/-! SUPPORT. The pending notice table under a raise (R189), and the counters. -/

namespace Sys2Proof.Machine

/-- A raise keeps one entry per kind and scope, and counts within 1..255 (R189). -/
theorem addNotice_ok (k : NoticeKind) (sc : Scope) (d : Detail) (l : List NoticeEntry) (h : noticesOk l) :
    noticesOk (addNotice k sc d l) := by
  unfold addNotice
  split
  · refine ⟨?_, ?_⟩
    · rw [List.pairwise_map]
      refine h.1.imp ?_
      intro a b hab
      split <;> split <;> exact hab
    · intro e he
      obtain ⟨x, hx, rfl⟩ := List.mem_map.1 he
      have := h.2 x hx
      split
      · exact ⟨by simp only; omega, by simp only; omega⟩
      · exact this
  · next hn =>
    have hno : ∀ e ∈ l, ¬(e.kind = k ∧ e.scope = sc) := by
      intro e he hc
      refine hn (List.any_eq_true.2 ⟨e, he, ?_⟩)
      simp [NoticeEntry.isFor, hc.1, hc.2]
    refine ⟨?_, ?_⟩
    · rw [List.pairwise_append]
      refine ⟨h.1, by simp, ?_⟩
      intro a ha b hb
      rw [List.mem_singleton] at hb
      subst hb
      exact hno a ha
    · intro e he
      rcases List.mem_append.1 he with he | he
      · exact h.2 e he
      · rw [List.mem_singleton] at he
        subst he
        simp

/-- Entries that go leave the table in order. -/
theorem noticesOk_sublist (l m : List NoticeEntry) (hs : m.Sublist l) (h : noticesOk l) : noticesOk m :=
  ⟨h.1.sublist hs, fun e he => h.2 e (hs.subset he)⟩

/-- A counter never passes 4294967295 (R191). -/
theorem satAdd_le (c k : Nat) : satAdd c k ≤ 4294967295 := Nat.min_le_right _ _

theorem FeedCounters.add_ok (f : FeedCounters) (c : FeedCounter) (k : Nat) (h : ∀ x ∈ f.toList, x ≤ 4294967295) :
    ∀ x ∈ (f.add c k).toList, x ≤ 4294967295 := by
  simp only [FeedCounters.toList, List.forall_mem_cons] at h
  obtain ⟨h1, h2, h3, h4, h5, h6, h7, h8, h9, h10, h11, h12, h13, h14, h15, h16, h17⟩ := h
  cases c <;> simp only [FeedCounters.toList, FeedCounters.add, List.forall_mem_cons] <;>
    and_intros <;> first | assumption | exact satAdd_le _ _

theorem DeviceCounters.add_ok (f : DeviceCounters) (c : DeviceCounter) (k : Nat) (h : ∀ x ∈ f.toList, x ≤ 4294967295) :
    ∀ x ∈ (f.add c k).toList, x ≤ 4294967295 := by
  simp only [DeviceCounters.toList, List.forall_mem_cons] at h
  obtain ⟨h1, h2, h3, h4, h5, h6, h7⟩ := h
  cases c <;> simp only [DeviceCounters.toList, DeviceCounters.add, List.forall_mem_cons] <;>
    and_intros <;> first | assumption | exact satAdd_le _ _

end Sys2Proof.Machine
end

