-- ==== Sys2Proof/Laws/Picture.lean ====
section
/-! SUPPORT. The range of the samples of output frames (R131, R137, R142, R145). -/

namespace Sys2Proof.Machine

theorem sampleOf_toNat (v : Int) (h0 : 0 ≤ v) (h1 : v < 1024) : ((sampleOf v).toNat : Int) = v := by
  unfold sampleOf
  rw [BitVec.toNat_ofNat]
  omega

/-- A filtered sample lies within 4..1019 whatever the coefficients and the taps (R131). -/
theorem filterSample_range (coefs : List Int) (taps : List Nat) :
    4 ≤ (filterSample coefs taps).toNat ∧ (filterSample coefs taps).toNat ≤ 1019 := by
  have h := sampleOf_toNat (clampInt 4 1019 ((tapSum coefs taps + 64) / 128))
    (by unfold clampInt; omega) (by unfold clampInt; omega)
  unfold filterSample
  unfold clampInt at h
  unfold clampInt
  omega

theorem horizontalComponent_range (set : CoefficientSet) (step : Int) (row : List Word) (size out : Nat) :
    ∀ x ∈ horizontalComponent set step row size out, 4 ≤ x.toNat ∧ x.toNat ≤ 1019 := by
  intro x hx
  obtain ⟨j, _, rfl⟩ := List.mem_map.1 hx
  exact filterSample_range _ _

theorem placedComponent_range (c : Component) (l r : Nat) (row : List Word)
    (h : ∀ x ∈ row, 4 ≤ x.toNat ∧ x.toNat ≤ 1019) :
    ∀ x ∈ placedComponent c l r row, 4 ≤ x.toNat ∧ x.toNat ≤ 1019 := by
  intro x hx
  unfold placedComponent at hx
  rcases List.mem_append.1 hx with hx | hx
  · rcases List.mem_append.1 hx with hx | hx
    · rw [List.eq_of_mem_replicate hx]; cases c <;> decide
    · exact h x hx
  · rw [List.eq_of_mem_replicate hx]; cases c <;> decide

/-- Every sample of a row at fill level is 64 or 512 (R137, R142). -/
theorem fillRow_range : ∀ x ∈ fillRow.y ++ fillRow.cb ++ fillRow.cr, 4 ≤ x.toNat ∧ x.toNat ≤ 1019 := by
  intro x hx
  rcases List.mem_append.1 hx with hx | hx
  · rcases List.mem_append.1 hx with hx | hx <;> (rw [List.eq_of_mem_replicate hx]; decide)
  · rw [List.eq_of_mem_replicate hx]; decide

theorem fillFrame_legal : frameLegal fillFrame := by
  intro l hl
  rw [List.eq_of_mem_replicate hl]
  exact fillRow_range

/-- Every sample of a built frame lies within 4..1019, whatever was woven and whatever the sets (R131, R137). -/
theorem builtFrame_legal (hset vset : CoefficientSet) (w h : Nat) (input : WeaveInput) :
    frameLegal (builtFrame hset vset w h input) := by
  intro l hl
  rcases List.mem_append.1 hl with hl | hl
  · rcases List.mem_append.1 hl with hl | hl
    · rw [List.eq_of_mem_replicate hl]; exact fillRow_range
    · obtain ⟨r, hr, rfl⟩ := List.mem_map.1 hl
      obtain ⟨j, _, rfl⟩ := List.mem_map.1 hr
      intro x hx
      rcases List.mem_append.1 hx with hx | hx
      · rcases List.mem_append.1 hx with hx | hx
        · exact placedComponent_range _ _ _ _ (horizontalComponent_range _ _ _ _ _) x hx
        · exact placedComponent_range _ _ _ _ (horizontalComponent_range _ _ _ _ _) x hx
      · exact placedComponent_range _ _ _ _ (horizontalComponent_range _ _ _ _ _) x hx
  · rw [List.eq_of_mem_replicate hl]; exact fillRow_range

end Sys2Proof.Machine
end

