-- ==== Sys2Proof/Laws/Store.lean ====
section
/-! SUPPORT. The field store's operations, each said once: what it touches of the store, and what it makes of a history
(R25 to R34, R40). -/

namespace Sys2Proof.Machine

/-! ## Slots, detached records, the emptying of a history -/

theorem freeSlots_keeps (s : State) (ks : List (Fin 24)) :
    s.freeSlots ks = { s with fst := { s.fst with slots := (s.freeSlots ks).fst.slots } } := by
  unfold State.freeSlots
  induction ks generalizing s with
  | nil => rfl
  | cons k t ih => rw [List.foldl_cons, ih]; rfl

/-- A release of slots touches the slots and the tight flag. -/
theorem releaseSlots_keeps (s : State) (ks : List (Fin 24)) :
    s.releaseSlots ks =
      { s with fst := { s.fst with slots := (s.releaseSlots ks).fst.slots, tight := (s.releaseSlots ks).fst.tight } } := by
  unfold State.releaseSlots
  split
  · rfl
  · unfold State.checkLeaving
    have := freeSlots_keeps s ks
    generalize s.freeSlots ks = t at this
    split <;> rw [this]

theorem detach_keeps (s : State) (n : Feed) (r : FieldRecord) :
    s.detach n r = { s with fst := { s.fst with slots := (s.detach n r).fst.slots, detached := s.fst.detached ++ [r] } } := by
  unfold State.detach FieldRecord.slots
  cases r.content <;> rfl

theorem detachAll_keeps (s : State) (n : Feed) (l : List FieldRecord) :
    l.foldl (fun t r => t.detach n r) s =
      { s with fst := { s.fst with
          slots := (l.foldl (fun t r => t.detach n r) s).fst.slots
          detached := (l.foldl (fun t r => t.detach n r) s).fst.detached } } := by
  induction l generalizing s with
  | nil => rfl
  | cons r t ih =>
    rw [List.foldl_cons]
    have := ih (s.detach n r)
    rw [this, detach_keeps]

/-- Emptying a history touches the store alone: that history is empty, the others and the memory stay (R40). -/
theorem emptyHistory_spec (s : State) (n : Feed) :
    s.emptyHistory n =
      { s with fst := { s.fst with
          slots := (s.emptyHistory n).fst.slots
          hist := s.fst.hist.set n []
          detached := (s.emptyHistory n).fst.detached
          tight := (s.emptyHistory n).fst.tight } } := by
  unfold State.emptyHistory
  simp only
  have h1 := detachAll_keeps (s.setHist n []) n ((s.history n).filter (fun r => s.serviceRefs n r.seq))
  generalize ((s.history n).filter (fun r => s.serviceRefs n r.seq)).foldl (fun t r => t.detach n r) (s.setHist n []) = u at h1
  have h2 := releaseSlots_keeps u (s.emptiedSlots n)
  generalize u.releaseSlots (s.emptiedSlots n) = t at h2
  rw [h2, h1]
  rfl

/-! ## The history cap and appends (R25, R27, R89) -/

theorem noteSkip_fst (s : State) (j : Job) : (s.noteSkip j).fst = s.fst := rfl

theorem dropWaitingRefs_fst (s : State) (n : Feed) (q : Seq) : (s.dropWaitingRefs n q).fst = s.fst := by
  unfold State.dropWaitingRefs
  have h : ∀ (l : List Job) (u : State), (l.foldl State.noteSkip u).fst = u.fst := by
    intro l
    induction l with
    | nil => intro u; rfl
    | cons j t ih => intro u; rw [List.foldl_cons, ih]; rfl
  rw [h]

/-- The history cap takes out the head of a history of 8 records or more, and leaves the other histories (R27). -/
theorem historyCap_hist (s : State) (n : Feed) (h : 8 ≤ (s.history n).length) :
    (s.historyCap n).fst.hist = s.fst.hist.set n (s.history n).tail := by
  unfold State.historyCap
  cases hh : s.history n with
  | nil => rw [hh] at h; simp at h
  | cons r t =>
    rw [hh] at h
    simp only [h, if_true, dropWaitingRefs_fst, List.tail_cons]
    split
    · rw [detach_keeps]; rfl
    · rw [releaseSlots_keeps]; rfl

/-- The store before an append: after the history cap where it applies (R27, R28). -/
abbrev State.capped (s : State) (n : Feed) : State := if 8 ≤ (s.history n).length then s.historyCap n else s

/-- Before an append a history has fewer than 8 records, or fewer than it had. -/
theorem capped_room (s : State) (n : Feed) :
    ((s.capped n).history n).length < 8 ∨ ((s.capped n).history n).length < (s.history n).length := by
  unfold State.capped
  split
  · next h =>
    right
    unfold State.history at *
    rw [historyCap_hist s n h]
    simp only [Quad_get_set_same, List.length_tail]
    show (s.fst.hist.get n).length - 1 < _
    omega
  · next h => left; omega

/-! ## Retention (R33) -/

/-- Retention never makes a history longer. -/
theorem retentionWalk_length (refd : Seq → Bool) (k : Nat) (b : Bool) (h : List FieldRecord) :
    (retentionWalk refd k b h).1.length ≤ h.length := by
  induction k generalizing b h with
  | zero => exact le_refl _
  | succ k ih =>
    cases h with
    | nil => exact le_refl _
    | cons r t =>
      unfold retentionWalk
      split
      · simpa using ih true t
      · split
        · simpa using ih true t
        · exact (ih false t).trans (by simp)

/-! ## Allocation and reclaim: the lowest FREE slot, the candidates, the victim (R28, R29) -/

/-- Of a list of slots. -/
theorem countP_free_set (l : List Slot) (i : Nat) (h : l[i]? = some .free) (v : Slot) (hv : v ≠ .free) :
    (l.set i v).countP (fun v => v == .free) + 1 = l.countP (fun v => v == .free) := by
  induction l generalizing i with
  | nil => simp at h
  | cons x t ih =>
    cases i with
    | zero => simp at h; subst h; simp [hv]
    | succ i => simp at h; have := ih i h; simp [List.countP_cons]; omega

/-- Taking a FREE slot leaves one FREE slot fewer. -/
theorem freeCount_setSlot (s : State) (h : s.slotsOk) (k : Fin 24) (hk : s.slot k = .free) (v : Slot) (hv : v ≠ .free) :
    (s.setSlot k v).freeCount + 1 = s.freeCount := by
  apply countP_free_set _ _ _ _ hv
  unfold State.slot at hk
  have : k.val < s.fst.slots.length := by rw [h]; exact k.isLt
  rw [List.getD_eq_getElem?_getD, List.getElem?_eq_getElem this] at hk
  rw [List.getElem?_eq_getElem this]; simpa using hk

theorem lowestFree_eq (s : State) (k : Fin 24) (h : s.slot k = .free) (hl : ∀ j, j < k → s.slot j ≠ .free) :
    s.lowestFree = some k := by
  unfold State.lowestFree
  rw [List.find?_eq_some_iff_append]
  refine ⟨by simp [h], ?_⟩
  obtain ⟨a, b, e⟩ := List.append_of_mem (List.mem_finRange k)
  refine ⟨a, b, e, ?_⟩
  intro x hx
  have hs := List.pairwise_lt_finRange 24
  rw [e, List.pairwise_append] at hs
  have := hl x (hs.2.2 x hx k (by simp))
  simpa using this

theorem lowestFree_none (s : State) (h : ∀ k, s.slot k ≠ .free) : s.lowestFree = none := by
  unfold State.lowestFree
  rw [List.find?_eq_none]
  intro x _; simpa using h x

/-- A candidate of feed m: HELD, not among the two newest of its history, not referenced by the job in service. -/
theorem mem_candidates (s : State) (m : Feed) (x : FieldRecord) :
    x ∈ s.candidates m ↔
      ∃ i k, i + 2 < (s.history m).length ∧ (s.history m)[i]? = some x ∧ x.content = .slot k ∧ s.slot k = .held m ∧
        s.serviceRefs m x.seq = false := by
  unfold State.candidates State.isHeld
  rw [List.mem_filter, List.mem_iff_getElem?]
  constructor
  · rintro ⟨⟨i, hi⟩, h⟩
    rw [List.getElem?_take] at hi
    split at hi
    · simp only [Bool.and_eq_true, Bool.not_eq_true'] at h
      unfold FieldRecord.slots at h
      cases hc : x.content with
      | slot k => rw [hc] at h; simp at h; exact ⟨i, k, by omega, hi, rfl, h.1, h.2⟩
      | gap c => rw [hc] at h; simp at h
    · cases hi
  · rintro ⟨i, k, h1, h2, h3, h4, h5⟩
    refine ⟨⟨i, by rw [List.getElem?_take, if_pos (by omega)]; exact h2⟩, ?_⟩
    unfold FieldRecord.slots
    simp [h3, h4, h5]

theorem candidates_first (s : State) (v : Feed) (i : Nat) (r : FieldRecord) (k : Fin 24)
    (h : i + 2 < (s.history v).length ∧ (s.history v)[i]? = some r ∧ r.content = .slot k ∧ s.slot k = .held v ∧
      s.serviceRefs v r.seq = false)
    (hl : ∀ j x l, j < i →
      ¬(j + 2 < (s.history v).length ∧ (s.history v)[j]? = some x ∧ x.content = .slot l ∧ s.slot l = .held v ∧
        s.serviceRefs v x.seq = false)) :
    ∃ t, s.candidates v = r :: t := by
  obtain ⟨h1, h2, h3, h4, h5⟩ := h
  obtain ⟨hi, hr⟩ := List.getElem?_eq_some_iff.mp h2
  have e : (s.history v).take ((s.history v).length - 2) =
      (s.history v).take i ++ r :: (((s.history v).take ((s.history v).length - 2)).drop (i+1)) := by
    conv_lhs => rw [← List.take_append_drop i ((s.history v).take ((s.history v).length - 2))]
    rw [List.take_take, min_eq_left (by omega)]
    congr 1
    rw [List.drop_eq_getElem_cons (by simp; omega)]
    simp [hr]
  unfold State.candidates
  rw [e, List.filter_append]
  have : ((s.history v).take i).filter (fun r => s.isHeld v r && !s.serviceRefs v r.seq) = [] := by
    rw [List.filter_eq_nil_iff]
    intro x hx hh
    obtain ⟨j, hj⟩ := List.mem_iff_getElem?.mp hx
    rw [List.getElem?_take] at hj
    split at hj
    · next hji =>
      simp only [Bool.and_eq_true, Bool.not_eq_true'] at hh
      unfold State.isHeld FieldRecord.slots at hh
      cases hc : x.content with
      | slot l => rw [hc] at hh; simp at hh; exact hl j x l hji ⟨by omega, hj, hc, hh.1, hh.2⟩
      | gap c => rw [hc] at hh; simp at hh
    · cases hj
  rw [this, List.nil_append, List.filter_cons]
  have : (s.isHeld v r && !s.serviceRefs v r.seq) = true := by
    unfold State.isHeld FieldRecord.slots; simp [h3, h4, h5]
  rw [if_pos this]
  exact ⟨_, rfl⟩

/-- The victim's feed: of those with a candidate the one of lowest class, of these the highest number. -/
theorem victim_feed (s : State) (v : Feed) (hv : s.candidates v ≠ [])
    (h : ∀ m, s.candidates m ≠ [] →
      (s.settings v).cls < (s.settings m).cls ∨ ((s.settings v).cls = (s.settings m).cls ∧ m ≤ v)) :
    feeds.foldl s.laterVictim none = some v := by
  have key : ∀ (l : List Feed) (b : Option Feed), l.Pairwise (· < ·) → (∀ x ∈ l, ∀ y, b = some y → y < x) →
      (∀ y, b = some y → s.candidates y ≠ []) → (b = some v ∨ v ∈ l) → l.foldl s.laterVictim b = some v := by
    intro l
    induction l with
    | nil => intro b _ _ _ h; simpa using h
    | cons x t ih =>
      intro b hp hb hc hm
      rw [List.pairwise_cons] at hp
      rw [List.foldl_cons]
      apply ih _ hp.2
      · intro y hy z hz
        unfold State.laterVictim at hz
        have := hp.1 y hy
        split at hz
        · exact (hb x (by simp) z hz).trans this
        · split at hz
          · cases hz; exact this
          · split at hz
            · cases hz; exact this
            · cases hz; exact (hb x (by simp) _ rfl).trans this
      · intro y hy
        unfold State.laterVictim at hy
        split at hy
        · exact hc y hy
        · next hne =>
          split at hy
          · cases hy; simpa using hne
          · split at hy
            · cases hy; simpa using hne
            · cases hy; exact hc _ rfl
      · unfold State.laterVictim
        rcases hm with hm | hm
        · subst hm
          split
          · left; rfl
          · next hne =>
            left
            have := h x (by simpa using hne)
            have hlt := hb x (by simp) v rfl
            simp only
            rw [if_neg]
            rcases this with h1 | ⟨_, h1⟩
            · exact fun hle => absurd (lt_of_lt_of_le h1 hle) (lt_irrefl _)
            · exact absurd (lt_of_lt_of_le hlt h1) (lt_irrefl _)
        · rcases List.mem_cons.mp hm with rfl | hm
          · left
            rw [if_neg (by simpa using hv)]
            split
            · rfl
            · next b =>
              have := h b (hc b rfl)
              rw [if_pos]
              rcases this with h1 | ⟨h1, _⟩
              · exact Nat.le_of_lt h1
              · rw [h1]
          · right; exact hm
  exact key feeds none (by decide) (by simp) (by simp) (Or.inr (by clear hv h key; revert v; decide))

/-! ## Retention -/

/-- The retention walk over the k oldest records: the unreferenced ones at the head are removed, those behind a referenced one
become TRIMMED-OFF gaps, and the slots of both are given back (R32). -/
theorem retentionWalk_eq (f : Seq → Bool) : ∀ (k : Nat) (b : Bool) (h : List FieldRecord),
    retentionWalk f k b h =
      ((if b then h.take k else (h.take k).dropWhile (fun r => !f r.seq)).map
          (fun r => if f r.seq = true then r else r.toGap .trimmedOff) ++ h.drop k,
        ((h.take k).filter (fun r => !f r.seq)).flatMap FieldRecord.slots) := by
  intro k
  induction k with
  | zero => intro b h; unfold retentionWalk; cases b <;> simp
  | succ k ih =>
    intro b h
    cases h with
    | nil => unfold retentionWalk; cases b <;> simp
    | cons r t =>
      unfold retentionWalk
      rw [ih, ih]
      by_cases hf : f r.seq = true
      · cases b <;> simp [hf]
      · have hf' : f r.seq = false := by simpa using hf
        cases b <;> simp [hf']

/-! ## The reads of a build -/

theorem modifyHeld_keeps (s : State) (n : Feed) (q : Seq) (f : FieldRecord → FieldRecord) :
    s.modifyHeld n q f = { s with fst := (s.modifyHeld n q f).fst } := by
  unfold State.modifyHeld
  split <;> rfl

/-- A read of a line touches the store and the notice unit alone. -/
theorem readLine_keeps (s : State) (held : Bool) (n : Feed) (q : Seq) (m : Nat) :
    (s.readLine held n q m).2 =
      { s with fst := (s.readLine held n q m).2.fst, ntu := (s.readLine held n q m).2.ntu } := by
  unfold State.readLine
  split
  · rfl
  · split
    · rfl
    · dsimp only
      split
      · rfl
      · split
        · rfl
        · rfl
        · cases held
          · rfl
          · simp only [if_true]
            rw [modifyHeld_keeps]
            rfl

/-- What a read of the build, due or not, leaves: the outputs, the waiting jobs, and the job in service but for its reads. -/
theorem buildLine_keeps (s : State) (r : BuildRole) (m : Nat) :
    (s.buildLine r m).otx = s.otx ∧ (s.buildLine r m).fen.waiting = s.fen.waiting ∧
      ∀ v, s.fen.service = some v → ∃ reads, (s.buildLine r m).fen.service = some { v with reads := reads } := by
  unfold State.buildLine
  split
  · rename_i e
    exact ⟨rfl, rfl, fun v h => by rw [e] at h; cases h⟩
  · rename_i v e
    split
    · split
      · exact ⟨rfl, rfl, fun w h => ⟨w.reads, h⟩⟩
      · rename_i q _
        have k := readLine_keeps s true v.job.feed q m
        refine ⟨by dsimp only; rw [k], by dsimp only; rw [k], fun w h => ?_⟩
        rw [e] at h
        obtain rfl := Option.some.inj h
        exact ⟨_, rfl⟩
    · exact ⟨rfl, rfl, fun w h => ⟨w.reads, h⟩⟩

theorem buildLines_keeps (l : List (BuildRole × Nat)) (s : State) :
    let t := l.foldl (fun t p => t.buildLine p.1 p.2) s
    t.otx = s.otx ∧ t.fen.waiting = s.fen.waiting ∧
      ∀ v, s.fen.service = some v → ∃ reads, t.fen.service = some { v with reads := reads } := by
  induction l generalizing s with
  | nil => exact ⟨rfl, rfl, fun v h => ⟨v.reads, h⟩⟩
  | cons p l ih =>
    have k := buildLine_keeps s p.1 p.2
    have i := ih (s.buildLine p.1 p.2)
    refine ⟨i.1.trans k.1, i.2.1.trans k.2.1, fun v h => ?_⟩
    obtain ⟨a, ha⟩ := k.2.2 v h
    obtain ⟨b, hb⟩ := i.2.2 { v with reads := a } ha
    exact ⟨b, hb⟩

/-- The reads at a build's end leave the outputs, the waiting jobs, and the job in service but for its reads (R97). -/
theorem finishReads_keeps (s : State) :
    s.finishReads.otx = s.otx ∧ s.finishReads.fen.waiting = s.fen.waiting ∧
      ∀ v, s.fen.service = some v → ∃ reads, s.finishReads.fen.service = some { v with reads := reads } := by
  unfold State.finishReads
  split
  · exact ⟨rfl, rfl, fun v h => ⟨v.reads, h⟩⟩
  · exact buildLines_keeps _ s

end Sys2Proof.Machine
end

