-- ==== Sys2Proof/Laws/Moves.lean ====
section
/-! SUPPORT. What a step can do, said once: Moves lists the updates that the operations make, and every operation is a
chain of them. An invariant of the part needs one induction over Moves. -/

namespace Sys2Proof.Machine

/-- How much an operation may touch: what builds and frame starts touch; that and the trackers; those and the receiver, the
conditioner and the settings of one feed; those and the external memory; anything. -/
inductive Touch where
  | still
  | quiet
  | feed (n : Feed)
  | line (n : Feed)
  | all
deriving DecidableEq, Repr

/-- The receiver, the conditioner and the settings of feed m may change. -/
def Touch.allows : Touch → Feed → Bool
  | .still, _ => false
  | .quiet, _ => false
  | .feed n, m => n == m
  | .line n, m => n == m
  | .all, _ => true

/-- The external memory may be written. -/
def Touch.writes : Touch → Bool
  | .still => false
  | .quiet => false
  | .feed _ => false
  | .line _ => true
  | .all => true

/-- The cadence table, the trackers and the forces may change. -/
def Touch.tracks : Touch → Bool
  | .still => false
  | .quiet => true
  | .feed _ => true
  | .line _ => true
  | .all => true

theorem Touch.tracks_of_allows {a : Touch} {n : Feed} (h : a.allows n = true) : a.tracks = true := by
  cases a <;> first | rfl | exact absurd h (by simp [Touch.allows])

/-- The updates of State that an operation can make, in chains. -/
inductive Moves : Touch → State → State → Prop where
  | refl {a : Touch} (s : State) : Moves a s s
  | trans {a : Touch} {s t u : State} : Moves a s t → Moves a t u → Moves a s u
  | raise {a : Touch} (s : State) (k : NoticeKind) (sc : Scope) (d : Detail) : Moves a s (s.raise k sc d)
  | notices {a : Touch} (s : State) (u : NoticeUnit) (h : u.table.Sublist s.ntu.table)
      (hs : u.settings = s.ntu.settings ∨ (a = .all ∧ u.settings.length = s.ntu.settings.length))
      (hc : s.ntu.countersOk → u.countersOk) : Moves a s { s with ntu := u }
  | force {a : Touch} (s : State) (n : Feed) (f : Force) (h : (s.settings n).force.adopts f) (ht : a.tracks = true) :
      Moves a s (s.setForce n f)
  | cad {a : Touch} (s : State) (c : CadenceTracker) (ht : a.tracks = true) : Moves a s { s with cad := c }
  | fen {a : Touch} (s : State) (f : FrameEngine) (h : s.waitingOk → ({ s with fen := f } : State).waitingOk) :
      Moves a s { s with fen := f }
  | tld {a : Touch} (s : State) (l : TableLoader) (h : l.copies.length = s.tld.copies.length) :
      Moves a s { s with tld := l }
  | choices {a : Touch} (s : State) (k : Nat) : Moves a s { s with choices := k }
  | store {a : Touch} (s : State) (f : FieldStore) (hm : f.mem = s.fst.mem)
      (hs : f.slots.length = s.fst.slots.length)
      (hh : ∀ n : Feed, (f.hist.get n).length ≤ (s.fst.hist.get n).length) : Moves a s { s with fst := f }
  | grow {a : Touch} {s t : State} (n : Feed) (r : FieldRecord) (h : Moves a s t)
      (hl : (t.history n).length < 8 ∨ (t.history n).length < (s.history n).length) : Moves a s (t.append n r)
  | otx {a : Touch} (s : State) (n : Feed) (t : Transmitter)
      (h1 : (s.otx.get n).oneSending = true → t.oneSending = true)
      (h2 : t.results.length ≤ 8 ∨ t.results.length ≤ (s.otx.get n).results.length)
      (h3 : t.carry.length ≤ 16 ∨ t.carry.length ≤ (s.otx.get n).carry.length)
      (h4 : (s.otx.get n).framesOk → t.framesOk)
      (h5 : (s.settings n).holdLimit ≤ 250 → (s.otx.get n).repeatsOk → t.repeatsOk) : Moves a s (s.setOtx n t)
  | rx {a : Touch} (s : State) (n : Feed) (r : Receiver) (h : a.allows n = true) : Moves a s (s.setRx n r)
  | ing {a : Touch} (s : State) (n : Feed) (c : Conditioner) (h : a.allows n = true) : Moves a s (s.setIng n c)
  | setActive {a : Touch} (s : State) (n : Feed) (x : Settings) (h : a.allows n = true) : Moves a s (s.setActive n x)
  | setStaged {a : Touch} (s : State) (n : Feed) (p : Pending) (h : a.allows n = true) : Moves a s (s.setStaged n p)
  | write {a : Touch} (s : State) (k : Fin 24) (m : Nat) (l : Line) (h : m < 288) (hw : a.writes = true) :
      Moves a s (s.writeLine k m l)
  | upset (s : State) (us : List Upset) : Moves .all s (s.upset us)
  | hold (s : State) : Moves .all s s.holdsReset
  | restart (s : State) (d : Straps) : Moves .all s (s.deviceRestarts d)
  | release (s : State) (d : Straps) : Moves .all s (s.released d)

theorem Force.adopts.trans {f g h : Force} (k : f.adopts g) (l : g.adopts h) : f.adopts h := by
  rcases k with rfl | rfl | ⟨p, a, b, rfl, rfl, k⟩
  · exact l
  · rcases l with rfl | rfl | ⟨_, _, _, h, _⟩
    · exact Or.inr (Or.inl rfl)
    · exact Or.inr (Or.inl rfl)
    · cases h
  · rcases l with rfl | rfl | ⟨q, c, d, h, rfl, l⟩
    · exact Or.inr (Or.inr ⟨p, a, b, rfl, rfl, k⟩)
    · exact Or.inr (Or.inl rfl)
    · cases h
      exact Or.inr (Or.inr ⟨p, a, d, rfl, rfl, l.trans k⟩)

namespace Moves

variable {a : Touch}

theorem foldl {α : Type} (f : State → α → State) (h : ∀ s x, Moves a s (f s x)) (l : List α) (s : State) :
    Moves a s (l.foldl f s) := by
  induction l generalizing s with
  | nil => exact Moves.refl s
  | cons x t ih => exact (h s x).trans (ih (f s x))

theorem count (s : State) (n : Feed) (c : FeedCounter) (k : Nat) : Moves a s (s.count n c k) :=
  Moves.notices s _ (List.Sublist.refl _) (Or.inl rfl) (fun h => ⟨fun m => by
    show ∀ x ∈ ((s.ntu.feedCounters.set n _).get m).toList, _
    rw [Quad_get_set]
    split
    · exact FeedCounters.add_ok _ c k (h.1 n)
    · exact h.1 m, h.2⟩)

theorem countDev (s : State) (c : DeviceCounter) : Moves a s (s.countDev c) :=
  Moves.notices s _ (List.Sublist.refl _) (Or.inl rfl) (fun h => ⟨h.1, DeviceCounters.add_ok _ c 1 h.2⟩)

theorem setTracker (s : State) (n : Feed) (k : Tracker)
    (ht : a.tracks = true := by first | rfl | assumption | exact Touch.tracks_of_allows (by assumption)) :
    Moves a s (s.setTracker n k) := Moves.cad s _ ht

theorem setHist (s : State) (n : Feed) (h : List FieldRecord) (hl : h.length ≤ (s.history n).length) :
    Moves a s (s.setHist n h) := by
  refine Moves.store s _ rfl rfl (fun m => ?_)
  by_cases hm : m = n
  · subst hm; simpa [State.history] using hl
  · simp [Quad_get_set_other _ _ _ _ hm]

theorem setSlot (s : State) (k : Fin 24) (v : Slot) : Moves a s (s.setSlot k v) := Moves.store s _ rfl (by simp) (fun _ => le_refl _)

theorem setLoad (s : State) (l : Option LoadRecord) : Moves a s (s.setLoad l) := Moves.tld s _ rfl

theorem setCopy (s : State) (t : TableId) (c : LoadCopy) : Moves a s (s.setCopy t c) := Moves.tld s _ (by simp)

theorem setPeriodic (s : State) (p : Periodic) : Moves a s (s.setPeriodic p) :=
  Moves.notices s _ (List.Sublist.refl _) (Or.inl rfl) id

theorem setLatches (s : State) (sc : Scope) (l : Latches) : Moves a s (s.setLatches sc l) := by
  cases sc <;> exact Moves.notices s _ (List.Sublist.refl _) (Or.inl rfl) id

theorem nextChoice (s : State) : Moves a s s.nextChoice.2 := Moves.choices s _

/-- A transmitter update that touches neither the halves, nor the queues, nor the frame on the link; its repeat count stays in its
range. -/
theorem otxKeep (s : State) (n : Feed) (t : Transmitter) (h0 : t.half0 = (s.otx.get n).half0)
    (h1 : t.half1 = (s.otx.get n).half1) (h2 : t.results = (s.otx.get n).results)
    (h3 : t.carry = (s.otx.get n).carry) (h4 : t.link = (s.otx.get n).link)
    (h5 : (s.settings n).holdLimit ≤ 250 → (s.otx.get n).repeatsOk → t.repeatsOk) : Moves a s (s.setOtx n t) := by
  refine Moves.otx s n t ?_ (Or.inr (by rw [h2])) (Or.inr (by rw [h3])) ?_ h5
  · unfold Transmitter.oneSending
    rw [h0, h1]
    exact id
  · unfold Transmitter.framesOk
    rw [h0, h1, h4]
    exact id

/-! ## The field store -/

theorem modifyRecord (s : State) (n : Feed) (q : Seq) (f : FieldRecord → FieldRecord) : Moves a s (s.modifyRecord n q f) :=
  setHist s n _ (by simp)

theorem modifyHeld (s : State) (n : Feed) (q : Seq) (f : FieldRecord → FieldRecord) : Moves a s (s.modifyHeld n q f) := by
  unfold State.modifyHeld
  split
  · exact Moves.store s _ rfl rfl (fun _ => le_refl _)
  · exact modifyRecord s n q f

theorem checkLeaving (s : State) : Moves a s s.checkLeaving := by
  unfold State.checkLeaving
  split
  · exact Moves.store s _ rfl rfl (fun _ => le_refl _)
  · exact Moves.refl s

theorem freeSlots (s : State) (ks : List (Fin 24)) : Moves a s (s.freeSlots ks) :=
  foldl _ (fun t k => setSlot t k .free) ks s

theorem releaseSlots (s : State) (ks : List (Fin 24)) : Moves a s (s.releaseSlots ks) := by
  unfold State.releaseSlots
  split
  · exact Moves.refl s
  · exact (freeSlots s ks).trans (checkLeaving _)

theorem detach (s : State) (n : Feed) (r : FieldRecord) : Moves a s (s.detach n r) :=
  (Moves.store s { s.fst with detached := s.fst.detached ++ [r] } rfl rfl (fun _ => le_refl _)).trans
    (foldl _ (fun t k => setSlot t k (.retiring n)) r.slots _)

/-- Waiting jobs that only go leave at most two of a feed (R88). -/
theorem waitingOk_of_le (s : State) (f : FrameEngine)
    (h : ∀ m, (f.waiting.filter (fun j => j.feed == m)).length ≤ (s.waitingOf m).length) (hs : s.waitingOk) :
    ({ s with fen := f } : State).waitingOk := fun m => (h m).trans (hs m)

theorem waitingOk_erase (s : State) (j : Job) :
    s.waitingOk → ({ s with fen := { s.fen with waiting := s.fen.waiting.erase j } } : State).waitingOk :=
  waitingOk_of_le s _ (fun _ => ((List.erase_sublist (a := j) (l := s.fen.waiting)).filter _).length_le)

/-- A job enters while fewer than two of its feed wait. -/
theorem waitingOk_append (s : State) (j : Job) (h : ∀ k l t, s.waitingOf j.feed ≠ k :: l :: t) (hs : s.waitingOk) :
    ({ s with fen := { s.fen with waiting := s.fen.waiting ++ [j] } } : State).waitingOk := by
  intro m
  show (List.filter _ (s.fen.waiting ++ [j])).length ≤ 2
  rw [List.filter_append, List.length_append]
  by_cases hm : j.feed = m
  · subst hm
    have hl : (s.waitingOf j.feed).length ≤ 1 := by
      match hw : s.waitingOf j.feed with
      | [] => simp
      | [_] => simp
      | k :: l :: t => exact absurd hw (h k l t)
    rw [State.waitingOf] at hl
    simp only [List.filter_singleton, beq_self_eq_true, cond_true, List.length_singleton]
    omega
  · have := hs m
    rw [State.waitingOf] at this
    simp [hm, this]

/-- With two of its feed waiting, the older goes and the job enters (R88). -/
theorem waitingOk_enter (s : State) (j k l : Job) (t : List Job) (h : s.waitingOf j.feed = k :: l :: t) (hs : s.waitingOk) :
    ({ s with fen := { s.fen with waiting := s.fen.waiting.erase k ++ [j] } } : State).waitingOk := by
  intro m
  show (List.filter _ (s.fen.waiting.erase k ++ [j])).length ≤ 2
  rw [List.filter_append, List.length_append]
  have hw := hs m
  rw [State.waitingOf, ← List.countP_eq_length_filter] at hw
  rw [← List.countP_eq_length_filter, List.countP_erase]
  by_cases hm : j.feed = m
  · subst hm
    have hk : k ∈ s.waitingOf j.feed := by simp [h]
    obtain ⟨k1, k2⟩ := List.mem_filter.1 hk
    rw [if_pos ⟨k1, k2⟩]
    simp only [List.filter_singleton, beq_self_eq_true, cond_true, List.length_singleton]
    omega
  · have e : List.filter (fun x : Job => x.feed == m) [j] = [] := by simp [hm]
    rw [e, List.length_nil]
    omega

theorem waitingOk_same (s : State) (f : FrameEngine) (h : f.waiting = s.fen.waiting) :
    s.waitingOk → ({ s with fen := f } : State).waitingOk :=
  waitingOk_of_le s f (fun _ => by rw [h]; exact le_refl _)

theorem fenKeep (s : State) (f : FrameEngine) (h : f.waiting = s.fen.waiting) : Moves a s { s with fen := f } :=
  Moves.fen s f (waitingOk_same s f h)

theorem noteSkip (s : State) (j : Job) : Moves a s (s.noteSkip j) := (Moves.raise s _ _ _).trans (count _ _ _ _)

theorem dropWaitingRefs (s : State) (n : Feed) (q : Seq) : Moves a s (s.dropWaitingRefs n q) :=
  (Moves.fen s _ (waitingOk_of_le s _ (fun m => by
    show (List.filter _ ((s.fen.waiting.filter _).map _)).length ≤ (s.waitingOf m).length
    rw [List.filter_map, List.length_map]
    have e : (fun j : Job => j.feed == m) ∘ (fun j => if j.feed == n then { j with refs := j.refs.drop q } else j) =
        fun j => j.feed == m := by
      funext j
      simp only [Function.comp]
      split <;> rfl
    rw [e, List.filter_filter, State.waitingOf]
    exact (List.monotone_filter_right _ (fun j h => by simp only [Bool.and_eq_true] at h; exact h.1)).length_le))).trans
    (foldl _ (fun t j => noteSkip t j) _ _)

theorem historyCap (s : State) (n : Feed) : Moves a s (s.historyCap n) := by
  unfold State.historyCap
  split
  · exact Moves.refl s
  · next r t _ =>
    split
    · refine Moves.trans ?_ (dropWaitingRefs _ n _)
      split
      · exact (setHist s n t (by simp [*])).trans (detach _ n r)
      · exact (setHist s n t (by simp [*])).trans (releaseSlots _ _)
    · exact Moves.refl s

theorem retain (s : State) (n : Feed) : Moves a s (s.retain n) :=
  (setHist s n _ (retentionWalk_length _ _ _ _)).trans (releaseSlots _ _)

theorem retainTight (s : State) (n : Feed) : Moves a s (s.retainTight n) :=
  (setHist s n _ (retentionWalk_length _ _ _ _)).trans (freeSlots _ _)

theorem enterTight (s : State) (free : Nat) : Moves a s (s.enterTight free) := by
  unfold State.enterTight
  refine Moves.trans ?_ (checkLeaving _)
  refine Moves.trans ?_ (foldl _ retainTight feeds _)
  exact (Moves.store s { s.fst with tight := true } rfl rfl (fun _ => le_refl _)).trans (Moves.raise _ _ _ _)

theorem reclaim (s : State) (v : Feed) (q : Seq) : Moves a s (s.reclaim v q) :=
  ((modifyRecord s v q _).trans (Moves.raise _ _ _ _)).trans (countDev _ _)

theorem capped (s : State) (n : Feed) : Moves a s (s.capped n) := by
  unfold State.capped
  split
  · exact historyCap s n
  · exact Moves.refl s

theorem allocate (s : State) (n : Feed) (q : Seq) (p : Parity) (rep : Bool) : Moves a s (s.allocate n q p rep).2 := by
  unfold State.allocate
  have h := capped (a := a) s n
  have hl := capped_room s n
  unfold State.capped at h hl
  generalize (if 8 ≤ (s.history n).length then s.historyCap n else s) = s0 at h hl
  dsimp only
  split
  · next k _ =>
    have hg := Moves.grow n (newRecord q p .opened (.slot k) rep (some p)) (h.trans (setSlot s0 k (.filling n))) hl
    dsimp only
    split
    · exact hg.trans (enterTight _ _)
    · exact hg
  · split
    · next v w k _ =>
      refine Moves.grow n _ (h.trans ((reclaim s0 v w).trans (setSlot _ k _))) ?_
      have e : (((s0.reclaim v w).setSlot k (.filling n)).history n).length = (s0.history n).length := by
        show ((s0.modifyRecord v w (fun r => r.toGap .reclaimed)).history n).length = _
        by_cases hv : n = v
        · subst hv; simp [State.modifyRecord, State.history]
        · simp [State.modifyRecord, State.history, Quad_get_set_other _ _ _ _ hv]
      rw [e]
      exact hl
    · exact ((Moves.grow n _ h hl).trans (Moves.raise _ _ _ _)).trans (count _ _ _ _)

theorem appendMissing (s : State) (n : Feed) (q : Seq) (p : Parity) : Moves a s (s.appendMissing n q p) :=
  Moves.grow n _ (capped s n) (capped_room s n)

theorem closeRecord (s : State) (n : Feed) (q : Seq) : Moves a s (s.closeRecord n q) := by
  unfold State.closeRecord
  refine Moves.trans ?_ (modifyRecord _ n q _)
  split
  · exact foldl _ (fun t k => setSlot t k (.held n)) _ s
  · exact Moves.refl s

theorem emptyHistory (s : State) (n : Feed) : Moves a s (s.emptyHistory n) :=
  ((setHist s n [] (Nat.zero_le _)).trans (foldl _ (fun t r => detach t n r) _ _)).trans (releaseSlots _ _)

theorem endDetached (s : State) : Moves a s s.endDetached :=
  (Moves.store s { s.fst with detached := [] } rfl rfl (fun _ => le_refl _)).trans (releaseSlots _ _)

theorem readLine (s : State) (held : Bool) (n : Feed) (q : Seq) (m : Nat) : Moves a s (s.readLine held n q m).2 := by
  unfold State.readLine
  split
  · exact Moves.refl s
  · split
    · exact Moves.refl s
    · split
      · exact Moves.refl s
      · split
        · exact Moves.refl s
        · exact (count s _ _ _).trans (Moves.raise _ _ _ _)
        · dsimp only
          refine Moves.trans (Moves.trans ?_ (count _ _ _ _)) (Moves.raise _ _ _ _)
          split
          · exact modifyHeld s n q _
          · exact modifyRecord s n q _

/-! ## The frame engine -/

theorem noteAdoption (s : State) (t : TableId) : Moves a s (s.noteAdoption t) :=
  (Moves.raise s _ _ _).trans (countDev _ _)

theorem adoptSet (s : State) (t : TableId) : Moves a s (s.adoptSet t) := by
  unfold State.adoptSet
  split
  · refine ((Moves.fen s _ ?_).trans (setCopy _ t _)).trans (noteAdoption _ t)
    dsimp only
    split <;> exact id
  · exact Moves.refl s

theorem adoptSets (s : State) : Moves a s s.adoptSets := foldl _ adoptSet _ s

/-- The states of the halves after the non-sending half takes a state that is not SENDING. -/
theorem setOther_oneSending (t : Transmitter) (h : Half) (hs : h.state ≠ .sending) (ho : t.oneSending = true) :
    (t.setOther h).oneSending = true := by
  revert ho
  unfold Transmitter.setOther Transmitter.sends0 Transmitter.oneSending
  split
  · next h0 => intro _; simp [h0, hs]
  · next h0 => intro ho; simp_all

/-- The frames of a transmitter whose non-sending half takes a legal frame, or none. -/
theorem setOther_framesOk (t : Transmitter) (h : Half) (hf : ∀ f, h.frame = some f → frameLegal f) (ho : t.framesOk) :
    (t.setOther h).framesOk := by
  unfold Transmitter.setOther
  split
  · exact ⟨ho.1, hf, ho.2.2⟩
  · exact ⟨hf, ho.2.1, ho.2.2⟩

theorem setOther_repeatsOk (t : Transmitter) (h : Half) (ho : t.repeatsOk) : (t.setOther h).repeatsOk := by
  unfold Transmitter.setOther
  split <;> exact ho

theorem claimHalf (s : State) (n : Feed) : Moves a s (s.claimHalf n) := by
  have ho : Moves a s (s.setOtx n ((s.otx.get n).setOther { (s.otx.get n).otherHalf with state := .filling, frame := none })) := by
    refine Moves.otx s n _ (setOther_oneSending _ _ (by simp)) (Or.inr ?_) (Or.inr ?_)
      (setOther_framesOk _ _ (by simp)) (fun _ => setOther_repeatsOk _ _) <;>
      (unfold Transmitter.setOther; split <;> exact le_refl _)
  unfold State.claimHalf
  dsimp only
  split
  · exact ho.trans (count _ _ _ _)
  · exact ho

theorem startJob (s : State) (j : Job) : Moves a s (s.startJob j) := by
  unfold State.startJob
  dsimp only
  have h := (Moves.fen (a := a) s _ (waitingOk_erase s j)).trans (adoptSets _)
  generalize ({ s with fen := { s.fen with waiting := s.fen.waiting.erase j } } : State).adoptSets = s1 at h ⊢
  exact ((h.trans (fenKeep s1 _ (by rfl))).trans (claimHalf _ _)).trans (retain _ _)

theorem skipAtChoice (s : State) (j : Job) : Moves a s (s.skipAtChoice j) :=
  ((Moves.fen s _ (waitingOk_erase s j)).trans (noteSkip _ j)).trans (retain _ _)

theorem arbitrateFor (k : Nat) (s : State) : Moves a s (State.arbitrateFor k s) := by
  induction k generalizing s with
  | zero => exact Moves.refl s
  | succ k ih =>
    unfold State.arbitrateFor
    split
    · exact Moves.refl s
    · split
      · exact Moves.refl s
      · split
        · exact startJob s _
        · exact (skipAtChoice s _).trans (ih _)

theorem arbitrate (s : State) : Moves a s s.arbitrate := arbitrateFor _ s

theorem enqueue (s : State) (j : Job) : Moves a s (s.enqueue j) := by
  refine Moves.trans ?_ (arbitrate _)
  unfold State.skipOlder
  split
  · next k l t h =>
    exact (Moves.fen s { s.fen with waiting := s.fen.waiting.erase k ++ [j] } (waitingOk_enter s j k l t h)).trans (noteSkip _ k)
  · next h => exact Moves.fen s _ (waitingOk_append s j h)

theorem withdrawJobs (s : State) (n : Feed) : Moves a s (s.withdrawJobs n) :=
  Moves.fen s _ (waitingOk_of_le s _ (fun m => by
    show (List.filter _ (s.fen.waiting.filter _)).length ≤ (s.waitingOf m).length
    rw [List.filter_filter, State.waitingOf]
    exact (List.monotone_filter_right _ (fun j h => by simp only [Bool.and_eq_true] at h; exact h.1)).length_le))

/-! ## The cadence tracker -/

theorem breakLock (s : State) (n : Feed) (d : Detail)
    (ht : a.tracks = true := by first | rfl | assumption | exact Touch.tracks_of_allows (by assumption)) :
    Moves a s (s.breakLock n d) :=
  ((setTracker s n _).trans (Moves.raise _ _ _ _)).trans (count _ _ _ _)

theorem trackerAction (s : State) (n : Feed) (q : Seq) (e : Evidence) (ds : Bool)
    (ht : a.tracks = true := by first | rfl | assumption | exact Touch.tracks_of_allows (by assumption)) :
    Moves a s (s.trackerAction n q e ds).2 := by
  unfold State.trackerAction
  dsimp only
  split
  · split
    · split
      · exact (((setTracker s n _).trans (setTracker _ n _)).trans (Moves.raise _ _ _ _)).trans (count _ _ _ _)
      · exact setTracker s n _
    · exact setTracker s n _
  · split
    · exact (setTracker s n _).trans (breakLock _ n _)
    · exact (setTracker s n _).trans (setTracker _ n _)
  · exact (setTracker s n _).trans (setTracker _ n _)
  · exact setTracker s n _
  · exact (setTracker s n _).trans (setTracker _ n _)

theorem adoptFor (changed : Quad Bool) (s : State) (n : Feed)
    (ht : a.tracks = true := by first | rfl | assumption | exact Touch.tracks_of_allows (by assumption)) :
    Moves a s (State.adoptFor changed s n) := by
  unfold State.adoptFor
  dsimp only
  split
  · split
    · exact (setTracker s n _).trans (breakLock _ n _)
    · exact setTracker s n _
  · split
    · split
      · refine ((setTracker s n _).trans (setTracker _ n _)).trans (Moves.force _ n _ ?_ ht)
        show (s.settings n).force.adopts _
        cases (s.settings n).force with
        | film r f => exact Or.inr (Or.inr ⟨r, f, _, rfl, rfl, Nat.mod_le _ _⟩)
        | _ => exact Or.inl rfl
      · exact ((setTracker s n _).trans (setTracker _ n _)).trans (Moves.force _ n _ (Or.inr (Or.inl rfl)) ht)
    · exact setTracker s n _
  · exact setTracker s n _

theorem adoptCadence (s : State)
    (ht : a.tracks = true := by first | rfl | assumption | exact Touch.tracks_of_allows (by assumption)) :
    Moves a s s.adoptCadence := by
  unfold State.adoptCadence
  split
  · exact (((Moves.cad s _ ht).trans (setCopy _ 0 _)).trans (foldl _ (fun t n => adoptFor _ t n) feeds _)).trans (noteAdoption _ 0)
  · exact Moves.refl s

theorem evidenceEvent (s : State) (n : Feed) (q : Seq)
    (ht : a.tracks = true := by first | rfl | assumption | exact Touch.tracks_of_allows (by assumption)) :
    Moves a s (s.evidenceEvent n q) := by
  unfold State.evidenceEvent
  split
  · dsimp only
    split
    · exact ((adoptCadence s).trans (trackerAction _ n _ _ _)).trans (enqueue _ _)
    · exact (adoptCadence s).trans (trackerAction _ n _ _ _)
  · exact Moves.refl s

theorem applyMask (s : State) (n : Feed) (new : Quad Bool) (d : Detail) (h : a.allows n = true) :
    Moves a s (s.applyMask n new d) := by
  unfold State.applyMask
  dsimp only
  split
  · exact ((setTracker s n _).trans (Moves.setActive _ n _ h)).trans (breakLock _ n d)
  · exact (setTracker s n _).trans (Moves.setActive _ n _ h)

theorem applyForce (s : State) (n : Feed) (f : Force) (h : a.allows n = true) : Moves a s (s.applyForce n f) := by
  unfold State.applyForce
  dsimp only
  split
  · exact Moves.refl s
  · exact (setTracker s n _).trans (Moves.setActive _ n _ h)

theorem resetTracker (s : State) (n : Feed)
    (ht : a.tracks = true := by first | rfl | assumption | exact Touch.tracks_of_allows (by assumption)) :
    Moves a s (s.resetTracker n) := setTracker s n _

/-! ## The ingest conditioner -/

theorem mapOverflow (s : State) (n : Feed) (q : Seq) : Moves a s (s.mapOverflow n q) := by
  unfold State.mapOverflow
  split
  · exact Moves.refl s
  · split
    · exact Moves.refl s
    · exact (modifyRecord s n q _).trans (Moves.raise _ _ _ _)

theorem takeMapEntry (n : Feed) (h : a.allows n = true) (s : State) (e : Nat × Nat) :
    Moves a s (State.takeMapEntry n s e) := by
  unfold State.takeMapEntry
  split
  · exact Moves.refl s
  · dsimp only
    split
    · exact (Moves.rx s n _ h).trans (Moves.ing _ n _ h)
    · exact mapOverflow s n _

theorem readLines (n : Feed) (q : Seq) (ms : List Nat) (s : State) : Moves a s (State.readLines n q ms s) :=
  foldl _ (fun t m => readLine t false n q m) ms s

theorem closureReads (s : State) (n : Feed) (lines : Nat) (f0 : FieldRecord) (back prev : Option FieldRecord) :
    Moves a s (s.closureReads n lines f0 back prev) := by
  have h1 : Moves a s (if back.isSome || prev.isSome then s.readLines n f0.seq (List.range lines) else s) := by
    split
    · exact readLines n _ _ s
    · exact Moves.refl s
  unfold State.closureReads
  refine h1.trans ?_
  generalize (if back.isSome || prev.isSome then s.readLines n f0.seq (List.range lines) else s) = s1
  cases back <;> cases prev
  · exact Moves.refl s1
  · exact readLines n _ _ s1
  · exact readLines n _ _ s1
  · exact (readLines n _ _ s1).trans (readLines n _ _ _)

theorem enterMeasures (s : State) (n : Feed) (q : Seq) : Moves a s (s.enterMeasures n q) := by
  unfold State.enterMeasures
  split
  · exact Moves.refl s
  · exact (closureReads s n _ _ _ _).trans (modifyRecord _ n q _)

theorem enterMap (s : State) (n : Feed) (q : Seq) (m : DropoutMap) : Moves a s (s.enterMap n q m) := by
  unfold State.enterMap
  split
  · exact Moves.refl s
  · exact ((modifyRecord s n q _).trans (count _ _ _ _)).trans (count _ _ _ _)

theorem watchLimit (s : State) (n : Feed) (q : Seq) (w : Watch) (k : NoticeKind) : Moves a s (s.watchLimit n q w k) := by
  unfold State.watchLimit
  split
  · exact Moves.refl s
  · split
    · dsimp only
      split
      · exact (Moves.raise s _ _ _).trans (modifyRecord _ n q _)
      · exact Moves.raise s _ _ _
    · exact Moves.refl s

theorem overflowPoor (s : State) (n : Feed) (q : Seq) : Moves a s (s.overflowPoor n q) := by
  unfold State.overflowPoor
  split
  · exact Moves.refl s
  · split
    · exact modifyRecord s n q _
    · exact Moves.refl s

theorem closureWork (s : State) (n : Feed) (q : Seq) (m : DropoutMap)
    (ht : a.tracks = true := by first | rfl | assumption | exact Touch.tracks_of_allows (by assumption)) :
    Moves a s (s.closureWork n q m) := by
  unfold State.closureWork
  dsimp only
  refine Moves.trans (Moves.trans ?_ (evidenceEvent _ n q)) (retain _ n)
  refine Moves.trans (Moves.trans ?_ (watchLimit _ n q _ _)) (watchLimit _ n q _ _)
  exact ((enterMap s n q m).trans (enterMeasures _ n q)).trans (overflowPoor _ n q)

theorem gapClosureWork (s : State) (n : Feed) (q : Seq)
    (ht : a.tracks = true := by first | rfl | assumption | exact Touch.tracks_of_allows (by assumption)) :
    Moves a s (s.gapClosureWork n q) :=
  (evidenceEvent s n q).trans (retain _ n)

/-! ## The build -/

theorem buildLine (s : State) (r : BuildRole) (m : Nat) : Moves a s (s.buildLine r m) := by
  unfold State.buildLine
  split
  · exact Moves.refl s
  · split
    · split
      · exact Moves.refl s
      · exact (readLine s true _ _ m).trans (fenKeep _ _ (by rfl))
    · exact Moves.refl s

theorem finishReads (s : State) : Moves a s s.finishReads := by
  unfold State.finishReads
  split
  · exact Moves.refl s
  · exact foldl (fun t (p : BuildRole × Nat) => t.buildLine p.1 p.2) (fun t p => buildLine t p.1 p.2) _ s

theorem deliver (s : State) (v : Service) : Moves a s (s.deliver v) := by
  have ho : ∀ h : Half, h.state ≠ .sending → h.frame = some (s.finishedFrame v) →
      Moves a s (s.setOtx v.job.feed ((s.otx.get v.job.feed).setOther h)) := by
    intro h hs hf
    refine Moves.otx s _ _ (setOther_oneSending _ _ hs) (Or.inr ?_) (Or.inr ?_) (setOther_framesOk _ _ ?_)
      (fun _ => setOther_repeatsOk _ _)
    on_goal 3 =>
      intro f e
      rw [hf] at e
      cases e
      exact builtFrame_legal _ _ _ _ _
    all_goals
      (unfold Transmitter.setOther; split <;> exact le_refl _)
  unfold State.deliver
  dsimp only
  split
  · exact ho _ (by simp) rfl
  · exact (ho _ (by simp) rfl).trans (count _ _ _ _)

theorem completeJob (s : State) : Moves a s s.completeJob := by
  unfold State.completeJob
  dsimp only
  split
  · exact Moves.refl s
  · exact ((((finishReads s).trans (deliver _ _)).trans (fenKeep _ _ (by rfl))).trans (endDetached _)).trans
      ((retain _ _).trans (arbitrate _))

end Moves

end Sys2Proof.Machine
end

