-- ==== Sys2Proof/Laws/Output.lean ====
section
/-! SUPPORT. A frame start, part by part: what each of its operations leaves unchanged, and what the whole makes of the
transmitter (R143 to R151). -/

namespace Sys2Proof.Machine

/-! ## The blanking touches the queues, the pending notices, the latches and the periodic count -/

/-- What placing the blanking leaves as it is: everything but the notice unit's table, latches and periodic state and the
two queues of output n. -/
structure Draws (n : Feed) (s t : State) : Prop where
  rest : t = { s with otx := t.otx, ntu := t.ntu }
  mine : ∃ r c, t.otx = s.otx.set n { s.otx.get n with results := r, carry := c }
  table : t.ntu.table.Sublist s.ntu.table
  settings : t.ntu.settings = s.ntu.settings
  feedCounters : t.ntu.feedCounters = s.ntu.feedCounters
  devCounters : t.ntu.devCounters = s.ntu.devCounters

theorem Draws.refl (n : Feed) (s : State) : Draws n s s :=
  ⟨rfl, ⟨_, _, (Quad_set_get s.otx n).symm⟩, List.Sublist.refl _, rfl, rfl, rfl⟩

theorem Quad_set_set {α : Type} (q : Quad α) (n : Fin 4) (a b : α) : (q.set n a).set n b = q.set n b := by
  fin_cases n <;> rfl

theorem Draws.trans {n : Feed} {s t u : State} (h : Draws n s t) (k : Draws n t u) : Draws n s u := by
  refine ⟨?_, ?_, k.table.trans h.table, k.settings.trans h.settings, k.feedCounters.trans h.feedCounters,
    k.devCounters.trans h.devCounters⟩
  · rw [k.rest, h.rest]
  · obtain ⟨r, c, hm⟩ := h.mine
    obtain ⟨r', c', km⟩ := k.mine
    refine ⟨r', c', ?_⟩
    rw [km, hm, Quad_set_set, Quad_get_set_same]

/-- A change of the notice unit alone. -/
theorem Draws.ofNtu (n : Feed) (s : State) (u : NoticeUnit) (ht : u.table.Sublist s.ntu.table)
    (hs : u.settings = s.ntu.settings) (hf : u.feedCounters = s.ntu.feedCounters)
    (hd : u.devCounters = s.ntu.devCounters) : Draws n s { s with ntu := u } :=
  ⟨rfl, ⟨_, _, (Quad_set_get s.otx n).symm⟩, ht, hs, hf, hd⟩

theorem setLatches_draws (n : Feed) (s : State) (sc : Scope) (l : Latches) : Draws n s (s.setLatches sc l) := by
  cases sc <;> exact Draws.ofNtu n s _ (List.Sublist.refl _) rfl rfl rfl

theorem drawStatus_draws (s : State) (n : Feed) : Draws n s (s.drawStatus n).2 := by
  unfold State.drawStatus
  split
  · exact Draws.refl n s
  · split
    · exact Draws.refl n s
    · exact setLatches_draws n s _ _

theorem drawCounters_draws (s : State) (n : Feed) : Draws n s (s.drawCounters n).2 := by
  unfold State.drawCounters
  split
  · exact Draws.refl n s
  · split
    · exact Draws.refl n s
    · exact setLatches_draws n s _ _

theorem drawPeriodic_draws (s : State) (n : Feed) : Draws n s (s.drawPeriodic n).2 := by
  unfold State.drawPeriodic
  simp only
  split
  · exact Draws.refl n s
  · split
    · exact Draws.refl n s
    · split <;> exact Draws.ofNtu n s _ (List.Sublist.refl _) rfl rfl rfl

theorem drawResults_draws (s : State) (n : Feed) : Draws n s (s.drawResults n).2 :=
  ⟨rfl, ⟨_, _, rfl⟩, List.Sublist.refl _, rfl, rfl, rfl⟩

theorem drawNotices_draws (s : State) (n : Feed) : Draws n s (s.drawNotices n).2 :=
  Draws.ofNtu n s _ List.filter_sublist rfl rfl rfl

theorem drawCarry_draws (s : State) (n : Feed) (room : Nat) : Draws n s (s.drawCarry n room).2 :=
  ⟨rfl, ⟨_, _, rfl⟩, List.Sublist.refl _, rfl, rfl, rfl⟩

theorem placeBlanking_draws (s : State) (n : Feed) : Draws n s (s.placeBlanking n).2 :=
  (drawStatus_draws s n).trans ((drawCounters_draws _ n).trans ((drawPeriodic_draws _ n).trans
    ((drawResults_draws _ n).trans ((drawNotices_draws _ n).trans (drawCarry_draws _ n _)))))

/-! ## At most 12 packets -/

theorem drawStatus_length (s : State) (n : Feed) : (s.drawStatus n).1.length ≤ 1 := by
  unfold State.drawStatus
  split
  · simp
  · split <;> simp

theorem drawCounters_length (s : State) (n : Feed) : (s.drawCounters n).1.length ≤ 1 := by
  unfold State.drawCounters
  split
  · simp
  · split <;> simp

theorem drawPeriodic_length (s : State) (n : Feed) : (s.drawPeriodic n).1.length ≤ 1 := by
  unfold State.drawPeriodic
  simp only
  split
  · simp
  · split
    · simp
    · split <;> simp

theorem drawResults_length (s : State) (n : Feed) : (s.drawResults n).1.length ≤ 4 := by
  simp only [State.drawResults, List.length_map, List.length_take]
  omega

theorem drawNotices_length (s : State) (n : Feed) : (s.drawNotices n).1.length ≤ 4 := by
  simp only [State.drawNotices, State.handedNotices, List.length_map, List.length_take]
  omega

/-- A frame carries at most 12 packets (R151). -/
theorem placeBlanking_length (s : State) (n : Feed) : (s.placeBlanking n).1.length ≤ 12 := by
  have h1 := drawStatus_length s n
  have h2 := drawCounters_length (s.drawStatus n).2 n
  have h3 := drawPeriodic_length ((s.drawStatus n).2.drawCounters n).2 n
  have h4 := drawResults_length (((s.drawStatus n).2.drawCounters n).2.drawPeriodic n).2 n
  have h5 := drawNotices_length ((((s.drawStatus n).2.drawCounters n).2.drawPeriodic n).2.drawResults n).2 n
  simp only [State.placeBlanking, State.drawCarry, List.length_append, List.length_take]
  omega

/-! ## Fixing the frame, case by case (R143, R144) -/

theorem fixFrame_ready (s : State) (n : Feed) (h : (s.otx.get n).otherHalf.state = .ready) :
    s.fixFrame n =
      ((s.otx.get n).otherHalf.picture, s.setOtx n { (s.otx.get n).swap with repeatCount := 0, fillFlag := false }) := by
  unfold State.fixFrame
  simp [h]

theorem fixFrame_filling (s : State) (n : Feed) (h : (s.otx.get n).otherHalf.state ≠ .ready)
    (hf : (s.otx.get n).fillFlag = true) : s.fixFrame n = (.fill, s.count n .framesFill 1) := by
  unfold State.fixFrame
  simp [h, hf]

theorem fixFrame_repeats (s : State) (n : Feed) (h : (s.otx.get n).otherHalf.state ≠ .ready)
    (hf : (s.otx.get n).fillFlag = false) (hc : (s.otx.get n).repeatCount + 1 < (s.settings n).holdLimit) :
    s.fixFrame n =
      ((s.otx.get n).sendingHalf.picture,
        (s.setOtx n { s.otx.get n with repeatCount := (s.otx.get n).repeatCount + 1 }).count n .framesRepeated 1) := by
  unfold State.fixFrame
  simp [h, hf, hc]

theorem fixFrame_falls (s : State) (n : Feed) (h : (s.otx.get n).otherHalf.state ≠ .ready)
    (hf : (s.otx.get n).fillFlag = false) (hc : (s.settings n).holdLimit ≤ (s.otx.get n).repeatCount + 1) :
    s.fixFrame n =
      (.fill,
        ((s.setOtx n { s.otx.get n with repeatCount := (s.otx.get n).repeatCount + 1, fillFlag := true }).count n
          .framesFill 1).raise .outputFill (.feed n) (s.otx.get n).sendingHalf.source.detail) := by
  unfold State.fixFrame
  simp [h, hf, Nat.not_lt.2 hc]

/-! ## The frame start as a whole -/

/-- The state after the frame is fixed and the timing is settled, before the blanking is placed. -/
abbrev State.timed (s : State) (n : Feed) : State := ((s.fixFrame n).2.restartIfFree n).adoptSource n

/-- What a frame start makes of the state after fixing the frame and settling the timing: the blanking, then the link. -/
theorem frameStart_spec (s : State) (n : Feed) :
    ∃ ps r c, ps.length ≤ 12 ∧
      s.frameStart n = { s.timed n with otx := (s.frameStart n).otx, ntu := (s.frameStart n).ntu } ∧
      (s.frameStart n).otx =
        (s.timed n).otx.set n
          { (s.timed n).otx.get n with results := r, carry := c, link := some ⟨(s.fixFrame n).1, ps⟩ } ∧
      (s.frameStart n).ntu.table.Sublist (s.timed n).ntu.table ∧
      (s.frameStart n).ntu.settings = (s.timed n).ntu.settings ∧
      (s.frameStart n).ntu.feedCounters = (s.timed n).ntu.feedCounters ∧
      (s.frameStart n).ntu.devCounters = (s.timed n).ntu.devCounters := by
  have h := placeBlanking_draws (s.timed n) n
  obtain ⟨r, c, hm⟩ := h.mine
  refine ⟨((s.timed n).placeBlanking n).1, r, c, placeBlanking_length _ n, ?_, ?_, h.table, h.settings, h.feedCounters,
    h.devCounters⟩
  · have := h.rest
    simp only [State.frameStart, State.setOtx]
    rw [this]
  · show ((s.timed n).placeBlanking n).2.otx.set n _ = _
    rw [hm, Quad_set_set, Quad_get_set_same]

theorem setOtx_get (s : State) (n : Feed) : s.setOtx n (s.otx.get n) = s := by simp [State.setOtx]

/-- Restarting the frame timer touches the timer alone. -/
theorem restartIfFree_spec (s : State) (n : Feed) :
    ∃ f, s.restartIfFree n = s.setOtx n { s.otx.get n with frameTimer := f } := by
  unfold State.restartIfFree
  split
  · exact ⟨_, rfl⟩
  · exact ⟨(s.otx.get n).frameTimer, (setOtx_get s n).symm⟩

/-- Adopting a timing source touches the source, the reference and the two timers alone. -/
theorem adoptSource_spec (s : State) (n : Feed) :
    ∃ f w r, s.adoptSource n =
      s.setOtx n
        { s.otx.get n with source := (s.settings n).timing, frameTimer := f, watchTimer := w, reference := r } := by
  unfold State.adoptSource
  by_cases h : (s.otx.get n).source = (s.settings n).timing
  · refine ⟨(s.otx.get n).frameTimer, (s.otx.get n).watchTimer, (s.otx.get n).reference, ?_⟩
    simp only [h, if_true]
    rw [← h]
    exact (setOtx_get s n).symm
  · simp only [h, if_false]
    cases ht : (s.settings n).timing <;> exact ⟨_, _, _, rfl⟩

/-- Settling the timing touches the source, the reference and the two timers alone. -/
theorem timed_spec (s : State) (n : Feed) :
    ∃ f w r, s.timed n =
      (s.fixFrame n).2.setOtx n
        { (s.fixFrame n).2.otx.get n with
          source := ((s.fixFrame n).2.settings n).timing, frameTimer := f, watchTimer := w, reference := r } := by
  obtain ⟨f, hf⟩ := restartIfFree_spec (s.fixFrame n).2 n
  obtain ⟨f', w, r, ha⟩ := adoptSource_spec ((s.fixFrame n).2.restartIfFree n) n
  refine ⟨f', w, r, ?_⟩
  rw [State.timed, ha, hf]
  simp [State.setOtx, Quad_set_set, State.settings]

/-- A frame start of one output leaves the other outputs as they are. -/
theorem frameStart_otx_other (s : State) (n m : Feed) (h : m ≠ n) : (s.frameStart n).otx.get m = s.otx.get m := by
  obtain ⟨ps, r, c, _, _, ho, _⟩ := frameStart_spec s n
  obtain ⟨f, w, rr, ht⟩ := timed_spec s n
  rw [ho, Quad_get_set_other _ _ _ _ h, ht, setOtx_otx, Quad_get_set_other _ _ _ _ h]
  unfold State.fixFrame
  simp only
  split
  · simp [Quad_get_set_other _ _ _ _ h]
  · split
    · rfl
    · split <;> simp [State.count, State.raise, Quad_get_set_other _ _ _ _ h]

/-- Fixing the frame touches the halves, the repeat count, the fill flag and the notice unit. -/
theorem fixFrame_keeps (s : State) (n : Feed) :
    (s.fixFrame n).2 = { s with otx := (s.fixFrame n).2.otx, ntu := (s.fixFrame n).2.ntu } ∧
      ((s.fixFrame n).2.otx.get n).source = (s.otx.get n).source ∧
      ((s.fixFrame n).2.otx.get n).reference = (s.otx.get n).reference ∧
      ((s.fixFrame n).2.otx.get n).frameTimer = (s.otx.get n).frameTimer ∧
      ((s.fixFrame n).2.otx.get n).watchTimer = (s.otx.get n).watchTimer := by
  unfold State.fixFrame Transmitter.swap
  simp only
  split
  · split <;> simp [State.setOtx]
  · split
    · simp [State.count]
    · split <;> simp [State.setOtx, State.count, State.raise]

/-- A frame start leaves all but the outputs and the notice unit as it is. -/
theorem frameStart_keeps (s : State) (n : Feed) :
    s.frameStart n = { s with otx := (s.frameStart n).otx, ntu := (s.frameStart n).ntu } := by
  obtain ⟨ps, r, c, _, hr, _⟩ := frameStart_spec s n
  obtain ⟨f, w, rr, ht⟩ := timed_spec s n
  have hk := (fixFrame_keeps s n).1
  generalize hw : s.frameStart n = t at *
  rw [hr, ht]
  simp only [State.setOtx]
  rw [hk]

/-- A frame start of an output whose source in use is its setting: the source, the reference and the watch timer stay, and
the frame timer starts again where the output runs free (R147, R150). -/
theorem frameStart_timing (s : State) (n : Feed) (h : (s.otx.get n).source = (s.settings n).timing) :
    ((s.frameStart n).otx.get n).source = (s.otx.get n).source ∧
      ((s.frameStart n).otx.get n).reference = (s.otx.get n).reference ∧
      ((s.frameStart n).otx.get n).watchTimer = (s.otx.get n).watchTimer ∧
      ((s.frameStart n).otx.get n).frameTimer =
        (if s.runsFree n then .running (s.period n) else (s.otx.get n).frameTimer) ∧
      ((s.frameStart n).otx.get n).link.isSome = true := by
  obtain ⟨ps, r, c, _, _, ho, _⟩ := frameStart_spec s n
  obtain ⟨hk, k1, k2, k3, k4⟩ := fixFrame_keeps s n
  have hs : (s.fixFrame n).2.settings n = s.settings n := by rw [hk]; rfl
  have hp : (s.fixFrame n).2.period n = s.period n := by rw [hk]; rfl
  have hx : (s.fixFrame n).2.lrx = s.lrx := by rw [hk]
  have hf : (s.fixFrame n).2.runsFree n = s.runsFree n := by
    unfold State.runsFree State.isRunning
    simp only [k1, k2, hx]
  have ha : ∀ u : State, (u.otx.get n).source = (u.settings n).timing → u.adoptSource n = u := by
    intro u hu
    unfold State.adoptSource
    simp [hu]
  have ht : s.timed n = (s.fixFrame n).2.restartIfFree n := by
    apply ha
    unfold State.restartIfFree
    split
    · simp only [State.startFrameTimer, setOtx_otx, Quad_get_set_same, k1, h]
      show _ = ((s.fixFrame n).2.settings n).timing
      rw [hs]
    · rw [k1, hs, h]
  rw [ho, Quad_get_set_same, ht]
  unfold State.restartIfFree
  rw [hf]
  split
  · simp [State.startFrameTimer, k1, k2, k4, hp]
  · simp [k1, k2, k3, k4]

/-- A frame start of an output that runs free with the fill flag set and nothing to send: the fill frame with empty
blanking, the frame timer, FRAMES_FILL (R144, R147, R158). -/
theorem frameStart_idle (s : State) (n : Feed) (h1 : (s.otx.get n).otherHalf.state ≠ .ready)
    (h2 : (s.otx.get n).fillFlag = true) (h3 : (s.otx.get n).source = .free) (h4 : (s.settings n).timing = .free)
    (h5 : (s.otx.get n).results = []) (h6 : (s.otx.get n).carry = [])
    (h7 : ∀ sc, s.latches sc = ⟨none, none⟩) (h8 : s.ntu.table = []) (h9 : s.ntu.periodic.period = 0) :
    s.frameStart n =
      (s.setOtx n { s.otx.get n with frameTimer := .running (s.period n), link := some ⟨.fill, []⟩ }).count n
        .framesFill 1 := by
  have e1 : s.fixFrame n = (.fill, s.count n .framesFill 1) := by
    unfold State.fixFrame
    simp [h1, h2]
  have e2 : s.timed n =
      (s.setOtx n { s.otx.get n with frameTimer := .running (s.period n) }).count n .framesFill 1 := by
    have : (s.count n .framesFill 1).runsFree n = true := by
      unfold State.runsFree
      simp [State.count, h3]
    rw [State.timed, e1]
    simp only [State.restartIfFree, this, if_true]
    unfold State.adoptSource
    simp only [State.startFrameTimer, State.count, State.settings, setOtx_otx, Quad_get_set_same] at *
    simp only [setOtx_cue, h3, h4, if_true]
    rfl
  generalize hu : s.timed n = u at e2
  have g1 : u.otx.get n = { s.otx.get n with frameTimer := .running (s.period n) } := by rw [e2]; simp [State.count]
  have g2 : ∀ sc, u.latches sc = ⟨none, none⟩ := by
    intro sc
    rw [← h7 sc, e2]
    cases sc <;> rfl
  have g3 : u.ntu.table = [] := by rw [e2, ← h8]; rfl
  have g4 : u.ntu.periodic.period = 0 := by rw [e2, ← h9]; rfl
  have d1 : u.drawStatus n = ([], u) := by
    unfold State.drawStatus
    have : (servedScopes n).find? (fun sc => (u.latches sc).status.isSome) = none := by
      rw [List.find?_eq_none]; intro sc _; simp [g2]
    rw [this]
  have d2 : u.drawCounters n = ([], u) := by
    unfold State.drawCounters
    have : (servedScopes n).find? (fun sc => (u.latches sc).counters.isSome && (u.latches sc).status.isNone) = none := by
      rw [List.find?_eq_none]; intro sc _; simp [g2]
    rw [this]
  have d3 : u.drawPeriodic n = ([], u) := by
    unfold State.drawPeriodic
    simp [g4]
  have d4 : u.drawResults n = ([], u) := by
    have : (u.otx.get n).results = [] := by rw [g1]; exact h5
    unfold State.drawResults
    simp only [this, List.take_nil, List.drop_nil, List.map_nil]
    rw [← this, setOtx_get]
  have d5 : u.drawNotices n = ([], u) := by
    have h : u.handedNotices n = [] := by
      unfold State.handedNotices
      simp [g3, rankNotices]
    have k : ({ u with ntu := { u.ntu with table := [] } } : State) = u := by rw [← g3]
    unfold State.drawNotices
    simp only [h, g3, List.filter_nil, List.map_nil, k]
  have d6 : u.drawCarry n 12 = ([], u) := by
    have : (u.otx.get n).carry = [] := by rw [g1]; exact h6
    unfold State.drawCarry
    simp only [this, List.take_nil, List.drop_nil]
    rw [← this, setOtx_get]
  have d7 : u.placeBlanking n = ([], u) := by
    unfold State.placeBlanking
    simp only [d1, d2, d3, d4, d5, List.append_nil, List.length_nil, Nat.sub_zero, d6]
  have e3 : s.frameStart n =
      ((s.timed n).placeBlanking n).2.setOtx n
        { ((s.timed n).placeBlanking n).2.otx.get n with
          link := some ⟨(s.fixFrame n).1, ((s.timed n).placeBlanking n).1⟩ } := rfl
  rw [e3, hu, d7, e1]
  simp only [g1]
  rw [e2]
  simp [State.setOtx, State.count, Quad_set_set]

/-- Output n runs free with the fill flag set, and nothing waits to be sent on it. -/
structure Idle (s : State) (n : Feed) : Prop where
  other : (s.otx.get n).otherHalf.state = .empty
  fill : (s.otx.get n).fillFlag = true
  source : (s.otx.get n).source = .free
  timing : (s.settings n).timing = .free
  results : (s.otx.get n).results = []
  carry : (s.otx.get n).carry = []
  latches : ∀ sc, s.latches sc = ⟨none, none⟩
  table : s.ntu.table = []
  period : s.ntu.periodic.period = 0

/-- The state after the frame start of an idle output. -/
def State.afterIdle (s : State) (n : Feed) : State :=
  (s.setOtx n { s.otx.get n with frameTimer := .running (s.period n), link := some ⟨.fill, []⟩ }).count n .framesFill 1

theorem Idle.frameStart {s : State} {n : Feed} (h : Idle s n) : s.frameStart n = s.afterIdle n :=
  frameStart_idle s n (by rw [h.other]; decide) h.fill h.source h.timing h.results h.carry h.latches h.table h.period

/-- The frame start of one idle output leaves another idle. -/
theorem Idle.after {s : State} {n m : Feed} (h : Idle s m) (hm : m ≠ n) : Idle (s.afterIdle n) m := by
  have e : (s.afterIdle n).otx.get m = s.otx.get m := Quad_get_set_other _ _ _ _ hm
  refine ⟨by rw [e]; exact h.other, by rw [e]; exact h.fill, by rw [e]; exact h.source, h.timing, by rw [e]; exact h.results,
    by rw [e]; exact h.carry, ?_, h.table, h.period⟩
  intro sc
  rw [← h.latches sc]
  cases sc <;> rfl

/-- Four idle outputs: the frame starts that release of RESET gives (R158). -/
theorem allFrameStarts_idle (s : State) (h : ∀ n, Idle s n) :
    s.allFrameStarts = (((s.afterIdle 0).afterIdle 1).afterIdle 2).afterIdle 3 := by
  simp only [State.allFrameStarts, feeds, List.foldl_cons, List.foldl_nil]
  rw [(h 0).frameStart]
  rw [((h 1).after (n := 0) (by decide)).frameStart]
  rw [(((h 2).after (n := 0) (by decide)).after (n := 1) (by decide)).frameStart]
  rw [((((h 3).after (n := 0) (by decide)).after (n := 1) (by decide)).after (n := 2) (by decide)).frameStart]

/-- Every output is idle at release of RESET. -/
theorem released_idle (s : State) (d : Straps) (n : Feed) : Idle (s.released d) n := by
  refine ⟨?_, ?_, ?_, ?_, ?_, ?_, ?_, rfl, rfl⟩
  · fin_cases n <;> rfl
  · fin_cases n <;> rfl
  · fin_cases n <;> rfl
  · fin_cases n <;> rfl
  · fin_cases n <;> rfl
  · fin_cases n <;> rfl
  · intro sc
    cases sc with
    | device => rfl
    | feed m => fin_cases m <;> rfl

/-- Release of RESET (R17, R158): the state right after reset, with the straps' number, over the same external memory. -/
theorem powersOn_spec (s : State) (d : Straps) :
    s.powersOn d =
      { State.reset with
        fst := { State.reset.fst with mem := s.fst.mem }
        cue := { State.reset.cue with deviceNumber := d.number }
        choices := s.choices
        pending := s.pending } := by
  rw [State.powersOn, allFrameStarts_idle _ (released_idle s d)]
  rfl

end Sys2Proof.Machine
end

