-- ==== Sys2Proof/Laws/MovesEvents.lean ====
section
/-! SUPPORT. Every event, and so every command and every step, is a chain of Moves. -/

namespace Sys2Proof.Machine

namespace Moves

variable {a : Touch}

/-! ## The output transmitters -/

/-- The two halves change over: the other half becomes SENDING, the SENDING half EMPTY. -/
theorem swap_oneSending (t : Transmitter) (c : Nat) (b : Bool) (h : t.oneSending = true) :
    ({ t.swap with repeatCount := c, fillFlag := b } : Transmitter).oneSending = true := by
  revert h
  unfold Transmitter.swap Transmitter.oneSending
  split <;> intro _ <;> rfl

theorem swap_results (t : Transmitter) : t.swap.results = t.results := by unfold Transmitter.swap; split <;> rfl

theorem swap_carry (t : Transmitter) : t.swap.carry = t.carry := by unfold Transmitter.swap; split <;> rfl

theorem swap_framesOk (t : Transmitter) (c : Nat) (b : Bool) (h : t.framesOk) :
    ({ t.swap with repeatCount := c, fillFlag := b } : Transmitter).framesOk := by
  unfold Transmitter.swap
  split <;> exact h

theorem fixFrame (s : State) (n : Feed) : Moves a s (s.fixFrame n).2 := by
  unfold State.fixFrame
  dsimp only
  split
  · exact Moves.otx s n _ (swap_oneSending _ 0 false) (Or.inr (by simp [swap_results])) (Or.inr (by simp [swap_carry]))
      (swap_framesOk _ 0 false) (fun _ _ => ⟨Nat.zero_le _, fun _ => Nat.zero_lt_succ _⟩)
  · split
    · exact count s _ _ _
    · next hf =>
      rw [Bool.not_eq_true] at hf
      split
      · refine Moves.trans ?_ (count _ _ _ _)
        exact otxKeep s n _ rfl rfl rfl rfl rfl (fun hl h => ⟨by dsimp only; omega, fun _ => by dsimp only; omega⟩)
      · refine Moves.trans (Moves.trans ?_ (count _ _ _ _)) (Moves.raise _ _ _ _)
        exact otxKeep s n _ rfl rfl rfl rfl rfl
          (fun _ h => ⟨Nat.succ_le_of_lt (h.2 hf), fun e => Bool.noConfusion e⟩)

theorem startFrameTimer (s : State) (n : Feed) : Moves a s (s.startFrameTimer n) := otxKeep s n _ rfl rfl rfl rfl rfl (fun _ h => h)

theorem stopFrameTimer (s : State) (n : Feed) : Moves a s (s.stopFrameTimer n) := otxKeep s n _ rfl rfl rfl rfl rfl (fun _ h => h)

theorem adoptSource (s : State) (n : Feed) : Moves a s (s.adoptSource n) := by
  unfold State.adoptSource
  dsimp only
  split
  · exact Moves.refl s
  · split <;> exact otxKeep s n _ rfl rfl rfl rfl rfl (fun _ h => h)

theorem restartIfFree (s : State) (n : Feed) : Moves a s (s.restartIfFree n) := by
  unfold State.restartIfFree
  split
  · exact startFrameTimer s n
  · exact Moves.refl s

theorem drawStatus (s : State) (n : Feed) : Moves a s (s.drawStatus n).2 := by
  unfold State.drawStatus
  split
  · exact Moves.refl s
  · split
    · exact Moves.refl s
    · exact setLatches s _ _

theorem drawCounters (s : State) (n : Feed) : Moves a s (s.drawCounters n).2 := by
  unfold State.drawCounters
  split
  · exact Moves.refl s
  · split
    · exact Moves.refl s
    · exact setLatches s _ _

theorem drawPeriodic (s : State) (n : Feed) : Moves a s (s.drawPeriodic n).2 := by
  unfold State.drawPeriodic
  dsimp only
  split
  · exact Moves.refl s
  · split
    · exact Moves.refl s
    · split <;> exact setPeriodic s _

theorem drawResults (s : State) (n : Feed) : Moves a s (s.drawResults n).2 :=
  Moves.otx s n _ (fun h => h) (Or.inr (by simp)) (Or.inr (le_refl _)) (fun h => h) (fun _ h => h)

theorem drawNotices (s : State) (n : Feed) : Moves a s (s.drawNotices n).2 := Moves.notices s _ List.filter_sublist (Or.inl rfl) id

theorem drawCarry (s : State) (n : Feed) (room : Nat) : Moves a s (s.drawCarry n room).2 :=
  Moves.otx s n _ (fun h => h) (Or.inr (le_refl _)) (Or.inr (by simp)) (fun h => h) (fun _ h => h)

theorem placeBlanking (s : State) (n : Feed) : Moves a s (s.placeBlanking n).2 :=
  (((((drawStatus s n).trans (drawCounters _ n)).trans (drawPeriodic _ n)).trans (drawResults _ n)).trans
    (drawNotices _ n)).trans (drawCarry _ n _)

/-- The frame that a frame start sends is the fill frame or stands in one of the halves. -/
theorem frameStart_legal (s : State) (n : Feed) :
    let t := (((s.fixFrame n).2.restartIfFree n).adoptSource n |>.placeBlanking n).2.otx.get n
    t.framesOk → frameLegal (s.fixFrame n).1.rows := by
  intro t ht
  obtain ⟨f, w, r, hm⟩ := timed_spec s n
  obtain ⟨re, ca, hp⟩ := (placeBlanking_draws (s.timed n) n).mine
  have e : t.half0 = ((s.fixFrame n).2.otx.get n).half0 ∧ t.half1 = ((s.fixFrame n).2.otx.get n).half1 := by
    show (((s.timed n).placeBlanking n).2.otx.get n).half0 = _ ∧ (((s.timed n).placeBlanking n).2.otx.get n).half1 = _
    rw [hp, hm]
    simp
  have h0 := ht.1
  have h1 := ht.2.1
  rw [e.1] at h0
  rw [e.2] at h1
  have hpic : ∀ h : Half, (∀ f, h.frame = some f → frameLegal f) → frameLegal h.picture.rows := by
    intro h hf
    unfold Half.picture
    cases he : h.frame with
    | none => exact fillFrame_legal
    | some f => exact hf f he
  clear_value t
  clear e hp hm ht
  revert h0 h1
  have hother : (∀ f, (s.otx.get n).half0.frame = some f → frameLegal f) →
      (∀ f, (s.otx.get n).half1.frame = some f → frameLegal f) →
      frameLegal (s.otx.get n).otherHalf.picture.rows ∧ frameLegal (s.otx.get n).sendingHalf.picture.rows := by
    intro g0 g1
    unfold Transmitter.otherHalf Transmitter.sendingHalf
    split
    · exact ⟨hpic _ g1, hpic _ g0⟩
    · exact ⟨hpic _ g0, hpic _ g1⟩
  by_cases h1 : (s.otx.get n).otherHalf.state = .ready
  · rw [fixFrame_ready s n h1]
    intro g0 g1
    refine (hother ?_ ?_).1
    · simpa [Transmitter.swap, apply_ite] using g0
    · simpa [Transmitter.swap, apply_ite] using g1
  · by_cases h2 : (s.otx.get n).fillFlag = true
    · rw [fixFrame_filling s n h1 h2]
      intro _ _
      exact fillFrame_legal
    · by_cases h3 : (s.otx.get n).repeatCount + 1 < (s.settings n).holdLimit
      · rw [fixFrame_repeats s n h1 (by simpa using h2) h3]
        intro g0 g1
        exact (hother (by simpa [State.count] using g0) (by simpa [State.count] using g1)).2
      · rw [fixFrame_falls s n h1 (by simpa using h2) (by omega)]
        intro _ _
        exact fillFrame_legal

theorem frameStart (s : State) (n : Feed) : Moves a s (s.frameStart n) :=
  ((((fixFrame s n).trans (restartIfFree _ n)).trans (adoptSource _ n)).trans (placeBlanking _ n)).trans
    (Moves.otx _ n _ (fun h => h) (Or.inr (le_refl _)) (Or.inr (le_refl _)) (fun h =>
      ⟨h.1, h.2.1, by
        intro v hv
        cases hv
        exact frameStart_legal s n h⟩) (fun _ h => h))

theorem frameTimerExpires (s : State) (n : Feed) : Moves a s (s.frameTimerExpires n) := by
  unfold State.frameTimerExpires
  split
  · exact Moves.refl s
  · exact frameStart s n

theorem pulse (s : State) (n : Feed) : Moves a s (s.pulse n) := by
  unfold State.pulse
  dsimp only
  split
  · refine Moves.trans ?_ (frameStart _ n)
    exact otxKeep s n _ rfl rfl rfl rfl rfl (fun _ h => h)
  · exact Moves.refl s

theorem watchExpires (s : State) (n : Feed) : Moves a s (s.watchExpires n) := by
  unfold State.watchExpires
  dsimp only
  split
  · exact Moves.refl s
  · refine Moves.trans (Moves.trans ?_ (Moves.raise _ _ _ _)) (frameStart _ n)
    exact otxKeep s n _ rfl rfl rfl rfl rfl (fun _ h => h)

theorem outputFieldStart (s : State) (n : Feed) : Moves a s (s.outputFieldStart n) := by
  unfold State.outputFieldStart
  dsimp only
  split
  · split
    · exact (stopFrameTimer s n).trans (frameStart _ n)
    · split
      · exact startFrameTimer s n
      · exact Moves.refl s
  · exact Moves.refl s

theorem outputExpiry (s : State) (n : Feed) : Moves a s (s.outputExpiry n) := by
  unfold State.outputExpiry
  split
  · exact frameStart s n
  · exact Moves.refl s

theorem outputFeedRestart (s : State) (n : Feed) (b : Bool) : Moves a s (s.outputFeedRestart n b) := by
  unfold State.outputFeedRestart
  split
  · exact startFrameTimer s n
  · exact Moves.refl s

theorem appendResult (s : State) (n : Feed) (r : CueResult) : Moves a s (s.appendResult n r) := by
  unfold State.appendResult
  dsimp only
  split
  · exact Moves.otx s n _ (fun h => h) (Or.inl (by simp; omega)) (Or.inr (le_refl _)) (fun h => h) (fun _ h => h)
  · exact (Moves.raise s _ _ _).trans (countDev _ _)

theorem appendCarry (s : State) (n : Feed) (p : Packet) : Moves a s (s.appendCarry n p) := by
  unfold State.appendCarry
  dsimp only
  split
  · exact Moves.otx s n _ (fun h => h) (Or.inr (le_refl _)) (Or.inl (by simp; omega)) (fun h => h) (fun _ h => h)
  · exact (Moves.raise s _ _ _).trans (count _ _ _ _)

/-! ## Settings -/

theorem takeMask (s : State) (n : Feed) (new : Quad Bool) (q : Option Seq) (hn : a.allows n = true) : Moves a s (s.takeMask n new q) := by
  unfold State.takeMask
  split
  · exact Moves.refl s
  · split
    · exact applyMask s n new _ hn
    · split
      · exact (nextChoice s).trans (applyMask _ n new _ hn)
      · exact applyMask s n new _ hn

theorem takeMaskAndForce (s : State) (n : Feed) (m : Quad Bool) (f : Force) (q : Option Seq) (hn : a.allows n = true) :
    Moves a s (s.takeMaskAndForce n m f q) := by
  unfold State.takeMaskAndForce
  split
  · split
    · exact ((nextChoice s).trans (takeMask _ n m q hn)).trans (applyForce _ n f hn)
    · exact ((nextChoice s).trans (applyForce _ n f hn)).trans (takeMask _ n m q hn)
  · exact (takeMask s n m q hn).trans (applyForce _ n f hn)

theorem takeTrackerItems (s : State) (n : Feed) (p : Pending) (q : Option Seq) (hn : a.allows n = true) : Moves a s (s.takeTrackerItems n p q) := by
  unfold State.takeTrackerItems
  split
  · exact takeMaskAndForce s n _ _ q hn
  · exact takeMask s n _ q hn
  · exact applyForce s n _ hn
  · exact Moves.refl s

theorem activate (s : State) (n : Feed) (p : Pending) (q : Option Seq) (hn : a.allows n = true) : Moves a s (s.activate n p q) :=
  (Moves.setActive s n _ hn).trans (takeTrackerItems _ n p q hn)

theorem clearFeed (s : State) (n : Feed)
    (ht : a.tracks = true := by first | rfl | assumption | exact Touch.tracks_of_allows (by assumption)) :
    Moves a s (s.clearFeed n) :=
  ((emptyHistory s n).trans (resetTracker _ n)).trans (withdrawJobs _ n)

theorem enterOff (s : State) (n : Feed) (hn : a.allows n = true) : Moves a s (s.enterOff n) :=
  ((Moves.rx s n _ hn).trans (Moves.ing _ n _ hn)).trans (clearFeed _ n)

theorem applyAtOnce (s : State) (n : Feed) (p : Pending) (hn : a.allows n = true) : Moves a s (s.applyAtOnce n p) := by
  have h : Moves a s (if p.changesStructure (s.settings n) then (s.activate n p none).clearFeed n
      else s.activate n p none) := by
    split
    · exact (activate s n p none hn).trans (clearFeed _ n)
    · exact activate s n p none hn
  unfold State.applyAtOnce
  dsimp only
  refine h.trans ?_
  generalize (if p.changesStructure (s.settings n) then (s.activate n p none).clearFeed n
      else s.activate n p none) = s2
  split
  · exact Moves.refl s2
  · split
    · exact Moves.rx s2 n _ hn
    · exact Moves.refl s2
  · split
    · exact Moves.refl s2
    · exact enterOff s2 n hn

theorem stageOrApply (s : State) (n : Feed) (p : Pending) (hn : a.allows n = true) : Moves a s (s.stageOrApply n p) := by
  unfold State.stageOrApply
  split
  · exact Moves.setStaged s n _ hn
  · exact applyAtOnce s n p hn

/-! ## The loader -/

theorem discardLoad (s : State) (r : Reason) : Moves a s (s.discardLoad r) := (setLoad s none).trans (Moves.raise _ _ _ _)

theorem openLoad (s : State) (t : TableId) (c : Nat) : Moves a s (s.openLoad t c).2 := by
  unfold State.openLoad
  split
  · exact Moves.refl s
  · split
    · exact Moves.refl s
    · dsimp only
      split
      · exact (discardLoad s _).trans (setLoad _ _)
      · exact setLoad s _

theorem closeLoad (s : State) (t : TableId) : Moves a s (s.closeLoad t).2 := by
  unfold State.closeLoad
  split
  · exact (setLoad s none).trans (setCopy _ t _)
  · exact discardLoad s _

theorem takePart (s : State) (i : Nat) (last : Bool) (ws : List Word) : Moves a s (s.takePart i last ws).2 := by
  unfold State.takePart
  split
  · exact Moves.refl s
  · split
    · dsimp only
      split
      · exact ((setCopy s _ _).trans (setLoad _ _)).trans (closeLoad _ _)
      · exact (setCopy s _ _).trans (setLoad _ _)
    · exact discardLoad s _

theorem abandonLoad (s : State) : Moves a s s.abandonLoad.2 := by
  unfold State.abandonLoad
  split
  · exact Moves.refl s
  · exact setLoad s none

theorem loaderEvent (s : State) : Moves a s s.loaderEvent := by
  unfold State.loaderEvent
  split
  · exact Moves.refl s
  · split
    · exact discardLoad s _
    · exact setLoad s _

theorem loadStalls (s : State) : Moves a s s.loadStalls := by
  unfold State.loadStalls
  split
  · exact Moves.refl s
  · split
    · exact discardLoad s _
    · exact Moves.refl s

/-! ## The receivers -/

theorem closeField (s : State) (n : Feed) (v : Arriving)
    (ht : a.tracks = true := by first | rfl | assumption | exact Touch.tracks_of_allows (by assumption)) :
    Moves a s (s.closeField n v) := by
  unfold State.closeField
  dsimp only
  split
  · exact (closeRecord s n _).trans (gapClosureWork _ n _)
  · exact ((closeRecord s n _).trans (count _ _ _ _)).trans (closureWork _ n _ _)

theorem closeShort (s : State) (n : Feed) (v : Arriving)
    (ht : a.tracks = true := by first | rfl | assumption | exact Touch.tracks_of_allows (by assumption)) :
    Moves a s (s.closeShort n v) :=
  ((modifyRecord s n _ _).trans (Moves.raise _ _ _ _)).trans (closeField _ n v)

theorem closeArriving (s : State) (n : Feed)
    (ht : a.tracks = true := by first | rfl | assumption | exact Touch.tracks_of_allows (by assumption)) :
    Moves a s (s.closeArriving n) := by
  unfold State.closeArriving
  split
  · exact Moves.refl s
  · split
    · exact closeShort s n _
    · split
      · exact closeField s n _
      · exact Moves.refl s

theorem admitField (s : State) (n : Feed) (p : Parity) (hn : a.allows n = true) : Moves a s (s.admitField n p) :=
  (Moves.rx s n _ hn).trans (Moves.ing _ n _ hn)

theorem openField (s : State) (n : Feed) (p : Parity) (rep : Bool) (hn : a.allows n = true) : Moves a s (s.openField n p rep) := by
  unfold State.openField
  dsimp only
  split
  · exact ((admitField s n p hn).trans (allocate _ n _ p rep)).trans (Moves.ing _ n _ hn)
  · exact ((admitField s n p hn).trans (allocate _ n _ p rep)).trans (Moves.rx _ n _ hn)

theorem checkParity (s : State) (n : Feed) (p : Parity) : Moves a s (s.checkParity n p) := by
  unfold State.checkParity
  split
  · exact Moves.refl s
  · exact (Moves.raise s _ _ _).trans (count _ _ _ _)

theorem startWithItems (s : State) (n : Feed) (p : Parity) (items : Pending) (hn : a.allows n = true) : Moves a s (s.startWithItems n p items) := by
  unfold State.startWithItems
  dsimp only
  have h := fun o => (Moves.setStaged s n emptyPending hn).trans (activate (s.setStaged n emptyPending) n items o hn)
  split
  · exact (h _).trans (enterOff _ n hn)
  · split
    · exact (h _).trans ((clearFeed _ n).trans (openField _ n p false hn))
    · exact (h _).trans ((checkParity _ n p).trans (openField _ n p _ hn))

theorem startRunning (s : State) (n : Feed) (p : Parity) (hn : a.allows n = true) : Moves a s (s.startRunning n p) := by
  unfold State.startRunning
  dsimp only
  refine (closeArriving s n).trans ?_
  split
  · exact startWithItems _ n p _ hn
  · exact (checkParity _ n p).trans (openField _ n p _ hn)

theorem receiverFieldStart (s : State) (n : Feed) (p : Parity) (hn : a.allows n = true) : Moves a s (s.receiverFieldStart n p) := by
  unfold State.receiverFieldStart
  split
  · exact Moves.rx s n _ hn
  · exact openField s n p false hn
  · exact (Moves.raise s _ _ _).trans (openField _ n p false hn)
  · exact startRunning s n p hn

theorem handToLoader (s : State) (n : Feed) : Moves a s (s.handToLoader n) := by
  unfold State.handToLoader
  split
  · exact loaderEvent s
  · exact Moves.refl s

theorem fieldStarts (s : State) (n : Feed) (p : Parity) (hn : a.allows n = true) : Moves a s (s.fieldStarts n p) :=
  ((receiverFieldStart s n p hn).trans (outputFieldStart _ n)).trans (handToLoader _ n)

theorem storeLine (s : State) (n : Feed) (v : Arriving) (m : Nat) (l : Line) (h : m < 288) (hw : a.writes = true) :
    Moves a s (s.storeLine n v m l) := by
  unfold State.storeLine
  split
  · exact Moves.refl s
  · split
    · exact foldl _ (fun t k => Moves.write t k m _ h hw) _ s
    · exact Moves.refl s

theorem surplusLine (s : State) (n : Feed) (v : Arriving) (hn : a.allows n = true) : Moves a s (s.surplusLine n v) := by
  unfold State.surplusLine
  dsimp only
  split
  · exact Moves.refl s
  · split
    · exact Moves.rx s n _ hn
    · exact ((Moves.rx s n _ hn).trans (modifyRecord _ n _ _)).trans (Moves.raise _ _ _ _)

theorem fieldLines_le (s : State) (n : Feed) : s.fieldLines n ≤ 288 := by
  unfold State.fieldLines Structure.lines
  split <;> omega

theorem nextLine (s : State) (n : Feed) (v : Arriving) (l : Line) (h : v.linesReceived < s.fieldLines n) (hn : a.allows n = true) (hw : a.writes = true) :
    Moves a s (s.nextLine n v l) := by
  have hm : v.linesReceived < 288 := lt_of_lt_of_le h (fieldLines_le s n)
  unfold State.nextLine
  dsimp only
  split
  · exact Moves.rx s n _ hn
  · split
    · exact ((Moves.rx s n _ hn).trans (storeLine _ n v _ l hm hw)).trans (closeField _ n _)
    · exact (Moves.rx s n _ hn).trans (storeLine _ n v _ l hm hw)

theorem activeLineArrives (s : State) (n : Feed) (l : Line) (hn : a.allows n = true) (hw : a.writes = true) : Moves a s (s.activeLineArrives n l) := by
  unfold State.activeLineArrives
  split
  · exact Moves.refl s
  · split
    · next h => exact nextLine s n _ l h hn hw
    · exact surplusLine s n _ hn

theorem missField (s : State) (n : Feed) (hn : a.allows n = true) : Moves a s (s.missField n) := by
  unfold State.missField
  dsimp only
  refine Moves.trans (Moves.trans (Moves.trans (Moves.trans ?_ (Moves.rx _ n _ hn)) (gapClosureWork _ n _)) (Moves.rx _ n _ hn))
    (Moves.ing _ n _ hn)
  exact (((appendMissing s n _ _).trans (Moves.rx _ n _ hn)).trans (Moves.raise _ _ _ _)).trans (count _ _ _ _)

theorem goDown (s : State) (n : Feed) (q : Seq) (hn : a.allows n = true) : Moves a s (s.goDown n q) := by
  unfold State.goDown
  dsimp only
  have h := ((Moves.rx s n { s.lrx.get n with timer := .stopped, state := .down } hn).trans
    (Moves.raise _ .feedDown (.feed n) (.sequence q))).trans (clearFeed _ n)
  split
  · exact h.trans ((Moves.setStaged _ n _ hn).trans (applyAtOnce _ n _ hn))
  · exact h

theorem receiverExpiry (s : State) (n : Feed) (hn : a.allows n = true) : Moves a s (s.receiverExpiry n) := by
  unfold State.receiverExpiry
  dsimp only
  refine ((closeArriving s n).trans (missField _ n hn)).trans ?_
  split
  · exact goDown _ n _ hn
  · exact Moves.refl _

theorem missingFieldExpires (s : State) (n : Feed) (hn : a.allows n = true) : Moves a s (s.missingFieldExpires n) := by
  unfold State.missingFieldExpires
  split
  · exact ((receiverExpiry s n hn).trans (outputExpiry _ n)).trans (handToLoader _ n)
  · exact Moves.refl s

theorem takeMapPacket (s : State) (n : Feed) (p : Packet) (hn : a.allows n = true) : Moves a s (s.takeMapPacket n p) := by
  unfold State.takeMapPacket
  split
  · exact Moves.refl s
  · split
    · exact foldl _ (takeMapEntry n hn) _ s
    · exact Moves.refl s

/-! ## Restarts -/

theorem restartReceiver (s : State) (n : Feed) (hn : a.allows n = true) : Moves a s (s.restartReceiver n) := (Moves.rx s n _ hn).trans (Moves.ing _ n _ hn)

/-- A feed's counters at 0 are in range (R191). -/
theorem clearFeedCounters_ok (s : State) (n : Feed) (h : s.ntu.countersOk) :
    ({ s.ntu with feedCounters := s.ntu.feedCounters.set n {} } : NoticeUnit).countersOk := by
  refine ⟨fun m => ?_, h.2⟩
  show ∀ x ∈ ((s.ntu.feedCounters.set n _).get m).toList, _
  rw [Quad_get_set]
  split
  · decide
  · exact h.1 m

theorem clearNoticeFeed (s : State) (n : Feed) : Moves a s (s.clearNoticeFeed n) :=
  Moves.notices s _ (List.Sublist.refl _) (Or.inl rfl) (clearFeedCounters_ok s n)

theorem feedRestarts (s : State) (n : Feed) (hn : a.allows n = true) : Moves a s (s.feedRestarts n) :=
  ((((Moves.setStaged s n _ hn).trans (restartReceiver _ n hn)).trans (clearFeed _ n)).trans (outputFeedRestart _ n _)).trans
    (clearNoticeFeed _ n)

theorem powersOn (s : State) (d : Straps) : Moves .all s (s.powersOn d) :=
  (Moves.release s d).trans (foldl _ frameStart feeds _)

/-! ## Cues -/

theorem discardCue (s : State) (n : Feed) (d : Detail) : Moves a s (s.discardCue n d) :=
  (Moves.raise s _ _ _).trans (countDev _ _)

theorem answer (s : State) (n : Feed) (code : Word) (c : CueWords) (v : Answer) : Moves a s (s.answer n code c v) :=
  (appendResult s n _).trans (countDev _ _)

theorem takeCue (s : State) (n : Feed) (code : Word) (c : CueWords) (lengthOk : Nat → Bool) (rule : ScopeRule)
    (run : Scope → State → Answer × State) (h : ∀ sc t, Moves .all t (run sc t).2) :
    Moves .all s (s.takeCue n code c lengthOk rule run) := by
  unfold State.takeCue
  split
  · exact Moves.refl s
  · split
    · exact discardCue s n _
    · split
      · exact answer s n code c _
      · split
        · exact answer s n code c _
        · exact (h _ s).trans (answer _ n code c _)

theorem takeUnknownCue (s : State) (n : Feed) (code : Word) (c : CueWords) : Moves .all s (s.takeUnknownCue n code c) := by
  unfold State.takeUnknownCue
  split
  · exact Moves.refl s
  · split
    · exact discardCue s n _
    · exact answer s n code c _

theorem carrySettings (items : Feed → State → Option (Pending × List (Nat × Nat))) (sc : Scope) (s : State) :
    Moves .all s (State.carrySettings items sc s).2 := by
  unfold State.carrySettings
  split
  · exact Moves.refl s
  · split
    · exact Moves.refl s
    · exact stageOrApply s _ _ rfl

theorem settingsCue (s : State) (n : Feed) (code : Word) (len : Nat) (c : CueWords)
    (items : Feed → State → Option (Pending × List (Nat × Nat))) : Moves .all s (s.settingsCue n code len c items) :=
  takeCue s n code c _ _ _ (carrySettings items)

theorem cueFeedRestart (s : State) (n : Feed) (c : CueWords) : Moves .all s (s.cueFeedRestart n c) := by
  refine takeCue s n _ c _ _ _ ?_
  intro sc t
  unfold State.carryFeedRestart
  split
  · exact Moves.refl t
  · exact feedRestarts t _ rfl

theorem cueDeviceRestart (s : State) (n : Feed) (c : CueWords) (d : Straps) : Moves .all s (s.cueDeviceRestart n c d) :=
  takeCue s n _ c _ _ _ (fun _ t => Moves.restart t d)

theorem cueTableOpen (s : State) (n : Feed) (c : CueWords) : Moves .all s (s.cueTableOpen n c) := by
  refine takeCue s n _ c _ _ _ ?_
  intro sc t
  unfold State.carryTableOpen
  split
  · exact Moves.refl t
  · exact openLoad t _ _

theorem cueTablePart (s : State) (n : Feed) (c : CueWords) : Moves .all s (s.cueTablePart n c) := by
  refine takeCue s n _ c _ _ _ ?_
  intro sc t
  unfold State.carryTablePart
  split
  · exact Moves.refl t
  · exact takePart t _ _ _

theorem cueTableAbandon (s : State) (n : Feed) (c : CueWords) : Moves .all s (s.cueTableAbandon n c) :=
  takeCue s n _ c _ _ _ (fun _ t => abandonLoad t)

theorem cueNoticeSet (s : State) (n : Feed) (c : CueWords) : Moves .all s (s.cueNoticeSet n c) := by
  refine takeCue s n _ c _ _ _ ?_
  intro sc t
  unfold State.carryNoticeSet
  split
  · exact Moves.refl t
  · exact Moves.notices t _ (List.Sublist.refl _) (Or.inr ⟨rfl, by simp⟩) id

theorem cueReportSet (s : State) (n : Feed) (c : CueWords) : Moves .all s (s.cueReportSet n c) := by
  refine takeCue s n _ c _ _ _ ?_
  intro sc t
  unfold State.carryReportSet
  split
  · exact Moves.refl t
  · exact Moves.notices t _ (List.Sublist.refl _) (Or.inl rfl) id

theorem clearCounters (s : State) (sc : Scope) : Moves .all s (s.clearCounters sc) := by
  cases sc with
  | feed n => exact Moves.notices s _ (List.Sublist.refl _) (Or.inl rfl) (clearFeedCounters_ok s n)
  | device => exact Moves.notices s _ (List.Sublist.refl _) (Or.inl rfl) (fun h =>
      ⟨h.1, by show ∀ x ∈ ({} : DeviceCounters).toList, _; decide⟩)

theorem latchCounters (s : State) (sc : Scope) (clear : Bool) : Moves .all s (s.latchCounters sc clear).2 := by
  unfold State.latchCounters
  split
  · exact Moves.refl s
  · dsimp only
    split
    · exact (setLatches s sc _).trans (clearCounters _ sc)
    · exact setLatches s sc _

theorem cueSnapshot (s : State) (n : Feed) (c : CueWords) : Moves .all s (s.cueSnapshot n c) := by
  refine takeCue s n _ c _ _ _ ?_
  intro sc t
  unfold State.carrySnapshot
  split
  · exact Moves.refl t
  · exact latchCounters t sc _

theorem cueStatusQuery (s : State) (n : Feed) (c : CueWords) : Moves .all s (s.cueStatusQuery n c) := by
  refine takeCue s n _ c _ _ _ ?_
  intro sc t
  unfold State.latchStatus
  split
  · exact Moves.refl t
  · exact setLatches t sc _

theorem cueByCode (s : State) (n : Feed) (code : Word) (c : CueWords) (d : Straps) : Moves .all s (s.cueByCode n code c d) := by
  unfold State.cueByCode
  split
  · exact settingsCue s n _ _ c _
  · exact settingsCue s n _ _ c _
  · exact settingsCue s n _ _ c _
  · exact settingsCue s n _ _ c _
  · exact settingsCue s n _ _ c _
  · exact settingsCue s n _ _ c _
  · exact settingsCue s n _ _ c _
  · exact cueFeedRestart s n c
  · exact cueTableOpen s n c
  · exact cueTablePart s n c
  · exact cueTableAbandon s n c
  · exact cueNoticeSet s n c
  · exact cueReportSet s n c
  · exact cueSnapshot s n c
  · exact cueStatusQuery s n c
  · exact cueDeviceRestart s n c d
  · exact takeUnknownCue s n code c

theorem routePacket (s : State) (n : Feed) (d : Straps) (p : Packet) : Moves .all s (s.routePacket n d p) := by
  unfold State.routePacket
  dsimp only
  split
  · split
    · exact (appendCarry s n p).trans (cueByCode _ n _ _ d)
    · split
      · exact cueByCode s n _ _ d
      · exact appendCarry s n p
  · split
    · exact takeMapPacket s n p rfl
    · exact appendCarry s n p

theorem takeFound (n : Feed) (d : Straps) (s : State) (f : Found) : Moves .all s (State.takeFound n d s f) := by
  unfold State.takeFound
  split
  · exact routePacket s n d _
  · unfold State.routeCut
    split
    · split
      · exact discardCue s n _
      · exact Moves.refl s
    · exact Moves.refl s

theorem blankingLine (s : State) (n : Feed) (ws : List Word) (d : Straps) : Moves .all s (s.blankingLine n ws d) :=
  foldl _ (takeFound n d) _ s

end Moves

/-! ## Commands and steps -/

/-- A command answers a next state. -/
theorem unlessHeld_moves (s t : State) (h : Moves .all s t) : ∃ u, unlessHeld s t = .next u ∧ Moves .all s u := by
  unfold unlessHeld
  split
  · exact ⟨s, rfl, Moves.refl s⟩
  · exact ⟨t, rfl, h⟩

/-- Every command answers a next state, by a chain of Moves. -/
theorem exec_moves (c : Instr) (s : State) : ∃ t, exec c s = .next t ∧ Moves .all s t := by
  cases c with
  | powerOn d => exact ⟨_, rfl, Moves.powersOn s d⟩
  | resetAsserted => exact ⟨_, rfl, Moves.hold s⟩
  | fieldStart n p us => exact unlessHeld_moves s _ ((Moves.upset s us).trans (Moves.fieldStarts _ n p rfl))
  | activeLine n l us => exact unlessHeld_moves s _ ((Moves.upset s us).trans (Moves.activeLineArrives _ n l rfl rfl))
  | blankingPacket n ws d => exact unlessHeld_moves s _ (Moves.blankingLine s n ws d)
  | missingFieldExpiry n us => exact unlessHeld_moves s _ ((Moves.upset s us).trans (Moves.missingFieldExpires _ n rfl))
  | frameTimerExpiry n => exact unlessHeld_moves s _ (Moves.frameTimerExpires s n)
  | refPulse => exact unlessHeld_moves s _ (Moves.foldl _ Moves.pulse feeds s)
  | referenceWatchExpiry n => exact unlessHeld_moves s _ (Moves.watchExpires s n)
  | jobCompletion => exact unlessHeld_moves s _ (Moves.completeJob s)
  | loadStall => exact unlessHeld_moves s _ (Moves.loadStalls s)
  | feedConfig n c => exact unlessHeld_moves s _ (Moves.settingsCue s n _ _ c _)
  | rasterSet n c => exact unlessHeld_moves s _ (Moves.settingsCue s n _ _ c _)
  | trimSet n c => exact unlessHeld_moves s _ (Moves.settingsCue s n _ _ c _)
  | motionSet n c => exact unlessHeld_moves s _ (Moves.settingsCue s n _ _ c _)
  | cadenceSet n c => exact unlessHeld_moves s _ (Moves.settingsCue s n _ _ c _)
  | cadenceForce n c => exact unlessHeld_moves s _ (Moves.settingsCue s n _ _ c _)
  | watchSet n c => exact unlessHeld_moves s _ (Moves.settingsCue s n _ _ c _)
  | feedRestart n c => exact unlessHeld_moves s _ (Moves.cueFeedRestart s n c)
  | tableOpen n c => exact unlessHeld_moves s _ (Moves.cueTableOpen s n c)
  | tablePart n c => exact unlessHeld_moves s _ (Moves.cueTablePart s n c)
  | tableAbandon n c => exact unlessHeld_moves s _ (Moves.cueTableAbandon s n c)
  | noticeSet n c => exact unlessHeld_moves s _ (Moves.cueNoticeSet s n c)
  | reportSet n c => exact unlessHeld_moves s _ (Moves.cueReportSet s n c)
  | snapshot n c => exact unlessHeld_moves s _ (Moves.cueSnapshot s n c)
  | statusQuery n c => exact unlessHeld_moves s _ (Moves.cueStatusQuery s n c)
  | deviceRestart n c d => exact unlessHeld_moves s _ (Moves.cueDeviceRestart s n c d)
  | unknownCueKind n code c =>
    refine unlessHeld_moves s _ ?_
    split
    · exact Moves.refl s
    · exact Moves.takeUnknownCue s n code c
  | buildRead r m us => exact unlessHeld_moves s _ ((Moves.upset s us).trans (Moves.buildLine _ r m.val))

/-! ## What a chain of Moves keeps -/

namespace Moves

variable {a : Touch} {s t : State}

/-- The waiting commands stay as they are. -/
theorem keeps_pending (h : Moves a s t) : t.pending = s.pending := by
  induction h with
  | trans _ _ h1 h2 => exact h2.trans h1
  | grow _ _ _ _ ih => exact ih
  | _ => rfl

/-- The receivers of the feeds that the chain may not touch. -/
theorem keeps_lrx (h : Moves a s t) (n : Feed) (hn : a.allows n = false) : t.lrx.get n = s.lrx.get n := by
  induction h with
  | trans _ _ h1 h2 => exact (h2 hn).trans (h1 hn)
  | grow _ _ _ _ ih => exact ih hn
  | rx s m r hm =>
    refine Quad_get_set_other _ _ _ _ ?_
    rintro rfl
    simp [hm] at hn
  | upset | hold | restart | release => cases hn
  | _ => rfl

/-- The conditioner's working items of the feeds that the chain may not touch. -/
theorem keeps_ing (h : Moves a s t) (n : Feed) (hn : a.allows n = false) : t.ing.get n = s.ing.get n := by
  induction h with
  | trans _ _ h1 h2 => exact (h2 hn).trans (h1 hn)
  | grow _ _ _ _ ih => exact ih hn
  | ing s m r hm =>
    refine Quad_get_set_other _ _ _ _ ?_
    rintro rfl
    simp [hm] at hn
  | upset | hold | restart | release => cases hn
  | _ => rfl

/-- The pending settings of the feeds that the chain may not touch. -/
theorem keeps_staged (h : Moves a s t) (n : Feed) (hn : a.allows n = false) : t.cue.staged.get n = s.cue.staged.get n := by
  induction h with
  | trans _ _ h1 h2 => exact (h2 hn).trans (h1 hn)
  | grow _ _ _ _ ih => exact ih hn
  | setStaged s m r hm =>
    refine Quad_get_set_other _ _ _ _ ?_
    rintro rfl
    simp [hm] at hn
  | upset | hold | restart | release => cases hn
  | _ => rfl

/-- The active settings of the feeds that the chain may not touch, but for a force that an adopted table changes. -/
theorem keeps_settings (h : Moves a s t) (n : Feed) (hn : a.allows n = false) :
    ∃ f, (s.settings n).force.adopts f ∧ t.settings n = { s.settings n with force := f } := by
  induction h with
  | trans _ _ h1 h2 =>
    obtain ⟨f, kf, hf⟩ := h1 hn
    obtain ⟨g, kg, hg⟩ := h2 hn
    rw [hf] at kg
    exact ⟨g, kf.trans kg, by rw [hg, hf]⟩
  | grow _ _ _ _ ih => exact ih hn
  | setActive s m r hm =>
    refine ⟨_, Or.inl rfl, Quad_get_set_other _ _ _ _ ?_⟩
    rintro rfl
    simp [hm] at hn
  | force s m f hf _ =>
    by_cases h : n = m
    · subst h
      exact ⟨f, hf, by simp [State.setForce, State.settings]⟩
    · exact ⟨_, Or.inl rfl, Quad_get_set_other _ _ _ _ h⟩
  | upset | hold | restart | release => cases hn
  | _ => exact ⟨_, Or.inl rfl, rfl⟩

/-- The external memory, where the chain may not write it. -/
theorem keeps_mem (h : Moves a s t) (hw : a.writes = false) : t.fst.mem = s.fst.mem := by
  induction h with
  | trans _ _ h1 h2 => exact (h2 hw).trans (h1 hw)
  | grow _ _ _ _ ih => exact ih hw
  | store s f hm hs => exact hm
  | write s k m l h hw' => simp [hw'] at hw
  | upset | hold | restart | release => cases hw
  | _ => rfl

/-- The device number, the notice levels and masks, and RESET, but for what restarts the part or takes a cue. -/
theorem keeps_device (h : Moves a s t) (ha : a ≠ .all) :
    t.cue.deviceNumber = s.cue.deviceNumber ∧ t.ntu.settings = s.ntu.settings ∧ t.resetHeld = s.resetHeld := by
  induction h with
  | trans _ _ h1 h2 => exact ⟨(h2 ha).1.trans (h1 ha).1, (h2 ha).2.1.trans (h1 ha).2.1, (h2 ha).2.2.trans (h1 ha).2.2⟩
  | grow _ _ _ _ ih => exact ih ha
  | notices s u h hs _ => exact ⟨rfl, hs.resolve_right (fun h => ha h.1), rfl⟩
  | upset | hold | restart | release => exact absurd rfl ha
  | _ => exact ⟨rfl, rfl, rfl⟩

/-- Counters at power-on are in range (R191). -/
theorem powerOn_countersOk : State.powerOnValues.ntu.countersOk := by
  refine ⟨fun n => ?_, by decide⟩
  show ∀ x ∈ ((Quad.all ({} : FeedCounters)).get n).toList, _
  rw [Quad_get_all]
  decide

/-- The counters stay within 32 bits (R191). -/
theorem keeps_counters (h : Moves a s t) (hs : s.ntu.countersOk) : t.ntu.countersOk := by
  induction h with
  | trans _ _ h1 h2 => exact h2 (h1 hs)
  | grow _ _ _ _ ih => exact ih hs
  | notices s u _ _ hc => exact hc hs
  | restart s d => exact powerOn_countersOk
  | release s d => exact powerOn_countersOk
  | _ => exact hs

/-- At most two jobs of a feed wait (R87, R88). -/
theorem keeps_waiting (h : Moves a s t) (hs : s.waitingOk) : t.waitingOk := by
  induction h with
  | trans _ _ h1 h2 => exact h2 (h1 hs)
  | grow _ _ _ _ ih => exact ih hs
  | fen s f hf => exact hf hs
  | restart s d => exact fun n => Nat.zero_le _
  | release s d => exact fun n => Nat.zero_le _
  | _ => exact hs

/-- A still chain leaves the cadence tracker, the settings and the receivers as they are, and the repeat counts in range. -/
theorem still_keeps (h : Moves a s t) (ha : a = .still) :
    t.cad = s.cad ∧ t.cue = s.cue ∧ t.lrx = s.lrx ∧
      ∀ n : Feed, (s.settings n).holdLimit ≤ 250 → (s.otx.get n).repeatsOk → (t.otx.get n).repeatsOk := by
  induction h with
  | trans _ _ h1 h2 =>
    obtain ⟨c1, e1, l1, r1⟩ := h1 ha
    obtain ⟨c2, e2, l2, r2⟩ := h2 ha
    refine ⟨c2.trans c1, e2.trans e1, l2.trans l1, fun n hn hr => r2 n ?_ (r1 n hn hr)⟩
    rw [State.settings, e1]
    exact hn
  | grow _ _ _ _ ih => exact ih ha
  | otx s n t _ _ _ _ h5 =>
    refine ⟨rfl, rfl, rfl, fun m hm hr => ?_⟩
    rw [setOtx_otx, Quad_get_set]
    split
    · next e => subst e; exact h5 hm hr
    · exact hr
  | force _ _ _ _ ht => subst ha; cases ht
  | cad _ _ ht => subst ha; cases ht
  | rx _ _ _ ht => subst ha; cases ht
  | setActive _ _ _ ht => subst ha; cases ht
  | setStaged _ _ _ ht => subst ha; cases ht
  | upset | hold | restart | release => cases ha
  | _ => exact ⟨rfl, rfl, rfl, fun _ _ hr => hr⟩

end Moves

end Sys2Proof.Machine
end

