-- ==== Sys2Proof/Laws/Feed.lean ====
section
/-! SUPPORT. What the effects on one feed leave behind: settings becoming active, a feed being cleared, a record being
appended (R14, R15, R25 to R30, R40, R63, R77, R83, R98, R99). -/

namespace Sys2Proof.Machine

/-! ## Settings becoming active -/

/-- What a change of the tracker's settings leaves as it is. -/
structure TrackerOnly (n : Feed) (s t : State) : Prop where
  rest : t = { s with cad := t.cad, cue := t.cue, ntu := t.ntu, choices := t.choices }
  cue : t.cue = { s.cue with active := t.cue.active }
  mine : ∃ m f, t.settings n = { s.settings n with mask := m, force := f }
  others : ∀ k, k ≠ n → t.settings k = s.settings k

namespace TrackerOnly

theorem refl (n : Feed) (s : State) : TrackerOnly n s s := ⟨rfl, rfl, ⟨_, _, rfl⟩, fun _ _ => rfl⟩

theorem trans {n : Feed} {s t u : State} (h : TrackerOnly n s t) (k : TrackerOnly n t u) : TrackerOnly n s u := by
  refine ⟨?_, ?_, ?_, fun m hm => (k.others m hm).trans (h.others m hm)⟩
  · rw [k.rest, h.rest]
  · rw [k.cue, h.cue]
  · obtain ⟨m, f, hm⟩ := h.mine
    obtain ⟨m', f', km⟩ := k.mine
    exact ⟨m', f', by rw [km, hm]⟩

theorem setActive (n : Feed) (s : State) (m : Quad Bool) (f : Force) :
    TrackerOnly n s (s.setActive n { s.settings n with mask := m, force := f }) :=
  ⟨rfl, rfl, ⟨m, f, by simp [State.settings]⟩, fun k hk => by simp [State.settings, Quad_get_set_other _ _ _ _ hk]⟩

theorem setTracker (n : Feed) (s : State) (k : Tracker) : TrackerOnly n s (s.setTracker n k) :=
  ⟨rfl, rfl, ⟨_, _, rfl⟩, fun _ _ => rfl⟩

theorem breakLock (n : Feed) (s : State) (d : Detail) : TrackerOnly n s (s.breakLock n d) :=
  ⟨rfl, rfl, ⟨_, _, rfl⟩, fun _ _ => rfl⟩

theorem setForce (n : Feed) (s : State) (f : Force) : TrackerOnly n s (s.setForce n f) :=
  setActive n s (s.settings n).mask f

theorem applyMask (n : Feed) (s : State) (m : Quad Bool) (d : Detail) : TrackerOnly n s (s.applyMask n m d) := by
  have h : TrackerOnly n s
      ((s.setTracker n ⟨(s.cad.trackers.get n).state, maskedHyps s.cad.table (s.settings n).mask m
        (s.cad.trackers.get n).hyps⟩).setActive n { s.settings n with mask := m }) :=
    (setTracker n s _).trans (setActive n _ m (s.settings n).force)
  unfold State.applyMask
  simp only
  split
  · exact h.trans (breakLock n _ d)
  · exact h

theorem applyForce (n : Feed) (s : State) (f : Force) : TrackerOnly n s (s.applyForce n f) := by
  unfold State.applyForce
  simp only
  split
  · exact refl n s
  · exact (setTracker n s _).trans (setForce n _ _)

theorem nextChoice (n : Feed) (s : State) : TrackerOnly n s s.nextChoice.2 := ⟨rfl, rfl, ⟨_, _, rfl⟩, fun _ _ => rfl⟩

theorem takeMask (n : Feed) (s : State) (m : Quad Bool) (q : Option Seq) : TrackerOnly n s (s.takeMask n m q) := by
  unfold State.takeMask
  split
  · exact refl n s
  · split
    · exact applyMask n s m _
    · split
      · exact (nextChoice n s).trans (applyMask n _ m _)
      · exact applyMask n s m _

theorem takeMaskAndForce (n : Feed) (s : State) (m : Quad Bool) (f : Force) (q : Option Seq) :
    TrackerOnly n s (s.takeMaskAndForce n m f q) := by
  unfold State.takeMaskAndForce
  split
  · split
    · exact (nextChoice n s).trans ((takeMask n _ m q).trans (applyForce n _ f))
    · exact (nextChoice n s).trans ((applyForce n _ f).trans (takeMask n _ m q))
  · exact (takeMask n s m q).trans (applyForce n _ f)

theorem takeTrackerItems (n : Feed) (s : State) (p : Pending) (q : Option Seq) :
    TrackerOnly n s (s.takeTrackerItems n p q) := by
  unfold State.takeTrackerItems
  split
  · exact takeMaskAndForce n s _ _ q
  · exact takeMask n s _ q
  · exact applyForce n s _
  · exact refl n s

end TrackerOnly

/-- Every item but the mask and the force becomes active as it stands (R171); nothing of the feed changes beside its
settings, its tracker and the notice unit. -/
theorem activate_spec (s : State) (n : Feed) (p : Pending) (q : Option Seq) :
    (∃ m f, (s.activate n p q).settings n = { (s.settings n).over p with mask := m, force := f }) ∧
      s.activate n p q =
        { s with
          cad := (s.activate n p q).cad
          cue := { s.cue with active := (s.activate n p q).cue.active }
          ntu := (s.activate n p q).ntu
          choices := (s.activate n p q).choices } := by
  have h := TrackerOnly.takeTrackerItems n (s.setActive n ((s.settings n).over p)) p q
  refine ⟨?_, ?_⟩
  · obtain ⟨m, f, hm⟩ := h.mine
    refine ⟨m, f, ?_⟩
    show ((s.setActive n ((s.settings n).over p)).takeTrackerItems n p q).settings n = _
    rw [hm]
    simp [State.settings]
  · have h1 := h.rest
    have h2 := h.cue
    unfold State.activate
    generalize (s.setActive n ((s.settings n).over p)).takeTrackerItems n p q = t at h1 h2
    rw [h1, h2]
    rfl

/-- A mask that takes effect: the settings of its feed with the new mask, the active table as it is (R63). -/
theorem applyMask_settings (s : State) (n : Feed) (m : Quad Bool) (d : Detail) :
    (s.applyMask n m d).settings n = { s.settings n with mask := m } ∧ (s.applyMask n m d).cad.table = s.cad.table := by
  unfold State.applyMask
  simp only
  split
  · exact ⟨by simp [State.breakLock, State.settings, State.setTracker, State.count, State.raise], rfl⟩
  · exact ⟨by simp [State.settings], rfl⟩

theorem takeMask_settings (s : State) (n : Feed) (m : Quad Bool) (q : Option Seq) :
    (s.takeMask n m q).settings n = { s.settings n with mask := m } ∧ (s.takeMask n m q).cad.table = s.cad.table := by
  unfold State.takeMask
  split
  · next h => exact ⟨by rw [← h], rfl⟩
  · split
    · exact applyMask_settings s n m _
    · split
      · exact applyMask_settings s.nextChoice.2 n m _
      · exact applyMask_settings s n m _

/-- A force that takes effect: the settings of its feed with the force as it takes effect (R77). -/
theorem applyForce_settings (s : State) (n : Feed) (f : Force) :
    (s.applyForce n f).settings n = { s.settings n with force := s.cad.table.effectiveForce f } ∧
      (s.applyForce n f).cad.table = s.cad.table := by
  unfold State.applyForce
  simp only
  split
  · next h => exact ⟨by rw [← h], rfl⟩
  · exact ⟨by simp [State.settings, State.setForce, State.setTracker], rfl⟩

/-- The settings after every item has become active, the mask and the force among them, whichever comes first (R171). -/
theorem activate_settings (s : State) (n : Feed) (p : Pending) (q : Option Seq) :
    (s.activate n p q).settings n =
        { (s.settings n).over p with
          mask := p.mask.getD (s.settings n).mask
          force := match p.force with
            | some f => s.cad.table.effectiveForce f
            | none => (s.settings n).force } ∧
      (s.activate n p q).cad.table = s.cad.table := by
  unfold State.activate
  have e1 : (s.setActive n ((s.settings n).over p)).settings n = (s.settings n).over p := by simp [State.settings]
  have e2 : (s.setActive n ((s.settings n).over p)).cad.table = s.cad.table := rfl
  generalize s.setActive n ((s.settings n).over p) = u at e1 e2
  have n1 : u.nextChoice.2.settings n = u.settings n := rfl
  have n2 : u.nextChoice.2.cad.table = u.cad.table := rfl
  unfold State.takeTrackerItems State.takeMaskAndForce
  split <;> rename_i hm hf <;> simp only [hm, hf]
  · split
    · split
      · rw [(applyForce_settings ..).1, (applyForce_settings ..).2, (takeMask_settings ..).1, (takeMask_settings ..).2, n1, n2,
          e1, e2]
        exact ⟨rfl, rfl⟩
      · rw [(takeMask_settings ..).1, (takeMask_settings ..).2, (applyForce_settings ..).1, (applyForce_settings ..).2, n1, n2,
          e1, e2]
        exact ⟨rfl, rfl⟩
    · rw [(applyForce_settings ..).1, (applyForce_settings ..).2, (takeMask_settings ..).1, (takeMask_settings ..).2, e1, e2]
      exact ⟨rfl, rfl⟩
  · rw [(takeMask_settings ..).1, (takeMask_settings ..).2, e1, e2]
    exact ⟨rfl, rfl⟩
  · rw [(applyForce_settings ..).1, (applyForce_settings ..).2, e1, e2]
    exact ⟨rfl, rfl⟩
  · rw [e1, e2]
    exact ⟨rfl, rfl⟩

/-! ## Clearing a feed -/

/-- Clearing a feed: its history is empty, its tracker reset, none of its jobs waits; receivers, settings, outputs, the
loader and the notice unit stay (R40, R83, R98, R99). -/
theorem clearFeed_spec (s : State) (n : Feed) :
    s.clearFeed n =
        { s with fst := (s.clearFeed n).fst, cad := (s.clearFeed n).cad, fen := (s.clearFeed n).fen } ∧
      (s.clearFeed n).fst.hist = s.fst.hist.set n [] ∧ (s.clearFeed n).fst.mem = s.fst.mem ∧
      (s.clearFeed n).cad =
        { s.cad with
          trackers := s.cad.trackers.set n
            ⟨s.cad.table.resetState (s.settings n).force, makeHyps s.cad.table (s.settings n).mask⟩ } ∧
      (s.clearFeed n).fen =
        { s.fen with
          service := s.fen.service.map (fun v => if v.job.feed == n then { v with withdrawn := true } else v)
          waiting := s.fen.waiting.filter (fun j => j.feed != n) } := by
  unfold State.clearFeed State.withdrawJobs State.resetTracker State.setTracker
  have h := emptyHistory_spec s n
  generalize s.emptyHistory n = t at h
  rw [h]
  exact ⟨rfl, rfl, rfl, rfl, rfl⟩

/-! ## Opening a field -/

/-- Whatever the store answers, the field that opens is the arriving one, with the next number and the timer started. -/
theorem openField_lrx (s : State) (n : Feed) (p : Parity) (rep : Bool) :
    ∃ dropped, (s.openField n p rep).lrx.get n =
      ⟨.running, (s.lrx.get n).counter + 1, p.opposite, .running (s.settings n).struct.periodAndHalf, 0,
        some ⟨(s.lrx.get n).counter, p, 0, dropped, false, ⟨[], []⟩⟩⟩ := by
  have h := (Moves.allocate (a := .quiet) (s.admitField n p) n (s.lrx.get n).counter p rep).keeps_lrx n rfl
  have e : (s.admitField n p).lrx.get n =
      ⟨.running, (s.lrx.get n).counter + 1, p.opposite, .running (s.settings n).struct.periodAndHalf, 0,
        some ⟨(s.lrx.get n).counter, p, 0, false, false, ⟨[], []⟩⟩⟩ := Quad_get_set_same _ _ _
  rw [e] at h
  unfold State.openField
  simp only
  split
  · exact ⟨false, h⟩
  · refine ⟨true, ?_⟩
    rw [setRx_lrx, Quad_get_set_same, h]
    rfl

/-! ## The transmitter and the loader after a field event -/

/-- The transmitter's share of a field start leaves all but the outputs and the notice unit. -/
theorem outputFieldStart_keeps (s : State) (n : Feed) :
    s.outputFieldStart n = { s with otx := (s.outputFieldStart n).otx, ntu := (s.outputFieldStart n).ntu } := by
  unfold State.outputFieldStart
  simp only
  split
  · split
    · have := frameStart_keeps (s.stopFrameTimer n) n
      generalize (s.stopFrameTimer n).frameStart n = t at this
      rw [this]
      rfl
    · split <;> rfl
  · rfl

/-- The transmitter's share of an expiry leaves all but the outputs and the notice unit. -/
theorem outputExpiry_keeps (s : State) (n : Feed) :
    s.outputExpiry n = { s with otx := (s.outputExpiry n).otx, ntu := (s.outputExpiry n).ntu } := by
  unfold State.outputExpiry
  split
  · exact frameStart_keeps s n
  · rfl

/-- The loader's share of a field event leaves all but the loader and the notice unit. -/
theorem handToLoader_keeps (s : State) (n : Feed) :
    s.handToLoader n = { s with tld := (s.handToLoader n).tld, ntu := (s.handToLoader n).ntu } := by
  unfold State.handToLoader State.loaderEvent
  split
  · split
    · rfl
    · split <;> rfl
  · rfl

end Sys2Proof.Machine
end

