-- ==== Sys2Proof/Laws/Limits.lean ====
section
/-! SUPPORT. The part of the limits that settings and trackers hold, through every operation that reaches them: an operation that
does not is a still chain of Moves, and keeps it. -/

namespace Sys2Proof.Machine

/-! ## The tuned part of the state -/

/-- Settings and tracker of a feed are in range against a cadence table. -/
abbrev State.coreOk (s : State) (t : CadenceTable) (n : Feed) : Prop :=
  (s.settings n).inRange ∧ trackerOk t (s.settings n) (s.cad.trackers.get n)

/-- The limits but for the counters and the waiting jobs. -/
abbrev State.tunedOk (s : State) : Prop :=
  s.cad.table = CadenceTable.ofPrograms s.cad.table.programs ∧
    ∀ n : Feed,
      (s.otx.get n).repeatsOk ∧ (s.settings n).inRange ∧ (s.cue.staged.get n).inRange (s.settings n).struct ∧
        ((s.lrx.get n).state ≠ .running → s.cue.staged.get n = emptyPending) ∧
        trackerOk s.cad.table (s.settings n) (s.cad.trackers.get n)

theorem State.tunedOk.core {s : State} (h : s.tunedOk) (n : Feed) : s.coreOk s.cad.table n := ⟨(h.2 n).2.1, (h.2 n).2.2.2.2⟩

theorem State.tunedOk.holdLimit {s : State} (h : s.tunedOk) (n : Feed) : (s.settings n).holdLimit ≤ 250 := (h.2 n).2.1.1.2

/-- Still chains keep the tuned part. -/
theorem tuned_still {s t : State} (h : Moves .still s t) (hs : s.tunedOk) : t.tunedOk := by
  obtain ⟨hc, he, hl, hr⟩ := h.still_keeps rfl
  unfold State.tunedOk State.settings
  rw [hc, he, hl]
  exact ⟨hs.1, fun n => ⟨hr n (hs.holdLimit n) (hs.2 n).1, (hs.2 n).2⟩⟩

theorem tuned_setRx (s : State) (n : Feed) (r : Receiver)
    (h : r.state = .running ∨ r.state = (s.lrx.get n).state ∨ s.cue.staged.get n = emptyPending) (hs : s.tunedOk) :
    (s.setRx n r).tunedOk := by
  refine ⟨hs.1, fun m => ⟨(hs.2 m).1, (hs.2 m).2.1, (hs.2 m).2.2.1, ?_, (hs.2 m).2.2.2.2⟩⟩
  rw [setRx_lrx, Quad_get_set]
  split
  · next e =>
    subst e
    intro hn
    rcases h with h | h | h
    · exact absurd h hn
    · exact (hs.2 m).2.2.2.1 (h ▸ hn)
    · exact h
  · exact (hs.2 m).2.2.2.1

theorem tuned_setIng (s : State) (n : Feed) (c : Conditioner) (hs : s.tunedOk) : (s.setIng n c).tunedOk := hs

/-! ## One feed's settings and tracker -/

/-- What a change of feed n's settings and tracker leaves as it is. -/
structure Retunes (n : Feed) (s t : State) : Prop where
  table : t.cad.table = s.cad.table
  trackers : ∀ m, m ≠ n → t.cad.trackers.get m = s.cad.trackers.get m
  settings : ∀ m, m ≠ n → t.settings m = s.settings m
  staged : t.cue.staged = s.cue.staged
  lrx : t.lrx = s.lrx
  otx : t.otx = s.otx

namespace Retunes

variable {n : Feed} {s t u : State}

theorem refl (n : Feed) (s : State) : Retunes n s s := ⟨rfl, fun _ _ => rfl, fun _ _ => rfl, rfl, rfl, rfl⟩

theorem trans (h : Retunes n s t) (k : Retunes n t u) : Retunes n s u :=
  ⟨k.table.trans h.table, fun m hm => (k.trackers m hm).trans (h.trackers m hm),
    fun m hm => (k.settings m hm).trans (h.settings m hm), k.staged.trans h.staged, k.lrx.trans h.lrx, k.otx.trans h.otx⟩

theorem setTracker (n : Feed) (s : State) (k : Tracker) : Retunes n s (s.setTracker n k) :=
  ⟨rfl, fun m hm => by simp [Quad_get_set_other _ _ _ _ hm], fun _ _ => rfl, rfl, rfl, rfl⟩

theorem setActive (n : Feed) (s : State) (a : Settings) : Retunes n s (s.setActive n a) :=
  ⟨rfl, fun _ _ => rfl, fun m hm => by simp [State.settings, Quad_get_set_other _ _ _ _ hm], rfl, rfl, rfl⟩

theorem raise (n : Feed) (s : State) (k : NoticeKind) (sc : Scope) (d : Detail) : Retunes n s (s.raise k sc d) :=
  ⟨rfl, fun _ _ => rfl, fun _ _ => rfl, rfl, rfl, rfl⟩

theorem count (n : Feed) (s : State) (m : Feed) (c : FeedCounter) (k : Nat) : Retunes n s (s.count m c k) :=
  ⟨rfl, fun _ _ => rfl, fun _ _ => rfl, rfl, rfl, rfl⟩

theorem breakLock (n : Feed) (s : State) (d : Detail) : Retunes n s (s.breakLock n d) :=
  ((setTracker n s _).trans (raise n _ _ _ _)).trans (count n _ _ _ _)

/-- The other feeds' settings and trackers stay in range. -/
theorem core_other (h : Retunes n s t) (c : CadenceTable) {m : Feed} (hm : m ≠ n) (hs : s.coreOk c m) : t.coreOk c m := by
  unfold State.coreOk
  rw [h.settings m hm, h.trackers m hm]
  exact hs

/-- The tuned part after the change, once feed n's own is in range. -/
theorem tuned (h : Retunes n s t) (hc : t.coreOk t.cad.table n) (hp : (t.cue.staged.get n).inRange (t.settings n).struct)
    (hs : s.tunedOk) : t.tunedOk := by
  refine ⟨by rw [h.table]; exact hs.1, fun m => ?_⟩
  by_cases hm : m = n
  · subst hm
    rw [h.otx, h.lrx]
    refine ⟨(hs.2 m).1, hc.1, hp, ?_, hc.2⟩
    rw [h.staged]
    exact (hs.2 m).2.2.2.1
  · rw [h.otx, h.lrx, h.staged, h.settings m hm, h.trackers m hm, h.table]
    exact hs.2 m

end Retunes

/-! ## Hypotheses -/

/-- A usable program has two steps or more (R60). -/
theorem usable_length (t : CadenceTable) (h : t = CadenceTable.ofPrograms t.programs) (p : Fin 4) (hp : t.usable.get p = true) :
    2 ≤ (t.programs.get p).length := by
  have e : t.usable.get p = (t.programs.get p).isUsable := by
    rw [h]
    fin_cases p <;> rfl
  rw [e] at hp
  unfold Program.isUsable at hp
  simp only [Bool.and_eq_true, decide_eq_true_eq] at hp
  exact hp.1.1.1

theorem freshHyps_ok (t : CadenceTable) (mask : Quad Bool) (p : Fin 4) (hm : mask.get p = true) :
    hypsOk t mask (freshHyps t p) := by
  unfold freshHyps
  split
  · next hu =>
    intro h hh
    obtain ⟨i, hi, rfl⟩ := List.mem_map.1 hh
    exact ⟨Nat.zero_le _, hm, hu, List.mem_range.1 hi⟩
  · intro h hh
    cases hh

theorem hypsOk_flatMap (t : CadenceTable) (mask : Quad Bool) (f : Fin 4 → List Hypothesis)
    (h : ∀ p, hypsOk t mask (f p)) : hypsOk t mask (feeds.flatMap f) := by
  intro x hx
  obtain ⟨p, _, hp⟩ := List.mem_flatMap.1 hx
  exact h p x hp

theorem makeHyps_ok (t : CadenceTable) (mask : Quad Bool) : hypsOk t mask (makeHyps t mask) := by
  refine hypsOk_flatMap t mask _ (fun p => ?_)
  split
  · next h => exact freshHyps_ok t mask p h
  · intro x hx
    cases hx

theorem clearRuns_ok (t : CadenceTable) (mask : Quad Bool) (l : List Hypothesis) (h : hypsOk t mask l) :
    hypsOk t mask (clearRuns l) := by
  intro x hx
  obtain ⟨y, hy, rfl⟩ := List.mem_map.1 hx
  exact ⟨Nat.zero_le _, (h y hy).2⟩

theorem maskedHyps_ok (t : CadenceTable) (old new : Quad Bool) (l : List Hypothesis) (h : hypsOk t old l) :
    hypsOk t new (maskedHyps t old new l) := by
  refine hypsOk_flatMap t new _ (fun p => ?_)
  split
  · next hp =>
    split
    · intro x hx
      obtain ⟨hx, he⟩ := List.mem_filter.1 hx
      have e : x.program = p := by simpa using he
      exact ⟨(h x hx).1, by rw [e]; exact hp, (h x hx).2.2⟩
    · exact freshHyps_ok t new p hp
  · intro x hx
    cases hx

/-- The update of the hypotheses keeps them in range (R70). -/
theorem updateHyp_ok (t : CadenceTable) (mask : Quad Bool) (e : Evidence) (ds : Bool) (l : List Hypothesis)
    (h : hypsOk t mask l) : hypsOk t mask (l.map (updateHyp t e ds)) := by
  intro x hx
  obtain ⟨y, hy, rfl⟩ := List.mem_map.1 hx
  obtain ⟨h1, h2, h3, h4⟩ := h y hy
  refine ⟨?_, h2, h3, Nat.mod_lt _ (by omega)⟩
  unfold updateHyp
  dsimp only
  split <;> omega

/-! ## Programs that an adoption leaves alone (R80) -/

theorem Program.step_eq (old new : Program) (h : programChanged old new = false) :
    old.length = new.length ∧ ∀ i, i < new.length → old.step i = new.step i := by
  unfold programChanged at h
  simp only [Bool.or_eq_false_iff, bne_eq_false_iff_eq, List.any_eq_false, List.mem_range] at h
  exact ⟨h.1, fun i hi => by simpa using h.2 i hi⟩

/-- An unchanged program keeps its usability (R60, R80). -/
theorem Program.usable_eq (old new : Program) (h : programChanged old new = false) : old.isUsable = new.isUsable := by
  obtain ⟨hl, hs⟩ := Program.step_eq old new h
  unfold Program.isUsable
  dsimp only
  rw [hl]
  by_cases h2 : 2 ≤ new.length
  · have h0 : 0 < new.length := by omega
    rw [Bool.eq_iff_iff]
    simp only [Bool.and_eq_true, List.any_eq_true, List.all_eq_true, List.mem_range]
    have e1 : ∀ i, old.step ((i + 1) % new.length) = new.step ((i + 1) % new.length) := fun i => hs _ (Nat.mod_lt _ h0)
    have e2 : ∀ i, old.step ((i + new.length - 1) % new.length) = new.step ((i + new.length - 1) % new.length) :=
      fun i => hs _ (Nat.mod_lt _ h0)
    simp only [e1, e2]
    constructor
    · rintro ⟨⟨⟨a, i, hi, b⟩, c⟩, d⟩
      exact ⟨⟨⟨a, i, hi, hs i hi ▸ b⟩, fun j hj => hs j hj ▸ c j hj⟩, fun j hj => hs j hj ▸ d j hj⟩
    · rintro ⟨⟨⟨a, i, hi, b⟩, c⟩, d⟩
      exact ⟨⟨⟨a, i, hi, (hs i hi).symm ▸ b⟩, fun j hj => (hs j hj).symm ▸ c j hj⟩, fun j hj => (hs j hj).symm ▸ d j hj⟩
  · simp [h2]

/-- The programs that a new table changes. -/
def changedBy (old : CadenceTable) (new : Quad Program) : Quad Bool :=
  new.mapIdx (fun p g => programChanged (old.programs.get p) g)

theorem changedBy_get (old : CadenceTable) (new : Quad Program) (p : Fin 4) :
    (changedBy old new).get p = programChanged (old.programs.get p) (new.get p) := by
  fin_cases p <;> rfl

theorem ofPrograms_usable (q : Quad Program) (p : Fin 4) :
    (CadenceTable.ofPrograms q).usable.get p = (q.get p).isUsable := by
  fin_cases p <;> rfl

/-- An unchanged program: usability and length under the new table are those under the old one. -/
theorem unchanged_keeps (old : CadenceTable) (ho : old = CadenceTable.ofPrograms old.programs) (new : Quad Program) (p : Fin 4)
    (h : (changedBy old new).get p = false) :
    (CadenceTable.ofPrograms new).usable.get p = old.usable.get p ∧ (new.get p).length = (old.programs.get p).length := by
  rw [changedBy_get] at h
  refine ⟨?_, (Program.step_eq _ _ h).1.symm⟩
  rw [ofPrograms_usable, ho, ofPrograms_usable]
  exact (Program.usable_eq _ _ h).symm

theorem adoptedHyps_ok (old : CadenceTable) (ho : old = CadenceTable.ofPrograms old.programs) (new : Quad Program)
    (mask : Quad Bool) (l : List Hypothesis) (h : hypsOk old mask l) :
    hypsOk (CadenceTable.ofPrograms new) mask (adoptedHyps (CadenceTable.ofPrograms new) (changedBy old new) mask l) := by
  refine hypsOk_flatMap _ mask _ (fun p => ?_)
  split
  · split
    · next hp => exact freshHyps_ok _ mask p hp
    · intro x hx
      cases hx
  · next hc =>
    intro x hx
    obtain ⟨hx, he⟩ := List.mem_filter.1 hx
    have e : x.program = p := by simpa using he
    obtain ⟨hu, hl⟩ := unchanged_keeps old ho new p (by simpa using hc)
    obtain ⟨h1, h2, h3, h4⟩ := h x hx
    rw [e] at h2 h3 h4
    refine ⟨h1, by rw [e]; exact h2, by rw [e, hu]; exact h3, ?_⟩
    rw [e]
    show x.current < (new.get p).length
    rw [hl]
    exact h4

/-! ## The trackers' states -/

/-- A break hold of 0 leaves SEEKING (R73). -/
theorem broken_agrees (t : CadenceTable) (a : Settings) (hold : Nat) (hf : a.force = .release) (hb : hold ≤ 15) :
    (if hold = 0 then TrackerState.seeking else .broken hold).agrees t a := by
  split
  · exact hf
  · exact ⟨hf, by omega, hb⟩

/-- A broken tracker is in range where no force is in effect (R73). -/
theorem brokenTracker_ok (t : CadenceTable) (a : Settings) (hyps : List Hypothesis) (hh : hypsOk t a.mask hyps)
    (hf : a.force = .release) (hb : a.breakHold ≤ 15) : trackerOk t a (brokenTracker a.breakHold hyps) :=
  ⟨clearRuns_ok t a.mask hyps hh, broken_agrees t a _ hf hb⟩

theorem Settings.inRange.breakHold_le {a : Settings} (h : a.inRange) : a.breakHold ≤ 15 := h.2.2.2.2.2.2.2.2.1

theorem setTracker_core (s : State) (n : Feed) (k : Tracker) (c : CadenceTable) (ha : (s.settings n).inRange)
    (hk : trackerOk c (s.settings n) k) : (s.setTracker n k).coreOk c n := by
  refine ⟨ha, ?_⟩
  rw [setTracker_cad]
  simp only [Quad_get_set_same]
  exact hk

theorem breakLock_core (s : State) (n : Feed) (d : Detail) (c : CadenceTable) (ha : (s.settings n).inRange)
    (hh : hypsOk c (s.settings n).mask (s.cad.trackers.get n).hyps) (hf : (s.settings n).force = .release) :
    (s.breakLock n d).coreOk c n :=
  setTracker_core s n _ c ha (brokenTracker_ok c _ _ hh hf ha.breakHold_le)

/-- The step after a step of a usable program is one of its steps (R59). -/
theorem advance_lt (t : CadenceTable) (p : Fin 4) (i : Nat) (h : i < (t.programs.get p).length) :
    t.advance p i < (t.programs.get p).length := Nat.mod_lt _ (by omega)

/-- The best of the ranked hypotheses is one of them (R71). -/
theorem bestHyp_mem (l : List (Hypothesis × Nat)) (b : Hypothesis × Nat) (h : bestHyp l = some b) : b ∈ l := by
  have g : ∀ (l : List (Hypothesis × Nat)) (o : Option (Hypothesis × Nat)) (b : Hypothesis × Nat),
      l.foldl (fun best h => match best with
        | none => some h
        | some b => if outranks h b then some h else some b) o = some b → b ∈ l ∨ o = some b := by
    intro l
    induction l with
    | nil => exact fun o b h => Or.inr h
    | cons x l ih =>
      intro o b h
      rcases ih _ b h with h | h
      · exact Or.inl (List.mem_cons_of_mem x h)
      · revert h
        cases o with
        | none =>
          intro h
          cases h
          exact Or.inl List.mem_cons_self
        | some y =>
          dsimp only
          split
          · intro h
            cases h
            exact Or.inl List.mem_cons_self
          · exact Or.inr
  rcases g l none b h with h | h
  · exact h
  · cases h

theorem trackerAction_retunes (s : State) (n : Feed) (q : Seq) (e : Evidence) (ds : Bool) :
    Retunes n s (s.trackerAction n q e ds).2 := by
  have two : ∀ (k l : Tracker), Retunes n s ((s.setTracker n k).setTracker n l) :=
    fun k l => (Retunes.setTracker n s k).trans (Retunes.setTracker n _ l)
  unfold State.trackerAction
  dsimp only
  split
  · split
    · split
      · exact ((two _ _).trans (Retunes.raise n _ _ _ _)).trans (Retunes.count n _ _ _ _)
      · exact Retunes.setTracker n s _
    · exact Retunes.setTracker n s _
  · split
    · exact (Retunes.setTracker n s _).trans (Retunes.breakLock n _ _)
    · exact two _ _
  · exact two _ _
  · exact Retunes.setTracker n s _
  · exact two _ _

/-- The tracker's action keeps feed n's tracker in range (R70 to R78). -/
theorem trackerAction_core (s : State) (n : Feed) (q : Seq) (e : Evidence) (ds : Bool) (hs : s.coreOk s.cad.table n) :
    (s.trackerAction n q e ds).2.coreOk s.cad.table n := by
  obtain ⟨ha, hh, hk⟩ := hs
  have hu := updateHyp_ok s.cad.table (s.settings n).mask e ds _ hh
  have one : ∀ st : TrackerState, st.agrees s.cad.table (s.settings n) →
      ((s.setTracker n ⟨(s.cad.trackers.get n).state, (s.cad.trackers.get n).hyps.map (updateHyp s.cad.table e ds)⟩).setTracker n
        ⟨st, (s.cad.trackers.get n).hyps.map (updateHyp s.cad.table e ds)⟩).coreOk s.cad.table n :=
    fun st h => setTracker_core _ n _ _ ha ⟨hu, h⟩
  have zero : (s.setTracker n ⟨(s.cad.trackers.get n).state,
      (s.cad.trackers.get n).hyps.map (updateHyp s.cad.table e ds)⟩).coreOk s.cad.table n :=
    setTracker_core s n _ _ ha ⟨hu, hk⟩
  unfold State.trackerAction
  dsimp only
  generalize hst : (s.cad.trackers.get n).state = st at hk one zero ⊢
  cases st with
  | seeking =>
    dsimp only
    split
    · next h step hb =>
      split
      · have hm := (List.of_mem_zip (bestHyp_mem _ _ hb)).1
        exact one (.locked h.program h.current) ⟨hk, (hu h hm).2⟩
      · exact zero
    · exact zero
  | locked p i =>
    dsimp only
    split
    · refine breakLock_core _ n _ _ ha ?_ hk.1
      rw [setTracker_cad]
      simp only [Quad_get_set_same]
      exact hu
    · exact one _ ⟨hk.1, hk.2.1, hk.2.2.1, advance_lt _ p i hk.2.2.2⟩
  | broken hold =>
    dsimp only
    refine one _ (broken_agrees _ _ _ hk.1 ?_)
    have hb := ha.breakHold_le
    have := hk.2.2
    split <;> omega
  | heldVideo => exact zero
  | heldFilm p i => exact one _ ⟨hk.1, hk.2.1, advance_lt _ p i hk.2.2⟩

/-! ## A mask and a force (R63, R77) -/

theorem applyMask_retunes (s : State) (n : Feed) (new : Quad Bool) (d : Detail) : Retunes n s (s.applyMask n new d) := by
  unfold State.applyMask
  dsimp only
  split
  · exact ((Retunes.setTracker n s _).trans (Retunes.setActive n _ _)).trans (Retunes.breakLock n _ d)
  · exact (Retunes.setTracker n s _).trans (Retunes.setActive n _ _)

theorem applyMask_core (s : State) (n : Feed) (new : Quad Bool) (d : Detail) (c : CadenceTable) (hc : c = s.cad.table)
    (hs : s.coreOk c n) : (s.applyMask n new d).coreOk c n := by
  subst hc
  obtain ⟨ha, hh, hk⟩ := hs
  have hm := maskedHyps_ok s.cad.table (s.settings n).mask new _ hh
  unfold State.applyMask
  dsimp only
  generalize hu : (s.setTracker n ⟨(s.cad.trackers.get n).state, maskedHyps s.cad.table (s.settings n).mask new
    (s.cad.trackers.get n).hyps⟩).setActive n { s.settings n with mask := new } = u
  have e1 : u.settings n = { s.settings n with mask := new } := by rw [← hu]; simp [State.settings]
  have e2 : u.cad.trackers.get n = ⟨(s.cad.trackers.get n).state, maskedHyps s.cad.table (s.settings n).mask new
      (s.cad.trackers.get n).hyps⟩ := by rw [← hu]; simp
  have ha' : (u.settings n).inRange := by rw [e1]; exact ha
  split
  · next hl =>
    refine breakLock_core u n d _ ha' (by rw [e1, e2]; exact hm) ?_
    rw [e1]
    unfold State.lockLeaves at hl
    split at hl
    · next h => rw [h] at hk; exact hk.1
    · cases hl
  · next hl =>
    refine ⟨ha', ?_⟩
    rw [e1, e2]
    refine ⟨hm, ?_⟩
    revert hk hl
    unfold State.lockLeaves
    dsimp only
    cases (s.cad.trackers.get n).state with
    | locked p i =>
      intro hk hl
      exact ⟨hk.1, by simpa using hl, hk.2.2⟩
    | _ => exact fun hk _ => hk

theorem applyForce_retunes (s : State) (n : Feed) (f : Force) : Retunes n s (s.applyForce n f) := by
  unfold State.applyForce
  dsimp only
  split
  · exact Retunes.refl n s
  · exact (Retunes.setTracker n s _).trans (Retunes.setActive n _ _)

theorem applyForce_core (s : State) (n : Feed) (f : Force) (c : CadenceTable) (hc : c = s.cad.table)
    (ht : s.cad.table = CadenceTable.ofPrograms s.cad.table.programs) (hs : s.coreOk c n) : (s.applyForce n f).coreOk c n := by
  subst hc
  obtain ⟨ha, hh, hk⟩ := hs
  unfold State.applyForce
  dsimp only
  split
  · exact ⟨ha, hh, hk⟩
  · next hne =>
    have e1 : ∀ k g, ((s.setTracker n k).setForce n g).settings n = { s.settings n with force := g } := by
      intro k g
      simp [State.setForce, State.settings]
    have e2 : ∀ k g, ((s.setTracker n k).setForce n g).cad.trackers.get n = k := by
      intro k g
      simp [State.setForce]
    unfold State.coreOk
    rw [e1, e2]
    refine ⟨ha, hh, ?_⟩
    revert hne
    cases f with
    | release =>
      intro hne
      revert hk
      unfold CadenceTable.effectiveForce forcedState
      dsimp only
      cases (s.cad.trackers.get n).state with
      | seeking => exact fun _ => rfl
      | locked p i => exact fun hk => absurd hk.1 hne
      | broken b => exact fun hk => absurd hk.1 hne
      | heldVideo => exact fun _ => rfl
      | heldFilm p i => exact fun _ => rfl
    | video => exact fun _ => rfl
    | film p i =>
      intro _
      unfold CadenceTable.effectiveForce
      dsimp only
      split
      · next hu => exact ⟨⟨_, rfl⟩, hu, Nat.mod_lt _ (by have := usable_length _ ht p hu; omega)⟩
      · exact rfl

/-- A change of feed n's tracker settings that keeps its tracker in range. -/
structure Steers (n : Feed) (s t : State) : Prop where
  retunes : Retunes n s t
  core : s.cad.table = CadenceTable.ofPrograms s.cad.table.programs → s.coreOk s.cad.table n → t.coreOk s.cad.table n

namespace Steers

variable {n : Feed} {s t u : State}

theorem refl (n : Feed) (s : State) : Steers n s s := ⟨Retunes.refl n s, fun _ h => h⟩

theorem trans (h : Steers n s t) (k : Steers n t u) : Steers n s u := by
  refine ⟨h.retunes.trans k.retunes, fun ht hs => ?_⟩
  have := k.core
  rw [h.retunes.table] at this
  exact this ht (h.core ht hs)

theorem applyMask (s : State) (n : Feed) (m : Quad Bool) (d : Detail) : Steers n s (s.applyMask n m d) :=
  ⟨applyMask_retunes s n m d, fun _ h => applyMask_core s n m d _ rfl h⟩

theorem applyForce (s : State) (n : Feed) (f : Force) : Steers n s (s.applyForce n f) :=
  ⟨applyForce_retunes s n f, fun ht h => applyForce_core s n f _ rfl ht h⟩

theorem nextChoice (s : State) (n : Feed) : Steers n s s.nextChoice.2 :=
  ⟨⟨rfl, fun _ _ => rfl, fun _ _ => rfl, rfl, rfl, rfl⟩, fun _ h => h⟩

theorem takeMask (s : State) (n : Feed) (m : Quad Bool) (q : Option Seq) : Steers n s (s.takeMask n m q) := by
  unfold State.takeMask
  split
  · exact refl n s
  · split
    · exact applyMask s n m _
    · split
      · exact (nextChoice s n).trans (applyMask _ n m _)
      · exact applyMask s n m _

theorem takeTrackerItems (s : State) (n : Feed) (p : Pending) (q : Option Seq) : Steers n s (s.takeTrackerItems n p q) := by
  unfold State.takeTrackerItems State.takeMaskAndForce
  split
  · split
    · split
      · exact (nextChoice s n).trans ((takeMask _ n _ q).trans (applyForce _ n _))
      · exact (nextChoice s n).trans ((applyForce _ n _).trans (takeMask _ n _ q))
    · exact (takeMask s n _ q).trans (applyForce _ n _)
  · exact takeMask s n _ q
  · exact applyForce s n _
  · exact refl n s

end Steers

/-! ## Adoption of a loaded cadence table (R80 to R82) -/

theorem adoptFor_retunes (changed : Quad Bool) (s : State) (n : Feed) : Retunes n s (State.adoptFor changed s n) := by
  unfold State.adoptFor
  dsimp only
  split
  · split
    · exact (Retunes.setTracker n s _).trans (Retunes.breakLock n _ _)
    · exact Retunes.setTracker n s _
  · split
    · split
      · exact ((Retunes.setTracker n s _).trans (Retunes.setTracker n _ _)).trans (Retunes.setActive n _ _)
      · exact ((Retunes.setTracker n s _).trans (Retunes.setTracker n _ _)).trans (Retunes.setActive n _ _)
    · exact Retunes.setTracker n s _
  · exact Retunes.setTracker n s _

/-- Feed n's tracker is in range against the new table where it was against the old one. -/
theorem adoptFor_core (old : CadenceTable) (ho : old = CadenceTable.ofPrograms old.programs) (new : Quad Program) (s : State)
    (n : Feed) (ht : s.cad.table = CadenceTable.ofPrograms new) (hs : s.coreOk old n) :
    (State.adoptFor (changedBy old new) s n).coreOk (CadenceTable.ofPrograms new) n := by
  obtain ⟨ha, hh, hk⟩ := hs
  have hm := adoptedHyps_ok old ho new (s.settings n).mask _ hh
  unfold State.adoptFor
  dsimp only
  rw [ht]
  generalize hu : s.setTracker n ⟨(s.cad.trackers.get n).state, adoptedHyps (CadenceTable.ofPrograms new) (changedBy old new)
    (s.settings n).mask (s.cad.trackers.get n).hyps⟩ = u
  have e1 : u.settings n = s.settings n := by rw [← hu]; rfl
  have e2 : u.cad.trackers.get n = ⟨(s.cad.trackers.get n).state, adoptedHyps (CadenceTable.ofPrograms new) (changedBy old new)
    (s.settings n).mask (s.cad.trackers.get n).hyps⟩ := by rw [← hu]; simp
  have keep : ∀ st, (s.cad.trackers.get n).state = st → st.agrees (CadenceTable.ofPrograms new) (s.settings n) →
      u.coreOk (CadenceTable.ofPrograms new) n := by
    intro st hst h
    unfold State.coreOk
    rw [e1, e2]
    exact ⟨ha, hm, by rw [hst]; exact h⟩
  have un : ∀ p, ¬(changedBy old new).get p = true → (CadenceTable.ofPrograms new).usable.get p = old.usable.get p ∧
      (new.get p).length = (old.programs.get p).length := fun p hp => unchanged_keeps old ho new p (by simpa using hp)
  have held : ∀ st f, st.agrees (CadenceTable.ofPrograms new) { s.settings n with force := f } →
      ((u.setTracker n ⟨st, (u.cad.trackers.get n).hyps⟩).setForce n f).coreOk (CadenceTable.ofPrograms new) n := by
    intro st f h
    have e3 : ((u.setTracker n ⟨st, (u.cad.trackers.get n).hyps⟩).setForce n f).settings n = { s.settings n with force := f } := by
      rw [← e1]
      simp [State.setForce, State.settings]
    have e4 : ((u.setTracker n ⟨st, (u.cad.trackers.get n).hyps⟩).setForce n f).cad.trackers.get n =
        ⟨st, (u.cad.trackers.get n).hyps⟩ := by simp [State.setForce]
    unfold State.coreOk
    rw [e3, e4, e2]
    exact ⟨ha, hm, h⟩
  generalize hst : (s.cad.trackers.get n).state = st at hk
  cases st with
  | seeking => exact keep _ hst hk
  | broken hold => exact keep _ hst hk
  | heldVideo => exact keep _ hst hk
  | locked p i =>
    dsimp only
    split
    · refine breakLock_core u n _ _ (by rw [e1]; exact ha) (by rw [e1, e2]; exact hm) ?_
      rw [e1]
      exact hk.1
    · next hc =>
      obtain ⟨h1, h2⟩ := un p hc
      refine keep _ hst ⟨hk.1, hk.2.1, h1.trans hk.2.2.1, ?_⟩
      show i < (new.get p).length
      rw [h2]
      exact hk.2.2.2
  | heldFilm p i =>
    obtain ⟨⟨f, hf⟩, hu1, hi⟩ := hk
    dsimp only
    split
    · split
      · next hc =>
        have hl := usable_length _ rfl p hc
        rw [hf]
        exact held _ _ ⟨⟨_, rfl⟩, hc, Nat.mod_lt _ (by omega)⟩
      · exact held _ _ rfl
    · next hc =>
      obtain ⟨h1, h2⟩ := un p hc
      refine keep _ hst ⟨⟨f, hf⟩, h1.trans hu1, ?_⟩
      show i < (new.get p).length
      rw [h2]
      exact hi

theorem feeds_mem (n : Feed) : n ∈ feeds := by fin_cases n <;> decide

/-- The adoption over several feeds: those treated are in range against the new table, the others against the old one. -/
theorem adoptAll_core (old : CadenceTable) (ho : old = CadenceTable.ofPrograms old.programs) (new : Quad Program) :
    ∀ (l : List Feed) (s : State), l.Nodup → s.cad.table = CadenceTable.ofPrograms new → (∀ n ∈ l, s.coreOk old n) →
      let t := l.foldl (State.adoptFor (changedBy old new)) s
      t.cad.table = s.cad.table ∧ t.cue.staged = s.cue.staged ∧ t.lrx = s.lrx ∧ t.otx = s.otx ∧
        (∀ n ∈ l, t.coreOk (CadenceTable.ofPrograms new) n) ∧
        (∀ n, n ∉ l → t.settings n = s.settings n ∧ t.cad.trackers.get n = s.cad.trackers.get n) ∧
        ∀ n, (t.settings n).struct = (s.settings n).struct := by
  intro l
  induction l with
  | nil => exact fun s _ _ _ => ⟨rfl, rfl, rfl, rfl, by simp, fun _ _ => ⟨rfl, rfl⟩, fun _ => rfl⟩
  | cons n l ih =>
    intro s hn ht hs
    obtain ⟨hn1, hn2⟩ := List.nodup_cons.1 hn
    have hr := adoptFor_retunes (changedBy old new) s n
    have hc := adoptFor_core old ho new s n ht (hs n List.mem_cons_self)
    have hst : ((State.adoptFor (changedBy old new) s n).settings n).struct = (s.settings n).struct := by
      obtain ⟨f, _, e⟩ := (Moves.adoptFor (a := .quiet) (changedBy old new) s n).keeps_settings n rfl
      rw [e]
    rw [List.foldl_cons]
    generalize State.adoptFor (changedBy old new) s n = u at hr hc hst ⊢
    have h := ih u hn2 (hr.table.trans ht) (fun m hm => hr.core_other old (by rintro rfl; exact hn1 hm)
      (hs m (List.mem_cons_of_mem n hm)))
    dsimp only at h ⊢
    generalize l.foldl (State.adoptFor (changedBy old new)) u = v at h ⊢
    obtain ⟨h1, h2, h3, h4, h5, h6, h7⟩ := h
    refine ⟨h1.trans hr.table, h2.trans hr.staged, h3.trans hr.lrx, h4.trans hr.otx, fun m hm => ?_, fun m hm => ?_, fun m => ?_⟩
    · rcases List.mem_cons.1 hm with rfl | hm
      · unfold State.coreOk
        rw [(h6 m hn1).1, (h6 m hn1).2]
        exact hc
      · exact h5 m hm
    · rw [List.mem_cons, not_or] at hm
      exact ⟨(h6 m hm.2).1.trans (hr.settings m hm.1), (h6 m hm.2).2.trans (hr.trackers m hm.1)⟩
    · rw [h7 m]
      by_cases hm : m = n
      · subst hm
        exact hst
      · rw [hr.settings m hm]

/-- An adopted cadence table keeps the tuned part (R80 to R82). -/
theorem tuned_adoptCadence (s : State) (hs : s.tunedOk) : s.adoptCadence.tunedOk := by
  unfold State.adoptCadence
  split
  · refine tuned_still (Moves.noteAdoption _ 0) ?_
    dsimp only
    have h := adoptAll_core s.cad.table hs.1 (programsOfWords (s.copy 0).words) feeds
      (({ s with cad := { s.cad with table := CadenceTable.ofPrograms (programsOfWords (s.copy 0).words) } } : State).idleCopy 0)
      (by decide) rfl (fun n _ => hs.core n)
    unfold changedBy at h
    generalize feeds.foldl _ _ = v at h ⊢
    obtain ⟨h1, h2, h3, h4, h5, _, h7⟩ := h
    have e : v.cad.table = CadenceTable.ofPrograms (programsOfWords (s.copy 0).words) := h1
    refine ⟨by rw [e]; rfl, fun n => ?_⟩
    have hc := h5 n (feeds_mem n)
    refine ⟨?_, hc.1, ?_, ?_, by rw [e]; exact hc.2⟩
    · rw [h4]; exact (hs.2 n).1
    · rw [h2, h7]; exact (hs.2 n).2.2.1
    · rw [h2, h3]; exact (hs.2 n).2.2.2.1
  · exact hs

theorem tuned_trackerAction (s : State) (n : Feed) (q : Seq) (e : Evidence) (ds : Bool) (hs : s.tunedOk) :
    (s.trackerAction n q e ds).2.tunedOk := by
  have hr := trackerAction_retunes s n q e ds
  have hst : ((s.trackerAction n q e ds).2.settings n).struct = (s.settings n).struct := by
    obtain ⟨f, _, e⟩ := (Moves.trackerAction (a := .quiet) s n q e ds).keeps_settings n rfl
    rw [e]
  refine hr.tuned ?_ ?_ hs
  · rw [hr.table]
    exact trackerAction_core s n q e ds (hs.core n)
  · rw [hr.staged, hst]
    exact (hs.2 n).2.2.1

theorem tuned_evidenceEvent (s : State) (n : Feed) (q : Seq) (hs : s.tunedOk) : (s.evidenceEvent n q).tunedOk := by
  unfold State.evidenceEvent
  split
  · dsimp only
    split
    · exact tuned_still (Moves.enqueue _ _) (tuned_trackerAction _ n _ _ _ (tuned_adoptCadence s hs))
    · exact tuned_trackerAction _ n _ _ _ (tuned_adoptCadence s hs)
  · exact hs

/-! ## Settings becoming active (R124, R125, R168, R170, R171) -/

theorem emptyPending_inRange (st : Structure) : emptyPending.inRange st := by
  refine ⟨?_, ?_, ?_, ?_, ?_, ?_, ?_, ?_, ?_, ?_, ?_, ?_, ?_, ?_, ?_⟩ <;> exact fun v h => nomatch h

/-- Where both a record's item and the active value meet a range, the value that becomes active does. -/
theorem getD_range {α : Type} (P : α → Prop) (o : Option α) (d : α) (ho : ∀ v, o = some v → P v) (hd : P d) :
    P (o.getD d) := by
  cases o with
  | none => exact hd
  | some v => exact ho v rfl

theorem laterWins_range {α : Type} (P : α → Prop) (new old : Option α) (hn : ∀ v, new = some v → P v)
    (ho : ∀ v, old = some v → P v) : ∀ v, laterWins new old = some v → P v := by
  cases new with
  | none => exact ho
  | some v => exact hn

/-- A change of structure leaves the height in the new structure's range (R125). -/
theorem heightAfter_ok (old new : Structure) (h : Nat) (hh : heightOk old h) : heightOk new (heightAfter old new h) := by
  unfold heightAfter
  split
  · next e => rw [e]; exact hh
  · unfold readjustedHeight heightOk at *
    cases new <;> cases old <;> simp only [Structure.lines] at * <;> omega

/-- Present items become active within their ranges (R171). -/
theorem over_inRange (a : Settings) (p : Pending) (ha : a.inRange) (hp : p.inRange a.struct) : (a.over p).inRange := by
  obtain ⟨a1, a2, a3, a4, a5, a6, a7, a8, a9, a10, a11, a12, a13⟩ := ha
  obtain ⟨p1, p2, p3, p4, p5, p6, p7, p8, p9, p10, p11, p12, p13, p14, p15⟩ := hp
  exact ⟨getD_range (fun v => 1 ≤ v ∧ v ≤ 250) _ _ p1 a1, getD_range widthOk _ _ p2 a2,
    heightAfter_ok _ _ _ (getD_range (heightOk a.struct) _ _ p3 a3),
    ⟨getD_range gainOk _ _ p4 a4.1, getD_range liftOk _ _ p5 a4.2⟩, ⟨getD_range gainOk _ _ p6 a5.1, getD_range liftOk _ _ p7 a5.2⟩,
    getD_range (fun v => v ≤ 255) _ _ p8 a6, getD_range (fun v => 1 ≤ v ∧ v ≤ 64) _ _ p9 a7,
    getD_range (fun v => 2 ≤ v ∧ v ≤ 15) _ _ p10 a8, getD_range (fun v => v ≤ 15) _ _ p11 a9,
    getD_range (fun v => v ≤ 16383) _ _ p12 a10, getD_range (fun v => v ≤ 16383) _ _ p13 a11,
    getD_range (fun v => v ≤ 16383) _ _ p14 a12, getD_range (fun v => v ≤ 16383) _ _ p15 a13⟩

/-- Staged items stay within their ranges under a later cue (R170). -/
theorem merge_inRange (new old : Pending) (st : Structure) (hn : new.inRange st) (ho : old.inRange st) :
    (new.merge old).inRange st := by
  obtain ⟨n1, n2, n3, n4, n5, n6, n7, n8, n9, n10, n11, n12, n13, n14, n15⟩ := hn
  obtain ⟨o1, o2, o3, o4, o5, o6, o7, o8, o9, o10, o11, o12, o13, o14, o15⟩ := ho
  exact ⟨laterWins_range _ _ _ n1 o1, laterWins_range _ _ _ n2 o2, laterWins_range _ _ _ n3 o3, laterWins_range _ _ _ n4 o4,
    laterWins_range _ _ _ n5 o5, laterWins_range _ _ _ n6 o6, laterWins_range _ _ _ n7 o7, laterWins_range _ _ _ n8 o8,
    laterWins_range _ _ _ n9 o9, laterWins_range _ _ _ n10 o10, laterWins_range _ _ _ n11 o11, laterWins_range _ _ _ n12 o12,
    laterWins_range _ _ _ n13 o13, laterWins_range _ _ _ n14 o14, laterWins_range _ _ _ n15 o15⟩

/-- Items become active: the record they came from is already empty (R171). -/
theorem tuned_activate (s : State) (n : Feed) (p : Pending) (q : Option Seq) (hs : s.tunedOk)
    (he : s.cue.staged.get n = emptyPending) (hp : p.inRange (s.settings n).struct) : (s.activate n p q).tunedOk := by
  have h1 : Retunes n s (s.setActive n ((s.settings n).over p)) := Retunes.setActive n s _
  have e : (s.setActive n ((s.settings n).over p)).settings n = (s.settings n).over p := by simp [State.settings]
  have h2 := Steers.takeTrackerItems (s.setActive n ((s.settings n).over p)) n p q
  have hc := h2.core hs.1 ⟨by rw [e]; exact over_inRange _ p (hs.2 n).2.1 hp, by rw [e]; exact (hs.2 n).2.2.2.2⟩
  have hr := h1.trans h2.retunes
  refine hr.tuned ?_ ?_ hs
  · show (State.takeTrackerItems _ n p q).coreOk _ n
    rw [hr.table]
    exact hc
  · rw [hr.staged, he]
    exact emptyPending_inRange _

theorem activate_staged (s : State) (n : Feed) (p : Pending) (q : Option Seq) : (s.activate n p q).cue.staged = s.cue.staged := by
  have h := (activate_spec s n p q).2
  rw [h]

theorem activate_lrx (s : State) (n : Feed) (p : Pending) (q : Option Seq) : (s.activate n p q).lrx = s.lrx := by
  have h := (activate_spec s n p q).2
  rw [h]

theorem tuned_setStaged (s : State) (n : Feed) (p : Pending) (hs : s.tunedOk) (hp : p.inRange (s.settings n).struct)
    (he : (s.lrx.get n).state ≠ .running → p = emptyPending) : (s.setStaged n p).tunedOk := by
  refine ⟨hs.1, fun m => ?_⟩
  rw [setStaged_cue]
  dsimp only
  rw [Quad_get_set]
  split
  · next e =>
    subst e
    exact ⟨(hs.2 m).1, (hs.2 m).2.1, hp, he, (hs.2 m).2.2.2.2⟩
  · exact hs.2 m

/-- A reset tracker is in range (R83). -/
theorem tuned_resetTracker (s : State) (n : Feed) (hs : s.tunedOk) : (s.resetTracker n).tunedOk := by
  have hr : Retunes n s (s.resetTracker n) := Retunes.setTracker n s _
  refine hr.tuned (setTracker_core s n _ _ (hs.2 n).2.1 ⟨makeHyps_ok _ _, ?_⟩) (hs.2 n).2.2.1 hs
  have hk := (hs.2 n).2.2.2.2.2
  show (s.cad.table.resetState (s.settings n).force).agrees s.cad.table (s.settings n)
  unfold CadenceTable.resetState
  cases hf : (s.settings n).force with
  | release => exact hf
  | video => exact hf
  | film p i =>
    revert hk
    cases (s.cad.trackers.get n).state with
    | heldFilm r j =>
      rintro ⟨⟨g, hg⟩, hu, _⟩
      rw [hf] at hg
      cases hg
      exact ⟨⟨i, hf⟩, hu, Nat.mod_lt _ (by have := usable_length _ hs.1 p hu; omega)⟩
    | seeking =>
      intro hk
      rw [TrackerState.agrees, hf] at hk
      cases hk
    | heldVideo =>
      intro hk
      rw [TrackerState.agrees, hf] at hk
      cases hk
    | locked r j =>
      rintro ⟨hk, _⟩
      rw [hf] at hk
      cases hk
    | broken r =>
      rintro ⟨hk, _⟩
      rw [hf] at hk
      cases hk

theorem tuned_clearFeed (s : State) (n : Feed) (hs : s.tunedOk) : (s.clearFeed n).tunedOk :=
  tuned_still (Moves.withdrawJobs _ n) (tuned_resetTracker _ n (tuned_still (Moves.emptyHistory s n) hs))

theorem clearFeed_cue (s : State) (n : Feed) : (s.clearFeed n).cue = s.cue := by
  have h := (clearFeed_spec s n).1
  rw [h]

theorem tuned_enterOff (s : State) (n : Feed) (he : s.cue.staged.get n = emptyPending) (hs : s.tunedOk) :
    (s.enterOff n).tunedOk := tuned_clearFeed _ n (tuned_setIng _ n _ (tuned_setRx s n _ (Or.inr (Or.inr he)) hs))

theorem tuned_applyAtOnce (s : State) (n : Feed) (p : Pending) (he : s.cue.staged.get n = emptyPending)
    (hp : p.inRange (s.settings n).struct) (hs : s.tunedOk) : (s.applyAtOnce n p).tunedOk := by
  have h : ∀ b : Bool, (if b then (s.activate n p none).clearFeed n else s.activate n p none).tunedOk ∧
      (if b then (s.activate n p none).clearFeed n else s.activate n p none).cue.staged.get n = emptyPending := by
    intro b
    have ha := tuned_activate s n p none hs he hp
    have e : (s.activate n p none).cue.staged.get n = emptyPending := by rw [activate_staged]; exact he
    cases b
    · exact ⟨ha, e⟩
    · exact ⟨tuned_clearFeed _ n ha, by rw [if_pos rfl, clearFeed_cue]; exact e⟩
  unfold State.applyAtOnce
  dsimp only
  obtain ⟨h1, h2⟩ := h (p.changesStructure (s.settings n))
  generalize (if p.changesStructure (s.settings n) then (s.activate n p none).clearFeed n else s.activate n p none) = u at h1 h2
  split
  · exact h1
  · split
    · exact tuned_setRx u n _ (Or.inr (Or.inr h2)) h1
    · exact h1
  · split
    · exact h1
    · exact tuned_enterOff u n h2 h1

theorem tuned_stageOrApply (s : State) (n : Feed) (p : Pending) (hp : p.inRange (s.settings n).struct) (hs : s.tunedOk) :
    (s.stageOrApply n p).tunedOk := by
  unfold State.stageOrApply State.isRunning
  split
  · next h => exact tuned_setStaged s n _ hs (merge_inRange _ _ _ hp (hs.2 n).2.2.1) (fun hn => absurd (by simpa using h) hn)
  · next h => exact tuned_applyAtOnce s n p ((hs.2 n).2.2.2.1 (by simpa using h)) hp hs

/-! ## The items of a cue lie in their ranges (R124, R165 test 7, R168) -/

theorem numItem_range (no lo hi : Nat) (h : lo ≤ hi) (w : Word) :
    ∀ v, (numItem no lo hi w).value = some v → lo ≤ v ∧ v ≤ hi := by
  intro v hv
  unfold numItem at hv
  split at hv
  · cases hv
  · cases hv
    unfold clampNat
    omega

theorem pairTaken_range (P : Nat → Prop) (no : Nat) (f : Nat → Nat) (hf : ∀ x, P (f x)) (h l : Word) (t : Taken Nat)
    (ht : pairTaken no f h l = some t) : ∀ v, t.value = some v → P v := by
  intro v hv
  unfold pairTaken at ht
  split at ht
  · cases ht
  · cases ht
    cases hv
  · cases ht
    cases hv
    exact hf _

theorem liftItem_range (no : Nat) (w : Word) : ∀ v, (liftItem no w).value = some v → liftOk v := by
  intro v hv
  unfold liftItem at hv
  split at hv
  · cases hv
  · cases hv
    unfold liftOk clampInt
    omega

theorem takenWidth_ok (x : Nat) : widthOk (takenWidth x) := by
  unfold takenWidth clampNat widthOk
  omega

theorem takenHeight_ok (st : Structure) (x : Nat) : heightOk st (takenHeight st x) := by
  unfold takenHeight clampNat heightOk
  cases st <;> simp only [Structure.lines] <;> omega

theorem clampNat_gain (x : Nat) : gainOk (clampNat 896 1152 x) := by
  unfold clampNat gainOk
  omega

theorem clampNat_le (hi x : Nat) : clampNat 0 hi x ≤ hi := by
  unfold clampNat
  omega

theorem feedConfigItems_inRange (st : Structure) (ws : List Word) (p : Pending) (adj : List (Nat × Nat))
    (h : feedConfigItems ws = some (p, adj)) : p.inRange st := by
  unfold feedConfigItems at h
  split at h
  · next e st' cl ti ho =>
    split at h
    · cases h
      obtain ⟨-, h2, h3, h4, h5, h6, h7, h8, h9, h10, h11, h12, h13, h14, h15⟩ := emptyPending_inRange st
      exact ⟨numItem_range 5 1 250 (by decide) ho, h2, h3, h4, h5, h6, h7, h8, h9, h10, h11, h12, h13, h14, h15⟩
    · cases h
  · cases h

theorem rasterItems_inRange (st : Structure) (ws : List Word) (p : Pending) (adj : List (Nat × Nat))
    (h : rasterItems st ws = some (p, adj)) : p.inRange st := by
  unfold rasterItems at h
  split at h
  · split at h
    · next hw hh _ _ =>
      cases h
      obtain ⟨h1, -, -, h4, h5, h6, h7, h8, h9, h10, h11, h12, h13, h14, h15⟩ := emptyPending_inRange st
      exact ⟨h1, pairTaken_range widthOk _ _ takenWidth_ok _ _ _ hw, pairTaken_range (heightOk st) _ _ (takenHeight_ok st) _ _ _ hh,
        h4, h5, h6, h7, h8, h9, h10, h11, h12, h13, h14, h15⟩
    · cases h
  · cases h

theorem trimItems_inRange (st : Structure) (ws : List Word) (p : Pending) (adj : List (Nat × Nat))
    (h : trimItems ws = some (p, adj)) : p.inRange st := by
  unfold trimItems at h
  split at h
  · split at h
    · next hu hl =>
      cases h
      obtain ⟨h1, h2, h3, -, -, -, -, h8, h9, h10, h11, h12, h13, h14, h15⟩ := emptyPending_inRange st
      exact ⟨h1, h2, h3, pairTaken_range gainOk _ _ clampNat_gain _ _ _ hu, liftItem_range 2 _,
        pairTaken_range gainOk _ _ clampNat_gain _ _ _ hl, liftItem_range 4 _, h8, h9, h10, h11, h12, h13, h14, h15⟩
    · cases h
  · cases h

theorem motionItems_inRange (st : Structure) (ws : List Word) (p : Pending) (adj : List (Nat × Nat))
    (h : motionItems ws = some (p, adj)) : p.inRange st := by
  unfold motionItems at h
  split at h
  · split at h
    · cases h
      obtain ⟨h1, h2, h3, h4, h5, h6, h7, -, -, h10, h11, h12, h13, h14, h15⟩ := emptyPending_inRange st
      exact ⟨h1, h2, h3, h4, h5, h6, h7, fun v hv => (numItem_range 1 0 255 (by decide) _ v hv).2,
        numItem_range 2 1 64 (by decide) _, h10, h11, h12, h13, h14, h15⟩
    · cases h
  · cases h

theorem cadenceItems_inRange (st : Structure) (ws : List Word) (p : Pending) (adj : List (Nat × Nat))
    (h : cadenceItems ws = some (p, adj)) : p.inRange st := by
  unfold cadenceItems at h
  split at h
  · split at h
    · next hr hc _ =>
      cases h
      obtain ⟨h1, h2, h3, h4, h5, h6, h7, h8, h9, -, -, -, -, h14, h15⟩ := emptyPending_inRange st
      exact ⟨h1, h2, h3, h4, h5, h6, h7, h8, h9, numItem_range 1 2 15 (by decide) _,
        fun v hv => (numItem_range 2 0 15 (by decide) _ v hv).2, pairTaken_range _ _ _ (clampNat_le 16383) _ _ _ hr,
        pairTaken_range _ _ _ (clampNat_le 16383) _ _ _ hc, h14, h15⟩
    · cases h
  · cases h

theorem forceItems_inRange (t : CadenceTable) (st : Structure) (ws : List Word) (p : Pending) (adj : List (Nat × Nat))
    (h : forceItems t ws = some (p, adj)) : p.inRange st := by
  unfold forceItems at h
  split at h
  · split at h
    · cases h
      exact emptyPending_inRange st
    · cases h
      exact emptyPending_inRange st
    · split at h
      · split at h
        · cases h
          exact emptyPending_inRange st
        · cases h
      · cases h
    · cases h
  · cases h

theorem watchItems_inRange (st : Structure) (ws : List Word) (p : Pending) (adj : List (Nat × Nat))
    (h : watchItems ws = some (p, adj)) : p.inRange st := by
  unfold watchItems at h
  split at h
  · split at h
    · next hv =>
      obtain ⟨h1, h2, h3, h4, h5, h6, h7, h8, h9, h10, h11, h12, h13, h14, h15⟩ := emptyPending_inRange st
      have hw := pairTaken_range (fun v => v ≤ 16383) _ _ (clampNat_le 16383) _ _ _ hv
      simp only [Option.some.injEq, Prod.mk.injEq] at h
      rw [← h.1]
      split
      · exact ⟨h1, h2, h3, h4, h5, h6, h7, h8, h9, h10, h11, h12, h13, hw, h15⟩
      · exact ⟨h1, h2, h3, h4, h5, h6, h7, h8, h9, h10, h11, h12, h13, h14, hw⟩
    · cases h
  · cases h

/-! ## Closures, field starts, expiries -/

theorem tuned_closureWork (s : State) (n : Feed) (q : Seq) (m : DropoutMap) (hs : s.tunedOk) : (s.closureWork n q m).tunedOk := by
  unfold State.closureWork
  dsimp only
  refine tuned_still (Moves.retain _ n) (tuned_evidenceEvent _ n q (tuned_still ?_ hs))
  exact ((((Moves.enterMap s n q m).trans (Moves.enterMeasures _ n q)).trans (Moves.overflowPoor _ n q)).trans
    (Moves.watchLimit _ n q _ _)).trans (Moves.watchLimit _ n q _ _)

theorem tuned_gapClosureWork (s : State) (n : Feed) (q : Seq) (hs : s.tunedOk) : (s.gapClosureWork n q).tunedOk :=
  tuned_still (Moves.retain _ n) (tuned_evidenceEvent s n q hs)

theorem tuned_closeField (s : State) (n : Feed) (v : Arriving) (hs : s.tunedOk) : (s.closeField n v).tunedOk := by
  unfold State.closeField
  dsimp only
  split
  · exact tuned_gapClosureWork _ n _ (tuned_still (Moves.closeRecord s n _) hs)
  · exact tuned_closureWork _ n _ _ (tuned_still ((Moves.closeRecord s n _).trans (Moves.count _ _ _ _)) hs)

theorem tuned_closeArriving (s : State) (n : Feed) (hs : s.tunedOk) : (s.closeArriving n).tunedOk := by
  unfold State.closeArriving
  split
  · exact hs
  · split
    · exact tuned_closeField _ n _ (tuned_still ((Moves.modifyRecord s n _ _).trans (Moves.raise _ _ _ _)) hs)
    · split
      · exact tuned_closeField s n _ hs
      · exact hs

theorem tuned_openField (s : State) (n : Feed) (p : Parity) (rep : Bool) (hs : s.tunedOk) : (s.openField n p rep).tunedOk := by
  have h : ((s.admitField n p).allocate n (s.lrx.get n).counter p rep).2.tunedOk :=
    tuned_still (Moves.allocate _ n _ p rep) (tuned_setIng _ n _ (tuned_setRx s n _ (Or.inl rfl) hs))
  unfold State.openField
  dsimp only
  split
  · exact tuned_setIng _ n _ h
  · exact tuned_setRx _ n _ (Or.inr (Or.inl rfl)) h

theorem tuned_startWithItems (s : State) (n : Feed) (p : Parity) (items : Pending) (hi : items.inRange (s.settings n).struct)
    (hs : s.tunedOk) : (s.startWithItems n p items).tunedOk := by
  have h0 : (s.setStaged n emptyPending).tunedOk := tuned_setStaged s n _ hs (emptyPending_inRange _) (fun _ => rfl)
  have he : (s.setStaged n emptyPending).cue.staged.get n = emptyPending := by simp
  have h := fun q => tuned_activate (s.setStaged n emptyPending) n items q h0 he hi
  unfold State.startWithItems
  dsimp only
  split
  · exact tuned_enterOff _ n (by rw [activate_staged]; exact he) (h _)
  · split
    · exact tuned_openField _ n p _ (tuned_clearFeed _ n (h _))
    · exact tuned_openField _ n p _ (tuned_still (Moves.checkParity _ n p) (h _))

theorem tuned_receiverFieldStart (s : State) (n : Feed) (p : Parity) (hs : s.tunedOk) : (s.receiverFieldStart n p).tunedOk := by
  unfold State.receiverFieldStart
  split
  · exact tuned_setRx s n _ (Or.inr (Or.inl rfl)) hs
  · exact tuned_openField s n p _ hs
  · exact tuned_openField _ n p _ (tuned_still (Moves.raise s _ _ _) hs)
  · have h := tuned_closeArriving s n hs
    unfold State.startRunning
    dsimp only
    split
    · exact tuned_startWithItems _ n p _ (h.2 n).2.2.1 h
    · exact tuned_openField _ n p _ (tuned_still (Moves.checkParity _ n p) h)

theorem tuned_fieldStarts (s : State) (n : Feed) (p : Parity) (hs : s.tunedOk) : (s.fieldStarts n p).tunedOk :=
  tuned_still ((Moves.outputFieldStart _ n).trans (Moves.handToLoader _ n)) (tuned_receiverFieldStart s n p hs)

theorem tuned_storeLine (s : State) (n : Feed) (v : Arriving) (m : Nat) (l : Line) (hs : s.tunedOk) :
    (s.storeLine n v m l).tunedOk := by
  unfold State.storeLine
  split
  · exact hs
  · split
    · next r t hr ht =>
      clear hr ht
      generalize r.slots = ks
      induction ks generalizing s with
      | nil => exact hs
      | cons k ks ih => exact ih (s.writeLine k m (trimLine t l)) hs
    · exact hs

theorem tuned_activeLineArrives (s : State) (n : Feed) (l : Line) (hs : s.tunedOk) : (s.activeLineArrives n l).tunedOk := by
  unfold State.activeLineArrives
  split
  · exact hs
  · split
    · unfold State.nextLine
      dsimp only
      have h := fun v => tuned_setRx s n { s.lrx.get n with arriving := v } (Or.inr (Or.inl rfl)) hs
      split
      · exact h _
      · split
        · exact tuned_closeField _ n _ (tuned_storeLine _ n _ _ l (h _))
        · exact tuned_storeLine _ n _ _ l (h _)
    · unfold State.surplusLine
      dsimp only
      have h := fun v => tuned_setRx s n { s.lrx.get n with arriving := v } (Or.inr (Or.inl rfl)) hs
      split
      · exact hs
      · split
        · exact h _
        · exact tuned_still ((Moves.modifyRecord _ n _ _).trans (Moves.raise _ _ _ _)) (h _)

theorem tuned_missField (s : State) (n : Feed) (hs : s.tunedOk) : (s.missField n).tunedOk := by
  unfold State.missField
  dsimp only
  refine tuned_setIng _ n _ (tuned_setRx _ n _ (Or.inr (Or.inl rfl)) (tuned_gapClosureWork _ n _ (tuned_setRx _ n _
    (Or.inr (Or.inl rfl)) ?_)))
  exact tuned_still ((Moves.raise _ _ _ _).trans (Moves.count _ _ _ _)) (tuned_setRx _ n _ (Or.inr (Or.inl rfl))
    (tuned_still (Moves.appendMissing s n _ _) hs))

/-- A feed that leaves RUNNING with its pending record emptied. -/
theorem tuned_stops {s t : State} (n : Feed) (hc : t.cad = s.cad) (ho : t.otx = s.otx) (ha : t.cue.active = s.cue.active)
    (hp : t.cue.staged = s.cue.staged.set n emptyPending) (hl : ∀ m, m ≠ n → t.lrx.get m = s.lrx.get m) (hs : s.tunedOk) :
    t.tunedOk := by
  unfold State.tunedOk State.settings
  rw [hc, ho, ha, hp]
  refine ⟨hs.1, fun m => ?_⟩
  by_cases hm : m = n
  · subst hm
    rw [Quad_get_set_same]
    exact ⟨(hs.2 m).1, (hs.2 m).2.1, emptyPending_inRange _, fun _ => rfl, (hs.2 m).2.2.2.2⟩
  · rw [Quad_get_set_other _ _ _ _ hm, hl m hm]
    exact hs.2 m

/-- Entry to DOWN: the pending items are applied and the record is emptied (R13, R171). -/
theorem tuned_goDown (s : State) (n : Feed) (q : Seq) (hs : s.tunedOk) : (s.goDown n q).tunedOk := by
  have hr := tuned_resetTracker s n hs
  unfold State.goDown
  dsimp only
  generalize hv : (s.setRx n { s.lrx.get n with timer := .stopped, state := .down }).raise .feedDown (.feed n) (.sequence q) = v
  obtain ⟨e, -, -, ec, -⟩ := clearFeed_spec v n
  have hcue : v.cue = s.cue := by rw [← hv]; rfl
  have hcad : (v.clearFeed n).cad = (s.resetTracker n).cad := by rw [ec, ← hv]; rfl
  have hlrx : ∀ m, m ≠ n → (v.clearFeed n).lrx.get m = s.lrx.get m := by
    intro m hm
    rw [e, ← hv]
    exact Quad_get_set_other _ _ _ _ hm
  have hotx : (v.clearFeed n).otx = s.otx := by rw [e, ← hv]; rfl
  have hc := clearFeed_cue v n
  generalize v.clearFeed n = u at hcad hlrx hotx hc ⊢
  rw [hcue] at hc
  split
  · have ht : (u.setStaged n emptyPending).tunedOk :=
      tuned_stops n hcad hotx (by rw [setStaged_cue, hc]; rfl) (by rw [setStaged_cue, hc]; rfl) hlrx hr
    refine tuned_applyAtOnce _ n _ (by simp) ?_ ht
    show (u.cue.staged.get n).inRange (u.cue.active.get n).struct
    rw [hc]
    exact (hs.2 n).2.2.1
  · next h =>
    have he : u.cue.staged.get n = emptyPending := by simpa [Pending.holdsItem] using h
    refine tuned_stops n hcad hotx (by rw [hc]; rfl) ?_ hlrx hr
    rw [← he]
    simp [hc, State.resetTracker]

theorem tuned_missingFieldExpires (s : State) (n : Feed) (hs : s.tunedOk) : (s.missingFieldExpires n).tunedOk := by
  unfold State.missingFieldExpires
  split
  · refine tuned_still ((Moves.outputExpiry _ n).trans (Moves.handToLoader _ n)) ?_
    have h := tuned_missField _ n (tuned_closeArriving s n hs)
    unfold State.receiverExpiry
    dsimp only
    split
    · exact tuned_goDown _ n _ h
    · exact h
  · exact hs

theorem tuned_takeMapPacket (s : State) (n : Feed) (p : Packet) (hs : s.tunedOk) : (s.takeMapPacket n p).tunedOk := by
  unfold State.takeMapPacket
  split
  · exact hs
  · next h =>
    clear h
    split
    · generalize mapEntriesOf p.payload = es
      induction es generalizing s with
      | nil => exact hs
      | cons e es ih =>
        refine ih _ ?_
        unfold State.takeMapEntry
        split
        · exact hs
        · dsimp only
          split
          · exact tuned_setIng _ n _ (tuned_setRx s n _ (Or.inr (Or.inl rfl)) hs)
          · exact tuned_still (Moves.mapOverflow s n _) hs
    · exact hs

/-! ## Restarts (R173, R174) -/

theorem powerOnSettings_inRange : powerOnSettings.inRange := by decide

theorem powerOnTransmitter_repeatsOk : powerOnTransmitter.repeatsOk := by decide

/-- The blocks at their power-on values, over any cadence table that is its programs'. -/
theorem tuned_powerOn (s : State) (ht : s.cad.table = CadenceTable.ofPrograms s.cad.table.programs)
    (hc : s.cad = powerOnTrackers s.cad.table) (ha : s.cue.active = Quad.all powerOnSettings)
    (hp : s.cue.staged = Quad.all emptyPending) (ho : ∀ n : Feed, (s.otx.get n).repeatsOk) : s.tunedOk := by
  refine ⟨ht, fun n => ?_⟩
  have ek : s.cad.trackers.get n = ⟨.seeking, makeHyps s.cad.table powerOnSettings.mask⟩ := by
    rw [hc]
    exact Quad_get_all _ n
  rw [State.settings, ha, hp, ek]
  simp only [Quad_get_all]
  exact ⟨ho n, powerOnSettings_inRange, emptyPending_inRange _, fun _ => trivial, makeHyps_ok _ _, rfl⟩

theorem tuned_deviceRestarts (s : State) (d : Straps) (hs : s.tunedOk) : (s.deviceRestarts d).tunedOk := by
  refine tuned_powerOn _ hs.1 rfl rfl rfl (fun n => ?_)
  unfold State.deviceRestarts
  fin_cases n <;> exact powerOnTransmitter_repeatsOk

theorem tuned_released (s : State) (d : Straps) : (s.released d).tunedOk := by
  have e : (s.released d).cad = powerOnTrackers (CadenceTable.ofPrograms powerOnPrograms) := rfl
  refine tuned_powerOn (s.released d) (by rw [e]; rfl) (by rw [e]; rfl) rfl rfl (fun n => ?_)
  show ((Quad.all powerOnTransmitter).get n).repeatsOk
  rw [Quad_get_all]
  exact powerOnTransmitter_repeatsOk

theorem tuned_powersOn (s : State) (d : Straps) : (s.powersOn d).tunedOk := by
  have h := tuned_released s d
  unfold State.powersOn State.allFrameStarts
  generalize s.released d = u at h ⊢
  exact tuned_still (Moves.foldl State.frameStart (fun t n => Moves.frameStart t n) feeds u) h

theorem tuned_holdsReset (s : State) (hs : s.tunedOk) : s.holdsReset.tunedOk := by
  refine ⟨hs.1, fun n => ⟨?_, (hs.2 n).2⟩⟩
  have h := (hs.2 n).1
  unfold State.holdsReset
  revert h
  fin_cases n <;> exact id

theorem tuned_feedRestarts (s : State) (n : Feed) (hs : s.tunedOk) : (s.feedRestarts n).tunedOk := by
  have h0 : (s.setStaged n emptyPending).tunedOk := tuned_setStaged s n _ hs (emptyPending_inRange _) (fun _ => rfl)
  have h1 : ((s.setStaged n emptyPending).restartReceiver n).tunedOk :=
    tuned_setIng _ n _ (tuned_setRx _ n _ (Or.inr (Or.inr (by simp))) h0)
  exact tuned_still ((Moves.outputFeedRestart _ n _).trans (Moves.clearNoticeFeed _ n)) (tuned_clearFeed _ n h1)

/-! ## Cues -/

theorem tuned_takeCue (s : State) (n : Feed) (code : Word) (c : CueWords) (lengthOk : Nat → Bool) (rule : ScopeRule)
    (run : Scope → State → Answer × State) (h : ∀ sc, (run sc s).2.tunedOk) (hs : s.tunedOk) :
    (s.takeCue n code c lengthOk rule run).tunedOk := by
  unfold State.takeCue
  split
  · exact hs
  · split
    · exact tuned_still (Moves.discardCue s n _) hs
    · split
      · exact tuned_still (Moves.answer s n code c _) hs
      · split
        · exact tuned_still (Moves.answer s n code c _) hs
        · exact tuned_still (Moves.answer _ n code c _) (h _)

theorem tuned_takeUnknownCue (s : State) (n : Feed) (code : Word) (c : CueWords) (hs : s.tunedOk) :
    (s.takeUnknownCue n code c).tunedOk := by
  unfold State.takeUnknownCue
  split
  · exact hs
  · split
    · exact tuned_still (Moves.discardCue s n _) hs
    · exact tuned_still (Moves.answer s n code c _) hs

theorem tuned_settingsCue (s : State) (n : Feed) (code : Word) (len : Nat) (c : CueWords)
    (items : Feed → State → Option (Pending × List (Nat × Nat)))
    (hi : ∀ m p adj, items m s = some (p, adj) → p.inRange (s.settings m).struct) (hs : s.tunedOk) :
    (s.settingsCue n code len c items).tunedOk := by
  refine tuned_takeCue s n code c _ _ _ (fun sc => ?_) hs
  unfold State.carrySettings
  split
  · exact hs
  · split
    · exact hs
    · next h => exact tuned_stageOrApply s _ _ (hi _ _ _ h) hs

theorem tuned_cueFeedRestart (s : State) (n : Feed) (c : CueWords) (hs : s.tunedOk) : (s.cueFeedRestart n c).tunedOk := by
  refine tuned_takeCue s n _ c _ _ _ (fun sc => ?_) hs
  cases sc with
  | device => exact hs
  | feed m => exact tuned_feedRestarts s m hs

theorem tuned_cueTableOpen (s : State) (n : Feed) (c : CueWords) (hs : s.tunedOk) : (s.cueTableOpen n c).tunedOk := by
  refine tuned_takeCue s n _ c _ _ _ (fun sc => ?_) hs
  unfold State.carryTableOpen
  split
  · exact hs
  · exact tuned_still (Moves.openLoad s _ _) hs

theorem tuned_cueTablePart (s : State) (n : Feed) (c : CueWords) (hs : s.tunedOk) : (s.cueTablePart n c).tunedOk := by
  refine tuned_takeCue s n _ c _ _ _ (fun sc => ?_) hs
  unfold State.carryTablePart
  split
  · exact hs
  · exact tuned_still (Moves.takePart s _ _ _) hs

theorem tuned_cueNoticeSet (s : State) (n : Feed) (c : CueWords) (hs : s.tunedOk) : (s.cueNoticeSet n c).tunedOk := by
  refine tuned_takeCue s n _ c _ _ _ (fun sc => ?_) hs
  unfold State.carryNoticeSet
  split <;> exact hs

theorem tuned_cueReportSet (s : State) (n : Feed) (c : CueWords) (hs : s.tunedOk) : (s.cueReportSet n c).tunedOk := by
  refine tuned_takeCue s n _ c _ _ _ (fun sc => ?_) hs
  unfold State.carryReportSet
  split <;> exact hs

theorem tuned_cueSnapshot (s : State) (n : Feed) (c : CueWords) (hs : s.tunedOk) : (s.cueSnapshot n c).tunedOk := by
  refine tuned_takeCue s n _ c _ _ _ (fun sc => ?_) hs
  unfold State.carrySnapshot State.latchCounters
  split
  · exact hs
  · split
    · exact hs
    · dsimp only
      split <;> cases sc <;> exact hs

theorem tuned_cueStatusQuery (s : State) (n : Feed) (c : CueWords) (hs : s.tunedOk) : (s.cueStatusQuery n c).tunedOk := by
  refine tuned_takeCue s n _ c _ _ _ (fun sc => ?_) hs
  unfold State.latchStatus
  split
  · exact hs
  · cases sc <;> exact hs

theorem tuned_cueByCode (s : State) (n : Feed) (code : Word) (c : CueWords) (d : Straps) (hs : s.tunedOk) :
    (s.cueByCode n code c d).tunedOk := by
  unfold State.cueByCode
  split
  · exact tuned_settingsCue s n _ _ c _ (fun _ => feedConfigItems_inRange _ _) hs
  · exact tuned_settingsCue s n _ _ c _ (fun _ => rasterItems_inRange _ _) hs
  · exact tuned_settingsCue s n _ _ c _ (fun _ => trimItems_inRange _ _) hs
  · exact tuned_settingsCue s n _ _ c _ (fun _ => motionItems_inRange _ _) hs
  · exact tuned_settingsCue s n _ _ c _ (fun _ => cadenceItems_inRange _ _) hs
  · exact tuned_settingsCue s n _ _ c _ (fun _ => forceItems_inRange _ _ _) hs
  · exact tuned_settingsCue s n _ _ c _ (fun _ => watchItems_inRange _ _) hs
  · exact tuned_cueFeedRestart s n c hs
  · exact tuned_cueTableOpen s n c hs
  · exact tuned_cueTablePart s n c hs
  · exact tuned_takeCue s n _ c _ _ _ (fun _ => tuned_still (Moves.abandonLoad s) hs) hs
  · exact tuned_cueNoticeSet s n c hs
  · exact tuned_cueReportSet s n c hs
  · exact tuned_cueSnapshot s n c hs
  · exact tuned_cueStatusQuery s n c hs
  · exact tuned_takeCue s n _ c _ _ _ (fun _ => tuned_deviceRestarts s d hs) hs
  · exact tuned_takeUnknownCue s n code c hs

theorem tuned_blankingLine (s : State) (n : Feed) (ws : List Word) (d : Straps) (hs : s.tunedOk) :
    (s.blankingLine n ws d).tunedOk := by
  unfold State.blankingLine
  generalize framePackets ws.length ws = fs
  induction fs generalizing s with
  | nil => exact hs
  | cons f fs ih =>
    refine ih _ ?_
    unfold State.takeFound
    split
    · unfold State.routePacket
      dsimp only
      split
      · split
        · exact tuned_cueByCode _ n _ _ d (tuned_still (Moves.appendCarry s n _) hs)
        · split
          · exact tuned_cueByCode s n _ _ d hs
          · exact tuned_still (Moves.appendCarry s n _) hs
      · split
        · exact tuned_takeMapPacket s n _ hs
        · exact tuned_still (Moves.appendCarry s n _) hs
    · unfold State.routeCut
      split
      · split
        · exact tuned_still (Moves.discardCue s n _) hs
        · exact hs
      · exact hs

end Sys2Proof.Machine
end

