-- ==== Sys2Proof/Laws/Memory.lean ====
section
/-! SUPPORT. The external memory: what a read gives after a write or after words have gone wrong, and that every operation
keeps the canonical form. -/

namespace Sys2Proof.Machine

/-! ## Ascending lists -/

theorem mem_insertAscending (w x : Nat) (l : List Nat) : x ∈ insertAscending w l ↔ x = w ∨ x ∈ l := by
  induction l with
  | nil => simp [insertAscending]
  | cons v t ih =>
    unfold insertAscending
    split
    · simp
    · split
      · next h => subst h; simp
      · simp only [List.mem_cons, ih]; tauto

theorem insertAscending_sorted (w : Nat) (l : List Nat) (h : l.Pairwise (fun a b => a < b)) :
    (insertAscending w l).Pairwise (fun a b => a < b) := by
  induction l with
  | nil => simp [insertAscending]
  | cons v t ih =>
    rw [List.pairwise_cons] at h
    unfold insertAscending
    split
    · next hw =>
      refine List.pairwise_cons.2 ⟨?_, List.pairwise_cons.2 h⟩
      intro x hx
      rcases List.mem_cons.1 hx with rfl | hx
      · exact hw
      · exact lt_trans hw (h.1 x hx)
    · split
      · exact List.pairwise_cons.2 h
      · next h1 h2 =>
        refine List.pairwise_cons.2 ⟨?_, ih h.2⟩
        intro x hx
        rcases (mem_insertAscending w x t).1 hx with rfl | hx
        · omega
        · exact h.1 x hx

/-! ## Reads -/

theorem memRead_memWrite_same (a : Nat) (l : Line) (m : Memory) : memRead a (memWrite a l m) = some ⟨l, []⟩ := by
  induction m with
  | nil => simp [memWrite, memRead]
  | cons c t ih =>
    obtain ⟨b, x⟩ := c
    unfold memWrite
    split
    · simp [memRead]
    · split
      · simp [memRead]
      · next h1 h2 => simp only [memRead]; rw [if_neg (fun h => h2 h.symm)]; exact ih

theorem memRead_memWrite_other (a b : Nat) (l : Line) (m : Memory) (h : b ≠ a) :
    memRead b (memWrite a l m) = memRead b m := by
  induction m with
  | nil => simp [memWrite, memRead, Ne.symm h]
  | cons c t ih =>
    obtain ⟨e, x⟩ := c
    unfold memWrite
    split
    · simp [memRead, Ne.symm h]
    · split
      · next h1 h2 => subst h2; simp [memRead, Ne.symm h]
      · simp only [memRead, ih]

/-- Words that go wrong leave what was written as it was; the store's check meets them at the next read. -/
theorem memRead_memUpset (a w b : Nat) (m : Memory) :
    memRead b (memUpset a w m) =
      (memRead b m).map (fun x => if b = a then { x with wrong := insertAscending w x.wrong } else x) := by
  induction m with
  | nil => rfl
  | cons c t ih =>
    obtain ⟨e, x⟩ := c
    unfold memUpset at ih ⊢
    by_cases h : e = a
    · subst h
      simp only [List.map_cons, if_true, memRead]
      by_cases hb : e = b
      · subst hb; simp
      · simp only [hb, if_false]; exact ih
    · simp only [List.map_cons, h, if_false, memRead]
      by_cases hb : e = b
      · subst hb; simp [h]
      · simp only [hb, if_false]; exact ih

theorem lineAt_memUpset (a w : Nat) (k : Fin 24) (i : Nat) (m : Memory) : lineAt (memUpset a w m) k i = lineAt m k i := by
  unfold lineAt
  rw [memRead_memUpset]
  cases memRead (areaKey k i) m with
  | none => rfl
  | some x => by_cases h : areaKey k i = a <;> simp [h]

/-- The line that a read delivers is not changed by words going wrong (R37). -/
theorem lineAt_upset (s : State) (us : List Upset) (k : Fin 24) (i : Nat) :
    lineAt (s.upset us).fst.mem k i = lineAt s.fst.mem k i := by
  have h : ∀ (us : List Upset) (m : Memory),
      lineAt (us.foldl (fun m u => memUpset (areaKey u.slot u.line.val) u.word.val m) m) k i = lineAt m k i := by
    intro us
    induction us with
    | nil => intro m; rfl
    | cons u t ih => intro m; rw [List.foldl_cons, ih, lineAt_memUpset]
  exact h us s.fst.mem

theorem upset_nil (s : State) : s.upset [] = s := rfl

theorem lineAt_memWrite (k k' : Fin 24) (i i' : Nat) (l : Line) (m : Memory) :
    lineAt (memWrite (areaKey k i) l m) k' i' = if areaKey k' i' = areaKey k i then l else lineAt m k' i' := by
  unfold lineAt
  by_cases h : areaKey k' i' = areaKey k i
  · rw [h, memRead_memWrite_same]; simp
  · rw [memRead_memWrite_other _ _ _ _ h]; simp [h]

theorem wrongAt_memWrite (k k' : Fin 24) (i i' : Nat) (l : Line) (m : Memory) :
    wrongAt (memWrite (areaKey k i) l m) k' i' = if areaKey k' i' = areaKey k i then [] else wrongAt m k' i' := by
  unfold wrongAt
  by_cases h : areaKey k' i' = areaKey k i
  · rw [h, memRead_memWrite_same]; simp
  · rw [memRead_memWrite_other _ _ _ _ h]; simp [h]

/-- Two line areas are one only where slot and line are the same. -/
theorem areaKey_inj (k k' : Fin 24) (i i' : Nat) (h : i < 288) (h' : i' < 288) (e : areaKey k i = areaKey k' i') :
    k = k' ∧ i = i' := by
  unfold areaKey at e
  have h1 : k.val = k'.val := by omega
  exact ⟨Fin.ext h1, by omega⟩

theorem areaKey_lt (k : Fin 24) (i : Nat) (h : i < 288) : areaKey k i < 6912 := by
  unfold areaKey
  have := k.isLt
  omega

/-! ## The canonical form -/

theorem wf_nil : Memory.wf [] := ⟨List.Pairwise.nil, by simp⟩

theorem mem_memWrite (a : Nat) (l : Line) (m : Memory) (c : Nat × StoredLine) (h : c ∈ memWrite a l m) :
    c = (a, ⟨l, []⟩) ∨ c ∈ m := by
  induction m with
  | nil => simpa [memWrite] using h
  | cons d t ih =>
    obtain ⟨b, x⟩ := d
    unfold memWrite at h
    split at h
    · simpa using h
    · split at h
      · rcases List.mem_cons.1 h with h | h
        · exact Or.inl h
        · exact Or.inr (List.mem_cons_of_mem _ h)
      · rcases List.mem_cons.1 h with h | h
        · exact Or.inr (h ▸ List.mem_cons_self)
        · rcases ih h with h | h
          · exact Or.inl h
          · exact Or.inr (List.mem_cons_of_mem _ h)

/-- A write keeps the canonical form. -/
theorem memWrite_wf (a : Nat) (l : Line) (m : Memory) (ha : a < 6912) (h : Memory.wf m) : Memory.wf (memWrite a l m) := by
  refine ⟨?_, ?_⟩
  · have hp := h.1
    clear h
    induction m with
    | nil => simp [memWrite]
    | cons d t ih =>
      obtain ⟨b, x⟩ := d
      rw [List.pairwise_cons] at hp
      unfold memWrite
      split
      · next hab =>
        refine List.pairwise_cons.2 ⟨?_, List.pairwise_cons.2 hp⟩
        intro c hc
        rcases List.mem_cons.1 hc with rfl | hc
        · exact hab
        · exact lt_trans hab (hp.1 c hc)
      · split
        · next h1 h2 =>
          subst h2
          exact List.pairwise_cons.2 hp
        · next h1 h2 =>
          refine List.pairwise_cons.2 ⟨?_, ih hp.2⟩
          intro c hc
          rcases mem_memWrite a l t c hc with rfl | hc
          · show b < a
            omega
          · exact hp.1 c hc
  · intro c hc
    rcases mem_memWrite a l m c hc with rfl | hc
    · exact ⟨ha, List.Pairwise.nil, by simp⟩
    · exact h.2 c hc

/-- A word going wrong keeps the canonical form. -/
theorem memUpset_wf (a w : Nat) (m : Memory) (hw : w < 1440) (h : Memory.wf m) : Memory.wf (memUpset a w m) := by
  refine ⟨?_, ?_⟩
  · have : (memUpset a w m).map (·.1) = m.map (·.1) := by
      unfold memUpset
      rw [List.map_map]
      refine List.map_congr_left (fun c _ => ?_)
      simp only [Function.comp]
      split <;> rfl
    have h1 := (List.pairwise_map (f := fun c : Nat × StoredLine => c.1) (R := fun a b => a < b) (l := m)).2 h.1
    rw [← this] at h1
    exact (List.pairwise_map (f := fun c : Nat × StoredLine => c.1) (R := fun a b => a < b)).1 h1
  · intro c hc
    unfold memUpset at hc
    obtain ⟨d, hd, rfl⟩ := List.mem_map.1 hc
    have := h.2 d hd
    split
    · refine ⟨this.1, insertAscending_sorted w _ this.2.1, ?_⟩
      intro x hx
      rcases (mem_insertAscending w x _).1 hx with rfl | hx
      · exact hw
      · exact this.2.2 x hx
    · exact this

/-- Words going wrong before a command keep the canonical form. -/
theorem upset_wf (s : State) (us : List Upset) (h : Memory.wf s.fst.mem) : Memory.wf (s.upset us).fst.mem := by
  have hh : ∀ (us : List Upset) (m : Memory), Memory.wf m →
      Memory.wf (us.foldl (fun m u => memUpset (areaKey u.slot u.line.val) u.word.val m) m) := by
    intro us
    induction us with
    | nil => intro m hm; exact hm
    | cons u t ih => intro m hm; exact ih _ (memUpset_wf _ _ m u.word.isLt hm)
  exact hh us s.fst.mem h

theorem writeLine_wf (s : State) (k : Fin 24) (m : Nat) (l : Line) (hm : m < 288) (h : Memory.wf s.fst.mem) :
    Memory.wf (s.writeLine k m l).fst.mem := memWrite_wf _ l _ (areaKey_lt k m hm) h

/-- Right after reset the external memory has the canonical form. -/
theorem reset_wf : Memory.wf State.reset.fst.mem := wf_nil

end Sys2Proof.Machine
end

