-- ==== Sys2Proof/Laws/Slots.lean ====
section
/-! SUPPORT. The ownership of slots: each operation of the field store, said once for what it does to the slots that the
records name (R21, R25, R26). -/

namespace Sys2Proof.Machine

/-! ## Slots and names -/

/-- No slot is named twice, a named slot is in the state it is named with, and a slot that is not FREE is named. -/
def Owned (sl : Fin 24 → Slot) (l : List (Fin 24 × Slot)) : Prop :=
  (l.map Prod.fst).Nodup ∧ (∀ x ∈ l, sl x.1 = x.2) ∧ ∀ k, sl k = .free ∨ k ∈ l.map Prod.fst

theorem Owned.perm {sl : Fin 24 → Slot} {l m : List (Fin 24 × Slot)} (h : Owned sl l) (p : l.Perm m) : Owned sl m :=
  ⟨(p.map Prod.fst).nodup_iff.mp h.1, fun x hx => h.2.1 x (p.mem_iff.mpr hx), fun k =>
    (h.2.2 k).imp_right (fun hk => (p.map Prod.fst).mem_iff.mp hk)⟩

/-- Slots that are no longer named become FREE. -/
theorem Owned.drop {sl sl' : Fin 24 → Slot} {l g : List (Fin 24 × Slot)} (h : Owned sl (g ++ l))
    (e : ∀ k, sl' k = if k ∈ g.map Prod.fst then .free else sl k) : Owned sl' l := by
  obtain ⟨h1, h2, h3⟩ := h
  rw [List.map_append, List.nodup_append] at h1
  refine ⟨h1.2.1, fun x hx => ?_, fun k => ?_⟩
  · have hn : x.1 ∉ g.map Prod.fst := fun hg => h1.2.2 _ hg _ (List.mem_map_of_mem hx) rfl
    rw [e, if_neg hn]
    exact h2 x (by simp [hx])
  · rw [e]
    split
    · exact Or.inl rfl
    · next hn =>
      refine (h3 k).imp_right (fun hk => ?_)
      rw [List.map_append, List.mem_append] at hk
      exact hk.resolve_left hn

/-- A FREE slot is named. -/
theorem Owned.add {sl sl' : Fin 24 → Slot} {l : List (Fin 24 × Slot)} (h : Owned sl l) (hn : ∀ x ∈ l, x.2 ≠ .free)
    (k : Fin 24) (v : Slot) (hk : sl k = .free) (e : ∀ j, sl' j = if j = k then v else sl j) : Owned sl' ((k, v) :: l) := by
  obtain ⟨h1, h2, h3⟩ := h
  have hnot : k ∉ l.map Prod.fst := by
    intro hm
    obtain ⟨x, hx, rfl⟩ := List.mem_map.mp hm
    exact hn x hx ((h2 x hx).symm.trans hk)
  refine ⟨?_, ?_, ?_⟩
  · rw [List.map_cons, List.nodup_cons]
    exact ⟨hnot, h1⟩
  · intro x hx
    rcases List.mem_cons.mp hx with rfl | hx
    · rw [e, if_pos rfl]
    · have : x.1 ≠ k := fun h => hnot (h ▸ List.mem_map_of_mem hx)
      rw [e, if_neg this]
      exact h2 x hx
  · intro j
    rw [e]
    by_cases hj : j = k
    · right; simp [hj]
    · rw [if_neg hj]
      exact (h3 j).imp_right (fun h => List.mem_cons_of_mem _ h)

/-- Named slots change their state together with the names. -/
theorem Owned.move {sl sl' : Fin 24 → Slot} {l : List (Fin 24 × Slot)} {ks : List (Fin 24)} {f : Fin 24 → Slot} {v : Slot}
    (h : Owned sl (ks.map (fun k => (k, f k)) ++ l)) (e : ∀ j, sl' j = if j ∈ ks then v else sl j) :
    Owned sl' (ks.map (fun k => (k, v)) ++ l) := by
  obtain ⟨h1, h2, h3⟩ := h
  have e1 : ∀ g : Fin 24 → Slot, (ks.map (fun k => (k, g k))).map Prod.fst = ks := by
    intro g; simp [Function.comp_def]
  have e2 := e1 f
  have e3 := e1 (fun _ => v)
  rw [List.map_append, e2] at h1
  refine ⟨by rw [List.map_append, e3]; exact h1, ?_, ?_⟩
  · intro x hx
    rw [e]
    rcases List.mem_append.mp hx with hx | hx
    · obtain ⟨k, hk, rfl⟩ := List.mem_map.mp hx
      rw [if_pos hk]
    · have : x.1 ∉ ks := fun hk => (List.nodup_append.mp h1).2.2 _ hk _ (List.mem_map_of_mem hx) rfl
      rw [if_neg this]
      exact h2 x (by simp [hx])
  · intro j
    rw [e]
    have := h3 j
    rw [List.map_append, e2] at this
    rw [List.map_append, e3]
    split
    · next hj => right; simp [hj]
    · exact this

/-! ## The slots after an update -/

theorem slot_setSlot (s : State) (h : s.slotsOk) (k j : Fin 24) (v : Slot) :
    (s.setSlot k v).slot j = if j = k then v else s.slot j := by
  have hk : k.val < s.fst.slots.length := by rw [h]; exact k.isLt
  unfold State.slot State.setSlot
  by_cases hj : j = k
  · subst hj
    simp [List.getD_eq_getElem?_getD, hk]
  · have : k.val ≠ j.val := fun h => hj (Fin.ext h.symm)
    simp [List.getD_eq_getElem?_getD, this, hj]

theorem setSlot_slotsOk (s : State) (h : s.slotsOk) (k : Fin 24) (v : Slot) : (s.setSlot k v).slotsOk := by
  unfold State.slotsOk at *
  simp [h]

/-- Slots set to one state, in a row. -/
theorem setSlots_slot (v : Slot) (ks : List (Fin 24)) (s : State) (h : s.slotsOk) :
    (ks.foldl (fun t k => t.setSlot k v) s).slotsOk ∧
      ∀ j, (ks.foldl (fun t k => t.setSlot k v) s).slot j = if j ∈ ks then v else s.slot j := by
  induction ks generalizing s with
  | nil => exact ⟨h, fun j => by simp⟩
  | cons k t ih =>
    obtain ⟨i1, i2⟩ := ih (s.setSlot k v) (setSlot_slotsOk s h k v)
    refine ⟨i1, fun j => ?_⟩
    rw [List.foldl_cons, i2, slot_setSlot s h]
    by_cases h1 : j ∈ t
    · simp [h1]
    · by_cases h2 : j = k <;> simp [h1, h2]

/-- Released slots are FREE, the others stay. -/
theorem releaseSlots_slot (s : State) (h : s.slotsOk) (ks : List (Fin 24)) :
    (s.releaseSlots ks).slotsOk ∧ ∀ j, (s.releaseSlots ks).slot j = if j ∈ ks then .free else s.slot j := by
  unfold State.releaseSlots
  split
  · next hn => exact ⟨h, fun j => by simp [List.isEmpty_iff.mp hn]⟩
  · have := setSlots_slot .free ks s h
    unfold State.checkLeaving
    split
    · exact this
    · exact this

/-! ## The slots that a history names -/

/-- The slots that the other histories and the detached records name. -/
def State.others (s : State) (n : Feed) : List (Fin 24 × Slot) :=
  feeds.flatMap (fun m => if m = n then [] else namedBy m (s.history m)) ++ s.retiringNames

theorem namings_perm (s : State) (n : Feed) : s.namings.Perm (namedBy n (s.history n) ++ s.others n) := by
  unfold State.namings State.others feeds
  fin_cases n <;> simp [List.flatMap_cons]
  · exact List.perm_append_comm_assoc _ _ _
  · exact ((List.perm_append_comm_assoc _ _ _).append_left _).trans (List.perm_append_comm_assoc _ _ _)
  · exact ((((List.perm_append_comm_assoc _ _ _).append_left _).trans
      (List.perm_append_comm_assoc _ _ _)).append_left _).trans (List.perm_append_comm_assoc _ _ _)

/-- The other names stay where the other histories, the detached records and the feed in service stay. -/
theorem others_congr {s t : State} (n : Feed) (h : ∀ m, m ≠ n → t.history m = s.history m)
    (hd : t.fst.detached = s.fst.detached)
    (hs : t.fen.service.map (fun v => v.job.feed) = s.fen.service.map (fun v => v.job.feed)) : t.others n = s.others n := by
  have e : t.retiringNames = s.retiringNames := by
    unfold State.retiringNames
    rw [hd]
    cases h1 : t.fen.service <;> cases h2 : s.fen.service <;> simp [h1, h2] at hs ⊢
    rw [hs]
  unfold State.others
  rw [e]
  congr 1
  refine List.flatMap_congr (fun m _ => ?_)
  split
  · rfl
  · next hm => rw [h m hm]

theorem namings_congr {s t : State} (h : ∀ m, t.history m = s.history m)
    (hd : t.fst.detached = s.fst.detached)
    (hs : t.fen.service.map (fun v => v.job.feed) = s.fen.service.map (fun v => v.job.feed)) :
    (∀ x, x ∈ t.namings ↔ x ∈ s.namings) ∧ t.namings.Perm s.namings := by
  have := others_congr 0 (fun m _ => h m) hd hs
  have p := namings_perm t 0
  rw [h 0, this] at p
  have p := p.trans (namings_perm s 0).symm
  exact ⟨fun x => p.mem_iff, p⟩

theorem slotState_ne_free (n : Feed) (r : FieldRecord) : r.slotState n ≠ .free := by
  unfold FieldRecord.slotState
  cases r.state <;> simp

/-- A record names its slots FILLING or HELD, a detached one RETIRING: never FREE. -/
theorem namings_ne_free (s : State) : ∀ x ∈ s.namings, x.2 ≠ .free := by
  intro x hx
  unfold State.namings at hx
  rcases List.mem_append.mp hx with hx | hx
  · obtain ⟨n, _, hx⟩ := List.mem_flatMap.mp hx
    obtain ⟨r, _, hx⟩ := List.mem_flatMap.mp hx
    obtain ⟨k, _, rfl⟩ := List.mem_map.mp hx
    exact slotState_ne_free n r
  · unfold State.retiringNames at hx
    split at hx
    · simp at hx
    · obtain ⟨r, _, hx⟩ := List.mem_flatMap.mp hx
      obtain ⟨k, _, rfl⟩ := List.mem_map.mp hx
      simp

theorem namedBy_append (n : Feed) (a b : List FieldRecord) : namedBy n (a ++ b) = namedBy n a ++ namedBy n b :=
  List.flatMap_append

theorem namedBy_cons (n : Feed) (r : FieldRecord) (l : List FieldRecord) :
    namedBy n (r :: l) = r.slots.map (fun k => (k, r.slotState n)) ++ namedBy n l := List.flatMap_cons

/-- The names of a history depend on the slots and the states of its records alone. -/
theorem namedBy_map (n : Feed) (f : FieldRecord → FieldRecord) (l : List FieldRecord)
    (h : ∀ r ∈ l, (f r).slots = r.slots ∧ (f r).state = r.state) : namedBy n (l.map f) = namedBy n l := by
  unfold namedBy
  rw [List.flatMap_map]
  refine List.flatMap_congr (fun r hr => ?_)
  rw [(h r hr).1]
  unfold FieldRecord.slotState
  rw [(h r hr).2]

/-! ## The numbers of a history -/

/-- A history of at most 8 records, their numbers the last ones consumed before c, in order. -/
def numbered (c : Seq) (h : List FieldRecord) : Prop :=
  h.length ≤ 8 ∧ h.map (fun r => r.seq) = (List.range h.length).map (fun i => c - BitVec.ofNat 16 (h.length - i))

theorem numbered_congr {c : Seq} {h g : List FieldRecord} (k : numbered c h)
    (e : g.map (fun r => r.seq) = h.map (fun r => r.seq)) : numbered c g := by
  have l : g.length = h.length := by simpa using congrArg List.length e
  unfold numbered
  rw [l, e]
  exact k

theorem numbered_suffix {c : Seq} {h g : List FieldRecord} (k : numbered c h)
    (e : (g.map (fun r => r.seq)).IsSuffix (h.map (fun r => r.seq))) : numbered c g := by
  obtain ⟨p, e⟩ := e
  have l : p.length + g.length = h.length := by simpa using congrArg List.length e
  obtain ⟨k1, k2⟩ := k
  refine ⟨by omega, ?_⟩
  have : g.map (fun r => r.seq) = (h.map (fun r => r.seq)).drop p.length := by rw [← e]; simp
  rw [this, k2]
  apply List.ext_getElem
  · simp; omega
  · intro i h1 h2
    simp only [List.getElem_drop, List.getElem_map, List.getElem_range]
    congr 2
    have : (h.map (fun r => r.seq)).length = h.length := by simp
    omega

theorem numbered_append {c : Seq} {h : List FieldRecord} (k : numbered c h) (l : h.length < 8) (r : FieldRecord)
    (e : r.seq = c) : numbered (c + 1) (h ++ [r]) := by
  obtain ⟨_, k2⟩ := k
  refine ⟨by simp; omega, ?_⟩
  rw [List.map_append, k2]
  simp only [List.length_append, List.length_singleton, List.map_cons, List.map_nil, List.range_succ, List.map_append]
  congr 1
  · refine List.map_congr_left (fun i hi => ?_)
    have : i < h.length := by simpa using hi
    have e : h.length + 1 - i = (h.length - i) + 1 := by omega
    rw [e, BitVec.ofNat_add]
    generalize BitVec.ofNat 16 (h.length - i) = x
    simp
  · rw [e]
    simp

theorem numbered_nodup {c : Seq} {h : List FieldRecord} (k : numbered c h) : (h.map (fun r => r.seq)).Nodup := by
  obtain ⟨k1, k2⟩ := k
  rw [k2]
  refine List.Nodup.map_on ?_ List.nodup_range
  intro x hx y hy e
  have hx : x < h.length := by simpa using hx
  have hy : y < h.length := by simpa using hy
  have : BitVec.ofNat 16 (h.length - x) = BitVec.ofNat 16 (h.length - y) := by
    simpa using e
  have := congrArg BitVec.toNat this
  simp only [BitVec.toNat_ofNat] at this
  omega

/-! ## What an operation keeps -/

theorem storeOkAt_iff (s : State) (c : Feed → Seq) :
    s.storeOkAt c ↔ s.slotsOk ∧ Owned s.slot s.namings ∧ (s.fen.service = none → s.fst.detached = []) ∧
      ∀ n : Feed, numbered (c n) (s.history n) := by
  unfold State.storeOkAt Owned numbered
  tauto

/-- The feed of the job in service. -/
abbrev State.servedFeed (s : State) : Option Feed := s.fen.service.map (fun v => v.job.feed)

/-- The operation consumes no number, and what agrees with the numbers consumed goes on to. -/
def Keeps (s t : State) : Prop :=
  (∀ n : Feed, (t.lrx.get n).counter = (s.lrx.get n).counter) ∧ ∀ c, s.storeOkAt c → t.storeOkAt c

theorem Keeps.refl (s : State) : Keeps s s := ⟨fun _ => rfl, fun _ h => h⟩

theorem Keeps.trans {s t u : State} (h : Keeps s t) (k : Keeps t u) : Keeps s u :=
  ⟨fun n => (k.1 n).trans (h.1 n), fun c hc => k.2 c (h.2 c hc)⟩

theorem served_none {s t : State} (h : t.servedFeed = s.servedFeed) : t.fen.service = none ↔ s.fen.service = none := by
  unfold State.servedFeed at h
  cases h1 : t.fen.service <;> cases h2 : s.fen.service <;> simp [h1, h2] at h ⊢

/-- An operation on the history of one feed and on slots. -/
theorem storeOkAt_history {s t : State} {c c' : Feed → Seq} (n : Feed) (ho : ∀ m, m ≠ n → t.history m = s.history m)
    (hc : ∀ m, m ≠ n → c' m = c m)
    (hd : t.fst.detached = s.fst.detached) (hs : t.servedFeed = s.servedFeed) (hok : s.storeOkAt c)
    (hsl : t.slotsOk)
    (hown : Owned s.slot (namedBy n (s.history n) ++ s.others n) → Owned t.slot (namedBy n (t.history n) ++ s.others n))
    (hnum : numbered (c n) (s.history n) → numbered (c' n) (t.history n)) : t.storeOkAt c' := by
  rw [storeOkAt_iff] at *
  obtain ⟨h1, h2, h3, h4⟩ := hok
  refine ⟨hsl, ?_, ?_, ?_⟩
  · refine Owned.perm ?_ (namings_perm t n).symm
    rw [others_congr n ho hd hs]
    exact hown (h2.perm (namings_perm s n))
  · rw [hd, served_none hs]
    exact h3
  · intro m
    by_cases hm : m = n
    · subst hm
      exact hnum (h4 m)
    · rw [ho m hm, hc m hm]
      exact h4 m

/-- An operation that leaves the slots, the histories, the detached records, the feed in service and the numbers. -/
theorem Keeps.ofSame {s t : State} (h1 : t.fst.slots = s.fst.slots) (h2 : t.fst.hist = s.fst.hist)
    (h3 : t.fst.detached = s.fst.detached) (h4 : t.servedFeed = s.servedFeed)
    (h5 : ∀ n, (t.lrx.get n).counter = (s.lrx.get n).counter) : Keeps s t := by
  refine ⟨h5, fun c hok => ?_⟩
  have hh : ∀ m, t.history m = s.history m := fun m => by unfold State.history; rw [h2]
  have hsl : t.slot = s.slot := by funext k; unfold State.slot; rw [h1]
  refine storeOkAt_history 0 (fun m _ => hh m) (fun _ _ => rfl) h3 h4 hok ?_ ?_ ?_
  · unfold State.slotsOk at *
    rw [h1]
    exact hok.1
  · rw [hsl, hh]
    exact id
  · rw [hh]
    exact id

theorem history_setHist (s : State) (n m : Feed) (h : List FieldRecord) :
    (s.setHist n h).history m = if m = n then h else s.history m := by
  unfold State.history
  rw [setHist_fst, Quad_get_set]

/-- The records of one feed change, but not their numbers, slots and states. -/
theorem Keeps.ofEdit (s : State) (n : Feed) (q : Seq) (f : FieldRecord → FieldRecord)
    (hf : ∀ r, (f r).seq = r.seq ∧ (f r).slots = r.slots ∧ (f r).state = r.state) : Keeps s (s.modifyRecord n q f) := by
  refine ⟨fun _ => rfl, fun c hok => ?_⟩
  have e : (s.modifyRecord n q f).history n = (s.history n).map (fun r => if r.seq == q then f r else r) := by
    unfold State.modifyRecord
    rw [history_setHist, if_pos rfl]
  refine storeOkAt_history (s := s) n (fun m hm => ?_) (fun _ _ => rfl) rfl rfl hok hok.1 ?_ ?_
  · unfold State.modifyRecord
    rw [history_setHist, if_neg hm]
  · rw [e, namedBy_map]
    · exact id
    · intro r _
      split
      · exact (hf r).2
      · exact ⟨rfl, rfl⟩
  · rw [e]
    intro k
    refine numbered_congr k ?_
    rw [List.map_map]
    refine List.map_congr_left (fun r _ => ?_)
    show (if r.seq == q then f r else r).seq = r.seq
    split
    · exact (hf r).1
    · rfl

/-! ## Retention -/

/-- Retention's walk: the names that are left and the slots that become FREE are the names there were. -/
theorem retentionWalk_names (n : Feed) (refd : Seq → Bool) (k : Nat) (b : Bool) (h : List FieldRecord) :
    ∃ g : List (Fin 24 × Slot), g.map Prod.fst = (retentionWalk refd k b h).2 ∧
      (namedBy n h).Perm (g ++ namedBy n (retentionWalk refd k b h).1) := by
  induction k generalizing b h with
  | zero => exact ⟨[], rfl, List.Perm.refl _⟩
  | succ k ih =>
    cases h with
    | nil => exact ⟨[], rfl, List.Perm.refl _⟩
    | cons r t =>
      unfold retentionWalk
      split
      · obtain ⟨g, h1, h2⟩ := ih true t
        refine ⟨g, h1, ?_⟩
        rw [namedBy_cons, namedBy_cons]
        exact (h2.append_left _).trans (List.perm_append_comm_assoc _ _ _)
      · split
        · obtain ⟨g, h1, h2⟩ := ih true t
          refine ⟨r.slots.map (fun k => (k, r.slotState n)) ++ g, ?_, ?_⟩
          · rw [List.map_append, h1]
            simp [Function.comp_def]
          · have e : (r.toGap .trimmedOff).slots = [] := by
              unfold FieldRecord.toGap
              cases hr : r.content <;> simp [FieldRecord.slots, hr]
            rw [namedBy_cons, namedBy_cons, e, List.append_assoc]
            exact h2.append_left _
        · obtain ⟨g, h1, h2⟩ := ih false t
          refine ⟨r.slots.map (fun k => (k, r.slotState n)) ++ g, ?_, ?_⟩
          · rw [List.map_append, h1]
            simp [Function.comp_def]
          · rw [namedBy_cons, List.append_assoc]
            exact h2.append_left _

theorem toGap_seq (r : FieldRecord) (c : GapCause) : (r.toGap c).seq = r.seq := by
  unfold FieldRecord.toGap
  cases r.content <;> rfl

/-- Retention takes numbers off the head alone. -/
theorem retentionWalk_numbers (refd : Seq → Bool) (k : Nat) (b : Bool) (h : List FieldRecord) :
    ((retentionWalk refd k b h).1.map (fun r => r.seq)).IsSuffix (h.map (fun r => r.seq)) ∧
      (b = true → (retentionWalk refd k b h).1.map (fun r => r.seq) = h.map (fun r => r.seq)) := by
  induction k generalizing b h with
  | zero => exact ⟨List.suffix_refl _, fun _ => rfl⟩
  | succ k ih =>
    cases h with
    | nil => exact ⟨List.suffix_refl _, fun _ => rfl⟩
    | cons r t =>
      unfold retentionWalk
      split
      · have := (ih true t).2 rfl
        simp [this]
      · split
        · have := (ih true t).2 rfl
          simp [this, toGap_seq]
        · next hb =>
          refine ⟨?_, fun h => absurd h hb⟩
          rw [List.map_cons]
          exact (ih false t).1.trans (List.suffix_cons _ _)

/-- Retention with its slots FREE keeps the ownership; u is the state with the walk's history. -/
theorem storeOkAt_walk {s t : State} {c : Feed → Seq} (n : Feed) (keep : Nat) (hok : s.storeOkAt c)
    (hh : ∀ m, t.history m = if m = n then (s.retained n keep).1 else s.history m) (hsl : t.slotsOk)
    (hd : t.fst.detached = s.fst.detached) (hs : t.servedFeed = s.servedFeed)
    (hf : ∀ j, t.slot j = if j ∈ (s.retained n keep).2 then .free else s.slot j) : t.storeOkAt c := by
  have e : t.history n = (s.retained n keep).1 := by rw [hh, if_pos rfl]
  refine storeOkAt_history n (fun m hm => by rw [hh, if_neg hm]) (fun _ _ => rfl) hd hs hok hsl ?_ ?_
  · intro h
    obtain ⟨g, h1, h2⟩ := retentionWalk_names n (s.referenced n) ((s.history n).length - keep) false (s.history n)
    have h := h.perm (h2.append_right _)
    rw [List.append_assoc] at h
    rw [e]
    refine h.drop (fun k => ?_)
    rw [hf, h1]
    rfl
  · intro k
    rw [e]
    exact numbered_suffix k (retentionWalk_numbers _ _ _ _).1

namespace Keeps

theorem retain (s : State) (n : Feed) : Keeps s (s.retain n) := by
  refine ⟨fun _ => ?_, fun c hok => ?_⟩
  · unfold State.retain
    dsimp only
    rw [releaseSlots_keeps]
    rfl
  · set keep := keepNewest s.fst.tight (s.settings n).cls with hk
    have r := releaseSlots_slot (s.setHist n (s.retained n keep).1) hok.1 (s.retained n keep).2
    have e := releaseSlots_keeps (s.setHist n (s.retained n keep).1) (s.retained n keep).2
    refine storeOkAt_walk (t := s.retain n) n keep hok ?_ r.1 ?_ ?_ r.2
    · intro m
      unfold State.retain
      dsimp only
      rw [← hk, e]
      exact history_setHist s n m _
    · unfold State.retain
      dsimp only
      rw [← hk, e]
      rfl
    · unfold State.retain
      dsimp only
      rw [← hk, e]
      rfl

theorem retainTight (s : State) (n : Feed) : Keeps s (s.retainTight n) := by
  refine ⟨fun _ => ?_, fun c hok => ?_⟩
  · unfold State.retainTight
    dsimp only
    rw [freeSlots_keeps]
    rfl
  · set keep := keepNewest true (s.settings n).cls with hk
    have r := setSlots_slot .free (s.retained n keep).2 (s.setHist n (s.retained n keep).1) hok.1
    have e := freeSlots_keeps (s.setHist n (s.retained n keep).1) (s.retained n keep).2
    refine storeOkAt_walk (t := s.retainTight n) n keep hok ?_ r.1 ?_ ?_ r.2
    · intro m
      unfold State.retainTight
      dsimp only
      rw [← hk, e]
      exact history_setHist s n m _
    · unfold State.retainTight
      dsimp only
      rw [← hk, e]
      rfl
    · unfold State.retainTight
      dsimp only
      rw [← hk, e]
      rfl

theorem foldl {α : Type} (f : State → α → State) (h : ∀ s x, Keeps s (f s x)) (l : List α) (s : State) :
    Keeps s (l.foldl f s) := by
  induction l generalizing s with
  | nil => exact Keeps.refl s
  | cons x t ih => exact (h s x).trans (ih (f s x))

theorem checkLeaving (s : State) : Keeps s s.checkLeaving := by
  unfold State.checkLeaving
  split
  · exact ofSame rfl rfl rfl rfl (fun _ => rfl)
  · exact Keeps.refl s

theorem enterTight (s : State) (free : Nat) : Keeps s (s.enterTight free) := by
  unfold State.enterTight
  refine Keeps.trans ?_ (checkLeaving _)
  refine Keeps.trans ?_ (foldl _ retainTight feeds _)
  exact ofSame rfl rfl rfl rfl (fun _ => rfl)

end Keeps

/-! ## Detached records and the history cap -/

/-- The records with these slots leave feed n's history for the job in service: their slots are RETIRING (R26). -/
theorem detach_spec (s : State) (n : Feed) (r : FieldRecord) (h : s.slotsOk) :
    (s.detach n r).slotsOk ∧ (∀ j, (s.detach n r).slot j = if j ∈ r.slots then .retiring n else s.slot j) ∧
      (s.detach n r).fst.detached = s.fst.detached ++ [r] ∧ (s.detach n r).fst.hist = s.fst.hist ∧
      (s.detach n r).fen = s.fen ∧ (s.detach n r).lrx = s.lrx := by
  have e := detach_keeps s n r
  have k := setSlots_slot (.retiring n) r.slots { s with fst := { s.fst with detached := s.fst.detached ++ [r] } } h
  exact ⟨k.1, k.2, by rw [e], by rw [e], by rw [e], by rw [e]⟩

theorem detachAll_spec (s : State) (n : Feed) (l : List FieldRecord) (h : s.slotsOk) :
    let t := l.foldl (fun t r => t.detach n r) s
    t.slotsOk ∧ (∀ j, t.slot j = if j ∈ l.flatMap FieldRecord.slots then .retiring n else s.slot j) ∧
      t.fst.detached = s.fst.detached ++ l ∧ t.fst.hist = s.fst.hist ∧ t.fen = s.fen ∧ t.lrx = s.lrx := by
  induction l generalizing s with
  | nil => exact ⟨h, fun j => by simp, by simp, rfl, rfl, rfl⟩
  | cons r l ih =>
    obtain ⟨d1, d2, d3, d4, d5, d6⟩ := detach_spec s n r h
    obtain ⟨i1, i2, i3, i4, i5, i6⟩ := ih (s.detach n r) d1
    refine ⟨i1, fun j => ?_, ?_, i4.trans d4, i5.trans d5, i6.trans d6⟩
    · rw [List.foldl_cons, i2, d2]
      by_cases h1 : j ∈ r.slots <;> by_cases h2 : j ∈ l.flatMap FieldRecord.slots <;>
        simp only [List.flatMap_cons, List.mem_append, h1, h2, if_true, if_false, or_true, or_false]
    · rw [List.foldl_cons, i3, d3]
      simp

/-- The names that detached records bear. -/
theorem retiring_append {s t : State} {v : Service} (hv : s.fen.service = some v) (ht : t.fen = s.fen) (l : List FieldRecord)
    (hd : t.fst.detached = s.fst.detached ++ l) :
    t.retiringNames = s.retiringNames ++ (l.flatMap FieldRecord.slots).map (fun k => (k, .retiring v.job.feed)) := by
  unfold State.retiringNames
  rw [ht, hv, hd]
  simp [List.map_flatMap]

/-- Some records of feed n's history leave it for the job in service, which is feed n's, and others leave it altogether. -/
theorem storeOkAt_detach {s t : State} {c c' : Feed → Seq} (n : Feed) (v : Service) (l h g : List FieldRecord)
    (hv : s.fen.service = some v) (hn : v.job.feed = n) (ht : t.fen = s.fen) (hsl : t.slotsOk)
    (hd : t.fst.detached = s.fst.detached ++ l) (hh : ∀ m, t.history m = if m = n then h else s.history m)
    (hc : ∀ m, m ≠ n → c' m = c m)
    (hp : (namedBy n (s.history n)).Perm (namedBy n g ++ (namedBy n l ++ namedBy n h)))
    (hnum : numbered (c n) (s.history n) → numbered (c' n) h)
    (hf : ∀ j, t.slot j = if j ∈ g.flatMap FieldRecord.slots then .free else
      if j ∈ l.flatMap FieldRecord.slots then .retiring n else s.slot j) (hok : s.storeOkAt c) : t.storeOkAt c' := by
  rw [storeOkAt_iff] at *
  obtain ⟨h1, h2, h3, h4⟩ := hok
  refine ⟨hsl, ?_, ?_, ?_⟩
  · have e : t.retiringNames =
        s.retiringNames ++ (l.flatMap FieldRecord.slots).map (fun k => (k, .retiring n)) := by
      rw [retiring_append hv ht l hd, hn]
    refine Owned.perm ?_ (namings_perm t n).symm
    have eo : t.others n = s.others n ++ (l.flatMap FieldRecord.slots).map (fun k => (k, .retiring n)) := by
      unfold State.others
      rw [e, ← List.append_assoc]
      congr 2
      refine List.flatMap_congr (fun m _ => ?_)
      split
      · rfl
      · next hm => rw [hh m, if_neg hm]
    have en : t.history n = h := by rw [hh, if_pos rfl]
    rw [eo, en]
    have hkeys : ∀ x : List FieldRecord, (namedBy n x).map Prod.fst = x.flatMap FieldRecord.slots := by
      intro x
      unfold namedBy
      simp [List.map_flatMap, Function.comp_def]
    have o := h2.perm ((namings_perm s n).trans (hp.append_right _))
    rw [List.append_assoc] at o
    have o1 := o.drop (sl' := fun j => if j ∈ g.flatMap FieldRecord.slots then .free else s.slot j)
      (fun k => by rw [hkeys])
    rw [List.append_assoc] at o1
    have e2 : ∃ f : Fin 24 → Slot, namedBy n l = (l.flatMap FieldRecord.slots).map (fun k => (k, f k)) := by
      refine ⟨fun k => s.slot k, ?_⟩
      have : ∀ x ∈ namedBy n l, s.slot x.1 = x.2 := by
        intro x hx
        exact o.2.1 x (by simp [hx])
      rw [← hkeys, List.map_map]
      conv_lhs => rw [← List.map_id (namedBy n l)]
      refine List.map_congr_left (fun x hx => ?_)
      simp [this x hx]
    obtain ⟨f, e2⟩ := e2
    rw [e2] at o1
    have o2 := o1.move (v := .retiring n) (sl' := t.slot) (fun j => by
      rw [hf]
      by_cases a : j ∈ g.flatMap FieldRecord.slots
      · have : j ∉ l.flatMap FieldRecord.slots := by
          intro b
          have nd := o.1
          rw [List.map_append, List.map_append, List.map_append, hkeys, hkeys, List.nodup_append] at nd
          exact nd.2.2 _ a _ (List.mem_append_left _ (List.mem_append_left _ b)) rfl
        rw [if_pos a, if_neg this, if_pos a]
      · rw [if_neg a]
        split
        · rfl
        · rfl)
    refine o2.perm ?_
    refine List.perm_append_comm.trans ?_
    rw [List.append_assoc]
  · rw [ht, hv]
    exact fun h => by cases h
  · intro m
    by_cases hm : m = n
    · subst hm
      rw [hh, if_pos rfl]
      exact hnum (h4 m)
    · rw [hh, if_neg hm, hc m hm]
      exact h4 m

theorem serviceRefs_service {s : State} {n : Feed} {q : Seq} (h : s.serviceRefs n q = true) :
    ∃ v, s.fen.service = some v ∧ v.job.feed = n := by
  unfold State.serviceRefs at h
  split at h
  · next v hv =>
    refine ⟨v, hv, ?_⟩
    simp only [Bool.and_eq_true, beq_iff_eq] at h
    exact h.1.1
  · cases h

namespace Keeps

theorem noteSkip (s : State) (j : Job) : Keeps s (s.noteSkip j) := ofSame rfl rfl rfl rfl (fun _ => rfl)

theorem dropWaitingRefs (s : State) (n : Feed) (q : Seq) : Keeps s (s.dropWaitingRefs n q) := by
  unfold State.dropWaitingRefs
  refine Keeps.trans ?_ (foldl _ noteSkip _ _)
  exact ofSame rfl rfl rfl rfl (fun _ => rfl)

/-- The head of a history leaves it (R27). -/
theorem historyCap (s : State) (n : Feed) : Keeps s (s.historyCap n) := by
  unfold State.historyCap
  split
  · exact Keeps.refl s
  · next r t hr =>
    split
    · refine Keeps.trans ?_ (dropWaitingRefs _ n _)
      have hnum : ∀ c : Seq, numbered c (s.history n) → numbered c t := by
        intro c k
        rw [hr] at k
        exact numbered_suffix k (List.suffix_cons _ _)
      split
      · next hs =>
        obtain ⟨v, hv, hn⟩ := serviceRefs_service hs
        refine ⟨fun _ => by rw [detach_keeps]; rfl, fun c hok => ?_⟩
        obtain ⟨d1, d2, d3, d4, d5, d6⟩ := detach_spec (s.setHist n t) n r hok.1
        refine storeOkAt_detach n v [r] t [] hv hn d5 d1 d3 (fun m => ?_) (fun _ _ => rfl) ?_ (hnum _) (fun j => ?_) hok
        · rw [← history_setHist]
          unfold State.history
          rw [d4]
        · rw [hr, namedBy_cons]
          simp [namedBy]
        · rw [d2]
          simp
          rfl
      · refine ⟨fun _ => by rw [releaseSlots_keeps]; rfl, fun c hok => ?_⟩
        have hk := releaseSlots_slot (s.setHist n t) hok.1 r.slots
        have e := releaseSlots_keeps (s.setHist n t) r.slots
        refine storeOkAt_history (s := s) n (fun m hm => ?_) (fun _ _ => rfl) ?_ ?_ hok hk.1 ?_ ?_
        · rw [e]
          show (s.setHist n t).history m = _
          rw [history_setHist, if_neg hm]
        · rw [e]; rfl
        · rw [e]; rfl
        all_goals
          have e2 : ((s.setHist n t).releaseSlots r.slots).history n = t := by
            rw [e]
            show (s.setHist n t).history n = _
            rw [history_setHist, if_pos rfl]
          rw [e2]
        · intro o
          rw [hr, namedBy_cons, List.append_assoc] at o
          refine o.drop (fun k => ?_)
          rw [hk.2]
          simp [Function.comp_def]
          rfl
        · exact hnum _
    · exact Keeps.refl s

theorem capped (s : State) (n : Feed) : Keeps s (s.capped n) := by
  unfold State.capped
  split
  · exact historyCap s n
  · exact Keeps.refl s

/-- Every record of a history leaves it, those that the job in service references for that job (R40). -/
theorem emptyHistory (s : State) (n : Feed) : Keeps s (s.emptyHistory n) := by
  refine ⟨fun _ => by rw [emptyHistory_spec], fun c hok => ?_⟩
  set kept := (s.history n).filter (fun r => s.serviceRefs n r.seq) with hkept
  set gone := (s.history n).filter (fun r => !s.serviceRefs n r.seq) with hgone
  have hp : (namedBy n (s.history n)).Perm (namedBy n gone ++ namedBy n kept) := by
    unfold namedBy
    rw [← List.flatMap_append]
    refine List.Perm.flatMap_right _ ?_
    refine (List.filter_append_perm (fun r => s.serviceRefs n r.seq) (s.history n)).symm.trans ?_
    exact List.perm_append_comm
  obtain ⟨d1, d2, d3, d4, d5, d6⟩ := detachAll_spec (s.setHist n []) n kept hok.1
  set u := kept.foldl (fun t r => t.detach n r) (s.setHist n []) with hu
  have hk := releaseSlots_slot u d1 (gone.flatMap FieldRecord.slots)
  have e := releaseSlots_keeps u (gone.flatMap FieldRecord.slots)
  have et : s.emptyHistory n = u.releaseSlots (gone.flatMap FieldRecord.slots) := rfl
  have hh : ∀ m, (s.emptyHistory n).history m = if m = n then [] else s.history m := by
    intro m
    rw [et, e, ← history_setHist]
    show u.fst.hist.get m = _
    rw [d4]
    rfl
  have hnil : numbered (c n) [] := by
    unfold numbered
    simp
  have hslot : ∀ j, (s.emptyHistory n).slot j = if j ∈ gone.flatMap FieldRecord.slots then .free else
      if j ∈ kept.flatMap FieldRecord.slots then .retiring n else s.slot j := by
    intro j
    rw [et, hk.2, d2]
    rfl
  cases hkc : kept with
  | nil =>
    refine storeOkAt_history n (fun m hm => by rw [hh, if_neg hm]) (fun _ _ => rfl) ?_ ?_ hok (by rw [et]; exact hk.1) ?_ ?_
    · rw [et, e]
      show u.fst.detached = _
      rw [d3, hkc]
      simp
    · rw [et, e]
      show u.servedFeed = _
      unfold State.servedFeed
      rw [d5]
      rfl
    · rw [hh, if_pos rfl]
      intro o
      refine Owned.drop (g := namedBy n gone) ?_ (sl := s.slot) (fun k => ?_)
      · have := o.perm (hp.append_right _)
        rw [hkc] at this
        simpa [namedBy] using this
      · rw [hslot, hkc]
        simp [namedBy, List.map_flatMap, Function.comp_def]
    · rw [hh, if_pos rfl]
      exact fun _ => hnil
  | cons r l =>
    have hr : s.serviceRefs n r.seq = true := by
      have : r ∈ kept := by rw [hkc]; simp
      rw [hkept] at this
      exact (List.mem_filter.mp this).2
    obtain ⟨v, hv, hn⟩ := serviceRefs_service hr
    refine storeOkAt_detach n v kept [] gone hv hn ?_ (by rw [et]; exact hk.1) ?_ hh (fun _ _ => rfl) ?_ (fun _ => hnil) hslot hok
    · rw [et, e]
      exact d5
    · rw [et, e]
      exact d3
    · simpa [namedBy] using hp

end Keeps

/-! ## One record by its number -/

/-- The record found under a number, in its place: before it and after it no record has that number. -/
theorem record_split {s : State} {n : Feed} {q : Seq} {c : Seq} (k : numbered c (s.history n)) {r : FieldRecord}
    (h : s.record n q = some r) :
    ∃ a b, s.history n = a ++ r :: b ∧ r.seq = q ∧ (∀ x ∈ a, x.seq ≠ q) ∧ ∀ x ∈ b, x.seq ≠ q := by
  unfold State.record at h
  obtain ⟨hq, a, b, e, ha⟩ := List.find?_eq_some_iff_append.mp h
  have hq : r.seq = q := by simpa using hq
  refine ⟨a, b, e, hq, fun x hx => by simpa using ha x hx, fun x hx hxq => ?_⟩
  have nd := numbered_nodup k
  rw [e, List.map_append, List.map_cons, List.nodup_append, List.nodup_cons] at nd
  exact nd.2.1.1 (by rw [hq, ← hxq]; exact List.mem_map_of_mem hx)

/-- A change of the record under a number, in its place. -/
theorem modify_split {a b : List FieldRecord} {r : FieldRecord} {q : Seq} (f : FieldRecord → FieldRecord) (hr : r.seq = q)
    (ha : ∀ x ∈ a, x.seq ≠ q) (hb : ∀ x ∈ b, x.seq ≠ q) :
    (a ++ r :: b).map (fun x => if x.seq == q then f x else x) = a ++ f r :: b := by
  have e : ∀ l : List FieldRecord, (∀ x ∈ l, x.seq ≠ q) → l.map (fun x => if x.seq == q then f x else x) = l := by
    intro l hl
    conv_rhs => rw [← List.map_id l]
    refine List.map_congr_left (fun x hx => ?_)
    simp [hl x hx]
  rw [List.map_append, List.map_cons, e a ha, e b hb]
  simp [hr]

theorem history_modifyRecord (s : State) (n m : Feed) (q : Seq) (f : FieldRecord → FieldRecord) :
    (s.modifyRecord n q f).history m =
      if m = n then (s.history n).map (fun x => if x.seq == q then f x else x) else s.history m := by
  unfold State.modifyRecord
  exact history_setHist s n m _

theorem numbered_modify {c q : Seq} {h : List FieldRecord} (f : FieldRecord → FieldRecord) (hf : ∀ r, (f r).seq = r.seq)
    (k : numbered c h) : numbered c (h.map (fun x => if x.seq == q then f x else x)) := by
  refine numbered_congr k ?_
  rw [List.map_map]
  refine List.map_congr_left (fun x _ => ?_)
  show (if x.seq == q then f x else x).seq = x.seq
  split
  · exact hf x
  · rfl

theorem namedBy_middle (n : Feed) (a b : List FieldRecord) (r : FieldRecord) (l : List (Fin 24 × Slot)) :
    (namedBy n (a ++ r :: b) ++ l).Perm
      (r.slots.map (fun k => (k, r.slotState n)) ++ (namedBy n a ++ namedBy n b ++ l)) := by
  rw [namedBy_append, namedBy_cons]
  refine ((List.perm_append_comm_assoc _ _ _).append_right _).trans ?_
  rw [List.append_assoc]

namespace Keeps

/-- A closure: the record CLOSED, its slot HELD (R31). -/
theorem closeRecord (s : State) (n : Feed) (q : Seq) : Keeps s (s.closeRecord n q) := by
  unfold State.closeRecord
  have fold : ∀ (ks : List (Fin 24)) (u : State),
      (ks.foldl (fun (t : State) k => t.setSlot k (.held n)) u).lrx = u.lrx ∧
        (ks.foldl (fun (t : State) k => t.setSlot k (.held n)) u).fst.hist = u.fst.hist ∧
        (ks.foldl (fun (t : State) k => t.setSlot k (.held n)) u).fst.detached = u.fst.detached ∧
        (ks.foldl (fun (t : State) k => t.setSlot k (.held n)) u).fen = u.fen := by
    intro ks
    induction ks with
    | nil => exact fun u => ⟨rfl, rfl, rfl, rfl⟩
    | cons k ks ih => exact fun u => ih (u.setSlot k (.held n))
  cases hr : s.record n q with
  | none =>
    dsimp only
    refine ⟨fun _ => rfl, fun c hok => ?_⟩
    have e : s.modifyRecord n q (fun r => { r with state := .closed }) = s.setHist n (s.history n) := by
      unfold State.modifyRecord
      congr 1
      conv_rhs => rw [← List.map_id (s.history n)]
      refine List.map_congr_left (fun x hx => ?_)
      have : ¬ (x.seq == q) = true := by
        unfold State.record at hr
        exact List.find?_eq_none.mp hr x hx
      rw [if_neg this]
      rfl
    rw [e]
    refine (Keeps.ofSame (s := s) (t := s.setHist n (s.history n)) rfl ?_ rfl rfl (fun _ => rfl)).2 c hok
    exact Quad_set_get _ _
  | some r =>
    dsimp only
    obtain ⟨f1, f2, f3, f4⟩ := fold r.slots s
    set u := r.slots.foldl (fun (t : State) k => t.setSlot k (.held n)) s with hu
    refine ⟨fun m => by show (u.lrx.get m).counter = _; rw [f1], fun c hok => ?_⟩
    have hk := setSlots_slot (.held n) r.slots s hok.1
    rw [← hu] at hk
    have hh : ∀ m, u.history m = s.history m := fun m => by unfold State.history; rw [f2]
    have kn := ((storeOkAt_iff s c).mp hok).2.2.2 n
    obtain ⟨a, b, e, hq, ha, hb⟩ := record_split kn hr
    have ht : (u.modifyRecord n q (fun r => { r with state := .closed })).history n =
        a ++ { r with state := .closed } :: b := by
      rw [history_modifyRecord, if_pos rfl, hh, e]
      exact modify_split _ hq ha hb
    refine storeOkAt_history (s := s) n (fun m hm => ?_) (fun _ _ => rfl) f3 ?_ hok hk.1 ?_ ?_
    · rw [history_modifyRecord, if_neg hm, hh]
    · show u.servedFeed = _
      unfold State.servedFeed
      rw [f4]
    · rw [e, ht]
      intro o
      refine ((o.perm (namedBy_middle n a b r _)).move (v := .held n) (sl' := u.slot) ?_).perm
        (namedBy_middle n a b { r with state := .closed } _).symm
      exact hk.2
    · intro k
      rw [history_modifyRecord, if_pos rfl, hh]
      exact numbered_modify (fun r => { r with state := .closed }) (fun _ => rfl) k

end Keeps

/-! ## Appends -/

/-- The numbers consumed, with one more of feed n. -/
def consumed (c : Feed → Seq) (n : Feed) : Feed → Seq := fun m => if m = n then c n + 1 else c m

theorem consumed_same (c : Feed → Seq) (n : Feed) : consumed c n n = c n + 1 := if_pos rfl

theorem consumed_other (c : Feed → Seq) (n m : Feed) (h : m ≠ n) : consumed c n m = c m := if_neg h

theorem history_append (s : State) (n m : Feed) (r : FieldRecord) :
    (s.append n r).history m = if m = n then s.history n ++ [r] else s.history m := by
  unfold State.append
  exact history_setHist s n m _

/-- A gap record is appended under the number consumed. -/
theorem append_gap {s : State} {c : Feed → Seq} (n : Feed) (r : FieldRecord) (hr : r.slots = [])
    (hc : r.seq = c n) (hl : (s.history n).length < 8) (hok : s.storeOkAt c) : (s.append n r).storeOkAt (consumed c n) := by
  refine storeOkAt_history (s := s) n (fun m hm => by rw [history_append, if_neg hm]) (consumed_other c n) rfl rfl hok hok.1 ?_ ?_
  · rw [history_append, if_pos rfl, namedBy_append, namedBy_cons, hr]
    simp only [List.map_nil, List.nil_append]
    intro o
    rw [show namedBy n [] = [] from rfl, List.append_nil]
    exact o
  · intro k
    rw [history_append, if_pos rfl, consumed_same]
    exact numbered_append k hl r hc

/-- An OPEN record is appended with a FREE slot, now FILLING (R28). -/
theorem append_slot {s : State} {c : Feed → Seq} (n : Feed) (r : FieldRecord) (k : Fin 24) (hr : r.content = .slot k)
    (ho : r.state = .opened) (hk : s.slot k = .free)
    (hc : r.seq = c n) (hl : (s.history n).length < 8) (hok : s.storeOkAt c) :
    ((s.setSlot k (.filling n)).append n r).storeOkAt (consumed c n) := by
  have hh : ∀ m, (s.setSlot k (.filling n)).history m = s.history m := fun _ => rfl
  refine storeOkAt_history (s := s) n (fun m hm => by rw [history_append, if_neg hm, hh]) (consumed_other c n) rfl rfl hok
    (setSlot_slotsOk s hok.1 k _) ?_ ?_
  · rw [history_append, if_pos rfl, namedBy_append, namedBy_cons]
    intro o
    have hn : ∀ x ∈ namedBy n (s.history n) ++ s.others n, x.2 ≠ .free := fun x hx =>
      namings_ne_free s x ((namings_perm s n).mem_iff.mpr hx)
    refine (o.add (sl' := (s.setSlot k (.filling n)).slot) hn k (.filling n) hk (fun j => slot_setSlot s hok.1 k j _)).perm ?_
    have e : r.slots.map (fun k => (k, r.slotState n)) = [(k, .filling n)] := by
      unfold FieldRecord.slots FieldRecord.slotState
      rw [hr, ho]
      rfl
    rw [e, hh]
    simp only [namedBy, List.flatMap_nil, List.append_nil, List.append_assoc]
    exact List.perm_middle.symm
  · intro kn
    rw [history_append, if_pos rfl, consumed_same, hh]
    exact numbered_append kn hl r hc

/-- The slot of the victim passes to the field (R29). -/
theorem append_reclaimed {s : State} {c : Feed → Seq} (n v : Feed) (w : Seq) (k : Fin 24) (r x : FieldRecord)
    (hx : s.record v w = some x) (hxk : x.content = .slot k) (hr : r.content = .slot k) (ho : r.state = .opened)
    (hc : r.seq = c n) (hl : (s.history n).length < 8) (hok : s.storeOkAt c) :
    (((s.reclaim v w).setSlot k (.filling n)).append n r).storeOkAt (consumed c n) := by
  have hfree : ((s.reclaim v w).setSlot k .free).storeOkAt c := by
    have kn := ((storeOkAt_iff s c).mp hok).2.2.2 v
    obtain ⟨a, b, e, hq, ha, hb⟩ := record_split kn hx
    have ht : ((s.reclaim v w).setSlot k .free).history v = a ++ x.toGap .reclaimed :: b := by
      show (s.modifyRecord v w _).history v = _
      rw [history_modifyRecord, if_pos rfl, e]
      exact modify_split _ hq ha hb
    refine storeOkAt_history (s := s) v (fun m hm => ?_) (fun _ _ => rfl) rfl rfl hok
      (setSlot_slotsOk (s.reclaim v w) hok.1 k _) ?_ ?_
    · show (s.modifyRecord v w _).history m = _
      rw [history_modifyRecord, if_neg hm]
    · rw [ht, e]
      intro o
      have es : x.slots = [k] := by unfold FieldRecord.slots; rw [hxk]
      have eg : (x.toGap .reclaimed).slots = [] := by
        unfold FieldRecord.toGap FieldRecord.slots
        rw [hxk]
      have o1 := o.perm (namedBy_middle v a b x _)
      rw [es] at o1
      refine Owned.perm (o1.drop (g := [k].map (fun k => (k, x.slotState v))) (sl' := ((s.reclaim v w).setSlot k .free).slot)
        (fun j => ?_)) ?_
      · rw [slot_setSlot (s.reclaim v w) hok.1]
        simp
        rfl
      · refine List.Perm.trans ?_ (namedBy_middle v a b (x.toGap .reclaimed) _).symm
        rw [eg]
        exact List.Perm.refl _
    · intro kn
      show numbered (c v) ((s.modifyRecord v w _).history v)
      rw [history_modifyRecord, if_pos rfl]
      exact numbered_modify _ (fun r => toGap_seq r _) kn
  have hlen : (((s.reclaim v w).setSlot k .free).history n).length < 8 := by
    show ((s.modifyRecord v w _).history n).length < 8
    rw [history_modifyRecord]
    split
    · next h => subst h; simpa using hl
    · exact hl
  have hk : ((s.reclaim v w).setSlot k .free).slot k = .free := by
    rw [slot_setSlot (s.reclaim v w) hok.1, if_pos rfl]
  have := append_slot n r k hr ho hk hc hlen hfree
  have e : ((s.reclaim v w).setSlot k .free).setSlot k (.filling n) = (s.reclaim v w).setSlot k (.filling n) := by
    simp [State.setSlot]
  rw [e] at this
  exact this

theorem capped_short {s : State} {c : Feed → Seq} (n : Feed) (hok : s.storeOkAt c) : ((s.capped n).history n).length < 8 := by
  have h := (((storeOkAt_iff s c).mp hok).2.2.2 n).1
  rcases capped_room s n with k | k <;> omega

theorem lowestFree_free {s : State} {k : Fin 24} (h : s.lowestFree = some k) : s.slot k = .free := by
  unfold State.lowestFree at h
  simpa using List.find?_some h

/-- A victim is a record of its feed's history, and its slot the record's (R29). -/
theorem victim_record {s : State} {c : Feed → Seq} (hok : s.storeOkAt c) {v : Feed} {w : Seq} {k : Fin 24}
    (h : s.victim = some (v, w, k)) : ∃ x, s.record v w = some x ∧ x.content = .slot k := by
  unfold State.victim at h
  split at h
  · cases h
  · next m _ =>
    split at h
    · cases h
    · next y l hl =>
      cases h
      have hy : (v, w, k) ∈ (s.candidates m).flatMap (fun r => r.slots.map (fun k => (m, r.seq, k))) := by rw [hl]; simp
      obtain ⟨x, hx, hy⟩ := List.mem_flatMap.mp hy
      obtain ⟨j, hj, e⟩ := List.mem_map.mp hy
      simp only [Prod.mk.injEq] at e
      obtain ⟨e1, e2, e3⟩ := e
      subst e1 e2 e3
      have hm : x ∈ s.history m := List.mem_of_mem_take (List.mem_filter.mp hx).1
      refine ⟨x, ?_, ?_⟩
      · have nd := numbered_nodup (((storeOkAt_iff s c).mp hok).2.2.2 m)
        obtain ⟨a, b, e⟩ := List.append_of_mem hm
        unfold State.record
        rw [e, List.find?_append]
        rw [e, List.map_append, List.map_cons, List.nodup_append] at nd
        have : a.find? (fun r => r.seq == x.seq) = none := by
          rw [List.find?_eq_none]
          intro y hy hq
          exact nd.2.2 _ (List.mem_map_of_mem hy) _ (List.mem_cons_self) (by simpa using hq)
        rw [this]
        simp
      · unfold FieldRecord.slots at hj
        cases hc : x.content with
        | slot l => rw [hc] at hj; simp at hj; rw [hj]
        | gap _ => rw [hc] at hj; simp at hj

/-- The store's answer to a slot request: the field's record is appended under its number (R25, R28 to R30). -/
theorem allocate_storeOk {s : State} {c : Feed → Seq} (n : Feed) (p : Parity) (rep : Bool) (hok : s.storeOkAt c) :
    (∀ m, ((s.allocate n (c n) p rep).2.lrx.get m).counter = (s.lrx.get m).counter) ∧
      (s.allocate n (c n) p rep).2.storeOkAt (consumed c n) := by
  have k := Keeps.capped s n
  have hl := capped_short n hok
  have hok0 := k.2 c hok
  have hctr := k.1
  unfold State.allocate
  unfold State.capped at *
  generalize (if 8 ≤ (s.history n).length then s.historyCap n else s) = s0 at *
  dsimp only
  split
  · next j hj =>
    have o := append_slot n (newRecord (c n) p .opened (.slot j) rep (some p)) j rfl rfl (lowestFree_free hj) rfl hl hok0
    dsimp only
    split
    · have e := Keeps.enterTight ((s0.setSlot j (.filling n)).append n (newRecord (c n) p .opened (.slot j) rep (some p)))
        (s0.setSlot j (.filling n)).freeCount
      exact ⟨fun m => (e.1 m).trans (hctr m), e.2 _ o⟩
    · exact ⟨hctr, o⟩
  · split
    · next v w j hv =>
      obtain ⟨x, hx, hxk⟩ := victim_record hok0 hv
      exact ⟨hctr, append_reclaimed n v w j (newRecord (c n) p .opened (.slot j) rep (some p)) x hx hxk rfl rfl rfl hl hok0⟩
    · have o := append_gap n (newRecord (c n) p .opened (.gap .dropped) rep none) rfl rfl hl hok0
      exact ⟨hctr, (Keeps.ofSame rfl rfl rfl rfl (fun _ => rfl)).2 _ o⟩

/-- A missing field's gap record (R12). -/
theorem appendMissing_storeOk {s : State} {c : Feed → Seq} (n : Feed) (p : Parity) (hok : s.storeOkAt c) :
    (∀ m, ((s.appendMissing n (c n) p).lrx.get m).counter = (s.lrx.get m).counter) ∧
      (s.appendMissing n (c n) p).storeOkAt (consumed c n) := by
  have k := Keeps.capped s n
  exact ⟨k.1, append_gap n (newRecord (c n) p .closed (.gap .missing) false none) rfl rfl (capped_short n hok) (k.2 c hok)⟩

/-! ## The job in service -/

/-- The job ends: its detached records cease to exist and their slots are FREE (R41). -/
theorem Keeps.endService (s : State) (e : FrameEngine) (he : e.service = none) :
    Keeps s ({ s with fen := e } : State).endDetached := by
  obtain ⟨u, hu⟩ : ∃ u : State, u = { s with fen := e, fst := { s.fst with detached := [] } } := ⟨_, rfl⟩
  have eq : ({ s with fen := e } : State).endDetached = u.releaseSlots s.retiringSlots := by rw [hu]; rfl
  have u1 : u.lrx = s.lrx := by rw [hu]
  have u2 : u.slot = s.slot := by rw [hu]; rfl
  have u3 : u.fst.hist = s.fst.hist := by rw [hu]
  have u4 : u.fst.detached = [] := by rw [hu]
  have u5 : u.fen = e := by rw [hu]
  have u6 : u.slotsOk = s.slotsOk := by rw [hu]
  rw [eq]
  have ek := releaseSlots_keeps u s.retiringSlots
  refine ⟨fun m => by rw [ek]; show (u.lrx.get m).counter = _; rw [u1], fun c hok => ?_⟩
  rw [storeOkAt_iff] at *
  obtain ⟨h1, h2, h3, h4⟩ := hok
  have hk := releaseSlots_slot u (u6 ▸ h1) s.retiringSlots
  generalize u.releaseSlots s.retiringSlots = t at ek hk
  have hd : t.fst.detached = [] := by rw [ek]; exact u4
  have hf : t.fen.service = none := by rw [ek]; show u.fen.service = none; rw [u5]; exact he
  have hh : ∀ m, t.history m = s.history m := fun m => by
    rw [ek]
    show u.fst.hist.get m = _
    rw [u3]
    rfl
  refine ⟨hk.1, ?_, fun _ => hd, fun n => by rw [hh]; exact h4 n⟩
  have er : t.retiringNames = [] := by unfold State.retiringNames; rw [hf]
  have en : s.namings.Perm (s.retiringNames ++ t.namings) := by
    unfold State.namings
    rw [er, List.append_nil]
    have : feeds.flatMap (fun n => namedBy n (t.history n)) = feeds.flatMap (fun n => namedBy n (s.history n)) :=
      List.flatMap_congr (fun m _ => by rw [hh])
    rw [this]
    exact List.perm_append_comm
  have o := h2.perm en
  refine o.drop (fun k => ?_)
  rw [hk.2, u2]
  have em : k ∈ s.retiringSlots ↔ k ∈ s.retiringNames.map Prod.fst := by
    unfold State.retiringSlots
    simp only [List.mem_filter, List.mem_finRange, true_and]
    constructor
    · intro hr
      have : s.slot k ≠ .free := fun h => by rw [h] at hr; cases hr
      have hm := (h2.2.2 k).resolve_left this
      obtain ⟨x, hx, rfl⟩ := List.mem_map.mp hm
      have hs := h2.2.1 x hx
      rw [hs] at hr
      unfold State.namings at hx
      rcases List.mem_append.mp hx with hx | hx
      · obtain ⟨m, _, hx⟩ := List.mem_flatMap.mp hx
        obtain ⟨r, _, hx⟩ := List.mem_flatMap.mp hx
        obtain ⟨j, _, rfl⟩ := List.mem_map.mp hx
        unfold FieldRecord.slotState at hr
        cases hst : r.state <;> simp [hst] at hr
      · exact List.mem_map_of_mem hx
    · intro hm
      obtain ⟨x, hx, rfl⟩ := List.mem_map.mp hm
      rw [h2.2.1 x (by unfold State.namings; simp [hx])]
      unfold State.retiringNames at hx
      split at hx
      · simp at hx
      · obtain ⟨r, _, hx⟩ := List.mem_flatMap.mp hx
        obtain ⟨j, _, rfl⟩ := List.mem_map.mp hx
        rfl
  simp only [em]

/-- A job enters service where none is in service. -/
theorem Keeps.enterService (s : State) (e : FrameEngine) (h : s.fen.service = none) : Keeps s { s with fen := e } := by
  refine ⟨fun _ => rfl, fun c hok => ?_⟩
  have hd := hok.2.2.2.2.1 h
  rw [storeOkAt_iff] at *
  obtain ⟨h1, h2, h3, h4⟩ := hok
  refine ⟨h1, ?_, fun _ => hd, h4⟩
  have : ({ s with fen := e } : State).namings = s.namings := by
    unfold State.namings
    congr 1
    unfold State.retiringNames
    rw [h]
    simp only [hd]
    split <;> rfl
  rw [this]
  exact h2

end Sys2Proof.Machine
end

