-- ==== Sys2Proof/Laws/Ownership.lean ====
section
/-! SUPPORT. Every operation keeps the ownership of slots (R21): first those that consume no number, then field starts, expiries,
restarts and cues. -/

namespace Sys2Proof.Machine

/-! ## What every operation keeps -/

namespace Keeps

theorem raise (s : State) (k : NoticeKind) (sc : Scope) (d : Detail) : Keeps s (s.raise k sc d) :=
  ofSame rfl rfl rfl rfl (fun _ => rfl)

theorem notices (s : State) (u : NoticeUnit) : Keeps s { s with ntu := u } := ofSame rfl rfl rfl rfl (fun _ => rfl)

theorem force (s : State) (n : Feed) (f : Force) : Keeps s (s.setForce n f) := ofSame rfl rfl rfl rfl (fun _ => rfl)

theorem cad (s : State) (c : CadenceTracker) : Keeps s { s with cad := c } := ofSame rfl rfl rfl rfl (fun _ => rfl)

theorem fen (s : State) (f : FrameEngine)
    (h : f.service.map (fun v => v.job.feed) = s.fen.service.map (fun v => v.job.feed)) : Keeps s { s with fen := f } :=
  ofSame rfl rfl rfl h (fun _ => rfl)

theorem tld (s : State) (l : TableLoader) : Keeps s { s with tld := l } := ofSame rfl rfl rfl rfl (fun _ => rfl)

theorem choices (s : State) (k : Nat) : Keeps s { s with choices := k } := ofSame rfl rfl rfl rfl (fun _ => rfl)

theorem otx (s : State) (n : Feed) (t : Transmitter) : Keeps s (s.setOtx n t) := ofSame rfl rfl rfl rfl (fun _ => rfl)

theorem rx (s : State) (n : Feed) (r : Receiver) (h : r.counter = (s.lrx.get n).counter) : Keeps s (s.setRx n r) := by
  refine ofSame rfl rfl rfl rfl (fun m => ?_)
  rw [setRx_lrx, Quad_get_set]
  split
  · next hm => subst hm; exact h
  · rfl

theorem ing (s : State) (n : Feed) (c : Conditioner) : Keeps s (s.setIng n c) := ofSame rfl rfl rfl rfl (fun _ => rfl)

theorem setActive (s : State) (n : Feed) (x : Settings) : Keeps s (s.setActive n x) := ofSame rfl rfl rfl rfl (fun _ => rfl)

theorem setStaged (s : State) (n : Feed) (p : Pending) : Keeps s (s.setStaged n p) := ofSame rfl rfl rfl rfl (fun _ => rfl)

theorem write (s : State) (k : Fin 24) (m : Nat) (l : Line) : Keeps s (s.writeLine k m l) :=
  ofSame rfl rfl rfl rfl (fun _ => rfl)

theorem upset (s : State) (us : List Upset) : Keeps s (s.upset us) := ofSame rfl rfl rfl rfl (fun _ => rfl)

theorem edit (s : State) (n : Feed) (q : Seq) (f : FieldRecord → FieldRecord)
    (hf : ∀ r, (f r).seq = r.seq ∧ (f r).slots = r.slots ∧ (f r).state = r.state := by
      intro r; exact ⟨rfl, rfl, rfl⟩) : Keeps s (s.modifyRecord n q f) := ofEdit s n q f hf

/-- A record that the job in service holds changes, but not its number, slots and state. -/
theorem modifyHeld (s : State) (n : Feed) (q : Seq) (f : FieldRecord → FieldRecord)
    (hf : ∀ r, (f r).seq = r.seq ∧ (f r).slots = r.slots ∧ (f r).state = r.state) : Keeps s (s.modifyHeld n q f) := by
  unfold State.modifyHeld
  split
  · refine ⟨fun _ => rfl, fun c hok => ?_⟩
    rw [storeOkAt_iff] at *
    obtain ⟨h1, h2, h3, h4⟩ := hok
    refine ⟨h1, ?_, ?_, h4⟩
    · have : (State.namings { s with fst := { s.fst with
          detached := s.fst.detached.map (fun r => if r.seq == q then f r else r) } }) = s.namings := by
        unfold State.namings
        congr 1
        unfold State.retiringNames
        dsimp only
        split
        · rfl
        · rw [List.flatMap_map]
          refine List.flatMap_congr (fun r _ => ?_)
          split
          · rw [(hf r).2.1]
          · rfl
      rw [this]
      exact h2
    · intro h
      show s.fst.detached.map _ = []
      rw [h3 h]
      rfl
  · exact ofEdit s n q f hf

theorem count (s : State) (n : Feed) (c : FeedCounter) (k : Nat) : Keeps s (s.count n c k) :=
  Keeps.notices s _

theorem countDev (s : State) (c : DeviceCounter) : Keeps s (s.countDev c) := Keeps.notices s _

theorem setTracker (s : State) (n : Feed) (k : Tracker) : Keeps s (s.setTracker n k) := Keeps.cad s _

theorem setLoad (s : State) (l : Option LoadRecord) : Keeps s (s.setLoad l) := Keeps.tld s _

theorem setCopy (s : State) (t : TableId) (c : LoadCopy) : Keeps s (s.setCopy t c) := Keeps.tld s _

theorem setPeriodic (s : State) (p : Periodic) : Keeps s (s.setPeriodic p) := Keeps.notices s _

theorem setLatches (s : State) (sc : Scope) (l : Latches) : Keeps s (s.setLatches sc l) := by
  cases sc <;> exact Keeps.notices s _

theorem nextChoice (s : State) : Keeps s s.nextChoice.2 := Keeps.choices s _

/-! ## The field store -/

theorem readLine (s : State) (held : Bool) (n : Feed) (q : Seq) (m : Nat) : Keeps s (s.readLine held n q m).2 := by
  unfold State.readLine
  split
  · exact Keeps.refl s
  · split
    · exact Keeps.refl s
    · split
      · exact Keeps.refl s
      · split
        · exact Keeps.refl s
        · exact (count s _ _ _).trans (Keeps.raise _ _ _ _)
        · dsimp only
          refine Keeps.trans (Keeps.trans ?_ (count _ _ _ _)) (Keeps.raise _ _ _ _)
          split
          · exact modifyHeld s n q _ (fun _ => ⟨rfl, rfl, rfl⟩)
          · exact edit s n q _

/-! ## The frame engine -/

theorem noteAdoption (s : State) (t : TableId) : Keeps s (s.noteAdoption t) :=
  (Keeps.raise s _ _ _).trans (countDev _ _)

theorem adoptSet_service (s : State) (t : TableId) : (s.adoptSet t).fen.service = s.fen.service := by
  unfold State.adoptSet
  split
  · show (ite _ _ _ : FrameEngine).service = _
    split <;> rfl
  · rfl

theorem adoptSet (s : State) (t : TableId) : Keeps s (s.adoptSet t) := by
  have h := adoptSet_service s t
  unfold State.adoptSet at *
  split
  · next hr =>
    rw [if_pos hr] at h
    exact ofSame rfl rfl rfl (congrArg (fun o => Option.map (fun (v : Service) => v.job.feed) o) h) (fun _ => rfl)
  · exact Keeps.refl s

theorem adoptSets_service (s : State) : s.adoptSets.fen.service = s.fen.service := by
  unfold State.adoptSets
  generalize ([1, 2, 3, 4, 5, 6, 7, 8] : List TableId) = l
  induction l generalizing s with
  | nil => rfl
  | cons t l ih => exact (ih (s.adoptSet t)).trans (adoptSet_service s t)

theorem adoptSets (s : State) : Keeps s s.adoptSets := foldl _ adoptSet _ s

theorem claimHalf (s : State) (n : Feed) : Keeps s (s.claimHalf n) := by
  unfold State.claimHalf
  dsimp only
  split
  · exact (Keeps.otx s n _).trans (count _ _ _ _)
  · exact Keeps.otx s n _

theorem startJob (s : State) (j : Job) (h : s.fen.service = none) : Keeps s (s.startJob j) := by
  unfold State.startJob
  dsimp only
  refine Keeps.trans (Keeps.trans ?_ (claimHalf _ _)) (retain _ _)
  refine (Keeps.fen s { s.fen with waiting := s.fen.waiting.erase j } rfl).trans ?_
  have k := adoptSets_service { s with fen := { s.fen with waiting := s.fen.waiting.erase j } }
  refine (adoptSets _).trans (enterService _ _ ?_)
  rw [k]
  exact h

theorem skipAtChoice (s : State) (j : Job) : Keeps s (s.skipAtChoice j) :=
  ((Keeps.fen s _ (by rfl)).trans (noteSkip _ j)).trans (retain _ _)

theorem arbitrateFor (k : Nat) (s : State) : Keeps s (State.arbitrateFor k s) := by
  induction k generalizing s with
  | zero => exact Keeps.refl s
  | succ k ih =>
    unfold State.arbitrateFor
    split
    · exact Keeps.refl s
    · split
      · exact Keeps.refl s
      · split
        · exact startJob s _ (by assumption)
        · exact (skipAtChoice s _).trans (ih _)

theorem arbitrate (s : State) : Keeps s s.arbitrate := arbitrateFor _ s

theorem skipOlder (s : State) (n : Feed) : Keeps s (s.skipOlder n) := by
  unfold State.skipOlder
  split
  · exact (Keeps.fen s _ (by rfl)).trans (noteSkip _ _)
  · exact Keeps.refl s

theorem enqueue (s : State) (j : Job) : Keeps s (s.enqueue j) :=
  ((skipOlder s _).trans (Keeps.fen _ _ (by rfl))).trans (arbitrate _)

theorem withdrawJobs (s : State) (n : Feed) : Keeps s (s.withdrawJobs n) := by
  refine Keeps.fen s _ ?_
  cases s.fen.service with
  | none => rfl
  | some v =>
    simp only [Option.map_some]
    congr 1
    split <;> rfl

/-! ## The cadence tracker -/

theorem breakLock (s : State) (n : Feed) (d : Detail) : Keeps s (s.breakLock n d) :=
  ((setTracker s n _).trans (Keeps.raise _ _ _ _)).trans (count _ _ _ _)

theorem trackerAction (s : State) (n : Feed) (q : Seq) (e : Evidence) (ds : Bool) :
    Keeps s (s.trackerAction n q e ds).2 := by
  unfold State.trackerAction
  dsimp only
  split
  · split
    · split
      · exact (((setTracker s n _).trans (setTracker _ n _)).trans (Keeps.raise _ _ _ _)).trans (count _ _ _ _)
      · exact setTracker s n _
    · exact setTracker s n _
  · split
    · exact (setTracker s n _).trans (breakLock _ n _)
    · exact (setTracker s n _).trans (setTracker _ n _)
  · exact (setTracker s n _).trans (setTracker _ n _)
  · exact setTracker s n _
  · exact (setTracker s n _).trans (setTracker _ n _)

theorem adoptFor (changed : Quad Bool) (s : State) (n : Feed) : Keeps s (State.adoptFor changed s n) := by
  unfold State.adoptFor
  dsimp only
  split
  · split
    · exact (setTracker s n _).trans (breakLock _ n _)
    · exact setTracker s n _
  · split
    · split
      · exact ((setTracker s n _).trans (setTracker _ n _)).trans (Keeps.force _ n _)
      · exact ((setTracker s n _).trans (setTracker _ n _)).trans (Keeps.force _ n _)
    · exact setTracker s n _
  · exact setTracker s n _

theorem adoptCadence (s : State) : Keeps s s.adoptCadence := by
  unfold State.adoptCadence
  split
  · exact (((Keeps.cad s _).trans (setCopy _ 0 _)).trans (foldl _ (adoptFor _) feeds _)).trans (noteAdoption _ 0)
  · exact Keeps.refl s

theorem evidenceEvent (s : State) (n : Feed) (q : Seq) : Keeps s (s.evidenceEvent n q) := by
  unfold State.evidenceEvent
  split
  · dsimp only
    split
    · exact ((adoptCadence s).trans (trackerAction _ n _ _ _)).trans (enqueue _ _)
    · exact (adoptCadence s).trans (trackerAction _ n _ _ _)
  · exact Keeps.refl s

theorem applyMask (s : State) (n : Feed) (new : Quad Bool) (d : Detail) :
    Keeps s (s.applyMask n new d) := by
  unfold State.applyMask
  dsimp only
  split
  · exact ((setTracker s n _).trans (Keeps.setActive _ n _)).trans (breakLock _ n d)
  · exact (setTracker s n _).trans (Keeps.setActive _ n _)

theorem applyForce (s : State) (n : Feed) (f : Force) : Keeps s (s.applyForce n f) := by
  unfold State.applyForce
  dsimp only
  split
  · exact Keeps.refl s
  · exact (setTracker s n _).trans (Keeps.setActive _ n _)

theorem resetTracker (s : State) (n : Feed) : Keeps s (s.resetTracker n) := setTracker s n _

/-! ## The ingest conditioner -/

theorem mapOverflow (s : State) (n : Feed) (q : Seq) : Keeps s (s.mapOverflow n q) := by
  unfold State.mapOverflow
  split
  · exact Keeps.refl s
  · split
    · exact Keeps.refl s
    · exact (edit s n q _).trans (Keeps.raise _ _ _ _)

theorem takeMapEntry (n : Feed) (s : State) (e : Nat × Nat) : Keeps s (State.takeMapEntry n s e) := by
  unfold State.takeMapEntry
  split
  · exact Keeps.refl s
  · dsimp only
    split
    · exact (Keeps.rx s n _ (by rfl)).trans (Keeps.ing _ n _)
    · exact mapOverflow s n _

theorem readLines (n : Feed) (q : Seq) (ms : List Nat) (s : State) : Keeps s (State.readLines n q ms s) :=
  foldl _ (fun t m => readLine t false n q m) ms s

theorem closureReads (s : State) (n : Feed) (lines : Nat) (f0 : FieldRecord) (back prev : Option FieldRecord) :
    Keeps s (s.closureReads n lines f0 back prev) := by
  have h1 : Keeps s (if back.isSome || prev.isSome then s.readLines n f0.seq (List.range lines) else s) := by
    split
    · exact readLines n _ _ s
    · exact Keeps.refl s
  unfold State.closureReads
  refine h1.trans ?_
  generalize (if back.isSome || prev.isSome then s.readLines n f0.seq (List.range lines) else s) = s1
  cases back <;> cases prev
  · exact Keeps.refl s1
  · exact readLines n _ _ s1
  · exact readLines n _ _ s1
  · exact (readLines n _ _ s1).trans (readLines n _ _ _)

theorem enterMeasures (s : State) (n : Feed) (q : Seq) : Keeps s (s.enterMeasures n q) := by
  unfold State.enterMeasures
  split
  · exact Keeps.refl s
  · exact (closureReads s n _ _ _ _).trans (edit _ n q _)

theorem enterMap (s : State) (n : Feed) (q : Seq) (m : DropoutMap) : Keeps s (s.enterMap n q m) := by
  unfold State.enterMap
  split
  · exact Keeps.refl s
  · exact ((edit s n q _).trans (count _ _ _ _)).trans (count _ _ _ _)

theorem watchLimit (s : State) (n : Feed) (q : Seq) (w : Watch) (k : NoticeKind) : Keeps s (s.watchLimit n q w k) := by
  unfold State.watchLimit
  split
  · exact Keeps.refl s
  · split
    · dsimp only
      split
      · exact (Keeps.raise s _ _ _).trans (edit _ n q _)
      · exact Keeps.raise s _ _ _
    · exact Keeps.refl s

theorem overflowPoor (s : State) (n : Feed) (q : Seq) : Keeps s (s.overflowPoor n q) := by
  unfold State.overflowPoor
  split
  · exact Keeps.refl s
  · split
    · exact edit s n q _
    · exact Keeps.refl s

theorem closureWork (s : State) (n : Feed) (q : Seq) (m : DropoutMap) : Keeps s (s.closureWork n q m) := by
  unfold State.closureWork
  dsimp only
  refine Keeps.trans (Keeps.trans ?_ (evidenceEvent _ n q)) (retain _ n)
  refine Keeps.trans (Keeps.trans ?_ (watchLimit _ n q _ _)) (watchLimit _ n q _ _)
  exact ((enterMap s n q m).trans (enterMeasures _ n q)).trans (overflowPoor _ n q)

theorem gapClosureWork (s : State) (n : Feed) (q : Seq) : Keeps s (s.gapClosureWork n q) :=
  (evidenceEvent s n q).trans (retain _ n)

/-! ## The build -/

theorem readLine_fen (s : State) (held : Bool) (n : Feed) (q : Seq) (m : Nat) : (s.readLine held n q m).2.fen = s.fen := by
  unfold State.readLine
  split
  · rfl
  · split
    · rfl
    · split
      · rfl
      · split
        · rfl
        · rfl
        · dsimp only
          split
          · unfold State.modifyHeld
            split <;> rfl
          · rfl

theorem buildLine (s : State) (r : BuildRole) (m : Nat) : Keeps s (s.buildLine r m) := by
  unfold State.buildLine
  split
  · exact Keeps.refl s
  · next v hv =>
    split
    · split
      · exact Keeps.refl s
      · refine (readLine s true _ _ m).trans (Keeps.fen _ _ ?_)
        rw [readLine_fen, hv]
        rfl
    · exact Keeps.refl s

theorem finishReads (s : State) : Keeps s s.finishReads := by
  unfold State.finishReads
  split
  · exact Keeps.refl s
  · exact foldl (fun t (p : BuildRole × Nat) => t.buildLine p.1 p.2) (fun t p => buildLine t p.1 p.2) _ s

theorem deliver (s : State) (v : Service) : Keeps s (s.deliver v) := by
  unfold State.deliver
  dsimp only
  split
  · exact Keeps.otx s _ _
  · exact (Keeps.otx s _ _).trans (count _ _ _ _)

theorem completeJob (s : State) : Keeps s s.completeJob := by
  unfold State.completeJob
  dsimp only
  split
  · exact Keeps.refl s
  · exact (((finishReads s).trans (deliver _ _)).trans (endService _ _ rfl)).trans ((retain _ _).trans (arbitrate _))

/-! ## The output transmitters -/

theorem fixFrame (s : State) (n : Feed) : Keeps s (s.fixFrame n).2 := by
  unfold State.fixFrame
  dsimp only
  split
  · exact Keeps.otx s n _
  · split
    · exact count s _ _ _
    · split
      · refine Keeps.trans ?_ (count _ _ _ _)
        exact Keeps.otx s n _
      · refine Keeps.trans (Keeps.trans ?_ (count _ _ _ _)) (Keeps.raise _ _ _ _)
        exact Keeps.otx s n _

theorem startFrameTimer (s : State) (n : Feed) : Keeps s (s.startFrameTimer n) := Keeps.otx s n _

theorem stopFrameTimer (s : State) (n : Feed) : Keeps s (s.stopFrameTimer n) := Keeps.otx s n _

theorem adoptSource (s : State) (n : Feed) : Keeps s (s.adoptSource n) := by
  unfold State.adoptSource
  dsimp only
  split
  · exact Keeps.refl s
  · split <;> exact Keeps.otx s n _

theorem restartIfFree (s : State) (n : Feed) : Keeps s (s.restartIfFree n) := by
  unfold State.restartIfFree
  split
  · exact startFrameTimer s n
  · exact Keeps.refl s

theorem drawStatus (s : State) (n : Feed) : Keeps s (s.drawStatus n).2 := by
  unfold State.drawStatus
  split
  · exact Keeps.refl s
  · split
    · exact Keeps.refl s
    · exact setLatches s _ _

theorem drawCounters (s : State) (n : Feed) : Keeps s (s.drawCounters n).2 := by
  unfold State.drawCounters
  split
  · exact Keeps.refl s
  · split
    · exact Keeps.refl s
    · exact setLatches s _ _

theorem drawPeriodic (s : State) (n : Feed) : Keeps s (s.drawPeriodic n).2 := by
  unfold State.drawPeriodic
  dsimp only
  split
  · exact Keeps.refl s
  · split
    · exact Keeps.refl s
    · split <;> exact setPeriodic s _

theorem drawResults (s : State) (n : Feed) : Keeps s (s.drawResults n).2 :=
  Keeps.otx s n _

theorem drawNotices (s : State) (n : Feed) : Keeps s (s.drawNotices n).2 := Keeps.notices s _

theorem drawCarry (s : State) (n : Feed) (room : Nat) : Keeps s (s.drawCarry n room).2 :=
  Keeps.otx s n _

theorem placeBlanking (s : State) (n : Feed) : Keeps s (s.placeBlanking n).2 :=
  (((((drawStatus s n).trans (drawCounters _ n)).trans (drawPeriodic _ n)).trans (drawResults _ n)).trans
    (drawNotices _ n)).trans (drawCarry _ n _)

theorem frameStart (s : State) (n : Feed) : Keeps s (s.frameStart n) :=
  ((((fixFrame s n).trans (restartIfFree _ n)).trans (adoptSource _ n)).trans (placeBlanking _ n)).trans (Keeps.otx _ n _)

theorem frameTimerExpires (s : State) (n : Feed) : Keeps s (s.frameTimerExpires n) := by
  unfold State.frameTimerExpires
  split
  · exact Keeps.refl s
  · exact frameStart s n

theorem pulse (s : State) (n : Feed) : Keeps s (s.pulse n) := by
  unfold State.pulse
  dsimp only
  split
  · refine Keeps.trans ?_ (frameStart _ n)
    exact Keeps.otx s n _
  · exact Keeps.refl s

theorem watchExpires (s : State) (n : Feed) : Keeps s (s.watchExpires n) := by
  unfold State.watchExpires
  dsimp only
  split
  · exact Keeps.refl s
  · refine Keeps.trans (Keeps.trans ?_ (Keeps.raise _ _ _ _)) (frameStart _ n)
    exact Keeps.otx s n _

theorem outputFieldStart (s : State) (n : Feed) : Keeps s (s.outputFieldStart n) := by
  unfold State.outputFieldStart
  dsimp only
  split
  · split
    · exact (stopFrameTimer s n).trans (frameStart _ n)
    · split
      · exact startFrameTimer s n
      · exact Keeps.refl s
  · exact Keeps.refl s

theorem outputExpiry (s : State) (n : Feed) : Keeps s (s.outputExpiry n) := by
  unfold State.outputExpiry
  split
  · exact frameStart s n
  · exact Keeps.refl s

theorem outputFeedRestart (s : State) (n : Feed) (b : Bool) : Keeps s (s.outputFeedRestart n b) := by
  unfold State.outputFeedRestart
  split
  · exact startFrameTimer s n
  · exact Keeps.refl s

theorem appendResult (s : State) (n : Feed) (r : CueResult) : Keeps s (s.appendResult n r) := by
  unfold State.appendResult
  dsimp only
  split
  · exact Keeps.otx s n _
  · exact (Keeps.raise s _ _ _).trans (countDev _ _)

theorem appendCarry (s : State) (n : Feed) (p : Packet) : Keeps s (s.appendCarry n p) := by
  unfold State.appendCarry
  dsimp only
  split
  · exact Keeps.otx s n _
  · exact (Keeps.raise s _ _ _).trans (count _ _ _ _)

/-! ## Settings -/

theorem takeMask (s : State) (n : Feed) (new : Quad Bool) (q : Option Seq) : Keeps s (s.takeMask n new q) := by
  unfold State.takeMask
  split
  · exact Keeps.refl s
  · split
    · exact applyMask s n new _
    · split
      · exact (nextChoice s).trans (applyMask _ n new _)
      · exact applyMask s n new _

theorem takeMaskAndForce (s : State) (n : Feed) (m : Quad Bool) (f : Force) (q : Option Seq) :
    Keeps s (s.takeMaskAndForce n m f q) := by
  unfold State.takeMaskAndForce
  split
  · split
    · exact ((nextChoice s).trans (takeMask _ n m q)).trans (applyForce _ n f)
    · exact ((nextChoice s).trans (applyForce _ n f)).trans (takeMask _ n m q)
  · exact (takeMask s n m q).trans (applyForce _ n f)

theorem takeTrackerItems (s : State) (n : Feed) (p : Pending) (q : Option Seq) : Keeps s (s.takeTrackerItems n p q) := by
  unfold State.takeTrackerItems
  split
  · exact takeMaskAndForce s n _ _ q
  · exact takeMask s n _ q
  · exact applyForce s n _
  · exact Keeps.refl s

theorem activate (s : State) (n : Feed) (p : Pending) (q : Option Seq) : Keeps s (s.activate n p q) :=
  (Keeps.setActive s n _).trans (takeTrackerItems _ n p q)

theorem clearFeed (s : State) (n : Feed) : Keeps s (s.clearFeed n) :=
  ((emptyHistory s n).trans (resetTracker _ n)).trans (withdrawJobs _ n)

theorem enterOff (s : State) (n : Feed) : Keeps s (s.enterOff n) :=
  ((Keeps.rx s n _ (by rfl)).trans (Keeps.ing _ n _)).trans (clearFeed _ n)

theorem applyAtOnce (s : State) (n : Feed) (p : Pending) : Keeps s (s.applyAtOnce n p) := by
  have h : Keeps s (if p.changesStructure (s.settings n) then (s.activate n p none).clearFeed n
      else s.activate n p none) := by
    split
    · exact (activate s n p none).trans (clearFeed _ n)
    · exact activate s n p none
  unfold State.applyAtOnce
  dsimp only
  refine h.trans ?_
  generalize (if p.changesStructure (s.settings n) then (s.activate n p none).clearFeed n
      else s.activate n p none) = s2
  split
  · exact Keeps.refl s2
  · split
    · exact Keeps.rx s2 n _ (by rfl)
    · exact Keeps.refl s2
  · split
    · exact Keeps.refl s2
    · exact enterOff s2 n

theorem stageOrApply (s : State) (n : Feed) (p : Pending) : Keeps s (s.stageOrApply n p) := by
  unfold State.stageOrApply
  split
  · exact Keeps.setStaged s n _
  · exact applyAtOnce s n p

/-! ## The loader -/

theorem discardLoad (s : State) (r : Reason) : Keeps s (s.discardLoad r) := (setLoad s none).trans (Keeps.raise _ _ _ _)

theorem openLoad (s : State) (t : TableId) (c : Nat) : Keeps s (s.openLoad t c).2 := by
  unfold State.openLoad
  split
  · exact Keeps.refl s
  · split
    · exact Keeps.refl s
    · dsimp only
      split
      · exact (discardLoad s _).trans (setLoad _ _)
      · exact setLoad s _

theorem closeLoad (s : State) (t : TableId) : Keeps s (s.closeLoad t).2 := by
  unfold State.closeLoad
  split
  · exact (setLoad s none).trans (setCopy _ t _)
  · exact discardLoad s _

theorem takePart (s : State) (i : Nat) (last : Bool) (ws : List Word) : Keeps s (s.takePart i last ws).2 := by
  unfold State.takePart
  split
  · exact Keeps.refl s
  · split
    · dsimp only
      split
      · exact ((setCopy s _ _).trans (setLoad _ _)).trans (closeLoad _ _)
      · exact (setCopy s _ _).trans (setLoad _ _)
    · exact discardLoad s _

theorem abandonLoad (s : State) : Keeps s s.abandonLoad.2 := by
  unfold State.abandonLoad
  split
  · exact Keeps.refl s
  · exact setLoad s none

theorem loaderEvent (s : State) : Keeps s s.loaderEvent := by
  unfold State.loaderEvent
  split
  · exact Keeps.refl s
  · split
    · exact discardLoad s _
    · exact setLoad s _

theorem loadStalls (s : State) : Keeps s s.loadStalls := by
  unfold State.loadStalls
  split
  · exact Keeps.refl s
  · split
    · exact discardLoad s _
    · exact Keeps.refl s

/-! ## The receivers -/

theorem closeField (s : State) (n : Feed) (v : Arriving) : Keeps s (s.closeField n v) := by
  unfold State.closeField
  dsimp only
  split
  · exact (closeRecord s n _).trans (gapClosureWork _ n _)
  · exact ((closeRecord s n _).trans (count _ _ _ _)).trans (closureWork _ n _ _)

theorem closeShort (s : State) (n : Feed) (v : Arriving) : Keeps s (s.closeShort n v) :=
  ((edit s n _ _).trans (Keeps.raise _ _ _ _)).trans (closeField _ n v)

theorem closeArriving (s : State) (n : Feed) : Keeps s (s.closeArriving n) := by
  unfold State.closeArriving
  split
  · exact Keeps.refl s
  · split
    · exact closeShort s n _
    · split
      · exact closeField s n _
      · exact Keeps.refl s

theorem checkParity (s : State) (n : Feed) (p : Parity) : Keeps s (s.checkParity n p) := by
  unfold State.checkParity
  split
  · exact Keeps.refl s
  · exact (Keeps.raise s _ _ _).trans (count _ _ _ _)

theorem handToLoader (s : State) (n : Feed) : Keeps s (s.handToLoader n) := by
  unfold State.handToLoader
  split
  · exact loaderEvent s
  · exact Keeps.refl s

theorem storeLine (s : State) (n : Feed) (v : Arriving) (m : Nat) (l : Line) : Keeps s (s.storeLine n v m l) := by
  unfold State.storeLine
  split
  · exact Keeps.refl s
  · split
    · exact foldl _ (fun t k => Keeps.write t k m _) _ s
    · exact Keeps.refl s

theorem surplusLine (s : State) (n : Feed) (v : Arriving) : Keeps s (s.surplusLine n v) := by
  unfold State.surplusLine
  dsimp only
  split
  · exact Keeps.refl s
  · split
    · exact Keeps.rx s n _ (by rfl)
    · exact ((Keeps.rx s n _ (by rfl)).trans (edit _ n _ _)).trans (Keeps.raise _ _ _ _)

theorem nextLine (s : State) (n : Feed) (v : Arriving) (l : Line) : Keeps s (s.nextLine n v l) := by
  unfold State.nextLine
  dsimp only
  split
  · exact Keeps.rx s n _ (by rfl)
  · split
    · exact ((Keeps.rx s n _ (by rfl)).trans (storeLine _ n v _ l)).trans (closeField _ n _)
    · exact (Keeps.rx s n _ (by rfl)).trans (storeLine _ n v _ l)

theorem activeLineArrives (s : State) (n : Feed) (l : Line) : Keeps s (s.activeLineArrives n l) := by
  unfold State.activeLineArrives
  split
  · exact Keeps.refl s
  · split
    · exact nextLine s n _ l
    · exact surplusLine s n _

theorem goDown (s : State) (n : Feed) (q : Seq) : Keeps s (s.goDown n q) := by
  unfold State.goDown
  dsimp only
  have h := ((Keeps.rx s n { s.lrx.get n with timer := .stopped, state := .down } rfl).trans
    (Keeps.raise _ .feedDown (.feed n) (.sequence q))).trans (clearFeed _ n)
  split
  · exact h.trans ((Keeps.setStaged _ n _).trans (applyAtOnce _ n _))
  · exact h

theorem takeMapPacket (s : State) (n : Feed) (p : Packet) : Keeps s (s.takeMapPacket n p) := by
  unfold State.takeMapPacket
  split
  · exact Keeps.refl s
  · split
    · exact foldl _ (takeMapEntry n) _ s
    · exact Keeps.refl s

/-! ## Restarts -/

theorem restartReceiver (s : State) (n : Feed) : Keeps s (s.restartReceiver n) := (Keeps.rx s n _ (by rfl)).trans (Keeps.ing _ n _)

theorem clearNoticeFeed (s : State) (n : Feed) : Keeps s (s.clearNoticeFeed n) :=
  Keeps.notices s _

theorem feedRestarts (s : State) (n : Feed) : Keeps s (s.feedRestarts n) :=
  ((((Keeps.setStaged s n _).trans (restartReceiver _ n)).trans (clearFeed _ n)).trans (outputFeedRestart _ n _)).trans
    (clearNoticeFeed _ n)

/-! ## Cues -/

theorem discardCue (s : State) (n : Feed) (d : Detail) : Keeps s (s.discardCue n d) :=
  (Keeps.raise s _ _ _).trans (countDev _ _)

theorem answer (s : State) (n : Feed) (code : Word) (c : CueWords) (a : Answer) : Keeps s (s.answer n code c a) :=
  (appendResult s n _).trans (countDev _ _)

theorem carrySettings (items : Feed → State → Option (Pending × List (Nat × Nat))) (sc : Scope) (s : State) :
    Keeps s (State.carrySettings items sc s).2 := by
  unfold State.carrySettings
  split
  · exact Keeps.refl s
  · split
    · exact Keeps.refl s
    · exact stageOrApply s _ _

theorem clearCounters (s : State) (sc : Scope) : Keeps s (s.clearCounters sc) := by
  cases sc <;> exact Keeps.notices s _

theorem latchCounters (s : State) (sc : Scope) (clear : Bool) : Keeps s (s.latchCounters sc clear).2 := by
  unfold State.latchCounters
  split
  · exact Keeps.refl s
  · dsimp only
    split
    · exact (setLatches s sc _).trans (clearCounters _ sc)
    · exact setLatches s sc _

end Keeps

/-! ## What every event keeps -/

/-- What agrees with the receivers' own numbers goes on to (R21, R25, R26). -/
def KeepsStore (s t : State) : Prop := s.storeOk → t.storeOk

theorem Keeps.store {s t : State} (h : Keeps s t) : KeepsStore s t := by
  intro hok
  have := h.2 _ hok
  unfold State.storeOk
  rw [show (fun n => (t.lrx.get n).counter) = fun n => (s.lrx.get n).counter from funext h.1]
  exact this

/-- A state whose store is as right after reset. -/
theorem storeOk_empty (s : State) (h1 : s.fst.slots = List.replicate 24 .free) (h2 : s.fst.hist = Quad.all [])
    (h3 : s.fst.detached = []) : s.storeOk := by
  have hh : ∀ n, s.history n = [] := by
    intro n
    unfold State.history
    rw [h2, Quad_get_all]
  refine (storeOkAt_iff s _).mpr ⟨?_, ?_, fun _ => h3, fun n => ?_⟩
  · unfold State.slotsOk
    rw [h1]
    rfl
  · have : s.namings = [] := by
      unfold State.namings State.retiringNames
      rw [h3]
      simp only [hh]
      cases s.fen.service <;> rfl
    rw [this]
    refine ⟨by simp, by simp, fun k => Or.inl ?_⟩
    unfold State.slot
    rw [h1]
    fin_cases k <;> rfl
  · rw [hh]
    exact ⟨by simp, by simp⟩

namespace KeepsStore

theorem refl (s : State) : KeepsStore s s := id

theorem trans {s t u : State} (h : KeepsStore s t) (k : KeepsStore t u) : KeepsStore s u := k ∘ h

theorem foldl {α : Type} (f : State → α → State) (h : ∀ s x, KeepsStore s (f s x)) (l : List α) (s : State) :
    KeepsStore s (l.foldl f s) := by
  induction l generalizing s with
  | nil => exact refl s
  | cons x t ih => exact (h s x).trans (ih (f s x))

/-! ## Field starts and expiries: a number is consumed and its record appended (R3, R12, R25) -/

/-- The numbers consumed after feed n consumes one. -/
theorem setRx_consumed (s : State) (n : Feed) (r : Receiver) (h : r.counter = (s.lrx.get n).counter + 1) :
    (fun m => ((s.setRx n r).lrx.get m).counter) = consumed (fun m => (s.lrx.get m).counter) n := by
  funext m
  rw [setRx_lrx, Quad_get_set]
  unfold consumed
  split
  · next hm => subst hm; exact h
  · rfl

theorem openField (s : State) (n : Feed) (p : Parity) (rep : Bool) : KeepsStore s (s.openField n p rep) := by
  intro hok
  have ha : (s.admitField n p).storeOkAt (fun m => (s.lrx.get m).counter) := hok
  have hc : (fun m => ((s.admitField n p).lrx.get m).counter) = consumed (fun m => (s.lrx.get m).counter) n :=
    setRx_consumed s n _ rfl
  obtain ⟨h1, h2⟩ := allocate_storeOk n p rep ha
  have h3 : (((s.admitField n p).allocate n (s.lrx.get n).counter p rep).2).storeOk := by
    unfold State.storeOk
    rw [show (fun m => ((((s.admitField n p).allocate n (s.lrx.get n).counter p rep).2).lrx.get m).counter) = _ from funext h1,
      hc]
    exact h2
  unfold State.openField
  dsimp only
  split
  · exact (Keeps.ing _ n _).store h3
  · refine (Keeps.rx _ n _ ?_).store h3
    rfl

theorem missField (s : State) (n : Feed) : KeepsStore s (s.missField n) := by
  intro hok
  unfold State.missField
  dsimp only
  obtain ⟨h1, h2⟩ := appendMissing_storeOk n (s.lrx.get n).expected hok
  have e : ∀ r : Receiver, r.counter = (s.lrx.get n).counter + 1 →
      ((s.appendMissing n (s.lrx.get n).counter (s.lrx.get n).expected).setRx n r).storeOk := by
    intro r hr
    unfold State.storeOk
    rw [setRx_consumed _ n r (by rw [hr, h1]), show (fun m => ((s.appendMissing n (s.lrx.get n).counter
      (s.lrx.get n).expected).lrx.get m).counter) = _ from funext h1]
    exact h2
  refine (((((Keeps.raise _ _ _ _).trans (Keeps.count _ _ _ _)).trans (Keeps.rx _ n _ (by rfl))).trans
    (Keeps.gapClosureWork _ n _)).trans ((Keeps.rx _ n _ (by rfl)).trans (Keeps.ing _ n _))).store (e _ rfl)

theorem startWithItems (s : State) (n : Feed) (p : Parity) (items : Pending) : KeepsStore s (s.startWithItems n p items) := by
  have h := fun o => (Keeps.setStaged s n emptyPending).trans (Keeps.activate (s.setStaged n emptyPending) n items o)
  unfold State.startWithItems
  dsimp only
  split
  · exact ((h _).trans (Keeps.enterOff _ n)).store
  · split
    · exact ((h _).trans (Keeps.clearFeed _ n)).store.trans (openField _ n p false)
    · exact ((h _).trans (Keeps.checkParity _ n p)).store.trans (openField _ n p _)

theorem startRunning (s : State) (n : Feed) (p : Parity) : KeepsStore s (s.startRunning n p) := by
  unfold State.startRunning
  dsimp only
  refine (Keeps.closeArriving s n).store.trans ?_
  split
  · exact startWithItems _ n p _
  · exact (Keeps.checkParity _ n p).store.trans (openField _ n p _)

theorem receiverFieldStart (s : State) (n : Feed) (p : Parity) : KeepsStore s (s.receiverFieldStart n p) := by
  unfold State.receiverFieldStart
  split
  · exact (Keeps.rx s n _ (by rfl)).store
  · exact openField s n p false
  · exact (Keeps.raise s _ _ _).store.trans (openField _ n p false)
  · exact startRunning s n p

theorem fieldStarts (s : State) (n : Feed) (p : Parity) : KeepsStore s (s.fieldStarts n p) :=
  (receiverFieldStart s n p).trans ((Keeps.outputFieldStart _ n).trans (Keeps.handToLoader _ n)).store

theorem receiverExpiry (s : State) (n : Feed) : KeepsStore s (s.receiverExpiry n) := by
  unfold State.receiverExpiry
  dsimp only
  refine ((Keeps.closeArriving s n).store.trans (missField _ n)).trans ?_
  split
  · exact (Keeps.goDown _ n _).store
  · exact refl _

theorem missingFieldExpires (s : State) (n : Feed) : KeepsStore s (s.missingFieldExpires n) := by
  unfold State.missingFieldExpires
  split
  · exact (receiverExpiry s n).trans ((Keeps.outputExpiry _ n).trans (Keeps.handToLoader _ n)).store
  · exact refl s

/-! ## Restarts -/

theorem deviceRestarts (s : State) (d : Straps) : KeepsStore s (s.deviceRestarts d) := fun _ => storeOk_empty _ rfl rfl rfl

theorem powersOn (s : State) (d : Straps) : KeepsStore s (s.powersOn d) := by
  intro _
  have h : (s.released d).storeOk := storeOk_empty _ rfl rfl rfl
  unfold State.powersOn State.allFrameStarts
  exact (Keeps.foldl _ Keeps.frameStart feeds _).store h

theorem holdsReset (s : State) : KeepsStore s s.holdsReset := id

/-! ## Cues -/

theorem takeCue (s : State) (n : Feed) (code : Word) (c : CueWords) (lengthOk : Nat → Bool) (rule : ScopeRule)
    (run : Scope → State → Answer × State) (h : ∀ sc t, KeepsStore t (run sc t).2) :
    KeepsStore s (s.takeCue n code c lengthOk rule run) := by
  unfold State.takeCue
  split
  · exact refl s
  · split
    · exact (Keeps.discardCue s n _).store
    · split
      · exact (Keeps.answer s n code c _).store
      · split
        · exact (Keeps.answer s n code c _).store
        · exact (h _ s).trans (Keeps.answer _ n code c _).store

theorem takeUnknownCue (s : State) (n : Feed) (code : Word) (c : CueWords) : KeepsStore s (s.takeUnknownCue n code c) := by
  unfold State.takeUnknownCue
  split
  · exact refl s
  · split
    · exact (Keeps.discardCue s n _).store
    · exact (Keeps.answer s n code c _).store

theorem settingsCue (s : State) (n : Feed) (code : Word) (len : Nat) (c : CueWords)
    (items : Feed → State → Option (Pending × List (Nat × Nat))) : KeepsStore s (s.settingsCue n code len c items) :=
  takeCue s n code c _ _ _ (fun sc t => (Keeps.carrySettings items sc t).store)

theorem cueFeedRestart (s : State) (n : Feed) (c : CueWords) : KeepsStore s (s.cueFeedRestart n c) := by
  refine takeCue s n _ c _ _ _ (fun sc t => ?_)
  unfold State.carryFeedRestart
  split
  · exact refl t
  · exact (Keeps.feedRestarts t _).store

theorem cueTableOpen (s : State) (n : Feed) (c : CueWords) : KeepsStore s (s.cueTableOpen n c) := by
  refine takeCue s n _ c _ _ _ (fun sc t => ?_)
  unfold State.carryTableOpen
  split
  · exact refl t
  · exact (Keeps.openLoad t _ _).store

theorem cueTablePart (s : State) (n : Feed) (c : CueWords) : KeepsStore s (s.cueTablePart n c) := by
  refine takeCue s n _ c _ _ _ (fun sc t => ?_)
  unfold State.carryTablePart
  split
  · exact refl t
  · exact (Keeps.takePart t _ _ _).store

theorem cueNoticeSet (s : State) (n : Feed) (c : CueWords) : KeepsStore s (s.cueNoticeSet n c) := by
  refine takeCue s n _ c _ _ _ (fun sc t => ?_)
  unfold State.carryNoticeSet
  split
  · exact refl t
  · exact (Keeps.notices t _).store

theorem cueReportSet (s : State) (n : Feed) (c : CueWords) : KeepsStore s (s.cueReportSet n c) := by
  refine takeCue s n _ c _ _ _ (fun sc t => ?_)
  unfold State.carryReportSet
  split
  · exact refl t
  · exact (Keeps.notices t _).store

theorem cueSnapshot (s : State) (n : Feed) (c : CueWords) : KeepsStore s (s.cueSnapshot n c) := by
  refine takeCue s n _ c _ _ _ (fun sc t => ?_)
  unfold State.carrySnapshot
  split
  · exact refl t
  · exact (Keeps.latchCounters t sc _).store

theorem cueStatusQuery (s : State) (n : Feed) (c : CueWords) : KeepsStore s (s.cueStatusQuery n c) := by
  refine takeCue s n _ c _ _ _ (fun sc t => ?_)
  unfold State.latchStatus
  split
  · exact refl t
  · exact (Keeps.setLatches t sc _).store

theorem cueByCode (s : State) (n : Feed) (code : Word) (c : CueWords) (d : Straps) : KeepsStore s (s.cueByCode n code c d) := by
  unfold State.cueByCode
  split
  · exact settingsCue s n _ _ c _
  · exact settingsCue s n _ _ c _
  · exact settingsCue s n _ _ c _
  · exact settingsCue s n _ _ c _
  · exact settingsCue s n _ _ c _
  · exact settingsCue s n _ _ c _
  · exact settingsCue s n _ _ c _
  · exact cueFeedRestart s n c
  · exact cueTableOpen s n c
  · exact cueTablePart s n c
  · exact takeCue s n _ c _ _ _ (fun _ t => (Keeps.abandonLoad t).store)
  · exact cueNoticeSet s n c
  · exact cueReportSet s n c
  · exact cueSnapshot s n c
  · exact cueStatusQuery s n c
  · exact takeCue s n _ c _ _ _ (fun _ t => deviceRestarts t d)
  · exact takeUnknownCue s n code c

theorem routePacket (s : State) (n : Feed) (d : Straps) (p : Packet) : KeepsStore s (s.routePacket n d p) := by
  unfold State.routePacket
  dsimp only
  split
  · split
    · exact (Keeps.appendCarry s n p).store.trans (cueByCode _ n _ _ d)
    · split
      · exact cueByCode s n _ _ d
      · exact (Keeps.appendCarry s n p).store
  · split
    · exact (Keeps.takeMapPacket s n p).store
    · exact (Keeps.appendCarry s n p).store

theorem takeFound (n : Feed) (d : Straps) (s : State) (f : Found) : KeepsStore s (State.takeFound n d s f) := by
  unfold State.takeFound
  split
  · exact routePacket s n d _
  · unfold State.routeCut
    split
    · split
      · exact (Keeps.discardCue s n _).store
      · exact refl s
    · exact refl s

theorem blankingLine (s : State) (n : Feed) (ws : List Word) (d : Straps) : KeepsStore s (s.blankingLine n ws d) :=
  foldl _ (takeFound n d) _ s

end KeepsStore

end Sys2Proof.Machine
end

