-- ==== Sys2Proof/Tests/Slice0.lean ====
section
/-! SUPPORT. Small tests: well-formedness, the manual's worked values, single commands, and for each obligation a concrete
state and operands that meet its hypotheses. -/

namespace Sys2Proof.Tests

/- One theorem at a time: the tests evaluate large states, and a thread for each takes too much memory. -/
set_option Elab.async false

open Sys2Proof.Machine

/-! ## Helpers -/

/-- A cue for a device, a scope and a tag, with its check word. -/
def cueOf (dev scope tag : Nat) (code : Word) (payload : List Word) : CueWords :=
  ⟨wordOf dev, wordOf scope, wordOf tag, payload,
    checkSum ([kindCue, wordOf dev, wordOf scope, code, wordOf tag, wordOf payload.length] ++ payload)⟩

/-- A cue whose check word is wrong. -/
def spoilt (c : CueWords) : CueWords := { c with check := c.check + 1 }

/-- The state after a command. -/
def after (c : Instr) (s : State) : State :=
  match exec c s with
  | .next t => t
  | .fault _ => s
  | .refused _ => s

def afterAll (cs : List Instr) (s : State) : State := cs.foldl (fun t c => after c t) s

/-- Feed n in a state, with a count of misses and a timer. -/
def inState (s : State) (n : Feed) (f : FeedState) (misses : Nat) (t : Timer) : State :=
  s.setRx n { s.lrx.get n with state := f, misses := misses, timer := t }

def runningFeed (n : Feed) : State := inState State.reset n .running 0 (.running 300000)

def steadyLine : Line := ⟨List.replicate 720 500, List.replicate 360 512, List.replicate 360 512⟩

def noStraps : Straps := ⟨false, false, false, false⟩

def storedIn (q : Seq) (p : Parity) (k : Fin 24) : FieldRecord := newRecord q p .opened (.slot k) false (some p)

/-- Feed 0 RUNNING with field 0 arriving, `lines` of its lines received, stored in slot 3; `lost` its lost lines. -/
def arrivingState (lines : Nat) (dropped surplus : Bool) (lost : List Nat) : State :=
  let s := State.reset.setRx 0 ⟨.running, 1, .lower, .running 300000, 0, some ⟨0, .upper, lines, dropped, surplus, ⟨lost, []⟩⟩⟩
  ((s.setHist 0 [storedIn 0 .upper 3]).setSlot 3 (.filling 0)).setIng 0 ⟨some ⟨1024, 0⟩, 0⟩

def fullResults (s : State) (n : Feed) (k : Nat) : State :=
  s.setOtx n { s.otx.get n with results := List.replicate k ⟨0, 0x00B, 0, .tooLate, none, []⟩ }

def someJob : Job := ⟨0, 5, .upper, ⟨some 5, none, some 6, none⟩, .adaptive, ⟨12, 4, true, 1440, 1080, 0, 0⟩⟩

def someService : Service := ⟨someJob, .spatial, false, 288, false, noReads⟩

/-- A job of feed 0 in service, its F0 in slot 3 with line 0 written and the words `wrong` of it gone wrong. -/
def buildingState (wrong : List Nat) : State :=
  let s := State.reset.setHist 0 [{ storedIn 5 .upper 3 with state := .closed }]
  { s with
    fen := { s.fen with service := some someService }
    fst := { s.fst with mem := [(areaKey 3 0, ⟨steadyLine, wrong⟩)], slots := s.fst.slots.set 3 (.held 0) }
    otx := s.otx.set 0 { s.otx.get 0 with half1 := ⟨.filling, none, .fill⟩ } }

def openLoadState (words : Nat) (events : Nat) : State :=
  { State.reset with tld := { State.reset.tld with load := some ⟨0, 36, 1, words, events⟩ } }

/-- The 36 words of the power-on cadence table (Table 10-1). -/
def cadenceWords : List Word :=
  [2, 0, 1, 0, 0, 0, 0, 0, 0, 5, 0, 1, 2, 0, 1, 0, 0, 0, 0, 0, 0, 0, 0, 0, 0, 0, 0, 0, 0, 0, 0, 0, 0, 0, 0, 0]

/-! ## Well-formedness: each check refuses an ill-formed term -/

theorem test_wf_accepts :
    (Instr.activeLine 0 steadyLine []).wellFormed = true ∧
      (Instr.unknownCueKind 0 0x011 (cueOf 0 0 1 0x011 [])).wellFormed = true ∧
      (Instr.tablePart 0 (cueOf 0 15 1 0x00A (List.replicate 240 0))).wellFormed = true := by decide +kernel

theorem test_wf_line_sizes :
    (Instr.activeLine 0 { steadyLine with y := [] } []).wellFormed = false ∧
      (Instr.activeLine 0 { steadyLine with cb := List.replicate 361 0 } []).wellFormed = false ∧
      (Instr.activeLine 0 { steadyLine with cr := List.replicate 359 0 } []).wellFormed = false := by decide +kernel

def longCue : CueWords := ⟨0, 0, 0, List.replicate 241 0, 0⟩

theorem test_wf_long_payload :
    (Instr.feedConfig 0 longCue).wellFormed = false ∧ (Instr.rasterSet 0 longCue).wellFormed = false ∧
      (Instr.trimSet 0 longCue).wellFormed = false ∧ (Instr.motionSet 0 longCue).wellFormed = false ∧
      (Instr.cadenceSet 0 longCue).wellFormed = false ∧ (Instr.cadenceForce 0 longCue).wellFormed = false ∧
      (Instr.watchSet 0 longCue).wellFormed = false ∧ (Instr.feedRestart 0 longCue).wellFormed = false ∧
      (Instr.tableOpen 0 longCue).wellFormed = false ∧ (Instr.tablePart 0 longCue).wellFormed = false ∧
      (Instr.tableAbandon 0 longCue).wellFormed = false ∧ (Instr.noticeSet 0 longCue).wellFormed = false ∧
      (Instr.reportSet 0 longCue).wellFormed = false ∧ (Instr.snapshot 0 longCue).wellFormed = false ∧
      (Instr.statusQuery 0 longCue).wellFormed = false ∧ (Instr.deviceRestart 0 longCue noStraps).wellFormed = false ∧
      (Instr.unknownCueKind 0 0 longCue).wellFormed = false := by decide +kernel

theorem test_wf_known_kind :
    (Instr.unknownCueKind 0 1 (cueOf 0 0 1 1 [])).wellFormed = false ∧
      (Instr.unknownCueKind 0 16 (cueOf 0 0 1 16 [])).wellFormed = false := by decide +kernel

/-! ## The manual's worked values -/

/-- Table 3-2. -/
theorem test_trim_table :
    trimWord ⟨1040, -3⟩ 64 500 = 504 ∧ trimWord ⟨960, 5⟩ 512 300 = 318 ∧ trimWord ⟨1100, -10⟩ 64 40 = 28 ∧
      trimWord ⟨1152, 31⟩ 64 1019 = 1019 := by decide

/-- Table 6-3; x = 1 in the first four rows, x = 0 in the last. -/
theorem test_direction_table :
    directedMean [470, 480, 600] [560, 440, 452] 1 = 461 ∧ directedMean [100, 200, 500] [490, 260, 300] 1 = 495 ∧
      directedMean [200, 300, 400] [400, 300, 200] 1 = 300 ∧ directedMean [600, 300, 100] [100, 700, 600] 1 = 600 ∧
      directedMean [250, 300] [263, 90] 0 = 257 := by decide

/-- Table 6-4. -/
theorem test_weight_table :
    [12, 13, 16, 20, 75, 76, 500].map (blendWeight 12 4) = [0, 0, 1, 2, 15, 16, 16] := by decide

/-- Section 6.10. -/
theorem test_adaptive_sample :
    mean2 500 520 = 510 ∧ blendWeight 8 6 (max 20 (mean2 50 30)) = 12 ∧ blend 510 461 12 = 473 := by decide

/-- Table 7-2. -/
theorem test_step_table :
    [passStep 720 1920, passStep 720 1440, passStep 720 960, passStep 720 720] = [24576, 32768, 49152, 65536] ∧
      [passStep 576 1080, passStep 480 1080, passStep 480 720] = [34952, 29127, 43690] ∧
      [24576, 32768, 34952, 29127, 43690].map passOffset = [-20480, -16384, -15292, -18205, -10923] := by decide

/-- Tables 7-3 and 7-4: index, fraction and phase. -/
theorem test_position_tables :
    (passIndex 24576 0, passFraction 24576 0, passPhase 24576 0) = (-1, 45056, 44) ∧
      (passIndex 24576 5, passFraction 24576 5, passPhase 24576 5) = (1, 36864, 36) ∧
      (passIndex 24576 1919, passFraction 24576 1919, passPhase 24576 1919) = (719, 20480, 20) ∧
      (passIndex 34952 0, passFraction 34952 0, passPhase 34952 0) = (-1, 50244, 49) ∧
      (passIndex 34952 1079, passFraction 34952 1079, passPhase 34952 1079) = (575, 14716, 14) ∧
      ([-3, -2, -1, 0, 1, 2, 3, 4] : List Int).map (fun d => edgeIndex 719 (719 + d)) =
        [716, 717, 718, 719, 719, 719, 719, 719] := by decide

/-- Section 7.4, worked filter values. -/
theorem test_filter_values :
    filterSample (linearHSet.getD 36 []) [0, 0, 0, 400, 600, 0, 0, 0] = 513 ∧
      filterSample [-20, 84, 84, -20] [1019, 4, 4, 1019] = 4 ∧
      filterSample [-20, 84, 84, -20] [4, 1019, 1019, 4] = 1019 ∧
      filterSample [-20, 84, 84, -20] [500, 500, 500, 500] = 500 := by decide +kernel

/-- Section 3.4, worked measures. -/
theorem test_measure_sums : 306720 * 16 / (180 * 284) = 96 ∧ 1018800 * 8 / (180 * 283) = 160 ∧ absDiff (2 * 500) 840 = 160 := by
  decide

/-- Table 4-1. -/
theorem test_usability_table :
    (Program.mk 2 [.opens, .closes]).isUsable = true ∧
      (Program.mk 5 [.opens, .closes, .repeats, .opens, .closes]).isUsable = true ∧
      (Program.mk 8 [.opens, .closes, .opens, .closes, .opens, .closes, .repeats, .repeats]).isUsable = true ∧
      (Program.mk 3 [.repeats, .opens, .closes]).isUsable = true ∧ (Program.mk 1 [.opens]).isUsable = false ∧
      (Program.mk 2 [.closes, .repeats]).isUsable = false ∧ (Program.mk 3 [.opens, .opens, .closes]).isUsable = false ∧
      (Program.mk 3 [.opens, .repeats, .closes]).isUsable = false ∧ (Program.mk 0 []).isUsable = false := by decide

/-- Section 9.7, P1: the packet as its words on the link, its check word, and its items. -/
theorem test_raster_packet :
    framePackets 16 [0x2A5, 0x15A, 0x2A5, 0x0C1, 0x003, 0x001, 0x002, 0x011, 0x006, 0x007, 0x082, 0x003, 0x0E8, 0x002,
        0x000, 0x254] =
        [.complete ⟨0x0C1, 3, 1, 2, 17, [0x007, 0x082, 0x003, 0x0E8, 0x002, 0x000], 0x254⟩] ∧
      (cueOf 3 1 17 2 [0x007, 0x082, 0x003, 0x0E8, 0x002, 0x000]).check = 0x254 ∧
      rasterItems .s50 [0x007, 0x082, 0x003, 0x0E8, 0x002, 0x000] =
        some ({ width := some 1920, height := some 1000, hset := some 2, vset := some 0 }, [(1, 1920)]) := by
  decide +kernel

/-- Section 9.7, P2, P3, P5: items refused, adjusted, kept. -/
theorem test_settings_items :
    watchItems [1, 1, 5, 0, 0, 0, 9] = none ∧
      feedConfigItems [keepWord, keepWord, 3, keepWord, 300] =
        some ({ cls := some 3, holdLimit := some 250 }, [(5, 250)]) ∧
      feedConfigItems [keepWord, keepWord, keepWord, keepWord, 40] = some ({ holdLimit := some 40 }, []) := by
  decide +kernel

/-! ## Single commands -/

/-- Section 9.7, P1 in a state where feed 1 is RUNNING: staged, DONE_ADJUSTED in output 0's queue. -/
theorem test_raster_set :
    let t := after (.rasterSet 0 (cueOf 0 1 17 2 [0x007, 0x082, 0x003, 0x0E8, 0x002, 0x000])) (runningFeed 1)
    t.cue.staged.get 1 = { width := some 1920, height := some 1000, hset := some 2, vset := some 0 } ∧
      (t.otx.get 0).results = [⟨1, 2, 17, .doneAdjusted, none, [(1, 1920)]⟩] ∧ t.ntu.devCounters.cuesTaken = 1 := by
  decide +kernel

theorem test_feed_config_enables :
    let t := after (.feedConfig 0 (cueOf 0 2 1 1 [1, 1, keepWord, 2, keepWord])) State.reset
    (t.lrx.get 2).state = .waiting ∧ (t.settings 2).struct = .s60 ∧ (t.settings 2).timing = .input ∧
      (t.settings 2).holdLimit = 50 := by decide +kernel

theorem test_trim_set :
    let t := after (.trimSet 1 (cueOf 0 1 1 3 [3, 132, 540, keepWord, keepWord, 480])) State.reset
    (t.settings 1).upper = ⟨900, 28⟩ ∧ (t.settings 1).lower = ⟨1024, -32⟩ := by decide +kernel

theorem test_motion_set :
    let t := after (.motionSet 0 (cueOf 0 0 1 4 [300, 0, 0])) State.reset
    ((t.settings 0).floor, (t.settings 0).gain, (t.settings 0).dirSearch) = (255, 1, false) ∧
      ((t.otx.get 0).results.map (fun r => r.items)) = [[(1, 255), (2, 1)]] := by decide +kernel

theorem test_cadence_set :
    let t := after (.cadenceSet 0 (cueOf 0 0 1 5 [8, 0, 0, 100, 0, 16, 0, 1, 0, 0])) State.reset
    (t.settings 0).lockCount = 8 ∧ (t.settings 0).breakHold = 0 ∧ (t.settings 0).mask = ⟨false, true, false, false⟩ ∧
      (t.cad.trackers.get 0).hyps.length = 5 := by decide +kernel

theorem test_cadence_force :
    let t := after (.cadenceForce 0 (cueOf 0 0 1 6 [2, 1, 7])) State.reset
    (t.cad.trackers.get 0).state = .heldFilm 1 2 ∧ (t.settings 0).force = .film 1 2 := by decide +kernel

theorem test_watch_set :
    let t := after (.watchSet 0 (cueOf 0 3 1 7 [2, 1, 2, 1, 1, 1, 4])) State.reset
    (t.settings 3).watch2 = ⟨true, .motion, .below, .poor, 260⟩ ∧ (t.settings 3).watch1 = powerOnWatch := by
  decide +kernel

/-- P4 of section 9.7. -/
theorem test_spoilt_cue :
    let t := after (.feedConfig 0 (spoilt (cueOf 0 1 20 1 [1, 0, 0, 0, 9]))) State.reset
    t.ntu.table = [⟨.cueDiscarded, .feed 0, 1, .tag 20⟩] ∧ t.ntu.devCounters.cuesDiscarded = 1 := by decide +kernel

/-- P6 of section 9.7. -/
theorem test_foreign_scope :
    let t := after (.trimSet 2 (cueOf 0 1 22 3 [3, 132, 540, 3, 132, 540])) State.reset
    (t.otx.get 2).results = [⟨1, 3, 22, .refusedScope, none, []⟩] ∧ t.cue.active = State.reset.cue.active := by
  decide +kernel

/-- A whole cadence table in one LAST part: READY, then adopted at no cost of the words. -/
theorem test_table_load :
    let t := afterAll
      [.tableOpen 0 (cueOf 0 15 1 9 [0, 0, 36]), .tablePart 0 (cueOf 0 15 2 10 (0 :: 1 :: cadenceWords))] State.reset
    (t.copy 0).ready = true ∧ (t.copy 0).words = cadenceWords ∧ t.tld.load = none ∧
      (t.otx.get 0).results.map (fun r => r.outcome) = [.done, .done] ∧
      programsOfWords cadenceWords = powerOnPrograms := by decide +kernel

theorem test_table_part_refused :
    let t := afterAll
      [.tableOpen 0 (cueOf 0 15 1 9 [0, 0, 36]), .tablePart 0 (cueOf 0 15 2 10 (0 :: 1 :: List.replicate 36 9))]
      State.reset
    (t.copy 0).ready = false ∧ t.tld.load = none ∧
      t.ntu.table = [⟨.loadDiscarded, .device, 1, .reason .tableRefused⟩] ∧
      (t.otx.get 0).results.map (fun r => (r.outcome, r.reason)) = [(.done, none), (.discarded, some .tableRefused)] := by
  decide +kernel

theorem test_table_abandon :
    let t := after (.tableAbandon 0 (cueOf 0 15 1 11 [])) (openLoadState 5 0)
    t.tld.load = none ∧ t.ntu.table = [] ∧ (t.otx.get 0).results.map (fun r => r.outcome) = [.abandoned] := by
  decide +kernel

theorem test_load_stall :
    let t := after .loadStall (openLoadState 5 7)
    t.tld.load = none ∧ t.ntu.table = [⟨.loadDiscarded, .device, 1, .reason .stalled⟩] := by decide +kernel

theorem test_notice_set :
    (after (.noticeSet 0 (cueOf 0 15 1 12 [13, 9, 0])) State.reset).noticeSetting .storeCorrected = ⟨3, false⟩ := by
  decide +kernel

theorem test_report_set :
    let t := after (.reportSet 0 (cueOf 0 15 1 13 [1, 0, 1, 0, 1])) State.reset
    t.ntu.periodic = ⟨1, ⟨false, true, false, true⟩, 0, none⟩ ∧
      (((after (.frameTimerExpiry 0) t).otx.get 0).link.map (fun v => v.packets.map (fun p => (p.code, p.scope)))) =
        some [(5, 1), (1, 15)] := by decide +kernel

theorem test_snapshot_clear :
    let t := after (.snapshot 1 (cueOf 0 1 1 14 [1])) State.reset
    (t.latches (.feed 1)).counters.map (fun l => l.length) = some 64 ∧ (t.ntu.feedCounters.get 1).framesFill = 0 := by
  decide +kernel

theorem test_status_query :
    let t := after (.statusQuery 0 (cueOf 0 15 1 15 [])) State.reset
    (t.latches .device).status = some [24, 0, keepWord, keepWord, keepWord, 0, 0, 0, 0, 0, 0, 0, 0, 0, 0] := by
  decide +kernel

theorem test_feed_restart :
    let t := after (.feedRestart 0 (cueOf 0 0 1 8 [])) (arrivingState 9 false false [])
    (t.lrx.get 0).state = .off ∧ (t.lrx.get 0).counter = 1 ∧ t.history 0 = [] ∧ t.freeCount = 24 := by decide +kernel

theorem test_device_restart :
    let t := after (.deviceRestart 0 (cueOf 0 15 1 16 []) ⟨true, false, false, true⟩) (arrivingState 9 false false [])
    t.cue.deviceNumber = 9 ∧ t.lrx = Quad.all powerOnReceiver ∧ t.ntu.devCounters.cuesTaken = 1 := by decide +kernel

theorem test_unknown_kind :
    ((after (.unknownCueKind 3 0x123 (cueOf 0 0 1 0x123 [])) State.reset).otx.get 3).results =
      [⟨0, 0x123, 1, .refusedKind, none, []⟩] := by decide +kernel

theorem test_power_on :
    (after (.powerOn ⟨true, true, false, false⟩) State.reset).cue.deviceNumber = 3 := by decide +kernel

theorem test_reset_asserted :
    let t := after .resetAsserted State.reset
    t.resetHeld = true ∧ (t.otx.get 2).link = none ∧ after (.frameTimerExpiry 0) t = t := by decide +kernel

/-- Two field starts of an enabled feed: field 0 opens in slot 0, closes SHORT at the next field start. -/
theorem test_field_starts :
    let s := after (.feedConfig 0 (cueOf 0 0 1 1 [1, keepWord, keepWord, keepWord, keepWord])) State.reset
    let t := after (.fieldStart 0 .upper []) s
    let u := after (.fieldStart 0 .lower []) t
    (t.history 0).map (fun r => (r.seq, r.parity, r.content)) = [(0, .upper, .slot 0)] ∧ t.slot 0 = .filling 0 ∧
      (u.history 0).map (fun r => (r.seq, r.state, r.lost.length, r.conditions.short)) =
        [(0, .closed, 288, true), (1, .opened, 0, false)] ∧
      u.slot 0 = .held 0 ∧ (u.ntu.feedCounters.get 0).fieldsStored = 1 ∧ u.ntu.table.map (fun e => e.kind) = [.fieldShort] := by
  decide +kernel

theorem test_active_line :
    let t := after (.activeLine 0 steadyLine []) (arrivingState 7 false false [])
    lineAt t.fst.mem 3 7 = steadyLine ∧ ((t.lrx.get 0).arriving.map (fun a => a.linesReceived)) = some 8 := by
  decide +kernel

theorem test_missing_field :
    let t := after (.missingFieldExpiry 1 []) (runningFeed 1)
    (t.lrx.get 1).misses = 1 ∧ (t.history 1).map (fun r => r.content) = [.gap .missing] ∧
      t.ntu.table = [⟨.fieldMissing, .feed 1, 1, .sequence 0⟩] := by decide +kernel

theorem test_blanking_map :
    let p : Packet := ⟨kindMap, 0, 0, 0, 0, [0, 9, 1, 1, 2, 2], 0⟩
    let p := { p with check := checkSum p.summed }
    (((after (.blankingPacket 0 p.words noStraps) (arrivingState 0 false false [])).lrx.get 0).arriving.map
      (fun a => a.map)) = some ⟨[9], [258]⟩ := by decide +kernel

theorem test_blanking_cue :
    let c := cueOf 15 15 1 15 []
    let t := after (.blankingPacket 0 (CueWords.packet c 15).words noStraps) State.reset
    (t.otx.get 0).carry = [CueWords.packet c 15] ∧ (t.latches .device).status.isSome = true := by decide +kernel

theorem test_cut_packet :
    (after (.blankingPacket 1 [0x2A5, 0x15A, 0x2A5, 0x0C1, 0, 1, 1] noStraps) State.reset).ntu.table =
      [⟨.cueDiscarded, .feed 1, 1, .absent⟩] := by decide +kernel

theorem test_frame_timer :
    let t := after (.frameTimerExpiry 2) State.reset
    (t.otx.get 2).link = some ⟨.fill, []⟩ ∧ (t.ntu.feedCounters.get 2).framesFill = 2 := by decide +kernel

theorem test_reference :
    let s := State.reset.setActive 1 { State.reset.settings 1 with timing := .reference }
    let t := after (.frameTimerExpiry 1) s
    let u := after (.referenceWatchExpiry 1) t
    let v := after .refPulse u
    (t.otx.get 1).watchTimer = .running 300000 ∧ (u.otx.get 1).reference = some .lost ∧
      (v.otx.get 1).reference = some .present := by decide +kernel

theorem test_build_read :
    let t := after (.buildRead .f0 0 []) (buildingState [5, 40])
    (t.ntu.feedCounters.get 0).storeCorrected = 2 ∧ t.ntu.table = [⟨.storeCorrected, .feed 0, 1, .sequence 5⟩] := by
  decide +kernel

/-! ## States for the witnesses -/

def closedIn (q : Seq) (p : Parity) (k : Fin 24) : FieldRecord := { storedIn q p k with state := .closed }

/-- A history of `k` CLOSED fields of feed n, UPPER and LOWER in turn, in the slots 0, 1, ..., the next number being k. -/
def keptState (n : Feed) (k : Nat) (free : Nat) : State :=
  let s := State.reset.setHist n ((List.range k).map (fun i =>
    closedIn (BitVec.ofNat 16 i) (if i % 2 = 0 then .upper else .lower) (Fin.ofNat 24 i)))
  { s with
    lrx := s.lrx.set n ⟨.running, BitVec.ofNat 16 k, .upper, .running 300000, 0, none⟩
    fst := { s.fst with slots := (List.range 24).map (fun i =>
      if i < k then .held n else if i < 24 - free then .held 3 else .free) } }

/-- Every slot HELD, by a feed without records: no field to reclaim. -/
def fullState : State := { State.reset with fst := { State.reset.fst with slots := List.replicate 24 (.held 3) } }

/-- The engine busy with the oldest field of feed 0. -/
def withService (s : State) (v : Service) : State := { s with fen := { s.fen with service := some v } }

def withWaiting (s : State) (l : List Job) : State := { s with fen := { s.fen with waiting := l } }

def jobOf (n : Feed) (q : Seq) : Job := ⟨n, q, .upper, ⟨some q, none, none, none⟩, .spatial, someJob.captured⟩

def withTable (s : State) (l : List NoticeEntry) : State := { s with ntu := { s.ntu with table := l } }

def withOutput (n : Feed) (f : Transmitter → Transmitter) : State := State.reset.setOtx n (f (State.reset.otx.get n))

/-! ## The hypotheses of each obligation have a model -/

theorem test_witness_StepTakesFrontCommand :
    ({ State.reset with pending := [.refPulse, .loadStall] }).pending = .refPulse :: [.loadStall] := rfl

/-- Halves with frames at both ends of the legal range. -/
def framedState : State :=
  { State.reset with
    otx := Quad.all { powerOnTransmitter with
      half0 := ⟨.sending, some [⟨[4], [1019], [4]⟩], .field 2⟩, half1 := ⟨.ready, some [⟨[1019], [4], [512]⟩], .field 3⟩ }
    pending := [.resetAsserted] }

theorem framedState_framesOk : framedState.framesOk := by
  have h : ∀ l ∈ [Line.mk [4] [1019] [4], ⟨[1019], [4], [512]⟩], ∀ x ∈ l.y ++ l.cb ++ l.cr, 4 ≤ x.toNat ∧ x.toNat ≤ 1019 := by
    decide
  intro n
  have e : framedState.otx.get n = { powerOnTransmitter with
      half0 := ⟨.sending, some [⟨[4], [1019], [4]⟩], .field 2⟩, half1 := ⟨.ready, some [⟨[1019], [4], [512]⟩], .field 3⟩ } := by
    simp only [framedState, Quad_get_all]
  rw [e]
  refine ⟨?_, ?_, ?_⟩
  · intro f hf l hl
    obtain rfl := Option.some.inj hf
    exact h l (by simpa using Or.inl (List.mem_singleton.mp hl))
  · intro f hf l hl
    obtain rfl := Option.some.inj hf
    exact h l (by simpa using Or.inr (List.mem_singleton.mp hl))
  · intro v hv
    cases hv

theorem test_witness_StepKeepsHalvesAndFrames :
    framedState.oneSendingEach ∧ framedState.framesOk ∧
      step framedState = .next (after .resetAsserted { framedState with pending := [] }) :=
  ⟨by decide +kernel, framedState_framesOk, rfl⟩

theorem test_witness_StepKeepsMemoryAndQueues :
    let s := { arrivingState 7 false false [] with pending := [.activeLine 0 steadyLine []] }
    s.memoryOk ∧ s.noticesOk ∧ s.queuesOk ∧ s.sizesOk ∧
      step s = .next (after (.activeLine 0 steadyLine []) { s with pending := [] }) := by
  refine ⟨by decide +kernel, by decide +kernel, by decide +kernel, by decide +kernel, rfl⟩

/-- Each limit at its end: two jobs of feed 0 waiting, a repeat count of 250 and one of 249 with the fill flag clear, a lock on
the last step of program 1 with a run of 15, a break hold of 15, a pending hold limit of 250, and a counter that cannot rise. -/
def limitState : State :=
  let s := withWaiting State.reset [jobOf 0 1, jobOf 1 0, jobOf 0 2]
  { s with
    lrx := s.lrx.set 2 ⟨.running, 4, .upper, .running 300000, 0, none⟩
    cad := { s.cad with
      trackers := ⟨⟨.seeking, []⟩, ⟨.locked 1 4, [⟨1, 0, 4, 15⟩]⟩, ⟨.broken 15, []⟩, ⟨.heldVideo, []⟩⟩ }
    otx := ⟨{ s.otx.q0 with repeatCount := 250 }, { s.otx.q1 with repeatCount := 249, fillFlag := false }, s.otx.q2, s.otx.q3⟩
    cue := { s.cue with
      active := s.cue.active.set 3 { powerOnSettings with force := .video }
      staged := s.cue.staged.set 2 { emptyPending with holdLimit := some 250 } }
    ntu := { s.ntu with feedCounters := s.ntu.feedCounters.set 1 { framesRepeated := 4294967295 } }
    pending := [.frameTimerExpiry 1] }

/-- A history at the cap, and an expiry that appends to it; the limits, each at its end, and a repeat that takes the count to
the hold limit. -/
theorem test_witness_StepKeepsLimits :
    (let s := { keptState 1 8 9 with pending := [.missingFieldExpiry 1 []] }
     s.historiesOk ∧ (s.history 1).length = 8 ∧
      step s = .next (after (.missingFieldExpiry 1 []) { s with pending := [] })) ∧
    limitState.limitsOk ∧ step limitState = .next (after (.frameTimerExpiry 1) { limitState with pending := [] }) := by
  have h : emptyPending.inRange .s50 := emptyPending_inRange .s50
  refine ⟨⟨by decide +kernel, by decide +kernel, rfl⟩, ⟨by decide +kernel, by decide +kernel, rfl, fun n => ?_⟩, rfl⟩
  match n with
  | 0 => exact ⟨by decide +kernel, by decide +kernel, h, fun _ => rfl, by decide +kernel, rfl⟩
  | 1 =>
    exact ⟨by decide +kernel, by decide +kernel, h, fun _ => rfl, by decide +kernel, rfl, rfl, by decide +kernel,
      by decide +kernel⟩
  | 2 =>
    obtain ⟨-, h2⟩ := h
    exact ⟨by decide +kernel, by decide +kernel, ⟨fun v e => by cases e; decide, h2⟩, fun e => absurd rfl e, by decide +kernel,
      rfl, by decide +kernel, by decide +kernel⟩
  | 3 => exact ⟨by decide +kernel, by decide +kernel, h, fun _ => rfl, by decide +kernel, rfl⟩

/-- A FILLING slot with its OPEN record; HELD slots at the history cap; a RETIRING slot with its detached record. -/
theorem test_witness_StepKeepsSlotOwnership :
    (arrivingState 7 false false []).slotsOk ∧ (arrivingState 7 false false []).storeOk ∧ (keptState 1 8 16).storeOk ∧
      (∃ t, step { keptState 1 8 16 with pending := [.missingFieldExpiry 1 []] } = .next t) ∧
      (let s := withService { State.reset with
          fst := { State.reset.fst with
            slots := State.reset.fst.slots.set 3 (.retiring 0), detached := [closedIn 5 .upper 3] } } someService
       s.storeOk ∧ s.slotsHeld 0 + s.freeCount = 24) := by
  refine ⟨by decide +kernel, by decide +kernel, by decide +kernel, ⟨_, rfl⟩, by decide +kernel⟩

theorem test_witness_ResetValues : (0 : Nat) < 64 ∧ (63 : Nat) < 64 ∧ (0 : Nat) < 24 ∧ (23 : Nat) < 24 := by decide

theorem test_witness_PowerOnAndReset :
    ({ State.reset with resetHeld := true }).resetHeld = true ∧ (∀ d, Instr.refPulse ≠ .powerOn d) ∧
      Instr.refPulse ≠ .resetAsserted := by
  refine ⟨rfl, ?_, by decide⟩
  intro d h
  cases h

theorem test_witness_EventsRuledOutDoNothing :
    State.reset.pending = [] ∧ State.reset.resetHeld = false ∧ (State.reset.lrx.get 0).state ≠ .running ∧
      (inState State.reset 1 .running 0 .stopped |>.lrx.get 1).timer = .stopped ∧
      ((State.reset.stopFrameTimer 0).otx.get 0).frameTimer = .stopped ∧
      (State.reset.otx.get 0).watchTimer = .stopped ∧ State.reset.fen.service = none ∧ State.reset.tld.load = none ∧
      (∃ l, (openLoadState 5 6).tld.load = some l ∧ l.events < 7) := by
  refine ⟨rfl, rfl, by decide +kernel, rfl, rfl, rfl, rfl, rfl, ⟨_, rfl, by decide⟩⟩

/-- OFF, WAITING, DOWN, and RUNNING with no pending items, the parity as expected and not; a store with a slot and one
without. -/
theorem test_witness_FieldStartOpens :
    State.reset.resetHeld = false ∧ (State.reset.lrx.get 0).state = .off ∧
      ((inState State.reset 0 .waiting 0 .stopped).lrx.get 0).state = .waiting ∧
      ((inState State.reset 0 .down 8 .stopped).lrx.get 0).state = .down ∧
      ((runningFeed 0).lrx.get 0).state = .running ∧ (runningFeed 0).cue.staged.get 0 = emptyPending ∧
      Parity.upper = ((runningFeed 0).lrx.get 0).expected ∧ Parity.lower ≠ ((runningFeed 0).lrx.get 0).expected ∧
      ((State.reset.admitField 0 .upper).allocate 0 0 .upper false).1 = !false ∧
      ((fullState.admitField 0 .upper).allocate 0 0 .upper false).1 = !true := by
  decide +kernel

/-- A disable alone, and one with a mask, a force and a structure: the arriving field closes SHORT first. -/
theorem test_witness_FieldStartAppliesDisable :
    ∀ p ∈ [({ enable := some false } : Pending),
      { enable := some false, mask := some ⟨false, true, false, false⟩, force := some (.film 1 7), struct := some .s60 }],
    let s := (arrivingState 9 false false []).setStaged 0 p
    let t := after (.fieldStart 0 .lower []) s
    s.resetHeld = false ∧ (s.lrx.get 0).state = .running ∧ s.cue.staged.get 0 = p ∧ p.enable = some false ∧
      (t.lrx.get 0).state = .off ∧ (t.settings 0).struct = p.struct.getD .s50 ∧
      (t.settings 0).mask = p.mask.getD ⟨true, true, false, false⟩ ∧
      (p.force.isSome → (t.cad.trackers.get 0).state = .heldFilm 1 2) ∧
      t.ntu.table.map (fun e => e.kind) = [.fieldShort] := by decide +kernel

/-- A structure change alone, with a height below the new lines, and with an enable: no PARITY_REPEAT for a parity that was not
expected. -/
theorem test_witness_FieldStartChangesStructure :
    ∀ p ∈ [({ struct := some .s60 } : Pending), { struct := some .s60, height := some 480, enable := some true }],
    let s := (arrivingState 9 false false []).setStaged 0 p
    let t := after (.fieldStart 0 .upper []) s
    s.resetHeld = false ∧ (s.lrx.get 0).state = .running ∧ s.cue.staged.get 0 = p ∧ p.enable ≠ some false ∧
      p.struct = some .s60 ∧ Structure.s60 ≠ (s.settings 0).struct ∧ (s.lrx.get 0).expected ≠ .upper ∧
      (t.history 0).length = 1 ∧ (t.lrx.get 0).timer = .running 250245 ∧ (t.settings 0).height = p.height.getD 1080 ∧
      t.ntu.table.map (fun e => e.kind) = [.fieldShort] ∧ (t.ntu.feedCounters.get 0).parityRepeats = 0 := by decide +kernel

/-- Items without a structure and with the active one, an enable of an enabled feed, a mask and a force; the parity as
expected and not. -/
theorem test_witness_FieldStartAppliesItems :
    (∀ p ∈ [({ floor := some 9 } : Pending), { struct := some .s50, enable := some true },
        { mask := some ⟨false, true, false, false⟩, force := some (.film 1 7) }],
      let s := (arrivingState 9 false false []).setStaged 0 p
      s.resetHeld = false ∧ (s.lrx.get 0).state = .running ∧ s.cue.staged.get 0 = p ∧ p ≠ emptyPending ∧
        p.enable ≠ some false ∧ (p.struct = none ∨ p.struct = some (s.settings 0).struct)) ∧
      Parity.lower = ((arrivingState 9 false false []).lrx.get 0).expected ∧
      (let s := (arrivingState 9 false false []).setStaged 0 { force := some (.film 1 7) }
       ((after (.fieldStart 0 .upper []) s).ntu.table.map (fun e => e.kind)) = [.fieldShort, .parityRepeat] ∧
        ((after (.fieldStart 0 .upper []) s).settings 0).force = .film 1 2) := by decide +kernel

/-- No field arriving; one line short; a dropped and a stored field with all lines; a stored record and a gap. -/
theorem test_witness_ShortClosure :
    (State.reset.lrx.get 0).arriving = none ∧
      (∃ a, ((arrivingState 287 false false []).lrx.get 0).arriving = some a ∧
        a.linesReceived < (arrivingState 287 false false []).fieldLines 0) ∧
      (∃ a, ((arrivingState 288 true false []).lrx.get 0).arriving = some a ∧ a.dropped = true ∧
        (arrivingState 288 true false []).fieldLines 0 ≤ a.linesReceived) ∧
      (∃ a, ((arrivingState 288 false false []).lrx.get 0).arriving = some a ∧ a.dropped = false ∧
        (arrivingState 288 false false []).fieldLines 0 ≤ a.linesReceived) ∧
      (storedIn 0 .upper 3).content = .slot 3 ∧ ((storedIn 0 .upper 3).toGap .dropped).content = .gap .dropped ∧
      ((storedIn 0 .upper 3).short 286 288).lost = [286, 287] ∧ [4, 5].Pairwise (fun a b => a < b) := by
  refine ⟨rfl, ⟨_, rfl, by decide +kernel⟩, ⟨_, rfl, rfl, by decide +kernel⟩, ⟨_, rfl, rfl, by decide +kernel⟩, rfl, rfl,
    by decide +kernel, by decide⟩

/-- One command of each sort that the frame statement names answers a next state; feed 1 is another feed than feed 0. -/
theorem test_witness_EventFrame :
    (1 : Feed) ≠ 0 ∧ exec (.fieldStart 0 .upper []) State.reset = .next (after (.fieldStart 0 .upper []) State.reset) ∧
      exec (.activeLine 0 steadyLine []) State.reset = .next (after (.activeLine 0 steadyLine []) State.reset) ∧
      exec (.missingFieldExpiry 0 []) State.reset = .next (after (.missingFieldExpiry 0 []) State.reset) ∧
      exec (.frameTimerExpiry 1) State.reset = .next (after (.frameTimerExpiry 1) State.reset) ∧
      exec .refPulse State.reset = .next (after .refPulse State.reset) ∧
      exec (.referenceWatchExpiry 2) State.reset = .next (after (.referenceWatchExpiry 2) State.reset) ∧
      exec .jobCompletion State.reset = .next (after .jobCompletion State.reset) ∧
      exec .loadStall State.reset = .next (after .loadStall State.reset) ∧
      exec (.buildRead .f0 0 []) (buildingState [5]) = .next (after (.buildRead .f0 0 []) (buildingState [5])) ∧
      (∀ n l us, Instr.buildRead .f0 0 [] ≠ .activeLine n l us) := by
  refine ⟨by decide, rfl, rfl, rfl, rfl, rfl, rfl, rfl, rfl, rfl, ?_⟩
  intro n l us h
  cases h

/-- 8 and 7 FREE slots; no FREE slot and a field to reclaim, the oldest of feed 0; none to reclaim. -/
theorem test_witness_StoreAllocates :
    (∀ f ∈ [8, 7], let s := keptState 0 3 f
      s.slotsOk ∧ (s.history 0).length < 8 ∧ s.freeCount = f ∧ s.slot (Fin.ofNat 24 (24 - f)) = .free ∧
        ((s.allocate 0 3 .lower false).2.ntu.table.map (fun e => e.kind)) = (if f = 7 then [.poolTight] else []) ∧
        ∀ j : Fin 24, j < Fin.ofNat 24 (24 - f) → s.slot j ≠ .free) ∧
      (let s := keptState 0 3 0
       (∀ k : Fin 24, s.slot k ≠ .free) ∧ 0 + 2 < (s.history 0).length ∧ (s.history 0)[0]? = some (closedIn 0 .upper 0) ∧
        s.slot 0 = .held 0 ∧ s.serviceRefs 0 0 = false ∧ (s.allocate 1 7 .lower false).1 = true) ∧
      fullState.slotsOk ∧ (∀ k : Fin 24, fullState.slot k ≠ .free) ∧
      (fullState.allocate 1 7 .lower false).1 = false := by decide +kernel

/-- In the state of the reclaim, the oldest record of feed 0 is the one candidate: it comes first, and it is of the lowest
class. -/
theorem test_witness_StoreAllocates_victim :
    let s := keptState 0 3 0
    let candidate := fun (m : Feed) (i : Nat) (r : FieldRecord) (k : Fin 24) =>
      i + 2 < (s.history m).length ∧ (s.history m)[i]? = some r ∧ r.content = .slot k ∧ s.slot k = .held m ∧
        s.serviceRefs m r.seq = false
    candidate 0 0 (closedIn 0 .upper 0) 0 ∧ (∀ j x l, j < 0 → ¬candidate 0 j x l) ∧
      (∀ m j x l, candidate m j x l →
        (s.settings 0).cls < (s.settings m).cls ∨ ((s.settings 0).cls = (s.settings m).cls ∧ m ≤ 0)) ∧
      (∀ m i r k, ¬(i + 2 < (fullState.history m).length ∧ (fullState.history m)[i]? = some r ∧ r.content = .slot k)) := by
  have e : ∀ m : Feed, ((keptState 0 3 0).history m).length = if m = 0 then 3 else 0 := by decide +kernel
  have g : ∀ m : Feed, fullState.history m = [] := by decide +kernel
  refine ⟨by decide +kernel, fun j x l h => absurd h (by omega), ?_, ?_⟩
  · intro m j x l h
    have hm : m = 0 := by
      by_contra c
      have h1 := h.1
      rw [e m, if_neg c] at h1
      omega
    rw [hm]
    exact Or.inr ⟨rfl, Nat.le_refl _⟩
  · intro m i r k h
    rw [g m] at h
    exact absurd h.1 (by simp)

/-- A record with content and a gap; 24 slots; a history of 8 records, its head referenced by the job in service and not. -/
theorem test_witness_RetentionAndTight :
    (closedIn 0 .upper 3).content = .slot 3 ∧ ((closedIn 0 .upper 3).toGap .missing).content = .gap .missing ∧
      (keptState 0 8 0).slotsOk ∧ (keptState 0 8 0).history 0 = (closedIn 0 .upper 0) :: ((keptState 0 8 0).history 0).drop 1 ∧
      (((keptState 0 8 0).history 0).drop 1).length = 7 ∧ (keptState 0 8 0).serviceRefs 0 0 = false ∧
      (withService (keptState 0 8 0) { someService with job := jobOf 0 0 }).serviceRefs 0 0 = true := by decide +kernel

/-- No field arriving; a dropped field with one line to come; a surplus line, first and later, with and without the
record; the first line and the last but one of a stored field, and a line that the map has as lost. -/
theorem test_witness_LinesBeforeLast :
    State.reset.resetHeld = false ∧ (State.reset.lrx.get 0).arriving = none ∧
      (∃ a, ((arrivingState 287 true false []).lrx.get 0).arriving = some a ∧
        a.linesReceived < (arrivingState 287 true false []).fieldLines 0 ∧ a.dropped = true) ∧
      (∃ a, ((arrivingState 288 false true []).lrx.get 0).arriving = some a ∧
        (arrivingState 288 false true []).fieldLines 0 ≤ a.linesReceived ∧ a.surplusSeen = true) ∧
      (∃ a, ((arrivingState 288 false false []).lrx.get 0).arriving = some a ∧ a.surplusSeen = false ∧
        (arrivingState 288 false false []).record 0 a.seq = some (storedIn 0 .upper 3)) ∧
      ((arrivingState 288 false false []).setHist 0 []).record 0 0 = none ∧
      (storedIn 0 .upper 3).content = .slot 3 ∧
      ((arrivingState 0 false false []).ing.get 0).workingTrim = some ⟨1024, 0⟩ ∧
      (∃ a, ((arrivingState 0 false false []).lrx.get 0).arriving = some a ∧ a.dropped = false ∧
        (arrivingState 0 false false []).record 0 a.seq = some (storedIn 0 .upper 3) ∧
        a.linesReceived + 1 < (arrivingState 0 false false []).fieldLines 0 ∧
        a.map.lost.contains a.linesReceived = false) ∧
      (∃ a, ((arrivingState 286 false false [286]).lrx.get 0).arriving = some a ∧ a.dropped = false ∧
        a.linesReceived + 1 < (arrivingState 286 false false [286]).fieldLines 0 ∧
        a.map.lost.contains a.linesReceived = true) := by
  refine ⟨rfl, rfl, ⟨_, rfl, by decide +kernel, rfl⟩, ⟨_, rfl, by decide +kernel, rfl⟩, ⟨_, rfl, rfl, rfl⟩, rfl, rfl, rfl,
    ⟨_, rfl, rfl, rfl, by decide +kernel, by decide +kernel⟩, ⟨_, rfl, rfl, by decide +kernel, by decide +kernel⟩⟩

/-- The last line, stored and lost; the line areas beside it; the closure of a stored field and of a dropped one. -/
theorem test_witness_LastLineCloses :
    (∃ a, ((arrivingState 287 false false []).lrx.get 0).arriving = some a ∧ a.dropped = false ∧
      a.linesReceived + 1 = (arrivingState 287 false false []).fieldLines 0 ∧ a.map.lost.contains a.linesReceived = false ∧
      (arrivingState 287 false false []).record 0 a.seq = some (storedIn 0 .upper 3)) ∧
      (∃ a, ((arrivingState 287 false false [287]).lrx.get 0).arriving = some a ∧
        a.map.lost.contains a.linesReceived = true) ∧
      (∃ a, ((arrivingState 287 true false []).lrx.get 0).arriving = some a ∧ a.dropped = true) ∧
      (arrivingState 287 false false []).resetHeld = false ∧ (arrivingState 287 false false []).slotsOk ∧
      (storedIn 0 .upper 3).content = .slot 3 ∧
      ((arrivingState 287 false false []).ing.get 0).workingTrim = some ⟨1024, 0⟩ ∧
      (∀ r k, (arrivingState 287 false false []).record 0 0 = some r → r.content = .slot k → (3 : Fin 24) ≠ k ∨ 286 ≠ 287) ∧
      (∀ r k, (arrivingState 287 false false []).record 0 0 = some r → r.content = .slot k → (4 : Fin 24) ≠ k ∨ 287 ≠ 287) := by
  refine ⟨⟨_, rfl, rfl, by decide +kernel, by decide +kernel, rfl⟩, ⟨_, rfl, by decide +kernel⟩, ⟨_, rfl, rfl⟩, rfl,
    by decide +kernel, rfl, rfl, fun _ _ _ _ => Or.inr (by decide), ?_⟩
  intro r k hr hk
  have e : r = storedIn 0 .upper 3 := by
    have h : (arrivingState 287 false false []).record 0 0 = some (storedIn 0 .upper 3) := rfl
    rw [h] at hr
    cases hr
    rfl
  rw [e] at hk
  cases hk
  exact Or.inl (by decide)

/-- The words at both ends of the legal range; a line of a stored field that is written. -/
theorem test_witness_TrimOfLine :
    (∃ (a : Arriving) (r : FieldRecord), ((arrivingState 7 false false []).lrx.get 0).arriving = some a ∧
      a.map.lost.contains 7 = false ∧ (arrivingState 7 false false []).record 0 a.seq = some r ∧ r.content = .slot 3 ∧
      (((arrivingState 7 false false []).ing.get 0).workingTrim).isSome = true) ∧
    (4 : Nat) ≤ (4 : Word).toNat ∧ (1019 : Word).toNat ≤ 1019 ∧ trimWord ⟨1024, 0⟩ 64 4 = 4 ∧
      trimWord ⟨1024, 0⟩ 512 1019 = 1019 :=
  ⟨⟨_, _, rfl, by decide +kernel, rfl, rfl, by decide +kernel⟩, by decide, by decide, by decide, by decide⟩

/-- A first miss, a seventh, an eighth without pending items, and an eighth with them, a disable among them and not. -/
theorem test_witness_MissingFieldExpires :
    (∀ k ∈ [0, 6], let s := inState State.reset 2 .running k (.running 200000)
      s.resetHeld = false ∧ (s.lrx.get 2).state = .running ∧ (s.lrx.get 2).timer = .running 200000 ∧
        (s.lrx.get 2).misses < 7) ∧
      (let s := inState State.reset 2 .running 7 (.running 200000)
       (s.lrx.get 2).misses = 7 ∧ s.cue.staged.get 2 = emptyPending ∧
        ((after (.missingFieldExpiry 2 []) s).lrx.get 2).state = .down) ∧
      (∀ e ∈ [none, some true, some false],
        let s := (inState State.reset 2 .running 7 (.running 200000)).setStaged 2 { emptyPending with enable := e, holdLimit := some 9 }
        let t := after (.missingFieldExpiry 2 []) s
        (s.lrx.get 2).misses = 7 ∧ s.cue.staged.get 2 ≠ emptyPending ∧ (t.settings 2).holdLimit = 9 ∧
          t.cue.staged.get 2 = emptyPending ∧
          (t.lrx.get 2).state = (if e = some false then .off else .down)) := by decide +kernel

def notePacket : Packet := ⟨kindReport, 0, 0, 5, 0, List.replicate 240 7, 9⟩

/-- The part numbered 15. -/
def part15 : State := { State.reset with cue := { State.reset.cue with deviceNumber := 15 } }

/-- A line without a marker; a packet for a queue with room and for a full one; a cue for another number, one for the part's
own, and one for every part, for part 0 and for part 15; words outside packets; length words of 240 and 241, a line one word
short and one that suffices; headers cut before and after the tag word, of the part and of another; codes 0, 1, 16 and 17. -/
theorem test_witness_PacketsRouted :
    (∀ i, ¬(([markerHigh, markerLow] : List Word)[i]? = some markerHigh ∧
      ([markerHigh, markerLow] : List Word)[i + 1]? = some markerLow ∧
      ([markerHigh, markerLow] : List Word)[i + 2]? = some markerHigh)) ∧
      ¬((5 : Word) = markerHigh ∧ ∃ rest : List Word, [markerLow] = markerLow :: markerHigh :: rest) ∧
      State.reset.resetHeld = false ∧ notePacket.payload.length ≤ 240 ∧ notePacket.kind ≠ kindCue ∧
      notePacket.kind ≠ kindMap ∧
      (∀ k ∈ [15, 16], ((withOutput 0 (fun t => { t with carry := List.replicate k notePacket })).otx.get 0).carry.length = k) ∧
      (cueOf 7 0 1 11 []).payload.length ≤ 240 ∧ State.reset.isAddressed (cueOf 7 0 1 11 []).device = false ∧
      State.reset.isAddressed (cueOf 0 0 1 11 []).device = true ∧ (cueOf 0 0 1 11 []).device ≠ 0x00F ∧
      (cueOf 15 0 1 11 []).device = 0x00F ∧ part15.isAddressed (cueOf 15 0 1 11 []).device = true ∧
      part15.isAddressed (cueOf 0 0 1 11 []).device = false ∧
      ((after (.blankingPacket 0 (CueWords.packet (cueOf 15 15 1 11 []) 11).words noStraps) part15).otx.get 0).carry.length = 1 ∧
      ((after (.blankingPacket 0 (CueWords.packet (cueOf 15 15 1 11 []) 11).words noStraps) part15).otx.get 0).results.length = 1 ∧
      240 < (241 : Word).toNat ∧ (240 : Word).toNat ≤ 240 ∧
      ([1] : List Word).length ≤ (1 : Word).toNat ∧ ¬(([1, 2] : List Word).length ≤ (1 : Word).toNat) ∧
      (∀ h ∈ [([kindCue, 0, 0, 11], Detail.absent), ([kindCue, 0, 0, 11, 6], .tag 6)],
        h.1.length < 6 ∧ h.1[0]? = some kindCue ∧ h.1[1]? = some 0 ∧ State.reset.isAddressed 0 = true ∧
          (after (.blankingPacket 2 (markerHigh :: markerLow :: markerHigh :: h.1) noStraps) State.reset).ntu.table =
            [⟨.cueDiscarded, .feed 2, 1, h.2⟩]) ∧
      ([kindCue, 7] : List Word)[1]? = some 7 ∧ State.reset.isAddressed 7 = false ∧
      (after (.blankingPacket 2 ([markerHigh, markerLow, markerHigh, kindCue, 0, 0, 11, 6, 241] ++ notePacket.words) noStraps)
          State.reset).ntu.table = [⟨.cueDiscarded, .feed 2, 1, .tag 6⟩] ∧
      ((after (.blankingPacket 2 ([markerHigh, markerLow, markerHigh, kindCue, 0, 0, 11, 6, 241] ++ notePacket.words) noStraps)
          State.reset).otx.get 2).carry = [notePacket] ∧
      (∀ k ∈ [((0 : Word), ResultCode.refusedKind), (1, .refusedLength), (16, .refusedLength), (17, .refusedKind)],
        ((State.reset.cueByCode 0 k.1 (cueOf 0 15 1 k.1 [0, 0]) noStraps).otx.get 0).results.map (fun r => r.outcome) =
          [k.2]) := by
  refine ⟨?_, fun h => absurd h.1 (by decide), by decide +kernel⟩
  intro i h
  match i, h with
  | 0, h => exact absurd h.2.2 (by decide)
  | _ + 1, h => exact absurd h.2.2 (by simp)

/-- A map packet, the longest of which has 80 entries. -/
def mapPacket (payload : List Word) : Packet :=
  let p : Packet := ⟨kindMap, 0, 0, 0, 0, payload, 0⟩
  { p with check := checkSum p.summed }

/-- Each case of a map packet's arrival; the 64th entry and the 65th, the record without the condition, with it, and gone. -/
theorem test_witness_MapPacketTaken :
    State.reset.resetHeld = false ∧ (mapPacket (List.replicate 240 1)).payload.length ≤ 240 ∧
      (mapPacket []).kind = kindMap ∧ (State.reset.lrx.get 0).arriving = none ∧
      (∃ a, ((arrivingState 1 false false []).lrx.get 0).arriving = some a ∧ 0 < a.linesReceived) ∧
      ({ mapPacket [] with check := 0 }).checkOk = false ∧ (mapPacket [1, 2]).payload.length % 3 ≠ 0 ∧
      (∃ a, ((arrivingState 0 false false []).lrx.get 0).arriving = some a ∧ a.linesReceived = 0) ∧
      (mapPacket (List.replicate 240 1)).checkOk = true ∧ (mapPacket (List.replicate 240 1)).payload.length % 3 = 0 ∧
      (∀ k ∈ [63, 64], let s := (arrivingState 0 false false []).setIng 0 ⟨some ⟨1024, 0⟩, k⟩
        (s.ing.get 0).mapEntries = k ∧ s.record 0 0 = some (storedIn 0 .upper 3) ∧
          ((State.takeMapEntry 0 s (5, 1)).record 0 0).map (fun r => r.conditions.mapOverflow) = some (decide (k = 64))) ∧
      ((arrivingState 0 false false []).setHist 0 []).record 0 0 = none ∧
      (((arrivingState 0 false false []).setHist 0
        [{ storedIn 0 .upper 3 with conditions := ⟨false, false, false, true⟩ }]).record 0 0).map
          (fun r => r.conditions.mapOverflow) = some true := by
  refine ⟨rfl, by decide +kernel, rfl, rfl, ⟨_, rfl, by decide +kernel⟩, by decide +kernel, by decide +kernel, ⟨_, rfl, rfl⟩,
    by decide +kernel⟩

/-- Fields 0 to 2 of feed 0: no pair and a pair, no trio and a trio, samples at the ends of their range; the record two back, of
F0's parity, and the previous one, of the other. -/
theorem test_witness_Measures :
    dsameOf [] = none ∧ dsameOf [(steadyLine, steadyLine)] = some 0 ∧ cprevOf [] = none ∧
      cprevOf [(steadyLine, steadyLine, steadyLine)] = some 0 ∧
      (∀ v ∈ [(4 : Word), 1019], (4 : Nat) ≤ v.toNat ∧ v.toNat ≤ 1019) ∧
      (closedIn 2 .upper 2).content = .slot 2 ∧ (closedIn 1 .lower 1).content = .slot 1 ∧
      dsameRecord false (closedIn 2 .upper 2) (some (closedIn 0 .upper 0)) = some (closedIn 0 .upper 0) ∧
      cprevRecord (closedIn 2 .upper 2) (some (closedIn 1 .lower 1)) = some (closedIn 1 .lower 1) ∧
      (keptState 0 3 8).history 0 = [closedIn 0 .upper 0, closedIn 1 .lower 1] ++ closedIn 2 .upper 2 :: [] ∧
      (∀ r ∈ [closedIn 0 .upper 0, closedIn 1 .lower 1], r.seq ≠ 2) ∧
      [closedIn 0 .upper 0, closedIn 1 .lower 1].reverse[0]? = some (closedIn 1 .lower 1) ∧
      [closedIn 0 .upper 0, closedIn 1 .lower 1].reverse[1]? = some (closedIn 0 .upper 0) ∧
      cprevRecord (closedIn 2 .upper 2) none = none := by decide +kernel

/-- A record; the condition set and not; a limit not crossed at its value, crossed above it, of either action, and MOTION
without Dsame. -/
theorem test_witness_ClosureMapAndWatch :
    (keptState 0 3 8).record 0 2 = some (closedIn 2 .upper 2) ∧ (closedIn 2 .upper 2).conditions.mapOverflow = false ∧
      ({ (closedIn 2 .upper 2).conditions with mapOverflow := true }).mapOverflow = true ∧
      ([] : List Nat).Pairwise (fun a b => a < b) ∧ (closedIn 2 .upper 2).lost.length = 0 ∧ ¬(0 < (closedIn 2 .upper 2).lost.length) ∧
      (0 : Nat) < ({ closedIn 2 .upper 2 with lost := [7] }).lost.length ∧ (closedIn 2 .upper 2).dsame = none ∧
      ((keptState 0 3 8).watchLimit 0 2 ⟨true, .lostLines, .below, .note, 1⟩ .quality1).ntu.table =
        [⟨.quality1, .feed 0, 1, .sequence 2⟩] ∧
      (((keptState 0 3 8).watchLimit 0 2 ⟨true, .lostLines, .below, .poor, 1⟩ .quality2).record 0 2).map
        (fun r => r.poor) = some true ∧
      (keptState 0 3 8).watchLimit 0 2 ⟨true, .motion, .below, .poor, 1⟩ .quality2 = keptState 0 3 8 := by
  decide +kernel

def readyState : State := withOutput 1 (fun t => { t with half1 := ⟨.ready, some [], .field 4⟩ })

/-- A READY half; the fill flag set; the count below the hold limit of 50 and reaching it. -/
theorem test_witness_FrameFixed :
    (readyState.otx.get 1).oneSending = true ∧ (readyState.otx.get 1).otherHalf.state = .ready ∧
      (readyState.otx.get 1).otherHalf.frame = some [] ∧
      (State.reset.otx.get 0).otherHalf.state ≠ .ready ∧ (State.reset.otx.get 0).fillFlag = true ∧
      (∀ k ∈ [48, 49], let s := withOutput 0 (fun t => { t with fillFlag := false, repeatCount := k })
        (s.otx.get 0).otherHalf.state ≠ .ready ∧ (s.otx.get 0).fillFlag = false ∧
          (k = 48 → (s.otx.get 0).repeatCount + 1 < (s.settings 0).holdLimit) ∧
          (k = 49 → (s.settings 0).holdLimit ≤ (s.otx.get 0).repeatCount + 1)) := by decide +kernel

theorem test_witness_FrameTimerExpires :
    State.reset.resetHeld = false ∧ (State.reset.otx.get 3).frameTimer = .running 200000 ∧
      State.reset.runsFree 3 = true ∧ (State.reset.otx.get 3).source = (State.reset.settings 3).timing := by
  decide +kernel

def referenceState : State :=
  (State.reset.setActive 1 { State.reset.settings 1 with timing := .reference }).setOtx 1
    { State.reset.otx.get 1 with
      source := .reference, reference := some .present, frameTimer := .stopped, watchTimer := .running 300000 }

theorem test_witness_ReferenceEvents :
    referenceState.resetHeld = false ∧ (referenceState.otx.get 0).source ≠ .reference ∧ (0 : Feed) ≠ 1 ∧
      (referenceState.otx.get 1).source = .reference ∧ (referenceState.settings 1).timing = .reference ∧
      (referenceState.otx.get 1).watchTimer = .running 300000 ∧
      ((after (.referenceWatchExpiry 1) referenceState).otx.get 1).reference = some .lost := by decide +kernel

/-- Each source in use with each setting, free and not free; INPUT of a RUNNING feed and of another, its timer stopped and
running. -/
theorem test_witness_SourceAdoptionAndInput :
    (State.reset.otx.get 0).source = .free ∧ (State.reset.otx.get 0).source = (State.reset.settings 0).timing ∧
      ((State.reset.setActive 0 { State.reset.settings 0 with timing := .reference }).settings 0).timing = .reference ∧
      TimingSource.free ≠ .reference ∧ (referenceState.otx.get 1).reference ≠ some .lost ∧
      ((referenceState.setActive 1 (State.reset.settings 1)).settings 1).timing = .free ∧
      ((referenceState.setActive 1 { State.reset.settings 1 with timing := .input }).settings 1).timing = .input ∧
      (let s := withOutput 2 (fun t => { t with source := .input })
       (s.otx.get 2).source = .input ∧ (s.lrx.get 2).state ≠ .running ∧ (s.otx.get 2).frameTimer ≠ .stopped ∧
        ((s.stopFrameTimer 2).otx.get 2).frameTimer = .stopped ∧
        ((inState s 2 .running 0 .stopped).lrx.get 2).state = .running) := by decide +kernel

def reportState (count : Nat) (last : Option Feed) : State :=
  { State.reset with ntu := { State.reset.ntu with periodic := ⟨3, ⟨false, true, false, true⟩, count, last⟩ } }

/-- Latches that wait and none; a report that is not due and one that is, with a higher member and without; notices of one
entry per kind and scope. -/
theorem test_witness_BlankingSlots :
    (let s := (State.reset.setLatches .device ⟨some [1], some [2]⟩).setLatches (.feed 1) ⟨none, some [3]⟩
     (s.latches .device).status = some [1] ∧ (s.latches (.feed 1)).status = none ∧ (s.latches (.feed 0)).status = none ∧
      (s.latches (.feed 1)).counters = some [3] ∧ ((s.setLatches .device ⟨none, some [2]⟩).latches .device).status = none ∧
      ((after (.frameTimerExpiry 0) s).otx.get 0).link.map (fun v => v.packets.map (fun p => p.code)) = some [3, 4] ∧
      ((after (.frameTimerExpiry 1) s).otx.get 1).link.map (fun v => v.packets.map (fun p => p.code)) = some [4]) ∧
      State.reset.ntu.periodic.period = 0 ∧ (1 : Feed) ≠ 0 ∧
      (∀ k ∈ [(1, none), (2, none), (2, some (1 : Feed)), (2, some 3)],
        (reportState k.1 k.2).ntu.periodic.period ≠ 0 ∧
          ((after (.frameTimerExpiry 0) (reportState k.1 k.2)).ntu.periodic.last =
            (if k.1 = 1 then none else if k.2 = some 1 then some 3 else some 1))) ∧
      (∀ g : Feed, (reportState 2 none).ntu.periodic.scan.get g = true → 1 ≤ g) ∧
      (let s := withTable State.reset [⟨.feedUp, .feed 1, 1, .absent⟩, ⟨.outputFill, .feed 1, 255, .absent⟩,
          ⟨.storeCorrected, .feed 1, 2, .absent⟩, ⟨.poolTight, .device, 1, .freeCount 6⟩]
       s.noticesOk ∧ ((after (.frameTimerExpiry 1) s).ntu.table.map (fun e => e.kind)) = [.storeCorrected, .poolTight]) ∧
      (State.reset.noticeReport ⟨.fieldMissing, .feed 3, 255, .sequence 65535⟩).payload = [3, 2, 255, 1, 255, 255] ∧
      (State.reset.resultReport ⟨2, 3, 9, .doneAdjusted, none, [(3, 1152)]⟩).payload = [3, 1, 0, 3, 4, 128] := by
  decide +kernel

/-- An empty table; an entry at 254 and one at 255; a counter at its limit and one below. -/
theorem test_witness_RaiseNotice :
    (∀ e ∈ State.reset.ntu.table, ¬(e.kind = .feedUp ∧ e.scope = .feed 0)) ∧ State.reset.noticesOk ∧
      (∀ c ∈ [254, 255], let s := withTable State.reset [⟨.feedUp, .feed 0, c, .absent⟩]
        (∃ e ∈ s.ntu.table, e.kind = .feedUp ∧ e.scope = .feed 0) ∧ s.noticesOk ∧
          (s.raise .feedUp (.feed 0) .absent).ntu.table = [⟨.feedUp, .feed 0, 255, .absent⟩]) ∧
      (({ linesLost := 4294967295 } : FeedCounters).add .linesLost 288).linesLost = 4294967295 ∧
      (({ linesLost := 4294967007 } : FeedCounters).add .linesLost 288).linesLost = 4294967295 ∧
      (({ linesLost := 4294967006 } : FeedCounters).add .linesLost 288).linesLost = 4294967294 ∧
      (({ cuesTaken := 4294967295 } : DeviceCounters).add .cuesTaken 1).cuesTaken = 4294967295 := by decide +kernel

/-- Every line of F0 settled, and of F-2 none. -/
def settledF0 (m : Mode) (usable : Bool) : Service :=
  { someService with
    finalMode := m, lines := 2, prev2Usable := usable, reads := { noReads with f0 := ⟨[0], [1]⟩ } }

/-- No wrong word, two in two groups, two in one group; a gap, a lost line, a damaged one, and each outcome of a read; a read
that is due and one that is not, of each role at the first line and the last, in the modes that read it and not. -/
theorem test_witness_CheckedReads :
    ([] : List Nat).Pairwise (fun a b => a < b) ∧ [15, 16].Pairwise (fun a b => a < b) ∧
      [16, 31].Pairwise (fun a b => a < b) ∧ checkWords [15, 16] = .corrected 2 ∧ checkWords [16, 31] = .damaged ∧
      ((State.reset.setHist 0 [(closedIn 5 .upper 3).toGap .missing]).record 0 5).map (fun r => r.content) =
        some (.gap .missing) ∧
      ((State.reset.setHist 0 [{ closedIn 5 .upper 3 with lost := [4], damaged := [9] }]).record 0 5).map
        (fun r => (r.lost, r.damaged)) = some ([4], [9]) ∧
      (∀ ws ∈ [[], [3], [3, 4]], let s := buildingState ws
        s.resetHeld = false ∧ s.fen.service = some someService ∧ s.readDue someService .f0 0 = true ∧
          s.readDue someService .next 0 = false ∧ someService.roleRef .f0 = some 5 ∧
          s.heldRecord 0 5 = some (closedIn 5 .upper 3) ∧ s.record 0 5 = some (closedIn 5 .upper 3) ∧
          (closedIn 5 .upper 3).content = .slot 3 ∧
          checkWords (wrongAt s.fst.mem 3 0) =
            (if ws = [] then .clean else if ws = [3] then .corrected 1 else .damaged)) ∧
      (let due := fun m u r i => (buildingState []).readDue (settledF0 m u) r i
       [due .weavePrev false .prev 0, due .weavePrev false .prev 1, due .weavePrev false .prev 2, due .weaveNext false .prev 0,
        due .weaveNext false .next 1, due .adaptive false .next 0, due .adaptive true .prev2 0, due .adaptive true .prev2 1,
        due .adaptive false .prev2 0, due .spatial true .prev 0, due .spatial true .f0 0] =
        [true, true, false, false, true, true, true, false, false, false, false]) ∧
      (buildingState []).readDue someService .f0 1 = false ∧
      (buildingState []).readDue (someService.settle .f0 0 true) .f0 1 = true ∧
      (buildingState []).readDue (someService.settle .f0 0 false) .f0 1 = true := by decide +kernel

/-- One job of the feed waiting, and two; a job with content and one without; the feed of higher class behind. -/
theorem test_witness_JobQueue :
    (([jobOf 0 1].filter (fun x => x.feed == 0)).length ≤ 1) ∧
      ([jobOf 1 0, jobOf 0 1, jobOf 0 2] = [jobOf 1 0] ++ jobOf 0 1 :: [jobOf 0 2] ∧
        (∀ x ∈ [jobOf 1 0], x.feed ≠ 0) ∧ (∃ x ∈ [jobOf 0 2], x.feed = 0)) ∧
      (withService State.reset someService).fen.service ≠ none ∧ State.reset.fen.waiting = [] ∧
      (let s := withWaiting ((keptState 0 3 8).setActive 1 { State.reset.settings 1 with cls := 0 }) [jobOf 1 0, jobOf 0 1]
       s.fen.service = none ∧ s.fen.waiting = [jobOf 1 0] ++ jobOf 0 1 :: [] ∧
        (∀ x ∈ [jobOf 1 0], (s.settings x.feed).cls < (s.settings (jobOf 0 1).feed).cls) ∧
        (jobOf 0 1).refs.f0 = some 1 ∧ s.record 0 1 = some (closedIn 1 .lower 1) ∧
        (s.arbitrate.fen.service.map (fun v => v.job)) = some (jobOf 0 1)) ∧
      (let s := withWaiting (keptState 0 3 8) [jobOf 1 0]
       s.record 1 0 = none ∧ s.arbitrate.fen.service = none ∧ s.arbitrate.ntu.table.map (fun e => e.kind) = [.jobSkipped]) := by
  decide +kernel

/-- A READY copy of a coefficient set, the first and the last row of it, and one that is not READY; a READY other half and one
that is not. -/
theorem test_witness_JobStarts :
    (8 : TableId) ≠ 0 ∧ (State.reset.setCopy 8 ⟨true, List.replicate 256 544⟩).tld.copies.length = 9 ∧
      ((State.reset.setCopy 8 ⟨true, List.replicate 256 544⟩).copy 8).ready = true ∧ (State.reset.copy 4).ready = false ∧
      (((State.reset.setCopy 8 ⟨true, List.replicate 256 544⟩).adoptSet 8).fen.vsets.get 3).getD 63 [] = [32, 32, 32, 32] ∧
      (0 : Nat) < 64 ∧ (63 : Nat) < 64 ∧ (7 : Nat) < 8 ∧ (0 : Fin 4).val + 1 ≠ 8 ∧
      (readyState.otx.get 1).otherHalf.state = .ready ∧ (readyState.otx.get 1).oneSending = true ∧
      (State.reset.otx.get 1).otherHalf.state ≠ .ready := by decide +kernel

/-- Class 1 while tight, and not tight, for each intended mode; a usable neighbour. -/
theorem test_witness_FinalModeOfJob :
    (State.reset.settings 0).cls.val ≤ 1 ∧ ({ State.reset.fst with tight := true }).tight = true ∧
      ¬((State.reset.settings 0).cls.val ≤ 1 ∧ State.reset.fst.tight = true) ∧ someJob.intended = .adaptive ∧
      (jobOf 0 1).intended = .spatial ∧ ({ someJob with intended := .weaveNext }).intended = .weaveNext ∧
      ({ someJob with intended := .weavePrev }).intended = .weavePrev ∧
      usableNeighbour .lower (some (closedIn 1 .lower 1)) = true := by decide +kernel

/-- A job in service, not withdrawn and withdrawn, with no job waiting and with one. -/
theorem test_witness_JobCompletes :
    (∃ v, (buildingState []).finishReads.fen.service = some v ∧ v.withdrawn = false) ∧
      (∃ v, (withService (buildingState []) { someService with withdrawn := true }).finishReads.fen.service = some v ∧
        v.withdrawn = true) ∧
      (buildingState []).resetHeld = false ∧ (buildingState []).slotsOk ∧
      ((buildingState []).otx.get 0).oneSending = true ∧ (buildingState []).fen.waiting = [] ∧
      (withWaiting (buildingState []) [jobOf 0 6]).fen.waiting ≠ [] ∧
      ((buildingState []).roleLines (someService.settle .f0 0 true) .f0).getD 0 none = some steadyLine ∧
      ((buildingState []).roleLines (someService.settle .f0 0 false) .f0).getD 0 none = none ∧
      ((buildingState []).roleLines (someService.settle .f0 0 true) .f0).getD 287 none = none := by
  refine ⟨?_, ?_, by decide +kernel⟩
  · obtain ⟨r, h⟩ := (finishReads_keeps (buildingState [])).2.2 someService rfl
    exact ⟨_, h, rfl⟩
  · obtain ⟨r, h⟩ := (finishReads_keeps (withService (buildingState []) { someService with withdrawn := true })).2.2 _ rfl
    exact ⟨_, h, rfl⟩

/-- Records that the job in service references and that it does not. -/
theorem test_witness_ClearedFeed :
    let s := withService (keptState 0 3 8) { someService with job := jobOf 0 1 }
    s.slotsOk ∧ (s.history 0).map (fun r => s.serviceRefs 0 r.seq) = [false, true, false] ∧
      (s.clearFeed 0).slot 0 = .free ∧ (s.clearFeed 0).slot 1 = .retiring 0 ∧ (s.clearFeed 0).slot 3 = .held 3 := by
  decide +kernel

def weaveInput (p : Parity) (m : Mode) (f0 other : List (Option Line)) : WeaveInput :=
  ⟨f0.length, p, m, true, 12, 4, f0, other, other, other⟩

/-- The first missing row and the last, of an UPPER and of a LOWER field; a pair, each single line, the nearest line and the
fill; T available and not; each weight rule; an unusable F0 row at an edge and within. -/
theorem test_witness_RowPlan :
    (rowPlan (weaveInput .upper .spatial [some steadyLine, some steadyLine] []) 0).source = .pair ∧
      (rowPlan (weaveInput .upper .spatial [some steadyLine, some steadyLine] []) 1).source = .single 1 ∧
      (rowPlan (weaveInput .lower .spatial [some steadyLine, some steadyLine] []) 0).source = .single 0 ∧
      (rowPlan (weaveInput .upper .spatial [none, none, some steadyLine] []) 0).source = .nearest 2 ∧
      (rowPlan (weaveInput .upper .spatial [none, some steadyLine, none] []) 0).source = .single 1 ∧
      (rowPlan (weaveInput .upper .spatial [none, none] []) 1).source = .fill ∧
      (let w := weaveInput .lower .adaptive [some steadyLine, some steadyLine] [some steadyLine, some steadyLine]
       (rowPlan w 1).tAvailable = true ∧ (rowPlan w 1).m2Available = true ∧ (rowPlan w 1).rule = .motion ∧
        (rowPlan w 1).a = some 0 ∧ (rowPlan w 1).b = some 1) ∧
      (rowPlan (weaveInput .upper .weaveNext [some steadyLine] [some steadyLine]) 0).rule = .fixed0 ∧
      (rowPlan (weaveInput .upper .spatial [some steadyLine] []) 0).rule = .fixed16 ∧
      (0 : Nat) < 720 ∧ (719 : Nat) < 720 ∧ (718 : Nat) < 719 ∧
      (weaveInput .upper .spatial [none, none, none] []).f0.getD 1 none = none := by decide +kernel

/-- In the plan with the nearest line 2, that line is the one usable line. -/
theorem test_witness_RowPlan_nearest :
    let w := weaveInput .upper .spatial [none, none, some steadyLine] []
    (rowPlan w 0).aUsable = false ∧ (rowPlan w 0).bUsable = false ∧ ((w.f0.getD 2 none).isSome = true ∧ 2 < w.lines) ∧
      (∀ x, (w.f0.getD x none).isSome = true ∧ x < w.lines → x = 2) := by
  have h : ∀ x, x < 3 → ([none, none, some steadyLine].getD x none).isSome = true → x = 2 := by decide +kernel
  exact ⟨by decide +kernel, by decide +kernel, by decide +kernel, fun x k => h x k.2 k.1⟩

/-- Three directions of the search: straight, minus and plus. -/
theorem test_witness_RowPlan_directions :
    let d := fun (u v : Nat) => ((u : Int) - v).natAbs
    (d 480 440 ≤ d 470 452 → False) ∧ d 470 452 < d 480 440 ∧ d 470 452 ≤ d 600 560 ∧
      d 500 490 < d 200 260 ∧ d 500 490 < d 100 300 ∧ d 300 300 ≤ d 200 200 := by decide

theorem test_witness_BlendOfMissingRow :
    (719 : Nat) < 720 ∧ (359 : Nat) < 360 ∧
      (rowPlan (weaveInput .upper .spatial [none, none] []) 0).tAvailable = false ∧
      (weaveInput .upper .spatial [none, none] []).mode = .spatial ∧
      (rowPlan (weaveInput .upper .spatial [none, none] []) 1).source = .fill ∧ (16 : Nat) ≤ 16 ∧
      blend 4 4 7 = 4 ∧ blend 1019 1019 7 = 1019 := by decide +kernel

/-- Sets whose taps sum to 128; positions before the first sample and beyond the last; the ends of a row. -/
theorem test_witness_FilterOfPasses :
    ([-20, 84, 84, -20] : List Int).sum = 128 ∧ (4 : Nat) ≤ 4 ∧ (1019 : Nat) ≤ 1019 ∧
      filterSample [-20, 84, 84, -20] (List.replicate 4 1019) = 1019 ∧ (0 : Nat) < 1920 ∧ (1919 : Nat) < 1920 ∧
      (719 : Nat) < 720 ∧ (359 : Nat) < 360 ∧ (-1 : Int) < 0 ∧ ((719 : Nat) : Int) < 720 ∧ (0 : Int) ≤ 719 ∧
      edgeIndex 719 (-1) = 0 ∧ edgeIndex 719 720 = 719 ∧ edgeIndex 719 719 = 719 := by decide

/-- Table 7-5: the narrowest picture and the widest. -/
theorem test_witness_PictureIsPlaced :
    (∀ p ∈ [(720, 576), (1920, 1080)], p.1 ≤ 1920 ∧ p.2 ≤ 1080 ∧ p.1 % 4 = 0 ∧ p.2 % 2 = 0) ∧
      (1920 - 720) / 2 = 600 ∧ (1080 - 576) / 2 = 252 ∧
      (List.replicate 2 steadyLine).length = 2 ∧
      (∀ l ∈ List.replicate 2 steadyLine, l.y.length = 720 ∧ l.cb.length = 720 / 2 ∧ l.cr.length = 720 / 2) := by
  decide +kernel

def measured (cp : Option Nat) (ds : Option Nat) : FieldRecord :=
  { storedIn 0 .upper 3 with cprev := cp, dsame := ds }

/-- The first record of a history, which no evidence event meets, a second, and one that has two before its F0, with content and a
gap; a case of each test of R67, at the boundary of the contrast of 32 and of the repeat limit of 64; a run at 15, and each
match. -/
theorem test_witness_EvidenceAndUpdate :
    (keptState 0 3 8).history 0 = closedIn 0 .upper 0 :: [closedIn 1 .lower 1, closedIn 2 .upper 2] ∧
      (keptState 0 3 8).evidenceEvent 0 0 = keptState 0 3 8 ∧
      (keptState 0 3 8).history 0 = [] ++ closedIn 0 .upper 0 :: closedIn 1 .lower 1 :: [closedIn 2 .upper 2] ∧
      (keptState 0 3 8).history 0 = [closedIn 0 .upper 0] ++ closedIn 1 .lower 1 :: closedIn 2 .upper 2 :: [] ∧
      (closedIn 1 .lower 1).seq ≠ (2 : Seq) ∧ (∀ r ∈ [closedIn 0 .upper 0], r.seq ≠ (2 : Seq)) ∧
      (((keptState 0 3 8).evidenceEvent 0 2).fen.service.map (fun v => (v.job.f0Seq, v.job.intended))) = some (1, .adaptive) ∧
      ((closedIn 1 .lower 1).toGap .missing).content = .gap .missing ∧
    classify powerOnSettings { measured (some 64) none with conditions := ⟨true, false, false, false⟩ } (measured (some 32) none) = .brk ∧
      classify powerOnSettings { measured (some 64) none with poor := true } (measured (some 32) none) = .ambig ∧
      classify powerOnSettings (measured none none) (measured (some 32) none) = .ambig ∧
      classify powerOnSettings (measured (some 64) none) (measured (some 32) none) = .next ∧
      classify powerOnSettings (measured (some 63) none) (measured (some 32) none) = .ambig ∧
      classify powerOnSettings (measured (some 32) (some 64)) (measured (some 64) none) = .prevRepeat ∧
      classify powerOnSettings (measured (some 32) (some 65)) (measured (some 64) none) = .prev ∧
      classify powerOnSettings (measured (some 32) none) (measured (some 64) none) = .prev ∧
      (updateHyp State.reset.cad.table .next false ⟨0, 0, 0, 15⟩).run = 15 ∧
      stepMatch (State.reset.cad.table.stepOf 0 0) .next false = some true ∧
      stepMatch (State.reset.cad.table.stepOf 0 1) .next false = some false ∧
      (updateHyp State.reset.cad.table .ambig false ⟨1, 0, 4, 3⟩) = ⟨1, 0, 0, 3⟩ := by decide +kernel

/-- SEEKING below the lock count and reaching it with one first hypothesis, and each other tracker state. -/
theorem test_witness_TrackerActs :
    (∀ h ∈ (State.reset.cad.trackers.get 0).hyps.map (updateHyp State.reset.cad.table .next false), h.run < 6) ∧
      (let hs : List Hypothesis := [⟨0, 0, 0, 5⟩, ⟨0, 1, 1, 5⟩]
       (∀ x ∈ hs, x ≠ ⟨0, 0, 0, 5⟩ →
          (updateHyp State.reset.cad.table .next false x).run <
            (updateHyp State.reset.cad.table .next false ⟨0, 0, 0, 5⟩).run) ∧
        6 ≤ (updateHyp State.reset.cad.table .next false ⟨0, 0, 0, 5⟩).run) ∧
      (State.reset.trackerAction 0 0 .next false).1 = none ∧
      stepMatch .opens .prev false = some false ∧ stepMatch .opens .next false ≠ some false ∧
      (∀ k ∈ [TrackerState.locked 0 0, .broken 1, .heldVideo, .heldFilm 1 2],
        ((State.reset.setTracker 0 ⟨k, []⟩).cad.trackers.get 0).state = k) := by decide +kernel

theorem test_witness_TrackerReset :
    (State.reset.settings 0).force = .release ∧ ((State.reset.setForce 0 .video).settings 0).force = .video ∧
      ((State.reset.setForce 0 (.film 1 7)).settings 0).force = .film 1 7 ∧
      (((State.reset.setForce 0 (.film 1 7)).resetTracker 0).cad.trackers.get 0).state = .heldFilm 1 2 ∧
      (∀ p ∈ [((0 : Fin 4), 2), (1, 5)], (State.reset.settings 0).mask.get p.1 = true ∧
        State.reset.cad.table.usable.get p.1 = true ∧ (State.reset.cad.table.programs.get p.1).length = p.2 ∧
        (((State.reset.resetTracker 0).cad.trackers.get 0).hyps.filter (fun h => h.program == p.1)).length = p.2) := by
  decide +kernel

/-- A READY table in which program 1 has 2 steps, with trackers LOCKED and HELD_FILM on it and on program 0; the same where
program 1 is no longer usable; no READY table. -/
theorem test_witness_TableAdoption :
    let held := fun (k : TrackerState) (l : Nat) =>
      ((State.reset.setTracker 2 ⟨k, []⟩).setForce 2 (.film 1 3)).setCopy 0
        ⟨true, cadenceWords.set 9 (BitVec.ofNat 10 l)⟩
    (State.reset.copy 0).ready = false ∧ ((held (.locked 1 3) 2).copy 0).ready = true ∧
      programChanged (State.reset.cad.table.programs.get 1) ((held .seeking 2).adoptCadence.cad.table.programs.get 1) = true ∧
      programChanged (State.reset.cad.table.programs.get 0) ((held .seeking 2).adoptCadence.cad.table.programs.get 0) = false ∧
      (held .seeking 2).adoptCadence.cad.table.usable.get 1 = true ∧
      (held .seeking 1).adoptCadence.cad.table.usable.get 1 = false ∧
      ((held (.locked 1 3) 2).adoptCadence.cad.trackers.get 2).state = .broken 4 ∧
      ((held (.heldFilm 1 3) 2).adoptCadence.cad.trackers.get 2).state = .heldFilm 1 1 ∧
      ((held (.heldFilm 1 3) 2).adoptCadence.settings 2).force = .film 1 1 ∧
      ((held (.heldFilm 1 3) 1).adoptCadence.cad.trackers.get 2).state = .heldVideo ∧
      ((held (.heldFilm 0 1) 2).adoptCadence.cad.trackers.get 2).state = .heldFilm 0 1 := by decide +kernel

/-- An equal mask and another; LOCKED on a program that leaves and on one that stays; each force; a mask and a force whose
order matters and whose order does not. -/
theorem test_witness_MaskAndForce :
    let s := State.reset.setTracker 0 ⟨.locked 0 1, []⟩
    (s.settings 0).mask = ⟨true, true, false, false⟩ ∧ (s.settings 0).mask ≠ ⟨false, true, false, false⟩ ∧
      (s.cad.trackers.get 0).state = .locked 0 1 ∧ (⟨false, true, false, false⟩ : Quad Bool).get 0 = false ∧
      (⟨true, false, false, false⟩ : Quad Bool).get 0 = true ∧
      (s.settings 0).force = s.cad.table.effectiveForce .release ∧
      (s.settings 0).force ≠ s.cad.table.effectiveForce (.film 2 0) ∧ s.cad.table.effectiveForce (.film 2 0) = .video ∧
      s.cad.table.effectiveForce (.film 1 7) = .film 1 2 ∧
      ((s.setForce 0 .video).settings 0).force ≠ s.cad.table.effectiveForce .release ∧
      ((s.applyForce 0 .video).cad.trackers.get 0).state = .heldVideo ∧
      (((s.takeMask 0 ⟨false, true, false, false⟩ (some 4)).cad.trackers.get 0).state) = .broken 4 := by decide +kernel

/-- A cue for another part and one that is spoilt; the codes next to the known ones, 0 and 17; a cue one word too long; a scope
word that names none, a scope that the kind does not allow, another feed from link 2; a value outside its list. -/
theorem test_witness_CueTests :
    cueParts (.tableAbandon 0 (cueOf 7 15 1 11 [])) = some (0, 11, cueOf 7 15 1 11 []) ∧
      State.reset.isAddressed (cueOf 7 15 1 11 []).device = false ∧
      (Instr.tableAbandon 0 (spoilt (cueOf 0 15 1 11 []))).wellFormed = true ∧
      State.reset.takes (spoilt (cueOf 0 15 1 11 [])) ∧ ¬cueChecks (spoilt (cueOf 0 15 1 11 [])) 11 ∧
      (∀ k ∈ [(0 : Word), 17], (k.toNat = 0 ∨ 16 < k.toNat) ∧ State.reset.takes (cueOf 0 0 1 k []) ∧
        cueChecks (cueOf 0 0 1 k []) k) ∧
      (∀ m k e, Instr.snapshot 0 (cueOf 0 0 1 14 [0, 0]) ≠ .unknownCueKind m k e) ∧
      cueParts (.snapshot 0 (cueOf 0 0 1 14 [0, 0])) = some (0, 14, cueOf 0 0 1 14 [0, 0]) ∧
      State.reset.takes (cueOf 0 0 1 14 [0, 0]) ∧ cueChecks (cueOf 0 0 1 14 [0, 0]) 14 ∧
      cueLengthOk 14 (cueOf 0 0 1 14 [0, 0]).payload.length = false ∧
      (∀ w ∈ [4, 3, 15], State.reset.takes (cueOf 0 w 1 14 [0]) ∧ cueChecks (cueOf 0 w 1 14 [0]) 14) ∧
      cueLengthOk 14 1 = true ∧ scopeOfWord (cueOf 0 4 1 14 [0]).scope = none ∧
      scopeOfWord (cueOf 0 3 1 14 [0]).scope = some (.feed 3) ∧ (2 : Feed) ≠ 0 ∧ Scope.feed 3 ≠ .feed 2 ∧
      (cueScopeRule 9).allows (.feed 0) = false ∧ (cueScopeRule 8).allows .device = false ∧
      valueRefused State.reset.cad.table 10 [0, 2, 0] = true ∧ valueRefused State.reset.cad.table 12 [25, 0, 0] = true ∧
      valueRefused State.reset.cad.table 13 [0, 2, 0, 0, 0] = true ∧ valueRefused State.reset.cad.table 14 [keepWord] = true ∧
      valueRefused State.reset.cad.table 6 [2, 2, 0] = true ∧ (cueScopeRule 14).allows (.feed 0) = true := by
  refine ⟨rfl, by decide +kernel, by decide +kernel, by decide +kernel, by decide +kernel, by decide +kernel, ?_,
    rfl, by decide +kernel⟩
  intro m k e h
  cases h

/-- A queue of 7 results and one of 8. -/
theorem test_witness_ResultOfCue :
    let c := cueOf 0 15 1 11 []
    ((fullResults State.reset 2 7).otx.get 2).results.length < 8 ∧
      8 ≤ ((fullResults State.reset 2 8).otx.get 2).results.length ∧
      (fullResults State.reset 0 8).admits 0 0x00B c .device ∧ c.payload = [] ∧
      (fullResults State.reset 0 8).tld.load = none ∧ 8 ≤ ((fullResults State.reset 0 8).otx.get 0).results.length := by
  decide +kernel

/-- A running feed and one that is off. -/
theorem test_witness_SettingsCues :
    let c := cueOf 0 1 1 4 [300, keepWord, 1]
    cueParts (.motionSet 0 c) = some (0, 4, c) ∧ (runningFeed 1).admits 0 4 c (.feed 1) ∧
      settingsItems (.motionSet 0 c) (runningFeed 1) 1 = some ({ floor := some 255, dirSearch := some true }, [(1, 255)]) ∧
      ((runningFeed 1).lrx.get 1).state = .running ∧
      State.reset.admits 0 4 c (.feed 1) ∧ (State.reset.lrx.get 1).state ≠ .running := by
  refine ⟨rfl, by decide +kernel⟩

/-- A payload without and with a change of structure; an enable and a disable, of a feed in each state but RUNNING. -/
theorem test_witness_AtOnceEffects :
    let p : Pending := { floor := some 9 }
    p.mask = none ∧ p.force = none ∧ p.enable = none ∧ p.changesStructure (State.reset.settings 0) = false ∧
      ({ p with struct := some .s60 }).struct = some .s60 ∧ Structure.s60 ≠ (State.reset.settings 0).struct ∧
      ({ p with enable := some true }).enable = some true ∧ ({ p with enable := some false }).enable = some false ∧
      (State.reset.lrx.get 0).state = .off ∧ ((inState State.reset 0 .down 8 .stopped).lrx.get 0).state ≠ .off ∧
      ((inState State.reset 0 .waiting 0 .stopped).lrx.get 0).state ≠ .off := by decide +kernel

/-- The values at the ends of both ranges. -/
theorem test_witness_RasterAdjustment :
    [719, 720, 723, 1920, 1921].map takenWidth = [720, 720, 720, 1920, 1920] ∧
      [575, 576, 577, 1080, 1081].map (takenHeight .s50) = [576, 576, 576, 1080, 1080] ∧
      ({ struct := some .s50 } : Pending).height = none ∧ Structure.s50 ≠ Structure.s60 := by decide

/-- From link 0 and from the feed's own link; an output under INPUT of a RUNNING feed. -/
theorem test_witness_FeedRestarts :
    let c := cueOf 0 1 1 8 []
    State.reset.admits 0 0x008 c (.feed 1) ∧ State.reset.admits 1 0x008 c (.feed 1) ∧ c.payload = [] ∧
      (let s := inState (withOutput 1 (fun t => { t with source := .input })) 1 .running 0 .stopped
       s.admits 0 0x008 c (.feed 1) ∧ (s.otx.get 1).source = .input ∧ (s.lrx.get 1).state = .running) ∧
      (0 : Feed) ≠ 1 := by decide +kernel

theorem test_witness_DeviceRestarts :
    State.reset.admits 0 0x010 (cueOf 15 15 1 16 []) .device ∧ (cueOf 15 15 1 16 []).payload = [] := by decide +kernel

/-- An identity of 9, a malformed count, a READY copy, a wrong count, a right one with and without an open load. -/
theorem test_witness_TableOpens :
    (∀ p ∈ [[(9 : Word), 0, 36], [0, 256, 36], [0, 0, 256], [0, 0, 35], [0, 0, 36], [8, 1, 0]],
      State.reset.admits 0 0x009 (cueOf 0 15 1 9 p) .device) ∧
      (8 < (9 : Word).toNat) ∧ (255 < (256 : Word).toNat) ∧
      (State.reset.copy 8).ready = false ∧ 1 * 256 + 0 = tableSize 8 ∧ 35 ≠ tableSize 0 ∧ State.reset.tld.load = none ∧
      (openLoadState 4 0).tld.load.isSome = true ∧
      ((State.reset.setCopy 3 ⟨true, []⟩).copy 3).ready = true := by decide +kernel

/-- No load open; a part out of order; MORE and LAST parts that fit, with words that pass the checks and that do not; tables
of each sort that pass and that fail. -/
theorem test_witness_TablePartsAndChecks :
    (∀ p ∈ [(0 : Word) :: 0 :: List.replicate 35 0, 1 :: 0 :: List.replicate 31 0, 1 :: 1 :: List.replicate 31 0,
        1 :: 1 :: List.replicate 31 9],
      (openLoadState 5 0).admits 0 0x00A (cueOf 0 15 1 10 p) .device ∧ p.length ≤ 240) ∧
      State.reset.tld.load = none ∧
      (openLoadState 5 0).tld.load = some ⟨0, 36, 1, 5, 0⟩ ∧ (0 : Word).toNat ≠ 1 % 256 ∧ (1 : Word).toNat = 1 % 256 ∧
      5 + 31 = 36 ∧ (openLoadState 5 0).tld.copies.length = 9 ∧
      tableChecks 0 (writeWords 5 (List.replicate 31 0) ((openLoadState 5 0).copy 0).words) = true ∧
      tableChecks 0 (writeWords 5 (List.replicate 31 9) ((openLoadState 5 0).copy 0).words) = false ∧
      tableChecks 0 cadenceWords = true ∧ tableChecks 0 (cadenceWords.set 0 9) = false ∧
      tableChecks 0 (cadenceWords.set 35 3) = false ∧ (5 : TableId) ≠ 0 ∧
      tableChecks 5 ((linearVSet.flatMap id).map (fun c => BitVec.ofNat 10 (c + 512).toNat)) = true ∧
      tableChecks 5 (List.replicate 256 544) = true ∧ tableChecks 1 (List.replicate 512 544) = false := by decide +kernel

/-- A load open and none; its count at 6 and at 7. -/
theorem test_witness_LoadEnds :
    (openLoadState 5 0).admits 0 0x00B (cueOf 0 15 1 11 []) .device ∧
      State.reset.admits 0 0x00B (cueOf 0 15 1 11 []) .device ∧
      (openLoadState 5 0).tld.load = some ⟨0, 36, 1, 5, 0⟩ ∧ State.reset.tld.load = none ∧
      (cueOf 0 15 1 11 []).payload = [] ∧ (openLoadState 5 6).tld.load = some ⟨0, 36, 1, 5, 6⟩ ∧
      (openLoadState 5 7).tld.load = some ⟨0, 36, 1, 5, 7⟩ ∧ (openLoadState 5 7).resetHeld = false ∧
      ((openLoadState 5 7).handToLoader 1).tld.load = some ⟨0, 36, 1, 5, 7⟩ ∧
      ((openLoadState 5 7).handToLoader 0).tld.load = none := by decide +kernel

/-- The first kind and the last, a level in range, one above it, and KEEP; a period of 16, one of 17, and KEEP. -/
theorem test_witness_NoticeUnitCues :
    (∀ p ∈ [[(1 : Word), 3, 1], [24, 4, keepWord], [24, keepWord, 0]],
      State.reset.admits 0 0x00C (cueOf 0 15 1 12 p) .device ∧ 1 ≤ (p.getD 0 0).toNat ∧ (p.getD 0 0).toNat ≤ 24 ∧
        ((p.getD 2 0).toNat ≤ 1 ∨ p.getD 2 0 = keepWord)) ∧
      State.reset.ntu.settings.length = 24 ∧
      (∀ p ∈ [[(16 : Word), keepWord, keepWord, keepWord, keepWord], [17, 0, 0, 1, 0], [keepWord, 1, 0, 0, 1]],
        State.reset.admits 0 0x00D (cueOf 0 15 1 13 p) .device ∧
          maskFormed (p.getD 1 0) (p.getD 2 0) (p.getD 3 0) (p.getD 4 0) = true) ∧
      (let t := after (.reportSet 0 (cueOf 0 15 1 13 [17, 0, 0, 1, 0])) State.reset
       t.ntu.periodic.period = 16 ∧ (t.otx.get 0).results.map (fun r => (r.outcome, r.items)) = [(.doneAdjusted, [(1, 16)])]) := by
  decide +kernel

/-- Empty latches and full ones, of a feed and of the device; the records at reset, a counter of four words, and the best of equal
hypotheses. -/
theorem test_witness_LatchCues :
    (∀ sc ∈ [(2, Scope.feed 2), (15, Scope.device)],
      State.reset.admits 0 0x00E (cueOf 0 sc.1 1 14 [1]) sc.2 ∧ State.reset.admits 0 0x00F (cueOf 0 sc.1 1 15 []) sc.2 ∧
        State.reset.latches sc.2 = ⟨none, none⟩ ∧
        ((State.reset.setLatches sc.2 ⟨some [], some []⟩).latches sc.2) = ⟨some [], some []⟩) ∧
      (1 : Word).toNat ≤ 1 ∧
      State.reset.statusRecord (.feed 1) = [0, 0, 1, 0, 1023, 1023, 0, 0, 0, 0, 0, 0, 0, 1, 0, 1, 0] ∧
      State.reset.statusRecord .device = [24, 0, 1023, 1023, 1023, 0, 0, 0, 0, 0, 0, 0, 0, 0, 0] ∧
      counterWords 4294967295 = [255, 255, 255, 255] ∧ counterWords 16909060 = [1, 2, 3, 4] ∧
      (Tracker.best ⟨.seeking, [⟨1, 0, 0, 3⟩, ⟨0, 1, 1, 3⟩, ⟨0, 0, 0, 3⟩]⟩) = some ⟨0, 0, 0, 3⟩ := by decide +kernel

end Sys2Proof.Tests
end

-- ==== Sys2Proof/Proofs: input links and field arrival ====
section
/-! The statements about the input links: RESET, field starts, active lines, expiries, blanking lines, and the settings and
restarts of a feed. First what the model's operations do, then each statement from that. -/

namespace Sys2Proof.Machine

/-! ## Words gone wrong before a command (R36, log entry 5) -/

@[simp] theorem upset_lrx (s : State) (us : List Upset) : (s.upset us).lrx = s.lrx := rfl

@[simp] theorem upset_ing (s : State) (us : List Upset) : (s.upset us).ing = s.ing := rfl

@[simp] theorem upset_cue (s : State) (us : List Upset) : (s.upset us).cue = s.cue := rfl

@[simp] theorem upset_settings (s : State) (us : List Upset) (n : Feed) : (s.upset us).settings n = s.settings n := rfl

@[simp] theorem upset_fieldLines (s : State) (us : List Upset) (n : Feed) : (s.upset us).fieldLines n = s.fieldLines n := rfl

@[simp] theorem upset_record (s : State) (us : List Upset) (n : Feed) (q : Seq) :
    (s.upset us).record n q = s.record n q := rfl

/-! ## The commands while RESET is released -/

theorem exec_fieldStart (n : Feed) (p : Parity) (us : List Upset) (s : State) (h : s.resetHeld = false) :
    exec (.fieldStart n p us) s = .next ((s.upset us).fieldStarts n p) := unlessHeld_released s _ h

theorem exec_activeLine (n : Feed) (l : Line) (us : List Upset) (s : State) (h : s.resetHeld = false) :
    exec (.activeLine n l us) s = .next ((s.upset us).activeLineArrives n l) := unlessHeld_released s _ h

theorem exec_missingFieldExpiry (n : Feed) (us : List Upset) (s : State) (h : s.resetHeld = false) :
    exec (.missingFieldExpiry n us) s = .next ((s.upset us).missingFieldExpires n) := unlessHeld_released s _ h

theorem exec_blankingPacket (n : Feed) (ws : List Word) (d : Straps) (s : State) (h : s.resetHeld = false) :
    exec (.blankingPacket n ws d) s = .next (s.blankingLine n ws d) := unlessHeld_released s _ h

theorem unlessHeld_held (s t : State) (h : s.resetHeld = true) : unlessHeld s t = .next s := by
  unfold unlessHeld
  simp [h]

/-- While RESET is held, only its release and its assertion act (R17, log entry 7). -/
theorem exec_held (c : Instr) (s : State) (h : s.resetHeld = true) (h1 : ∀ d, c ≠ .powerOn d) (h2 : c ≠ .resetAsserted) :
    exec c s = .next s := by
  cases c with
  | powerOn d => exact absurd rfl (h1 d)
  | resetAsserted => exact absurd rfl h2
  | _ => exact unlessHeld_held s _ h

/-! ## POWER_ON and RESET_ASSERTED -/

/-- Each strap adds its weight to the number where its line is asserted (R17). -/
theorem Straps.number_val (d : Straps) :
    d.number.val =
      (if d.devnum0 then 1 else 0) + (if d.devnum1 then 2 else 0) + (if d.devnum2 then 4 else 0) +
        (if d.devnum3 then 8 else 0) := by
  obtain ⟨a, b, c, e⟩ := d
  revert a b c e
  decide

/-- Settles O9: release of RESET over four idle outputs, the weights of the straps, and what RESET lets through. -/
theorem powerOnAndReset : Obligations.PowerOnAndReset :=
  ⟨fun d s => congrArg Host.Outcome.next (powersOn_spec s d), Straps.number_val, fun _ => rfl, exec_held⟩

/-! ## The end of a load (R183, R184) -/

/-- A TABLE_ABANDON that passes the tests: what abandoning makes of the loader, with its answer (R183). -/
theorem exec_tableAbandon (n : Feed) (c : CueWords) (s : State) (h : s.admits n 0x00B c .device) (hp : c.payload = []) :
    exec (.tableAbandon n c) s = .next (s.abandonLoad.2.answer n 0x00B c s.abandonLoad.1) := by
  have hs : checkedScope n .deviceOnly c.scope = some .device := checkedScope_admits s n _ c _ _ h rfl
  exact (unlessHeld_released s _ h.1.1).trans (congrArg Host.Outcome.next
    (takeCue_runs s n _ c _ _ _ .device h.1.2 h.2.1 (by rw [hp]; rfl) hs))

theorem abandonLoad_open (s : State) (r : LoadRecord) (h : s.tld.load = some r) :
    s.abandonLoad = (⟨.abandoned, none, []⟩, s.setLoad none) := by
  unfold State.abandonLoad
  rw [h]
  rfl

theorem abandonLoad_none (s : State) (h : s.tld.load = none) : s.abandonLoad = (⟨.tooLate, none, []⟩, s) := by
  unfold State.abandonLoad
  rw [h]
  rfl

theorem loaderEvent_none (s : State) (h : s.tld.load = none) : s.loaderEvent = s := by
  unfold State.loaderEvent
  rw [h]

theorem loaderEvent_counts (s : State) (r : LoadRecord) (h : s.tld.load = some r) (he : r.events < 7) :
    s.loaderEvent = s.setLoad (some { r with events := r.events + 1 }) := by
  unfold State.loaderEvent
  rw [h]
  exact if_neg (by omega)

/-- The eighth event discards the load, whether it reaches the loader itself or as LOAD_STALL (R184, log entry 13). -/
theorem loaderEvent_stalls (s : State) (r : LoadRecord) (h : s.tld.load = some r) (he : r.events = 7) :
    s.loaderEvent = s.discardLoad .stalled ∧ s.loadStalls = s.discardLoad .stalled := by
  unfold State.loaderEvent State.loadStalls
  rw [h]
  exact ⟨if_pos (by omega), if_pos (by omega)⟩

/-- Settles O58: an abandoned load, an open load that counts events, and the eighth. -/
theorem loadEnds : Obligations.LoadEnds := by
  refine ⟨fun n c s ha hp => ⟨fun r hr => ?_, fun hr => ?_⟩, fun s => ⟨loaderEvent_none s, loaderEvent_counts s, ?_⟩,
    fun _ _ => rfl⟩
  · rw [exec_tableAbandon n c s ha hp, abandonLoad_open s r hr]
    rfl
  · rw [exec_tableAbandon n c s ha hp, abandonLoad_none s hr]
  · intro r hr he
    obtain ⟨hevent, hstall⟩ := loaderEvent_stalls s r hr he
    refine ⟨hevent, fun hheld => ?_⟩
    exact (unlessHeld_released s _ hheld).trans (congrArg Host.Outcome.next hstall)

/-! ## The end of an arrival (R8, R9) -/

theorem closeArriving_none (s : State) (n : Feed) (h : (s.lrx.get n).arriving = none) : s.closeArriving n = s := by
  unfold State.closeArriving
  rw [h]

theorem closeArriving_short (s : State) (n : Feed) (a : Arriving) (h : (s.lrx.get n).arriving = some a)
    (hl : a.linesReceived < s.fieldLines n) : s.closeArriving n = s.closeShort n a := by
  unfold State.closeArriving
  rw [h]
  exact if_pos hl

theorem closeArriving_dropped (s : State) (n : Feed) (a : Arriving) (h : (s.lrx.get n).arriving = some a)
    (hl : s.fieldLines n ≤ a.linesReceived) (hd : a.dropped = true) : s.closeArriving n = s.closeField n a := by
  unfold State.closeArriving
  rw [h]
  exact (if_neg (Nat.not_lt.2 hl)).trans (if_pos hd)

theorem closeArriving_stored (s : State) (n : Feed) (a : Arriving) (h : (s.lrx.get n).arriving = some a)
    (hl : s.fieldLines n ≤ a.linesReceived) (hd : a.dropped = false) : s.closeArriving n = s := by
  unfold State.closeArriving
  rw [h]
  exact (if_neg (Nat.not_lt.2 hl)).trans (if_neg (by simp [hd]))

/-- Numbers put into an ascending list: they join it, and it stays ascending. -/
theorem mem_insertAll (ws l : List Nat) (x : Nat) : x ∈ insertAll ws l ↔ x ∈ ws ∨ x ∈ l := by
  unfold insertAll
  induction ws generalizing l with
  | nil => simp
  | cons w t ih =>
    rw [List.foldl_cons, ih, mem_insertAscending, List.mem_cons]
    tauto

theorem insertAll_sorted (ws l : List Nat) (h : l.Pairwise (fun a b => a < b)) :
    (insertAll ws l).Pairwise (fun a b => a < b) := by
  unfold insertAll
  induction ws generalizing l with
  | nil => exact h
  | cons w t ih => exact ih _ (insertAscending_sorted w l h)

theorem mem_range_drop (lines received m : Nat) : m ∈ (List.range lines).drop received ↔ received ≤ m ∧ m < lines := by
  rw [List.range_eq_range', List.drop_range', List.mem_range'_1]
  omega

theorem FieldRecord.short_gap (r : FieldRecord) (c : GapCause) (received lines : Nat) (h : r.content = .gap c) :
    (r.short received lines).lost = r.lost := by
  unfold FieldRecord.short FieldRecord.hasContent
  simp [h]

theorem FieldRecord.short_slot (r : FieldRecord) (k : Fin 24) (received lines : Nat) (h : r.content = .slot k) :
    (r.short received lines).lost = insertAll ((List.range lines).drop received) r.lost := by
  unfold FieldRecord.short FieldRecord.hasContent
  simp [h]

/-- Settles O15: the four ends of an arrival, and the lines that a SHORT field loses. -/
theorem shortClosure : Obligations.ShortClosure := by
  refine ⟨fun s n => ⟨closeArriving_none s n, fun a ha => ⟨closeArriving_short s n a ha, closeArriving_dropped s n a ha,
    closeArriving_stored s n a ha⟩⟩, fun r received lines => ⟨rfl, ?_, ?_⟩⟩
  · rintro ⟨c, hc⟩
    exact r.short_gap c received lines hc
  · rintro ⟨k, hk⟩
    rw [r.short_slot k received lines hk]
    refine ⟨fun m => ?_, insertAll_sorted _ _⟩
    rw [mem_insertAll, mem_range_drop, or_comm]

end Sys2Proof.Machine
end

section
namespace Sys2Proof.Machine

/-! ## Clearing a feed (R40, R83, R98, R99) -/

@[simp] theorem clearFeed_lrx (s : State) (n : Feed) : (s.clearFeed n).lrx = s.lrx := by
  rw [(clearFeed_spec s n).1]

@[simp] theorem clearFeed_ing (s : State) (n : Feed) : (s.clearFeed n).ing = s.ing := by
  rw [(clearFeed_spec s n).1]

@[simp] theorem clearFeed_otx (s : State) (n : Feed) : (s.clearFeed n).otx = s.otx := by
  rw [(clearFeed_spec s n).1]

@[simp] theorem clearFeed_ntu (s : State) (n : Feed) : (s.clearFeed n).ntu = s.ntu := by
  rw [(clearFeed_spec s n).1]

@[simp] theorem clearFeed_settings (s : State) (n m : Feed) : (s.clearFeed n).settings m = s.settings m :=
  congrArg (fun c : CueDecoder => c.active.get m) (clearFeed_cue s n)

@[simp] theorem clearFeed_history (s : State) (n : Feed) : (s.clearFeed n).history n = [] := by
  unfold State.history
  rw [(clearFeed_spec s n).2.1, Quad_get_set_same]

theorem clearFeed_cad (s : State) (n : Feed) : (s.clearFeed n).cad = (s.resetTracker n).cad :=
  (clearFeed_spec s n).2.2.2.1

/-- The engine after a feed is cleared: its job in service is withdrawn, and none of its jobs waits (R98, R99). -/
theorem clearFeed_fen (s : State) (n : Feed) :
    (s.clearFeed n).fen =
      { s.fen with
        service := s.fen.service.map (fun v => { v with withdrawn := v.withdrawn || v.job.feed == n })
        waiting := s.fen.waiting.filter (fun j => j.feed != n) } := by
  have hmark : (fun v : Service => if v.job.feed == n then { v with withdrawn := true } else v) =
      fun v => { v with withdrawn := v.withdrawn || v.job.feed == n } := by
    funext v
    split
    · next h => simp [h]
    · next h => simp [h]
  rw [(clearFeed_spec s n).2.2.2.2, hmark]

theorem clearFeed_waiting (s : State) (n : Feed) : (s.clearFeed n).fen.waiting.filter (fun j => j.feed == n) = [] := by
  rw [clearFeed_fen, List.filter_filter, List.filter_eq_nil_iff]
  intro j _
  simp

/-! Emptying a history reads the store and the engine alone, so it commutes with changes of the other blocks. -/

theorem setSlots_fst_congr {s t : State} (h : t.fst = s.fst) (v : Slot) (ks : List (Fin 24)) :
    (ks.foldl (fun u k => u.setSlot k v) t).fst = (ks.foldl (fun u k => u.setSlot k v) s).fst := by
  induction ks generalizing s t with
  | nil => exact h
  | cons k ks ih => exact ih (by rw [setSlot_fst, setSlot_fst, h])

theorem releaseSlots_fst_congr {s t : State} (h : t.fst = s.fst) (ks : List (Fin 24)) :
    (t.releaseSlots ks).fst = (s.releaseSlots ks).fst := by
  have hf : (t.freeSlots ks).fst = (s.freeSlots ks).fst := setSlots_fst_congr h .free ks
  unfold State.releaseSlots
  split
  · exact h
  · unfold State.checkLeaving State.freeCount
    rw [hf]
    split
    · rfl
    · exact hf

theorem detachAll_fst_congr {s t : State} (h : t.fst = s.fst) (n : Feed) (l : List FieldRecord) :
    (l.foldl (fun u r => u.detach n r) t).fst = (l.foldl (fun u r => u.detach n r) s).fst := by
  induction l generalizing s t with
  | nil => exact h
  | cons r l ih =>
    refine ih ?_
    unfold State.detach
    exact setSlots_fst_congr (by simp only [h]) _ r.slots

theorem emptyHistory_fst_congr {s t : State} (h : t.fst = s.fst) (he : t.fen = s.fen) (n : Feed) :
    (t.emptyHistory n).fst = (s.emptyHistory n).fst := by
  have hrefs : t.serviceRefs n = s.serviceRefs n := by
    funext q
    unfold State.serviceRefs
    rw [h, he]
  have hhist : t.history n = s.history n := by
    unfold State.history
    rw [h]
  unfold State.emptyHistory State.emptiedSlots
  rw [hrefs, hhist]
  exact releaseSlots_fst_congr (detachAll_fst_congr (by rw [setHist_fst, setHist_fst, h]) n _) _

/-- Clearing a feed and a change of its receiver and its working items: either may come first. -/
theorem clearFeed_setRx_setIng (s : State) (n : Feed) (r : Receiver) (c : Conditioner) :
    ((s.setRx n r).setIng n c).clearFeed n = ((s.clearFeed n).setRx n r).setIng n c := by
  have hfst : (((s.setRx n r).setIng n c).clearFeed n).fst = (s.clearFeed n).fst :=
    emptyHistory_fst_congr (s := s) (t := (s.setRx n r).setIng n c) rfl rfl n
  rw [(clearFeed_spec ((s.setRx n r).setIng n c) n).1, (clearFeed_spec s n).1, hfst, clearFeed_cad, clearFeed_cad,
    clearFeed_fen, clearFeed_fen]
  rfl

/-! ## Settings that take effect at once (R14, R15, R170) -/

/-- The state once the items are active and a change of structure among them has cleared the feed (R15). -/
def State.restructured (s : State) (n : Feed) (p : Pending) : State :=
  if p.changesStructure (s.settings n) then (s.activate n p none).clearFeed n else s.activate n p none

theorem changesStructure_iff (p : Pending) (a : Settings) :
    p.changesStructure a = true ↔ ∃ st, p.struct = some st ∧ st ≠ a.struct := by
  unfold Pending.changesStructure
  cases p.struct <;> simp

theorem restructured_lrx (s : State) (n : Feed) (p : Pending) : (s.restructured n p).lrx = s.lrx := by
  unfold State.restructured
  split
  · rw [clearFeed_lrx, activate_lrx]
  · exact activate_lrx s n p none

theorem restructured_settings (s : State) (n : Feed) (p : Pending) :
    (s.restructured n p).settings n = (s.activate n p none).settings n := by
  unfold State.restructured
  split
  · exact clearFeed_settings _ n n
  · rfl

theorem applyAtOnce_plain (s : State) (n : Feed) (p : Pending) (h : p.enable = none) :
    s.applyAtOnce n p = s.restructured n p := by
  unfold State.applyAtOnce
  rw [h]
  rfl

theorem applyAtOnce_enable (s : State) (n : Feed) (p : Pending) (h : p.enable = some true) :
    s.applyAtOnce n p =
      if (s.lrx.get n).state = .off then (s.restructured n p).setRx n { s.lrx.get n with state := .waiting }
      else s.restructured n p := by
  rw [← restructured_lrx s n p]
  unfold State.applyAtOnce
  rw [h]
  rfl

theorem applyAtOnce_disable (s : State) (n : Feed) (p : Pending) (h : p.enable = some false) :
    s.applyAtOnce n p = if (s.lrx.get n).state = .off then s.restructured n p else (s.restructured n p).enterOff n := by
  rw [← restructured_lrx s n p]
  unfold State.applyAtOnce
  rw [h]
  rfl

/-- Without a mask and a force the tracker takes nothing: the items become active and nothing else changes. -/
theorem activate_plain (s : State) (n : Feed) (p : Pending) (q : Option Seq) (hm : p.mask = none) (hf : p.force = none) :
    s.activate n p q = s.setActive n ((s.settings n).over p) := by
  unfold State.activate State.takeTrackerItems
  rw [hm, hf]

/-- Settles O52: what the items make active, then the structure change, then the enable. -/
theorem atOnceEffects : Obligations.AtOnceEffects := by
  refine ⟨fun s m p => ?_, fun s m p hm hf he hs => ?_, fun a p => rfl⟩
  · refine ⟨s.restructured m p, fun hc => if_pos ((changesStructure_iff p _).2 hc),
      fun hc => if_neg (fun h => hc ((changesStructure_iff p _).1 h)), restructured_lrx s m p,
      (restructured_settings s m p).trans (activate_settings s m p none).1, applyAtOnce_plain s m p, fun he => ?_,
      fun he => ?_⟩
    · rw [applyAtOnce_enable s m p he]
      exact ⟨fun h => if_pos h, fun h => if_neg h⟩
    · rw [applyAtOnce_disable s m p he]
      refine ⟨fun h => if_pos h, fun h => ?_⟩
      rw [if_neg h, State.enterOff, restructured_lrx]
      rfl
  · rw [applyAtOnce_plain s m p he, State.restructured, hs, activate_plain s m p none hm hf]
    rfl

/-! ## A feed restart (R16, R173) -/

/-- The receiver of a feed that restarts (R16). -/
def State.restarted (s : State) (n : Feed) : Receiver :=
  { s.lrx.get n with
    state := if (s.settings n).enable then .waiting else .off
    timer := .stopped, misses := 0, arriving := none }

/-- What the restart makes of the feed's own blocks, before the output and the notice unit take it (R173). -/
def State.restartedFeed (s : State) (n : Feed) : State :=
  (((s.setStaged n emptyPending).clearFeed n).setRx n (s.restarted n)).setIng n ⟨none, 0⟩

theorem feedRestarts_eq (s : State) (n : Feed) :
    s.feedRestarts n = ((s.restartedFeed n).outputFeedRestart n (s.isRunning n)).clearNoticeFeed n := by
  unfold State.restartedFeed
  rw [← clearFeed_setRx_setIng]
  rfl

/-- The output's share of a feed restart: under INPUT, of a feed that was RUNNING, the frame timer starts (R157). -/
theorem outputFeedRestart_keeps (s : State) (n : Feed) (b : Bool) :
    s.outputFeedRestart n b = { s with otx := (s.outputFeedRestart n b).otx } := by
  unfold State.outputFeedRestart
  split <;> rfl

theorem outputFeedRestart_idle (s : State) (n : Feed) (b : Bool) (h : (s.otx.get n).source ≠ .input ∨ b = false) :
    s.outputFeedRestart n b = s := by
  unfold State.outputFeedRestart
  refine if_neg ?_
  rcases h with h | h <;> simp [h]

theorem outputFeedRestart_input (s : State) (n : Feed) (h : (s.otx.get n).source = .input) :
    s.outputFeedRestart n true = s.startFrameTimer n := by
  unfold State.outputFeedRestart
  exact if_pos (by simp [h])

theorem outputFeedRestart_other (s : State) (n k : Feed) (b : Bool) (h : k ≠ n) :
    (s.outputFeedRestart n b).otx.get k = s.otx.get k := by
  unfold State.outputFeedRestart
  split
  · exact Quad_get_set_other _ _ _ _ h
  · rfl

/-- A FEED_RESTART that passes the tests restarts its feed and is answered DONE. -/
theorem exec_feedRestart (n m : Feed) (c : CueWords) (s : State) (h : s.admits n 0x008 c (.feed m)) (hp : c.payload = []) :
    exec (.feedRestart n c) s = .next ((s.feedRestarts m).answer n 0x008 c ⟨.done, none, []⟩) := by
  have hs : checkedScope n .feedOnly c.scope = some (.feed m) := checkedScope_admits s n _ c _ _ h rfl
  exact (unlessHeld_released s _ h.1.1).trans (congrArg Host.Outcome.next
    (takeCue_runs s n _ c _ _ _ (.feed m) h.1.2 h.2.1 (by rw [hp]; rfl) hs))

@[simp] theorem clearNoticeFeed_lrx (s : State) (n : Feed) : (s.clearNoticeFeed n).lrx = s.lrx := rfl

@[simp] theorem clearNoticeFeed_otx (s : State) (n : Feed) : (s.clearNoticeFeed n).otx = s.otx := rfl

@[simp] theorem clearNoticeFeed_counters (s : State) (n : Feed) : (s.clearNoticeFeed n).ntu.feedCounters.get n = {} :=
  Quad_get_set_same _ n _

@[simp] theorem clearNoticeFeed_latches (s : State) (n : Feed) :
    (s.clearNoticeFeed n).ntu.feedLatches.get n = ⟨none, none⟩ := Quad_get_set_same _ n _

theorem restartedFeed_lrx (s : State) (n : Feed) : (s.restartedFeed n).lrx = s.lrx.set n (s.restarted n) := by
  simp [State.restartedFeed]

theorem restartedFeed_otx (s : State) (n : Feed) : (s.restartedFeed n).otx = s.otx := by
  simp [State.restartedFeed]

theorem restartedFeed_cue (s : State) (n : Feed) :
    (s.restartedFeed n).cue = { s.cue with staged := s.cue.staged.set n emptyPending } := by
  simp [State.restartedFeed, clearFeed_cue]

theorem feedRestarts_keeps (s : State) (n : Feed) :
    s.feedRestarts n =
      { s.restartedFeed n with
        otx := (s.feedRestarts n).otx, ntu := (s.restartedFeed n).clearNoticeFeed n |>.ntu } := by
  rw [feedRestarts_eq]
  have h := outputFeedRestart_keeps (s.restartedFeed n) n (s.isRunning n)
  generalize (s.restartedFeed n).outputFeedRestart n (s.isRunning n) = u at h
  rw [h]
  rfl

theorem feedRestarts_lrx (s : State) (n : Feed) : (s.feedRestarts n).lrx = s.lrx.set n (s.restarted n) := by
  rw [feedRestarts_keeps]
  exact restartedFeed_lrx s n

theorem feedRestarts_otx (s : State) (n : Feed) :
    (s.feedRestarts n).otx = ((s.restartedFeed n).outputFeedRestart n (s.isRunning n)).otx := by
  rw [feedRestarts_eq]
  rfl

/-- The notice unit after a feed restart: the feed's counters at 0 and its latches empty, all else as it was (R195). -/
theorem feedRestarts_ntu (s : State) (n : Feed) : (s.feedRestarts n).ntu = (s.clearNoticeFeed n).ntu := by
  rw [feedRestarts_keeps]
  simp [State.restartedFeed, State.clearNoticeFeed]

/-- Settles O54: the feed's own blocks start again, then its output under INPUT, then the notice unit's share. -/
theorem feedRestarts : Obligations.FeedRestarts := by
  intro n m c s ha hp
  have hkeep := feedRestarts_keeps s m
  have hlrx := feedRestarts_lrx s m
  have hotx := feedRestarts_otx s m
  have hntu := feedRestarts_ntu s m
  refine ⟨s.feedRestarts m, exec_feedRestart n m c s ha hp, ?_⟩
  generalize s.feedRestarts m = t at *
  have hcue : t.cue = { s.cue with staged := s.cue.staged.set m emptyPending } := by
    rw [hkeep]
    exact restartedFeed_cue s m
  have hsettings : (s.restartedFeed m).period m = s.period m := by
    unfold State.period State.settings
    rw [restartedFeed_cue]
  refine ⟨?_, fun k hk => ?_, hcue, ?_, ?_, ?_, ?_, ?_, ?_, ?_, ?_, fun k hk => ?_, fun hi hr => ?_⟩
  · rw [hlrx, Quad_get_set_same]
    rfl
  · rw [hlrx, Quad_get_set_other _ _ _ _ hk]
  · rw [hkeep]
    exact clearFeed_history _ m
  · rw [hkeep]
    show ((s.setStaged m emptyPending).clearFeed m).cad.trackers.get m = _
    rw [clearFeed_cad]
    exact Quad_get_set_same _ m _
  · rw [hkeep]
    show ((s.setStaged m emptyPending).clearFeed m).fen.waiting = _
    rw [clearFeed_fen]
    rfl
  · rw [hntu, clearNoticeFeed_counters]
  · rw [hntu, clearNoticeFeed_latches]
  · rw [hntu]
    rfl
  · rw [hntu]
    rfl
  · rw [hkeep]
    simp [State.restartedFeed]
  · rw [hotx]
    by_cases hm : k = m
    · subst hm
      rw [outputFeedRestart_idle, restartedFeed_otx]
      rw [restartedFeed_otx]
      refine (hk.resolve_left (fun h => h rfl)).imp_right (fun h => ?_)
      simpa [State.isRunning] using h
    · rw [outputFeedRestart_other _ _ _ _ hm, restartedFeed_otx]
  · have hrun : s.isRunning m = true := by simp [State.isRunning, hr]
    rw [hotx, hrun, outputFeedRestart_input _ _ (by rw [restartedFeed_otx]; exact hi), State.startFrameTimer, setOtx_otx,
      Quad_get_set_same, restartedFeed_otx, hsettings]

end Sys2Proof.Machine
end

section
namespace Sys2Proof.Machine

/-! ## What the events leave unchanged -/

/-- A command that the part takes only while RESET is released: nothing, or what it does. -/
theorem unlessHeld_next {s t u : State} (h : unlessHeld s u = .next t) : t = s ∨ t = u := by
  unfold unlessHeld at h
  split at h <;> cases h
  · exact Or.inl rfl
  · exact Or.inr rfl

/-- An event is a chain of Moves from the state in which the words have gone wrong; none of them where RESET is held. -/
theorem unlessHeld_chain {a : Touch} {s t u : State} (us : List Upset) (hm : Moves a (s.upset us) u)
    (h : unlessHeld s u = .next t) : ∃ vs, Moves a (s.upset vs) t := by
  rcases unlessHeld_next h with rfl | rfl
  · exact ⟨[], Moves.refl _⟩
  · exact ⟨us, hm⟩

theorem Touch.feed_allows_self (n : Feed) : (Touch.feed n).allows n = true := by simp [Touch.allows]

theorem Touch.line_allows_self (n : Feed) : (Touch.line n).allows n = true := by simp [Touch.allows]

/-- A chain that may not touch feed m, after words have gone wrong, leaves the device, RESET and that feed (R82 for its force). -/
theorem chain_frame {a : Touch} {s t : State} {us : List Upset} (h : Moves a (s.upset us) t) (m : Feed)
    (hm : a.allows m = false) :
    t.cue.deviceNumber = s.cue.deviceNumber ∧ t.ntu.settings = s.ntu.settings ∧ t.resetHeld = s.resetHeld ∧
      t.lrx.get m = s.lrx.get m ∧ t.ing.get m = s.ing.get m ∧ t.cue.staged.get m = s.cue.staged.get m ∧
      ∃ f, (s.settings m).force.adopts f ∧ t.settings m = { s.settings m with force := f } := by
  have hall : a ≠ .all := by
    rintro rfl
    cases hm
  obtain ⟨hdevice, hlevels, hheld⟩ := h.keeps_device hall
  exact ⟨hdevice, hlevels, hheld, h.keeps_lrx m hm, h.keeps_ing m hm, h.keeps_staged m hm, h.keeps_settings m hm⟩

/-- The external memory reads as before, and RESET stays as it is. -/
structure Undisturbed (s t : State) : Prop where
  mem : t.fst.mem = s.fst.mem
  held : t.resetHeld = s.resetHeld

namespace Undisturbed

theorem refl (s : State) : Undisturbed s s := ⟨rfl, rfl⟩

theorem trans {s t u : State} (h : Undisturbed s t) (k : Undisturbed t u) : Undisturbed s u :=
  ⟨k.mem.trans h.mem, k.held.trans h.held⟩

theorem ofChain {a : Touch} {s t : State} (h : Moves a s t) (hw : a.writes = false) : Undisturbed s t := by
  refine ⟨h.keeps_mem hw, (h.keeps_device ?_).2.2⟩
  rintro rfl
  cases hw

theorem ofStill {s t : State} (h : Moves .still s t) : Undisturbed s t := ofChain h rfl

/-- The decoder's tests keep what each kind of cue keeps. -/
theorem takeCue (s : State) (n : Feed) (code : Word) (c : CueWords) (len : Nat → Bool) (rule : ScopeRule)
    (run : Scope → State → Answer × State) (h : ∀ sc, Undisturbed s (run sc s).2) :
    Undisturbed s (s.takeCue n code c len rule run) := by
  unfold State.takeCue
  split
  · exact refl s
  · split
    · exact ofStill (Moves.discardCue s n _)
    · split
      · exact ofStill (Moves.answer s n code c _)
      · split
        · exact ofStill (Moves.answer s n code c _)
        · exact (h _).trans (ofStill (Moves.answer _ n code c _))

theorem takeUnknownCue (s : State) (n : Feed) (code : Word) (c : CueWords) : Undisturbed s (s.takeUnknownCue n code c) := by
  unfold State.takeUnknownCue
  split
  · exact refl s
  · split
    · exact ofStill (Moves.discardCue s n _)
    · exact ofStill (Moves.answer s n code c _)

theorem carrySettings (items : Feed → State → Option (Pending × List (Nat × Nat))) (sc : Scope) (s : State) :
    Undisturbed s (State.carrySettings items sc s).2 := by
  unfold State.carrySettings
  split
  · exact refl s
  · next m =>
    split
    · exact refl s
    · exact ofChain (Moves.stageOrApply s m _ (Touch.feed_allows_self m)) rfl

theorem settingsCue (s : State) (n : Feed) (code : Word) (len : Nat) (c : CueWords)
    (items : Feed → State → Option (Pending × List (Nat × Nat))) : Undisturbed s (s.settingsCue n code len c items) :=
  takeCue s n code c _ _ _ (fun sc => carrySettings items sc s)

theorem carryFeedRestart (sc : Scope) (s : State) : Undisturbed s (State.carryFeedRestart sc s).2 := by
  cases sc with
  | device => exact refl s
  | feed m => exact ofChain (Moves.feedRestarts s m (Touch.feed_allows_self m)) rfl

theorem carryTableOpen (ws : List Word) (sc : Scope) (s : State) : Undisturbed s (State.carryTableOpen ws sc s).2 := by
  unfold State.carryTableOpen
  split
  · exact refl s
  · exact ofStill (Moves.openLoad s _ _)

theorem carryTablePart (ws : List Word) (sc : Scope) (s : State) : Undisturbed s (State.carryTablePart ws sc s).2 := by
  unfold State.carryTablePart
  split
  · exact refl s
  · exact ofStill (Moves.takePart s _ _ _)

theorem carryNoticeSet (ws : List Word) (sc : Scope) (s : State) : Undisturbed s (State.carryNoticeSet ws sc s).2 := by
  unfold State.carryNoticeSet
  split <;> exact ⟨rfl, rfl⟩

theorem carryReportSet (ws : List Word) (sc : Scope) (s : State) : Undisturbed s (State.carryReportSet ws sc s).2 := by
  unfold State.carryReportSet
  split <;> exact ⟨rfl, rfl⟩

theorem setLatches (s : State) (sc : Scope) (l : Latches) : Undisturbed s (s.setLatches sc l) :=
  ofStill (Moves.setLatches s sc l)

theorem clearCounters (s : State) (sc : Scope) : Undisturbed s (s.clearCounters sc) := by
  cases sc <;> exact ⟨rfl, rfl⟩

theorem carrySnapshot (ws : List Word) (sc : Scope) (s : State) : Undisturbed s (State.carrySnapshot ws sc s).2 := by
  unfold State.carrySnapshot
  split
  · exact refl s
  · unfold State.latchCounters
    split
    · exact refl s
    · dsimp only
      split
      · exact (setLatches s sc _).trans (clearCounters _ sc)
      · exact setLatches s sc _

theorem latchStatus (sc : Scope) (s : State) : Undisturbed s (State.latchStatus sc s).2 := by
  unfold State.latchStatus
  split
  · exact refl s
  · exact setLatches s sc _

theorem cueByCode (s : State) (n : Feed) (code : Word) (c : CueWords) (d : Straps) :
    Undisturbed s (s.cueByCode n code c d) := by
  unfold State.cueByCode
  split
  iterate 7 exact settingsCue s n _ _ c _
  · exact takeCue s n _ c _ _ _ (fun sc => carryFeedRestart sc s)
  · exact takeCue s n _ c _ _ _ (fun sc => carryTableOpen _ sc s)
  · exact takeCue s n _ c _ _ _ (fun sc => carryTablePart _ sc s)
  · exact takeCue s n _ c _ _ _ (fun _ => ofStill (Moves.abandonLoad s))
  · exact takeCue s n _ c _ _ _ (fun sc => carryNoticeSet _ sc s)
  · exact takeCue s n _ c _ _ _ (fun sc => carryReportSet _ sc s)
  · exact takeCue s n _ c _ _ _ (fun sc => carrySnapshot _ sc s)
  · exact takeCue s n _ c _ _ _ (fun sc => latchStatus sc s)
  · exact takeCue s n _ c _ _ _ (fun _ => ⟨rfl, rfl⟩)
  · exact takeUnknownCue s n code c

/-- Every cue command keeps what its kind's code keeps. -/
theorem cueRun (i : Instr) (sc : Scope) (s : State) : Undisturbed s (Sys2Proof.Machine.cueRun i sc s).2 := by
  cases i with
  | feedConfig | rasterSet | trimSet | motionSet | cadenceSet | cadenceForce | watchSet => exact carrySettings _ sc s
  | feedRestart => exact carryFeedRestart sc s
  | tableOpen => exact carryTableOpen _ sc s
  | tablePart => exact carryTablePart _ sc s
  | tableAbandon => exact ofStill (Moves.abandonLoad s)
  | noticeSet => exact carryNoticeSet _ sc s
  | reportSet => exact carryReportSet _ sc s
  | snapshot => exact carrySnapshot _ sc s
  | statusQuery => exact latchStatus sc s
  | deviceRestart => exact ⟨rfl, rfl⟩
  | _ => exact refl s

theorem routePacket (s : State) (n : Feed) (d : Straps) (p : Packet) : Undisturbed s (s.routePacket n d p) := by
  have hcarry : Undisturbed s (s.appendCarry n p) := ofStill (Moves.appendCarry s n p)
  unfold State.routePacket
  dsimp only
  split
  · split
    · exact hcarry.trans (cueByCode _ n _ _ d)
    · split
      · exact cueByCode s n _ _ d
      · exact hcarry
  · split
    · exact ofChain (Moves.takeMapPacket s n p (Touch.feed_allows_self n)) rfl
    · exact hcarry

theorem routeCut (s : State) (n : Feed) (header : List Word) : Undisturbed s (s.routeCut n header) := by
  unfold State.routeCut
  split
  · split
    · exact ofStill (Moves.discardCue s n _)
    · exact refl s
  · exact refl s

theorem takeFound (n : Feed) (d : Straps) (s : State) (f : Found) : Undisturbed s (State.takeFound n d s f) := by
  cases f with
  | complete p => exact routePacket s n d p
  | cut header => exact routeCut s n header

theorem blankingLine (s : State) (n : Feed) (ws : List Word) (d : Straps) : Undisturbed s (s.blankingLine n ws d) := by
  unfold State.blankingLine
  induction framePackets ws.length ws generalizing s with
  | nil => exact refl s
  | cons f l ih => exact (takeFound n d s f).trans (ih _)

end Undisturbed

/-- The lines of the external memory read as before after a command that the part takes, if they do after what it does. -/
theorem unlessHeld_lines {s t u : State} (h : unlessHeld s u = .next t) (k : Fin 24) (i : Nat)
    (hu : lineAt u.fst.mem k i = lineAt s.fst.mem k i) : lineAt t.fst.mem k i = lineAt s.fst.mem k i := by
  rcases unlessHeld_next h with rfl | rfl
  · rfl
  · exact hu

theorem Undisturbed.lines {s t : State} (h : Undisturbed s t) (k : Fin 24) (i : Nat) :
    lineAt t.fst.mem k i = lineAt s.fst.mem k i := by rw [h.mem]

theorem chain_lines {a : Touch} {s t : State} {us : List Upset} (h : Moves a (s.upset us) t) (hw : a.writes = false)
    (k : Fin 24) (i : Nat) : lineAt t.fst.mem k i = lineAt s.fst.mem k i := by
  rw [h.keeps_mem hw, lineAt_upset]

/-- Every command but an active line leaves every line of the external memory as it reads (R36). -/
theorem exec_lines (c : Instr) (s t : State) (h : exec c s = .next t) (hc : ∀ n l us, c ≠ .activeLine n l us)
    (k : Fin 24) (i : Nat) : lineAt t.fst.mem k i = lineAt s.fst.mem k i := by
  cases c with
  | activeLine n l us => exact absurd rfl (hc n l us)
  | powerOn d =>
    obtain rfl : s.powersOn d = t := Host.Outcome.next.inj h
    have hm := (Moves.foldl (a := .still) _ Moves.frameStart feeds (s.released d)).keeps_mem rfl
    exact congrArg (fun m => lineAt m k i) hm
  | resetAsserted =>
    cases h
    rfl
  | fieldStart n p us =>
    exact unlessHeld_lines h k i (chain_lines (Moves.fieldStarts _ n p (Touch.feed_allows_self n)) rfl k i)
  | missingFieldExpiry n us =>
    exact unlessHeld_lines h k i (chain_lines (Moves.missingFieldExpires _ n (Touch.feed_allows_self n)) rfl k i)
  | blankingPacket n ws d => exact unlessHeld_lines h k i ((Undisturbed.blankingLine s n ws d).lines k i)
  | frameTimerExpiry n => exact unlessHeld_lines h k i ((Undisturbed.ofStill (Moves.frameTimerExpires s n)).lines k i)
  | refPulse => exact unlessHeld_lines h k i ((Undisturbed.ofStill (Moves.foldl _ Moves.pulse feeds s)).lines k i)
  | referenceWatchExpiry n => exact unlessHeld_lines h k i ((Undisturbed.ofStill (Moves.watchExpires s n)).lines k i)
  | jobCompletion => exact unlessHeld_lines h k i ((Undisturbed.ofStill (Moves.completeJob s)).lines k i)
  | loadStall => exact unlessHeld_lines h k i ((Undisturbed.ofStill (Moves.loadStalls s)).lines k i)
  | buildRead r m us =>
    exact unlessHeld_lines h k i (chain_lines (a := .still) (Moves.buildLine (s.upset us) r m.val) rfl k i)
  | unknownCueKind n code c =>
    refine unlessHeld_lines h k i ?_
    split
    · rfl
    · exact (Undisturbed.takeUnknownCue s n code c).lines k i
  | _ =>
    rw [exec_cue _ _ _ _ s (fun _ _ _ e => by cases e) rfl] at h
    exact unlessHeld_lines h k i ((Undisturbed.takeCue s _ _ _ _ _ _ (fun sc => Undisturbed.cueRun _ sc s)).lines k i)

/-- Settles O16: each event is a chain of Moves that may touch one feed alone, or none; the memory by exec_lines. -/
theorem eventFrame : Obligations.EventFrame := by
  refine ⟨fun c s t m h hc => ?_, fun c s t k i h hc => exec_lines c s t h hc k i⟩
  have hother : ∀ {n : Feed}, m ≠ n → (Touch.feed n).allows m = false ∧ (Touch.line n).allows m = false := by
    intro n hm
    simp [Touch.allows, Ne.symm hm]
  have hquiet : ∀ {u : State}, Moves .still s u → unlessHeld s u = .next t → ∃ vs, Moves .still (s.upset vs) t :=
    fun hm hu => unlessHeld_chain [] hm hu
  rcases hc with ⟨n, p, us, rfl, hm⟩ | ⟨n, l, us, rfl, hm⟩ | ⟨n, us, rfl, hm⟩ | ⟨n, rfl⟩ | rfl | ⟨n, rfl⟩ | rfl | rfl |
    ⟨r, i, us, rfl⟩
  · obtain ⟨vs, hv⟩ := unlessHeld_chain us (Moves.fieldStarts _ n p (Touch.feed_allows_self n)) h
    exact chain_frame hv m (hother hm).1
  · obtain ⟨vs, hv⟩ := unlessHeld_chain us (Moves.activeLineArrives _ n l (Touch.line_allows_self n) rfl) h
    exact chain_frame hv m (hother hm).2
  · obtain ⟨vs, hv⟩ := unlessHeld_chain us (Moves.missingFieldExpires _ n (Touch.feed_allows_self n)) h
    exact chain_frame hv m (hother hm).1
  · obtain ⟨vs, hv⟩ := hquiet (Moves.frameTimerExpires s n) h
    exact chain_frame hv m rfl
  · obtain ⟨vs, hv⟩ := hquiet (Moves.foldl _ Moves.pulse feeds s) h
    exact chain_frame hv m rfl
  · obtain ⟨vs, hv⟩ := hquiet (Moves.watchExpires s n) h
    exact chain_frame hv m rfl
  · obtain ⟨vs, hv⟩ := hquiet (Moves.completeJob s) h
    exact chain_frame hv m rfl
  · obtain ⟨vs, hv⟩ := hquiet (Moves.loadStalls s) h
    exact chain_frame hv m rfl
  · obtain ⟨vs, hv⟩ := unlessHeld_chain (a := .still) us (Moves.buildLine _ r i.val) h
    exact chain_frame hv m rfl

end Sys2Proof.Machine
end

section
namespace Sys2Proof.Machine

/-! ## Lines of the arriving field (R8, R36, R46, R49) -/

/-- The receiver of feed n with its arriving field replaced. -/
def State.withArriving (s : State) (n : Feed) (a : Arriving) : State :=
  s.setRx n { s.lrx.get n with arriving := some a }

@[simp] theorem withArriving_record (s : State) (n m : Feed) (a : Arriving) (q : Seq) :
    (s.withArriving n a).record m q = s.record m q := rfl

@[simp] theorem withArriving_ing (s : State) (n : Feed) (a : Arriving) : (s.withArriving n a).ing = s.ing := rfl

@[simp] theorem withArriving_fst (s : State) (n : Feed) (a : Arriving) : (s.withArriving n a).fst = s.fst := rfl

/-- A line that the map has as LOST is not written (R49). -/
theorem storeLine_lost (s : State) (n : Feed) (a : Arriving) (m : Nat) (l : Line) (h : a.map.lost.contains m = true) :
    s.storeLine n a m l = s := by
  unfold State.storeLine
  exact if_pos h

/-- Any other line of a stored field is written, trimmed, into its line area of the field's slot (R36, R46). -/
theorem storeLine_slot (s : State) (n : Feed) (a : Arriving) (m : Nat) (l : Line) (r : FieldRecord) (k : Fin 24) (tr : Trim)
    (h : a.map.lost.contains m = false) (hr : s.record n a.seq = some r) (hk : r.content = .slot k)
    (ht : (s.ing.get n).workingTrim = some tr) : s.storeLine n a m l = s.writeLine k m (trimLine tr l) := by
  unfold State.storeLine FieldRecord.slots
  simp only [hr, ht, hk, h]
  rfl

theorem lineAt_writeLine_same (s : State) (k : Fin 24) (m : Nat) (l : Line) :
    lineAt (s.writeLine k m l).fst.mem k m = l := by
  rw [writeLine_fst, lineAt_memWrite, if_pos rfl]

theorem wrongAt_writeLine_same (s : State) (k : Fin 24) (m : Nat) (l : Line) :
    wrongAt (s.writeLine k m l).fst.mem k m = [] := by
  rw [writeLine_fst, wrongAt_memWrite, if_pos rfl]

theorem lineAt_writeLine_other (s : State) (k j : Fin 24) (m i : Nat) (l : Line) (hm : m < 288) (hi : i < 288)
    (h : j ≠ k ∨ i ≠ m) : lineAt (s.writeLine k m l).fst.mem j i = lineAt s.fst.mem j i := by
  rw [writeLine_fst, lineAt_memWrite, if_neg]
  intro e
  obtain ⟨hj, he⟩ := areaKey_inj j k i m hi hm e
  exact h.elim (fun h => h hj) (fun h => h he)

/-- Storing a line touches the external memory alone. -/
theorem storeLine_keeps (s : State) (n : Feed) (a : Arriving) (m : Nat) (l : Line) :
    s.storeLine n a m l = { s with fst := { s.fst with mem := (s.storeLine n a m l).fst.mem } } := by
  unfold State.storeLine FieldRecord.slots
  split
  · rfl
  · split
    · next r t _ _ => cases r.content <;> rfl
    · rfl

/-- Every line area but the stored line's reads as before (R36). -/
theorem lineAt_storeLine_other (s : State) (n : Feed) (a : Arriving) (m : Nat) (l : Line) (j : Fin 24) (i : Nat)
    (hm : m < 288) (hi : i < 288)
    (h : ∀ r k, s.record n a.seq = some r → r.content = .slot k → j ≠ k ∨ i ≠ m) :
    lineAt (s.storeLine n a m l).fst.mem j i = lineAt s.fst.mem j i := by
  unfold State.storeLine FieldRecord.slots
  split
  · rfl
  · split
    · next r t hr _ =>
      cases hc : r.content with
      | slot k => exact lineAt_writeLine_other s k j m i _ hm hi (h r k hr hc)
      | gap c => rfl
    · rfl

/-! ## Active lines, case by case (R1, R8, R10) -/

theorem activeLineArrives_none (s : State) (n : Feed) (l : Line) (h : (s.lrx.get n).arriving = none) :
    s.activeLineArrives n l = s := by
  unfold State.activeLineArrives
  rw [h]

theorem activeLineArrives_next (s : State) (n : Feed) (l : Line) (a : Arriving) (h : (s.lrx.get n).arriving = some a)
    (hl : a.linesReceived < s.fieldLines n) : s.activeLineArrives n l = s.nextLine n a l := by
  unfold State.activeLineArrives
  rw [h]
  exact if_pos hl

theorem activeLineArrives_surplus (s : State) (n : Feed) (l : Line) (a : Arriving) (h : (s.lrx.get n).arriving = some a)
    (hl : s.fieldLines n ≤ a.linesReceived) : s.activeLineArrives n l = s.surplusLine n a := by
  unfold State.activeLineArrives
  rw [h]
  exact if_neg (Nat.not_lt.2 hl)

theorem nextLine_dropped (s : State) (n : Feed) (a : Arriving) (l : Line) (h : a.dropped = true) :
    s.nextLine n a l = s.withArriving n { a with linesReceived := a.linesReceived + 1 } := by
  unfold State.nextLine
  exact if_pos h

/-- A line of a stored field before its last is counted and stored (R8). -/
theorem nextLine_before (s : State) (n : Feed) (a : Arriving) (l : Line) (h : a.dropped = false)
    (hl : a.linesReceived + 1 < s.fieldLines n) :
    s.nextLine n a l =
      (s.withArriving n { a with linesReceived := a.linesReceived + 1 }).storeLine n a a.linesReceived l := by
  unfold State.nextLine
  exact (if_neg (by simp [h])).trans (if_neg (by omega))

/-- The last line of a stored field is counted and stored, and closes it (R8). -/
theorem nextLine_last (s : State) (n : Feed) (a : Arriving) (l : Line) (h : a.dropped = false)
    (hl : a.linesReceived + 1 = s.fieldLines n) :
    s.nextLine n a l =
      ((s.withArriving n { a with linesReceived := s.fieldLines n }).storeLine n a a.linesReceived l).closeField n
        { a with linesReceived := s.fieldLines n } := by
  rw [← hl]
  unfold State.nextLine
  exact (if_neg (by simp [h])).trans (if_pos hl)

theorem surplusLine_later (s : State) (n : Feed) (a : Arriving) (h : a.surplusSeen = true) : s.surplusLine n a = s := by
  unfold State.surplusLine
  exact if_pos h

/-- The first surplus line is marked; the record, where it still exists, becomes LONG with its notice (R10). -/
theorem surplusLine_first (s : State) (n : Feed) (a : Arriving) (h : a.surplusSeen = false) :
    let marked := s.withArriving n { a with surplusSeen := true }
    (s.record n a.seq = none → s.surplusLine n a = marked) ∧
      ∀ r, s.record n a.seq = some r →
        s.surplusLine n a =
          (marked.modifyRecord n a.seq (fun x => { x with conditions := { x.conditions with long := true } })).raise
            .fieldLong (.feed n) (.sequence a.seq) := by
  have hrec : ∀ x : Receiver, (s.setRx n x).record n a.seq = s.record n a.seq := fun _ => rfl
  unfold State.surplusLine
  simp only [h, hrec]
  refine ⟨fun hr => ?_, fun r hr => ?_⟩ <;> rw [hr] <;> rfl

/-- Settles O19: no field arriving, a dropped field's line, surplus lines, and a stored field's line before its last. -/
theorem linesBeforeLast : Obligations.LinesBeforeLast := by
  refine ⟨fun n l us s hs => ?_, fun n l us s a r k tr hs ha hd hl hr hk ht => ?_⟩
  · rw [exec_activeLine n l us s hs]
    refine ⟨fun h => ?_, fun a ha hl hd => ?_, fun a ha hl => ⟨fun hsurplus => ?_, fun hsurplus => ?_⟩⟩
    · rw [activeLineArrives_none (s.upset us) n l h]
    · rw [activeLineArrives_next (s.upset us) n l a ha hl, nextLine_dropped _ n a l hd]
      rfl
    · rw [activeLineArrives_surplus (s.upset us) n l a ha hl, surplusLine_later _ n a hsurplus]
    · rw [activeLineArrives_surplus (s.upset us) n l a ha hl]
      obtain ⟨hgone, hlong⟩ := surplusLine_first (s.upset us) n a hsurplus
      exact ⟨fun hr => congrArg Host.Outcome.next (hgone hr), fun r hr => congrArg Host.Outcome.next (hlong r hr)⟩
  · have hm : a.linesReceived < 288 := by
      have := Moves.fieldLines_le s n
      omega
    let counted := (s.upset us).withArriving n { a with linesReceived := a.linesReceived + 1 }
    have hkeep := storeLine_keeps counted n a a.linesReceived l
    refine ⟨counted.storeLine n a a.linesReceived l, ?_, ?_, ?_, fun j i hi hji => ?_, fun hlost => ?_, fun hlost => ?_⟩
    · rw [exec_activeLine n l us s hs, activeLineArrives_next (s.upset us) n l a ha (by rw [upset_fieldLines]; omega),
        nextLine_before (s.upset us) n a l hd hl]
    · generalize counted.storeLine n a a.linesReceived l = t at hkeep
      rw [hkeep]
      rfl
    · exact congrArg State.fst hkeep
    · rw [lineAt_storeLine_other counted n a _ l j i hm hi, withArriving_fst, lineAt_upset]
      intro r' k' hr' hk'
      obtain rfl : r = r' := Option.some.inj (hr.symm.trans hr')
      obtain rfl : k = k' := Content.slot.inj (hk.symm.trans hk')
      exact hji
    · rw [storeLine_lost counted n a _ l hlost]
      rfl
    · rw [storeLine_slot counted n a _ l r k tr hlost hr hk ht]
      exact ⟨lineAt_writeLine_same _ k _ _, wrongAt_writeLine_same _ k _ _⟩

/-! ## The closure of a field (R8, R31, R56, R57) -/

theorem record_modifyRecord (s : State) (n : Feed) (q : Seq) (f : FieldRecord → FieldRecord) (hf : ∀ r, (f r).seq = r.seq)
    (r : FieldRecord) (h : s.record n q = some r) : (s.modifyRecord n q f).record n q = some (f r) := by
  have hq : r.seq = q := beq_iff_eq.1 (List.find?_some (p := fun x : FieldRecord => x.seq == q) h)
  unfold State.record State.history at *
  unfold State.modifyRecord State.history
  rw [setHist_fst]
  simp only [Quad_get_set_same, List.find?_map]
  have hsame : (fun x : FieldRecord => x.seq == q) ∘ (fun x => if x.seq == q then f x else x) = fun x => x.seq == q := by
    funext x
    simp only [Function.comp]
    split
    · rw [hf]
    · rfl
  rw [hsame, h]
  simp [hq]

/-- At a closure the record becomes CLOSED and its slot HELD, and no other slot changes (R31). -/
theorem closeRecord_slot (s : State) (n : Feed) (q : Seq) (r : FieldRecord) (k : Fin 24) (hs : s.slotsOk)
    (hr : s.record n q = some r) (hk : r.content = .slot k) :
    (s.closeRecord n q).record n q = some { r with state := .closed } ∧
      ∀ j, (s.closeRecord n q).slot j = if j = k then .held n else s.slot j := by
  have heq : s.closeRecord n q = (s.setSlot k (.held n)).modifyRecord n q (fun x => { x with state := .closed }) := by
    unfold State.closeRecord FieldRecord.slots
    simp only [hr, hk]
    rfl
  rw [heq]
  exact ⟨record_modifyRecord (s.setSlot k (.held n)) n q (fun x => { x with state := .closed }) (fun _ => rfl) r hr,
    fun j => slot_setSlot s hs k j _⟩

theorem closeField_stored (s : State) (n : Feed) (a : Arriving) (h : a.dropped = false) :
    s.closeField n a = ((s.closeRecord n a.seq).count n .fieldsStored 1).closureWork n a.seq a.map := by
  unfold State.closeField
  exact if_neg (by simp [h])

theorem closeField_dropped (s : State) (n : Feed) (a : Arriving) (h : a.dropped = true) :
    s.closeField n a = (s.closeRecord n a.seq).gapClosureWork n a.seq := by
  unfold State.closeField
  exact if_pos h

/-- Settles O20: the last line is stored as any other; the closure is a chain that touches no receiver and no line. -/
theorem lastLineCloses : Obligations.LastLineCloses := by
  refine ⟨fun n l us s a hs ha hd hl => ?_, fun n s q r k hs hr hk => ?_, fun n s a => ⟨closeField_stored s n a,
    closeField_dropped s n a⟩⟩
  · have hm : a.linesReceived < 288 := by
      have := Moves.fieldLines_le s n
      omega
    let full := { a with linesReceived := s.fieldLines n }
    let counted := (s.upset us).withArriving n full
    let stored := counted.storeLine n a a.linesReceived l
    have hclose : Moves .quiet stored (stored.closeField n full) := Moves.closeField stored n full
    refine ⟨?_, ?_, hclose.keeps_mem rfl, fun j i hi h => ?_, storeLine_lost counted n a _ l, fun r k tr hlost hr hk ht => ?_⟩
    · rw [exec_activeLine n l us s hs, activeLineArrives_next (s.upset us) n l a ha (by rw [upset_fieldLines]; omega),
        nextLine_last (s.upset us) n a l hd hl]
      rfl
    · refine (hclose.keeps_lrx n rfl).trans ?_
      show (State.storeLine counted n a a.linesReceived l).lrx.get n = _
      rw [storeLine_keeps]
      exact Quad_get_set_same _ n _
    · exact (lineAt_storeLine_other counted n a _ l j i hm hi h).trans (lineAt_upset s us j i)
    · have hwrite := storeLine_slot counted n a a.linesReceived l r k tr hlost hr hk ht
      refine ⟨hwrite, ?_⟩
      show lineAt (State.storeLine counted n a a.linesReceived l).fst.mem _ _ = _ ∧
        wrongAt (State.storeLine counted n a a.linesReceived l).fst.mem _ _ = _
      rw [hwrite]
      exact ⟨lineAt_writeLine_same _ k _ _, wrongAt_writeLine_same _ k _ _⟩
  · obtain ⟨hrecord, hslot⟩ := closeRecord_slot s n q r k hs hr hk
    exact ⟨hrecord, by rw [hslot, if_pos rfl], fun j hj => by rw [hslot, if_neg hj]⟩

end Sys2Proof.Machine
end

section
namespace Sys2Proof.Machine

/-! ## The search of a blanking line (R18) -/

/-- The packets of a line, searched with a turn for each of its words. -/
def framed (ws : List Word) : List Found := framePackets ws.length ws

theorem framePackets_nil (k : Nat) : framePackets k [] = [] := by cases k <;> rfl

theorem frameAfterMarker_length (ws : List Word) : (frameAfterMarker ws).2.length ≤ ws.length := by
  unfold frameAfterMarker
  split
  · next k d sc c tg len rest =>
    split
    · simp only [List.length_cons]
      omega
    · split
      · next chk more h =>
        have := congrArg List.length h
        simp only [List.length_drop, List.length_cons] at this ⊢
        omega
      · simp
  · simp

/-- A turn for each word suffices: more turns find no more. -/
theorem framePackets_turns (k m : Nat) (ws : List Word) (hk : ws.length ≤ k) (hm : ws.length ≤ m) :
    framePackets k ws = framePackets m ws := by
  induction k generalizing m ws with
  | zero => rw [List.length_eq_zero_iff.1 (Nat.le_zero.1 hk), framePackets_nil, framePackets_nil]
  | succ k ih =>
    match m, ws, hk, hm with
    | m, [], _, _ => rw [framePackets_nil, framePackets_nil]
    | m + 1, [_], _, _ => rfl
    | m + 1, [_, _], _, _ => rfl
    | m + 1, a :: b :: c :: rest, hk, hm =>
      simp only [List.length_cons] at hk hm
      have hrest := frameAfterMarker_length rest
      unfold framePackets
      split
      · rw [ih m _ (by omega) (by omega)]
      · exact ih m _ (by simp; omega) (by simp; omega)

theorem framePackets_eq_framed (k : Nat) (ws : List Word) (h : ws.length ≤ k) : framePackets k ws = framed ws :=
  framePackets_turns k _ ws h (le_refl _)

/-- At a marker the search takes what follows it and goes on after it. -/
theorem framed_marker (ws : List Word) :
    framed (markerHigh :: markerLow :: markerHigh :: ws) = (frameAfterMarker ws).1 :: framed (frameAfterMarker ws).2 := by
  have h := frameAfterMarker_length ws
  rw [framed, List.length_cons, framePackets, if_pos ⟨rfl, rfl, rfl⟩, framePackets_eq_framed]
  simp only [List.length_cons]
  omega

/-- A word at which no marker begins is passed over. -/
theorem framed_skip (w : Word) (ws : List Word) (h : ¬(w = markerHigh ∧ ∃ rest, ws = markerLow :: markerHigh :: rest)) :
    framed (w :: ws) = framed ws := by
  match ws with
  | [] => rfl
  | [_] => rfl
  | b :: c :: rest =>
    rw [framed, List.length_cons, framePackets, if_neg]
    · rfl
    · rintro ⟨rfl, rfl, rfl⟩
      exact h ⟨rfl, rest, rfl⟩

theorem framed_none (ws : List Word)
    (h : ∀ i : Nat, ¬(ws[i]? = some markerHigh ∧ ws[i + 1]? = some markerLow ∧ ws[i + 2]? = some markerHigh)) :
    framed ws = [] := by
  induction ws with
  | nil => rfl
  | cons w ws ih =>
    rw [framed_skip w ws]
    · exact ih (fun i => h (i + 1))
    · rintro ⟨rfl, rest, rfl⟩
      exact h 0 ⟨rfl, rfl, rfl⟩

/-! ## What follows a marker (R18) -/

theorem frameAfterMarker_complete (p : Packet) (ws : List Word) (h : p.payload.length ≤ 240) :
    frameAfterMarker (p.summed ++ [p.check] ++ ws) = (.complete p, ws) := by
  have hlen : (wordOf p.payload.length).toNat = p.payload.length := by
    rw [wordOf, BitVec.toNat_ofNat]
    omega
  have hdrop : (p.payload ++ (p.check :: ws)).drop p.payload.length = p.check :: ws := List.drop_left
  have htake : (p.payload ++ (p.check :: ws)).take p.payload.length = p.payload := List.take_left
  simp only [Packet.summed, List.cons_append, List.nil_append, List.append_assoc, frameAfterMarker, hlen, hdrop, htake]
  exact if_neg (by omega)

/-- A length word above 240 cuts the packet, and the search goes on after that word. -/
theorem frameAfterMarker_long (k d sc c tg len : Word) (ws : List Word) (h : 240 < len.toNat) :
    frameAfterMarker (k :: d :: sc :: c :: tg :: len :: ws) = (.cut [k, d, sc, c, tg, len], ws) := by
  unfold frameAfterMarker
  exact if_pos h

/-- A packet whose words pass the end of the line is cut, and the line ends. -/
theorem frameAfterMarker_ends (k d sc c tg len : Word) (ws : List Word) (h : len.toNat ≤ 240) (hw : ws.length ≤ len.toNat) :
    frameAfterMarker (k :: d :: sc :: c :: tg :: len :: ws) = (.cut [k, d, sc, c, tg, len], []) := by
  unfold frameAfterMarker
  simp only [List.drop_eq_nil_of_le hw]
  exact if_neg (Nat.not_lt.2 h)

theorem frameAfterMarker_header (ws : List Word) (h : ws.length < 6) : frameAfterMarker ws = (.cut ws, []) := by
  unfold frameAfterMarker
  split
  · simp only [List.length_cons] at h
    omega
  · rfl

/-! ## A blanking line, from its front -/

theorem blankingLine_nil (s : State) (n : Feed) (d : Straps) : s.blankingLine n [] d = s := rfl

theorem blankingLine_none (s : State) (n : Feed) (ws : List Word) (d : Straps) (h : framed ws = []) :
    s.blankingLine n ws d = s := by
  unfold State.blankingLine
  rw [show framePackets ws.length ws = [] from h]
  rfl

theorem blankingLine_skip (s : State) (n : Feed) (w : Word) (ws : List Word) (d : Straps)
    (h : ¬(w = markerHigh ∧ ∃ rest, ws = markerLow :: markerHigh :: rest)) :
    s.blankingLine n (w :: ws) d = s.blankingLine n ws d :=
  congrArg (fun l => l.foldl (State.takeFound n d) s) (framed_skip w ws h)

theorem blankingLine_marker (s : State) (n : Feed) (ws rest : List Word) (d : Straps) (f : Found)
    (h : frameAfterMarker ws = (f, rest)) :
    s.blankingLine n (markerHigh :: markerLow :: markerHigh :: ws) d = (State.takeFound n d s f).blankingLine n rest d := by
  have hm := framed_marker ws
  rw [h] at hm
  exact congrArg (fun l => l.foldl (State.takeFound n d) s) hm

/-- A complete packet at the front of a line is routed, and then the rest of the line is searched. -/
theorem blankingLine_packet (s : State) (n : Feed) (p : Packet) (ws : List Word) (d : Straps) (h : p.payload.length ≤ 240) :
    s.blankingLine n (p.words ++ ws) d = (s.routePacket n d p).blankingLine n ws d := by
  have hw : p.words ++ ws = markerHigh :: markerLow :: markerHigh :: (p.summed ++ [p.check] ++ ws) := by
    simp [Packet.words]
  rw [hw]
  exact blankingLine_marker s n _ ws d _ (frameAfterMarker_complete p ws h)

theorem blankingLine_one (s : State) (n : Feed) (p : Packet) (d : Straps) (h : p.payload.length ≤ 240) :
    s.blankingLine n p.words d = s.routePacket n d p := by
  have := blankingLine_packet s n p [] d h
  rwa [List.append_nil, blankingLine_nil] at this

/-! ## Routing (R19, R156) -/

theorem routePacket_carried (s : State) (n : Feed) (d : Straps) (p : Packet) (hc : p.kind ≠ kindCue) (hm : p.kind ≠ kindMap) :
    s.routePacket n d p = s.appendCarry n p := by
  unfold State.routePacket
  exact (if_neg hc).trans (if_neg hm)

/-- A cue for every part is carried and then taken, whatever the part's own number (log entry 8). -/
theorem routePacket_all (s : State) (n : Feed) (d : Straps) (c : CueWords) (code : Word) (h : c.device = 0x00F) :
    s.routePacket n d (CueWords.packet c code) = (s.appendCarry n (CueWords.packet c code)).cueByCode n code c d := by
  unfold State.routePacket
  exact (if_pos rfl).trans (if_pos h)

theorem routePacket_own (s : State) (n : Feed) (d : Straps) (c : CueWords) (code : Word) (h : c.device ≠ 0x00F)
    (ha : s.isAddressed c.device = true) : s.routePacket n d (CueWords.packet c code) = s.cueByCode n code c d := by
  unfold State.routePacket
  exact (if_pos rfl).trans ((if_neg h).trans (if_pos ha))

theorem routePacket_foreign (s : State) (n : Feed) (d : Straps) (c : CueWords) (code : Word)
    (ha : s.isAddressed c.device = false) :
    s.routePacket n d (CueWords.packet c code) = s.appendCarry n (CueWords.packet c code) := by
  have h : c.device ≠ 0x00F := by
    intro h
    rw [State.isAddressed, h] at ha
    simp at ha
  unfold State.routePacket
  exact (if_pos rfl).trans ((if_neg h).trans (if_neg (Bool.not_eq_true _ ▸ ha)))

theorem isAddressed_iff (s : State) (w : Word) :
    s.isAddressed w = true ↔ w.toNat = s.cue.deviceNumber.val ∨ w.toNat = 15 := by
  have hn : (wordOf s.cue.deviceNumber.val).toNat = s.cue.deviceNumber.val := by
    rw [wordOf, BitVec.toNat_ofNat]
    omega
  unfold State.isAddressed
  rw [Bool.or_eq_true, beq_iff_eq, beq_iff_eq, ← BitVec.toNat_inj, ← BitVec.toNat_inj, hn]
  rfl

theorem appendCarry_room (s : State) (n : Feed) (p : Packet) (h : (s.otx.get n).carry.length < 16) :
    s.appendCarry n p = s.setOtx n { s.otx.get n with carry := (s.otx.get n).carry ++ [p] } := by
  unfold State.appendCarry
  exact if_pos h

theorem appendCarry_full (s : State) (n : Feed) (p : Packet) (h : 16 ≤ (s.otx.get n).carry.length) :
    s.appendCarry n p = (s.raise .carryOverflow (.feed n) (.kindWord p.kind)).count n .carriedLost 1 := by
  unfold State.appendCarry
  exact if_neg (Nat.not_lt.2 h)

/-- A cut cue of the part is discarded by the decoder; any other cut packet disappears (R18, R165 test 1). -/
theorem routeCut_header (s : State) (n : Feed) (k dev : Word) (ws : List Word) :
    s.routeCut n (k :: dev :: ws) =
      if k = kindCue ∧ s.isAddressed dev = true then s.discardCue n (cutDetail (k :: dev :: ws)) else s := rfl

theorem routeCut_other (s : State) (n : Feed) (ws : List Word)
    (h : ∀ dev, ws[1]? = some dev → ws[0]? ≠ some kindCue ∨ s.isAddressed dev = false) : s.routeCut n ws = s := by
  match ws with
  | [] => rfl
  | [_] => rfl
  | k :: dev :: rest =>
    rw [routeCut_header]
    refine if_neg ?_
    rintro ⟨rfl, ha⟩
    rcases h dev rfl with h | h
    · exact h rfl
    · rw [ha] at h
      cases h

theorem routeCut_own (s : State) (n : Feed) (ws : List Word) (dev : Word) (hk : ws[0]? = some kindCue)
    (hd : ws[1]? = some dev) (ha : s.isAddressed dev = true) : s.routeCut n ws = s.discardCue n (cutDetail ws) := by
  match ws with
  | [] => cases hk
  | [_] => cases hd
  | k :: e :: rest =>
    obtain rfl : k = kindCue := Option.some.inj hk
    obtain rfl : e = dev := Option.some.inj hd
    rw [routeCut_header]
    exact if_pos ⟨rfl, ha⟩

theorem cutDetail_tag (ws : List Word) (tg : Word) (h : ws[4]? = some tg) : cutDetail ws = .tag tg := by
  unfold cutDetail
  rw [h]

theorem cutDetail_absent (ws : List Word) (h : ws[4]? = none) : cutDetail ws = .absent := by
  unfold cutDetail
  rw [h]

/-! ## Cues by their codes (Table 9-3) -/

/-- The command of a cue's code: UNKNOWN_CUE_KIND for a code that names no kind. -/
def cueCommand (n : Feed) (code : Word) (c : CueWords) (d : Straps) : Instr :=
  [.unknownCueKind n code c, .feedConfig n c, .rasterSet n c, .trimSet n c, .motionSet n c, .cadenceSet n c,
    .cadenceForce n c, .watchSet n c, .feedRestart n c, .tableOpen n c, .tablePart n c, .tableAbandon n c, .noticeSet n c,
    .reportSet n c, .snapshot n c, .statusQuery n c, .deviceRestart n c d].getD code.toNat (.unknownCueKind n code c)

theorem exec_unknownCueKind (n : Feed) (code : Word) (c : CueWords) (s : State) (h : s.resetHeld = false)
    (hc : isCueKind code = false) : exec (.unknownCueKind n code c) s = .next (s.takeUnknownCue n code c) := by
  refine (unlessHeld_released s _ h).trans ?_
  rw [hc]
  rfl

/-- The command of a cue's code does what the decoder does with a complete cue of that code (R164). -/
theorem exec_cueCommand (n : Feed) (code : Word) (c : CueWords) (d : Straps) (s : State) (h : s.resetHeld = false) :
    exec (cueCommand n code c d) s = .next (s.cueByCode n code c d) := by
  have hunknown : ¬(1 ≤ code.toNat ∧ code.toNat ≤ 16) →
      exec (.unknownCueKind n code c) s = .next (s.takeUnknownCue n code c) := by
    intro hc
    refine exec_unknownCueKind n code c s h ?_
    unfold isCueKind
    simpa using hc
  unfold cueCommand State.cueByCode
  generalize code.toNat = k at hunknown ⊢
  match k with
  | 0 => exact hunknown (by decide)
  | 1 | 2 | 3 | 4 | 5 | 6 | 7 | 8 | 9 | 10 | 11 | 12 | 13 | 14 | 15 | 16 => exact unlessHeld_released s _ h
  | k + 17 => exact hunknown (by omega)

/-! ## One line, packet by packet -/

theorem exec_blankingPacket_unchanged (n : Feed) (ws : List Word) (d : Straps) (s : State) (h : s.blankingLine n ws d = s) :
    exec (.blankingPacket n ws d) s = .next s := by
  show unlessHeld s (s.blankingLine n ws d) = _
  rw [h]
  unfold unlessHeld
  split <;> rfl

/-- After a complete packet the rest of the line is taken in the state that the packet leaves (log entry 10). -/
theorem exec_blankingPacket_append (n : Feed) (p : Packet) (ws : List Word) (d : Straps) (s t : State)
    (hp : p.payload.length ≤ 240) (ht : exec (.blankingPacket n p.words d) s = .next t) :
    exec (.blankingPacket n (p.words ++ ws) d) s = exec (.blankingPacket n ws d) t := by
  by_cases hs : s.resetHeld = true
  · obtain rfl : s = t := Host.Outcome.next.inj ((unlessHeld_held s _ hs).symm.trans ht)
    exact (unlessHeld_held s _ hs).trans (unlessHeld_held s _ hs).symm
  · rw [Bool.not_eq_true] at hs
    rw [exec_blankingPacket n _ d s hs, blankingLine_one s n p d hp] at ht
    obtain rfl : s.routePacket n d p = t := Host.Outcome.next.inj ht
    have ht : (s.routePacket n d p).resetHeld = false := (Undisturbed.routePacket s n d p).held.trans hs
    rw [exec_blankingPacket n _ d s hs, exec_blankingPacket n ws d _ ht, blankingLine_packet s n p ws d hp]

/-- A line that begins with a marker and a cut packet: the cut packet's effect, and what is left of the line. -/
theorem exec_blankingPacket_cut (n : Feed) (ws rest header : List Word) (d : Straps) (s : State) (hs : s.resetHeld = false)
    (h : frameAfterMarker ws = (.cut header, rest)) :
    exec (.blankingPacket n (markerHigh :: markerLow :: markerHigh :: ws) d) s =
      exec (.blankingPacket n rest d) (s.routeCut n header) := by
  have hcut : (s.routeCut n header).resetHeld = false := (Undisturbed.routeCut s n header).held.trans hs
  rw [exec_blankingPacket n _ d s hs, exec_blankingPacket n rest d _ hcut, blankingLine_marker s n ws rest d _ h]
  rfl

theorem exec_blankingPacket_nil (n : Feed) (d : Straps) (s : State) : exec (.blankingPacket n [] d) s = .next s :=
  exec_blankingPacket_unchanged n [] d s rfl

/-- Settles O23: the search of R18 from the front of the line, each packet by the routing of R19. -/
theorem packetsRouted : Obligations.PacketsRouted := by
  refine ⟨fun n ws d s h => exec_blankingPacket_unchanged n ws d s (blankingLine_none s n ws d (framed_none ws h)),
    fun n p d s hs hp hc hm => ?_, fun n c code d s hs hp => ?_, fun n c code d s hs => exec_cueCommand n code c d s hs,
    isAddressed_iff, fun n w p ws d s t => ⟨exec_blankingPacket_nil n d s, fun h => ?_, fun hp ht =>
      exec_blankingPacket_append n p ws d s t hp ht⟩, fun n ws d s hs => ⟨fun k dev sc c tg len => ?_, fun hlen => ?_⟩⟩
  · rw [exec_blankingPacket n _ d s hs, blankingLine_one s n p d hp, routePacket_carried s n d p hc hm]
    exact ⟨fun h => congrArg Host.Outcome.next (appendCarry_room s n p h),
      fun h => congrArg Host.Outcome.next (appendCarry_full s n p h)⟩
  · rw [exec_blankingPacket n _ d s hs, blankingLine_one s n _ d hp]
    exact ⟨fun ha => congrArg Host.Outcome.next (routePacket_foreign s n d c code ha),
      fun ha h => congrArg Host.Outcome.next (routePacket_own s n d c code h ha),
      fun h => congrArg Host.Outcome.next (routePacket_all s n d c code h)⟩
  · show unlessHeld s _ = unlessHeld s _
    rw [blankingLine_skip s n w ws d h]
  · refine ⟨fun hlen => ?_, fun hlen hw => ?_⟩
    · rw [exec_blankingPacket_cut n _ _ _ d s hs (frameAfterMarker_long k dev sc c tg len ws hlen)]
      rfl
    · rw [exec_blankingPacket_cut n _ _ _ d s hs (frameAfterMarker_ends k dev sc c tg len ws hlen hw),
        exec_blankingPacket_nil]
      rfl
  · rw [exec_blankingPacket_cut n _ _ _ d s hs (frameAfterMarker_header ws hlen), exec_blankingPacket_nil]
    refine ⟨fun dev hk hd ha => ?_, fun h => congrArg Host.Outcome.next (routeCut_other s n ws h)⟩
    rw [routeCut_own s n ws dev hk hd ha]
    exact ⟨fun tg ht => by rw [cutDetail_tag ws tg ht]; rfl, fun ht => by rw [cutDetail_absent ws ht]; rfl⟩

end Sys2Proof.Machine
end

section
namespace Sys2Proof.Machine

/-! ## Retention leaves the newest records (R32) -/

theorem two_le_keepNewest (tight : Bool) (cls : Fin 4) : 2 ≤ keepNewest tight cls := by
  unfold keepNewest
  split <;> omega

/-- The walk over all but the newest records leaves the newest one. -/
theorem retentionWalk_getLast (refd : Seq → Bool) (keep : Nat) (b : Bool) (h : List FieldRecord) (hk : 1 ≤ keep) :
    (retentionWalk refd (h.length - keep) b h).1.getLast? = h.getLast? := by
  rw [retentionWalk_eq]
  cases hh : h with
  | nil => cases b <;> simp
  | cons r t =>
    have hlt : (r :: t).length - keep < (r :: t).length := by simp; omega
    rw [List.getLast?_append_of_ne_nil _ (by simpa using hlt), List.getLast?_drop, if_neg (Nat.not_le.2 hlt)]

theorem retainTight_history (s : State) (m n : Feed) :
    (s.retainTight m).history n =
      if n = m then (s.retained m (keepNewest true (s.settings m).cls)).1 else s.history n := by
  unfold State.retainTight
  rw [freeSlots_keeps]
  exact Quad_get_set _ m n _

theorem retainTight_newest (s : State) (m n : Feed) :
    ((s.retainTight m).history n).getLast? = (s.history n).getLast? := by
  rw [retainTight_history]
  split
  · next h =>
    subst h
    exact retentionWalk_getLast _ _ _ _ (le_trans (by decide) (two_le_keepNewest _ _))
  · rfl

theorem retainTight_short (s : State) (m n : Feed) (h : (s.history n).length ≤ 2) :
    (s.retainTight m).history n = s.history n := by
  rw [retainTight_history]
  split
  · next e =>
    subst e
    have h0 : (s.history n).length - keepNewest true (s.settings n).cls = 0 := by
      have := two_le_keepNewest true (s.settings n).cls
      omega
    rw [State.retained, h0]
    rfl
  · rfl

theorem checkLeaving_history (s : State) (n : Feed) : s.checkLeaving.history n = s.history n := by
  unfold State.checkLeaving
  split <;> rfl

/-- What each tight retention keeps of a feed's history, the entry to the tight condition keeps (R34). -/
theorem enterTight_history (P : List FieldRecord → Prop) (n : Feed)
    (hstep : ∀ (u : State) (m : Feed), P (u.history n) → P ((u.retainTight m).history n)) (s : State) (free : Nat)
    (hs : P (s.history n)) : P ((s.enterTight free).history n) := by
  have hall : ∀ (l : List Feed) (u : State), P (u.history n) → P ((l.foldl State.retainTight u).history n) := by
    intro l
    induction l with
    | nil => exact fun u hu => hu
    | cons m l ih => exact fun u hu => ih _ (hstep u m hu)
  unfold State.enterTight
  rw [checkLeaving_history]
  exact hall feeds _ hs

theorem enterTight_newest (s : State) (n : Feed) (free : Nat) :
    ((s.enterTight free).history n).getLast? = (s.history n).getLast? :=
  enterTight_history (fun h => h.getLast? = (s.history n).getLast?) n
    (fun u m hu => (retainTight_newest u m n).trans hu) s free rfl

theorem enterTight_short (s : State) (n : Feed) (free : Nat) (h : (s.history n).length ≤ 2) :
    (s.enterTight free).history n = s.history n :=
  enterTight_history (fun g => g = s.history n) n
    (fun u m hu => (retainTight_short u m n (by rw [hu]; exact h)).trans hu) s free rfl

/-! ## The store's answer to a slot request (R28 to R30) -/

/-- The record of the field that opens: with its content and the trim used, where it is stored. -/
abbrev openedRecord (q : Seq) (p : Parity) (c : Content) (rep dropped : Bool) : FieldRecord :=
  newRecord q p .opened c rep (if dropped then none else some p)

/-- After the history cap: a FREE slot, with entry to the tight condition or not; a reclaimed slot; or a dropped field. -/
theorem allocate_cases (s : State) (n : Feed) (q : Seq) (p : Parity) (rep : Bool) :
    (∃ k, s.allocate n q p rep =
        (true, ((s.capped n).setSlot k (.filling n)).append n (openedRecord q p (.slot k) rep false))) ∨
      (∃ k free, s.allocate n q p rep =
        (true, (((s.capped n).setSlot k (.filling n)).append n (openedRecord q p (.slot k) rep false)).enterTight free)) ∨
      (∃ v w k, s.allocate n q p rep =
        (true, (((s.capped n).reclaim v w).setSlot k (.filling n)).append n (openedRecord q p (.slot k) rep false))) ∨
      s.allocate n q p rep =
        (false, (((s.capped n).append n (openedRecord q p (.gap .dropped) rep true)).raise .fieldDropped (.feed n)
          (.sequence q)).count n .fieldsDropped 1) := by
  unfold State.allocate
  rw [show (if 8 ≤ (s.history n).length then s.historyCap n else s) = s.capped n from rfl]
  generalize s.capped n = s0
  dsimp only
  split
  · next k _ =>
    split
    · exact Or.inr (Or.inl ⟨k, (s0.setSlot k (.filling n)).freeCount, rfl⟩)
    · exact Or.inl ⟨k, rfl⟩
  · split
    · next v w k _ => exact Or.inr (Or.inr (Or.inl ⟨v, w, k, rfl⟩))
    · exact Or.inr (Or.inr (Or.inr rfl))

theorem append_newest (s : State) (n : Feed) (r : FieldRecord) : ((s.append n r).history n).getLast? = some r := by
  rw [history_append, if_pos rfl]
  simp

theorem append_first (s : State) (n : Feed) (r : FieldRecord) (h : s.history n = []) : (s.append n r).history n = [r] := by
  rw [history_append, if_pos rfl, h]
  rfl

theorem capped_of_short (s : State) (n : Feed) (h : (s.history n).length < 8) : s.capped n = s := if_neg (Nat.not_le.2 h)

theorem reclaim_history_nil (s : State) (v n : Feed) (w : Seq) (h : s.history n = []) : (s.reclaim v w).history n = [] := by
  refine (history_modifyRecord s v n w _).trans ?_
  split
  · next e =>
    rw [← e, h]
    rfl
  · exact h

/-- The newest record after the store's answer: OPEN, in a slot, or a DROPPED gap; the one record of a history that was empty. -/
theorem allocate_record (s : State) (n : Feed) (q : Seq) (p : Parity) (rep : Bool) :
    ∃ (dropped : Bool) (c : Content), (s.allocate n q p rep).1 = !dropped ∧ (dropped = false → ∃ k, c = .slot k) ∧
      (dropped = true → c = .gap .dropped) ∧
      ((s.allocate n q p rep).2.history n).getLast? = some (openedRecord q p c rep dropped) ∧
      (s.history n = [] → (s.allocate n q p rep).2.history n = [openedRecord q p c rep dropped]) := by
  have hcap : s.history n = [] → (s.capped n).history n = [] := by
    intro h
    rw [capped_of_short s n (by rw [h]; decide), h]
  rcases allocate_cases s n q p rep with ⟨k, h⟩ | ⟨k, free, h⟩ | ⟨v, w, k, h⟩ | h <;> rw [h]
  · exact ⟨false, .slot k, rfl, fun _ => ⟨k, rfl⟩, nofun, append_newest _ n _, fun he => append_first _ n _ (hcap he)⟩
  · refine ⟨false, .slot k, rfl, fun _ => ⟨k, rfl⟩, nofun, ?_, fun he => ?_⟩
    · rw [enterTight_newest, append_newest]
    · have hone := append_first ((s.capped n).setSlot k (.filling n)) n (openedRecord q p (.slot k) rep false) (hcap he)
      rw [enterTight_short _ n free (by rw [hone]; exact Nat.le_succ 1), hone]
  · exact ⟨false, .slot k, rfl, fun _ => ⟨k, rfl⟩, nofun, append_newest _ n _,
      fun he => append_first _ n _ (reclaim_history_nil _ v n w (hcap he))⟩
  · exact ⟨true, .gap .dropped, rfl, nofun, fun _ => rfl, append_newest (s.capped n) n _,
      fun he => append_first (s.capped n) n _ (hcap he)⟩

/-- The store's answer leaves the trackers, the settings and the receivers. -/
theorem allocate_keeps (s : State) (n : Feed) (q : Seq) (p : Parity) (rep : Bool) :
    (s.allocate n q p rep).2.cad = s.cad ∧ (s.allocate n q p rep).2.cue = s.cue ∧ (s.allocate n q p rep).2.lrx = s.lrx := by
  obtain ⟨hcad, hcue, hlrx, -⟩ := (Moves.allocate (a := .still) s n q p rep).still_keeps rfl
  exact ⟨hcad, hcue, hlrx⟩

/-! ## A field that opens (R3 steps 4 to 7, R45) -/

/-- The receiver of a field that has just opened. -/
abbrev State.openedReceiver (s : State) (n : Feed) (p : Parity) (dropped : Bool) : Receiver :=
  ⟨.running, (s.lrx.get n).counter + 1, p.opposite, .running (s.settings n).struct.periodAndHalf, 0,
    some ⟨(s.lrx.get n).counter, p, 0, dropped, false, ⟨[], []⟩⟩⟩

theorem admitField_lrx (s : State) (n : Feed) (p : Parity) : (s.admitField n p).lrx.get n = s.openedReceiver n p false :=
  Quad_get_set_same _ n _

theorem openField_stored (s : State) (n : Feed) (p : Parity) (rep : Bool)
    (h : ((s.admitField n p).allocate n (s.lrx.get n).counter p rep).1 = true) :
    s.openField n p rep =
      ((s.admitField n p).allocate n (s.lrx.get n).counter p rep).2.setIng n ⟨some ((s.settings n).trimOf p), 0⟩ := by
  have hcue := (allocate_keeps (s.admitField n p) n (s.lrx.get n).counter p rep).2.1
  unfold State.openField
  refine (if_pos h).trans ?_
  unfold State.settings
  rw [hcue]
  rfl

theorem openField_dropped (s : State) (n : Feed) (p : Parity) (rep : Bool)
    (h : ((s.admitField n p).allocate n (s.lrx.get n).counter p rep).1 = false) :
    s.openField n p rep =
      ((s.admitField n p).allocate n (s.lrx.get n).counter p rep).2.setRx n (s.openedReceiver n p true) := by
  have hlrx := (allocate_keeps (s.admitField n p) n (s.lrx.get n).counter p rep).2.2
  unfold State.openField
  refine (if_neg (by simp [h])).trans ?_
  rw [hlrx, admitField_lrx]
  rfl

/-- The field that opens, stored or dropped: its receiver, its record, its working trim. -/
theorem openField_spec (s : State) (n : Feed) (p : Parity) (rep : Bool) :
    ∃ (dropped : Bool) (c : Content),
      ((s.admitField n p).allocate n (s.lrx.get n).counter p rep).1 = !dropped ∧
      (dropped = false → ∃ k, c = .slot k) ∧ (dropped = true → c = .gap .dropped) ∧
      (s.openField n p rep).lrx.get n = s.openedReceiver n p dropped ∧
      ((s.openField n p rep).history n).getLast? = some (openedRecord (s.lrx.get n).counter p c rep dropped) ∧
      (s.history n = [] → (s.openField n p rep).history n = [openedRecord (s.lrx.get n).counter p c rep dropped]) ∧
      (s.openField n p rep).ing.get n = if dropped then ⟨none, 0⟩ else ⟨some ((s.settings n).trimOf p), 0⟩ := by
  obtain ⟨dropped, c, hstored, hslot, hgap, hnewest, hone⟩ :=
    allocate_record (s.admitField n p) n (s.lrx.get n).counter p rep
  have hlrx := (allocate_keeps (s.admitField n p) n (s.lrx.get n).counter p rep).2.2
  refine ⟨dropped, c, hstored, hslot, hgap, ?_⟩
  cases dropped with
  | false =>
    rw [openField_stored s n p rep hstored]
    exact ⟨(congrArg (fun l => Quad.get l n) hlrx).trans (admitField_lrx s n p), hnewest, hone, Quad_get_set_same _ n _⟩
  | true =>
    have hing := (Moves.allocate (a := .still) (s.admitField n p) n (s.lrx.get n).counter p rep).keeps_ing n rfl
    rw [openField_dropped s n p rep hstored]
    exact ⟨Quad_get_set_same _ n _, hnewest, hone, hing.trans (Quad_get_set_same _ n _)⟩

/-! ## A field start, by the feed's state (R3, R4, R5) -/

/-- What the transmitter and then the loader make of a field start, after the receiver's own work (R20, log entry 14). -/
abbrev State.startHandedOn (u : State) (n : Feed) : State := (u.outputFieldStart n).handToLoader n

theorem exec_fieldStart_handedOn (n : Feed) (p : Parity) (us : List Upset) (s : State) (h : s.resetHeld = false) :
    exec (.fieldStart n p us) s = .next (((s.upset us).receiverFieldStart n p).startHandedOn n) := exec_fieldStart n p us s h

/-- The transmitter and the loader touch their own blocks and the notice unit. -/
theorem startHandedOn_keeps (u : State) (n : Feed) :
    u.startHandedOn n =
      { u with otx := (u.startHandedOn n).otx, tld := (u.startHandedOn n).tld, ntu := (u.startHandedOn n).ntu } := by
  have hout := outputFieldStart_keeps u n
  have hload := handToLoader_keeps (u.outputFieldStart n) n
  unfold State.startHandedOn
  generalize (u.outputFieldStart n).handToLoader n = t at hload ⊢
  generalize u.outputFieldStart n = v at hout hload
  rw [hload, hout]

theorem receiverFieldStart_off (s : State) (n : Feed) (p : Parity) (h : (s.lrx.get n).state = .off) :
    s.receiverFieldStart n p = s.setRx n { s.lrx.get n with expected := p.opposite } := by
  unfold State.receiverFieldStart
  rw [h]

theorem receiverFieldStart_waiting (s : State) (n : Feed) (p : Parity) (h : (s.lrx.get n).state = .waiting) :
    s.receiverFieldStart n p = s.openField n p false := by
  unfold State.receiverFieldStart
  rw [h]

theorem receiverFieldStart_down (s : State) (n : Feed) (p : Parity) (h : (s.lrx.get n).state = .down) :
    s.receiverFieldStart n p =
      (s.raise .feedUp (.feed n) (.sequence (s.lrx.get n).counter)).openField n p false := by
  unfold State.receiverFieldStart
  rw [h]

theorem receiverFieldStart_running (s : State) (n : Feed) (p : Parity) (h : (s.lrx.get n).state = .running) :
    s.receiverFieldStart n p = s.startRunning n p := by
  unfold State.receiverFieldStart
  rw [h]

/-! ## What the end of the arriving field leaves of its feed -/

theorem closeArriving_chain (s : State) (n : Feed) : Moves .quiet s (s.closeArriving n) := Moves.closeArriving s n

theorem closeArriving_lrx (s : State) (n : Feed) : (s.closeArriving n).lrx.get n = s.lrx.get n :=
  (closeArriving_chain s n).keeps_lrx n rfl

theorem closeArriving_staged (s : State) (n : Feed) : (s.closeArriving n).cue.staged.get n = s.cue.staged.get n :=
  (closeArriving_chain s n).keeps_staged n rfl

theorem closeArriving_struct (s : State) (n : Feed) : ((s.closeArriving n).settings n).struct = (s.settings n).struct := by
  obtain ⟨f, -, hf⟩ := (closeArriving_chain s n).keeps_settings n rfl
  rw [hf]

/-! ## A field start in RUNNING (R3, R6) -/

theorem holdsItem_iff (p : Pending) : p.holdsItem = true ↔ p ≠ emptyPending := by
  simp [Pending.holdsItem]

/-- Without pending items: the parity check, and the field opens (R3, R6). -/
theorem startRunning_plain (s : State) (n : Feed) (p : Parity) (h : s.cue.staged.get n = emptyPending) :
    let u := s.closeArriving n
    s.startRunning n p =
      if p = (s.lrx.get n).expected then u.openField n p false
      else ((u.raise .parityRepeat (.feed n) (.sequence (s.lrx.get n).counter)).count n .parityRepeats 1).openField n p
        true := by
  have hno : ¬ (Pending.holdsItem ((s.closeArriving n).cue.staged.get n) = true) := by
    rw [holdsItem_iff, closeArriving_staged, h]
    simp
  unfold State.startRunning State.checkParity
  refine (if_neg hno).trans ?_
  rw [closeArriving_lrx]
  by_cases e : p = (s.lrx.get n).expected
  · have hsame : (p != (s.lrx.get n).expected) = false := by simp [e]
    rw [if_pos e, if_pos e, hsame]
  · have hother : (p != (s.lrx.get n).expected) = true := by simp [e]
    rw [if_neg e, if_neg e, hother]

/-- With pending items: they are applied first. -/
theorem startRunning_items (s : State) (n : Feed) (p : Parity) (h : s.cue.staged.get n ≠ emptyPending) :
    s.startRunning n p = (s.closeArriving n).startWithItems n p (s.cue.staged.get n) := by
  have hitems : Pending.holdsItem ((s.closeArriving n).cue.staged.get n) = true := by
    rw [closeArriving_staged]
    exact (holdsItem_iff _).2 h
  unfold State.startRunning
  refine (if_pos hitems).trans ?_
  rw [closeArriving_staged]

/-- The receiver's own work opens a field, for a feed in WAITING or DOWN and for one in RUNNING without pending items. -/
theorem receiverFieldStart_opens (s : State) (n : Feed) (p : Parity)
    (h : (s.lrx.get n).state = .waiting ∨ (s.lrx.get n).state = .down ∨
      ((s.lrx.get n).state = .running ∧ s.cue.staged.get n = emptyPending)) :
    ∃ (u : State) (rep : Bool), s.receiverFieldStart n p = u.openField n p rep ∧ u.lrx.get n = s.lrx.get n ∧
      (u.settings n).struct = (s.settings n).struct := by
  rcases h with h | h | ⟨h, he⟩
  · exact ⟨s, false, receiverFieldStart_waiting s n p h, rfl, rfl⟩
  · exact ⟨_, false, receiverFieldStart_down s n p h, rfl, rfl⟩
  · rw [receiverFieldStart_running s n p h, startRunning_plain s n p he]
    split
    · exact ⟨_, false, rfl, closeArriving_lrx s n, closeArriving_struct s n⟩
    · exact ⟨_, true, rfl, closeArriving_lrx s n, closeArriving_struct s n⟩

/-- Settles O11: the receiver's work by the feed's state, and the field that the store takes or drops. -/
theorem fieldStartOpens : Obligations.FieldStartOpens := by
  refine ⟨fun n p us s hs => ?_, fun s n p rep => ?_⟩
  · have hexec := exec_fieldStart_handedOn n p us s hs
    dsimp only
    refine ⟨fun h => ?_, fun h => ?_, fun h => ?_, fun h he => ?_, fun h => ?_⟩
    · rw [hexec, receiverFieldStart_off (s.upset us) n p h]
      rfl
    · rw [hexec, receiverFieldStart_waiting (s.upset us) n p h]
    · rw [hexec, receiverFieldStart_down (s.upset us) n p h]
      rfl
    · rw [hexec, receiverFieldStart_running (s.upset us) n p h, startRunning_plain (s.upset us) n p he]
      rfl
    · obtain ⟨u, rep, hopen, hlrx, hstruct⟩ := receiverFieldStart_opens (s.upset us) n p h
      obtain ⟨dropped, c, -, -, -, hrx, -⟩ := openField_spec u n p rep
      refine ⟨_, dropped, hexec, ?_⟩
      rw [startHandedOn_keeps, hopen]
      refine hrx.trans ?_
      rw [State.openedReceiver, hlrx, hstruct]
      rfl
  · obtain ⟨dropped, c, hstored, hslot, hgap, hrx, hnewest, -, hing⟩ := openField_spec s n p rep
    refine ⟨dropped, hstored, hrx, fun hd => ?_, fun hd => ?_⟩
    · subst hd
      obtain ⟨k, rfl⟩ := hslot rfl
      refine ⟨⟨k, hnewest⟩, hing.trans ?_⟩
      cases p <;> rfl
    · subst hd
      obtain rfl := hgap rfl
      exact ⟨hnewest, hing⟩

end Sys2Proof.Machine
end

section
namespace Sys2Proof.Machine

/-! ## Pending items that a field start applies (R14, R15, R171) -/

/-- The feed after its pending record is emptied and every item of it is active (R171); q is the number of the field start. -/
abbrev State.applied (s : State) (n : Feed) (items : Pending) (q : Option Seq) : State :=
  (s.setStaged n emptyPending).activate n items q

/-- The items take effect on the settings, the tracker and the notice unit alone, and the record is empty (R63, R77, R171). -/
theorem applied_spec (s : State) (n : Feed) (items : Pending) (q : Option Seq) :
    let a := s.settings n
    (s.applied n items q).settings n =
        { a.over items with
          mask := items.mask.getD a.mask
          force := match items.force with
            | some f => s.cad.table.effectiveForce f
            | none => a.force } ∧
      (s.applied n items q).cue.staged.get n = emptyPending ∧ (s.applied n items q).lrx = s.lrx ∧
      (s.applied n items q).fst = s.fst ∧ (s.applied n items q).fen = s.fen ∧ (s.applied n items q).otx = s.otx ∧
      (s.applied n items q).tld = s.tld ∧ (s.applied n items q).cad.table = s.cad.table := by
  obtain ⟨hsettings, htable⟩ := activate_settings (s.setStaged n emptyPending) n items q
  have hstaged := activate_staged (s.setStaged n emptyPending) n items q
  have hkeep := (activate_spec (s.setStaged n emptyPending) n items q).2
  have hlrx := congrArg State.lrx hkeep
  have hfst := congrArg State.fst hkeep
  have hfen := congrArg State.fen hkeep
  have hotx := congrArg State.otx hkeep
  have htld := congrArg State.tld hkeep
  refine ⟨hsettings, ?_, hlrx, hfst, hfen, hotx, htld, htable⟩
  rw [hstaged]
  exact Quad_get_set_same _ n _

theorem startWithItems_disable (s : State) (n : Feed) (p : Parity) (items : Pending) (h : items.enable = some false) :
    s.startWithItems n p items = (s.applied n items none).enterOff n := by
  unfold State.startWithItems
  simp only [h, if_true]

theorem startWithItems_structure (s : State) (n : Feed) (p : Parity) (items : Pending) (h : items.enable ≠ some false)
    (hc : items.changesStructure (s.settings n) = true) :
    s.startWithItems n p items =
      ((s.applied n items (some (s.lrx.get n).counter)).clearFeed n).openField n p false := by
  unfold State.startWithItems
  simp only [h, if_false, hc, if_true]

/-- The receiver of a feed that enters OFF (R14). -/
abbrev Receiver.stopped (r : Receiver) : Receiver :=
  { r with state := .off, timer := .stopped, misses := 0, arriving := none }

/-- Entry to OFF: the receiver stops, the working items go, the feed is cleared (R14, R83, R98, R99). -/
theorem enterOff_spec (s : State) (n : Feed) :
    (s.enterOff n).lrx.get n = (s.lrx.get n).stopped ∧ (s.enterOff n).ing.get n = ⟨none, 0⟩ ∧
      (s.enterOff n).history n = [] ∧ (s.enterOff n).cue = s.cue ∧ (s.enterOff n).cad = (s.resetTracker n).cad ∧
      (s.enterOff n).fen =
        { s.fen with
          service := s.fen.service.map (fun v => { v with withdrawn := v.withdrawn || v.job.feed == n })
          waiting := s.fen.waiting.filter (fun j => j.feed != n) } := by
  unfold State.enterOff
  rw [clearFeed_lrx, clearFeed_ing, clearFeed_history, clearFeed_cue, clearFeed_cad, clearFeed_fen]
  exact ⟨Quad_get_set_same _ n _, Quad_get_set_same _ n _, rfl, rfl, rfl, rfl⟩

theorem staged_ne_empty {p : Pending} (h : p.enable ≠ none ∨ p.struct ≠ none) : p ≠ emptyPending := by
  rintro rfl
  exact h.elim (fun h => h rfl) (fun h => h rfl)

/-- Settles O12: the arriving field ends, the items become active, and the feed enters OFF. -/
theorem fieldStartAppliesDisable : Obligations.FieldStartAppliesDisable := by
  intro n p us s items hs hrun hitems hoff ended a
  obtain ⟨hsettings, hstaged, hlrx, hfst, hfen, hotx, htld, htable⟩ := applied_spec ended n items none
  refine ⟨ended.applied n items none, rfl, hsettings, hstaged, hlrx, hfst, hfen, hotx, htld, htable, ?_⟩
  have hrx : (ended.applied n items none).lrx.get n = s.lrx.get n := by
    rw [hlrx]
    exact closeArriving_lrx (s.upset us) n
  have hexec : exec (.fieldStart n p us) s = .next (((ended.applied n items none).enterOff n).startHandedOn n) := by
    rw [exec_fieldStart_handedOn n p us s hs, receiverFieldStart_running (s.upset us) n p hrun,
      startRunning_items (s.upset us) n p, upset_cue, hitems, startWithItems_disable _ n p items hoff]
    rw [upset_cue, hitems]
    exact staged_ne_empty (Or.inl (by rw [hoff]; nofun))
  generalize ended.applied n items none = u at *
  obtain ⟨hlrxOff, hingOff, hhistOff, hcueOff, hcadOff, hfenOff⟩ := enterOff_spec u n
  rw [hrx] at hlrxOff
  rw [hfen] at hfenOff
  have hkeep := startHandedOn_keeps (u.enterOff n) n
  refine ⟨?_, _, hexec, ?_⟩
  · rw [hexec, State.enterOff, hrx]
    rfl
  · generalize (u.enterOff n).startHandedOn n = t at hkeep
    have hset : t.settings n = u.settings n := by
      rw [hkeep]
      exact congrArg (fun c : CueDecoder => c.active.get n) hcueOff
    rw [hset, hsettings]
    rw [hkeep]
    refine ⟨hlrxOff, hingOff, hhistOff, ?_, rfl, ?_, hcadOff, hfenOff⟩
    · show (u.enterOff n).cue.staged.get n = _
      rw [hcueOff, hstaged]
    · show items.enable.getD a.enable = false
      rw [hoff]
      rfl

end Sys2Proof.Machine
end

section
namespace Sys2Proof.Machine

/-! ## Steps that neither raise PARITY_REPEAT nor count one (R6, R15) -/

/-- From s to t no PARITY_REPEAT is raised, again or for the first time, and PARITY_REPEATS is not counted. -/
def NoParityRepeat (s t : State) : Prop :=
  (∀ m : Feed, (t.ntu.feedCounters.get m).parityRepeats = (s.ntu.feedCounters.get m).parityRepeats) ∧
    ∀ e ∈ t.ntu.table, e.kind = .parityRepeat → e ∈ s.ntu.table

theorem add_parityRepeats (f : FeedCounters) (c : FeedCounter) (k : Nat) (h : c ≠ .parityRepeats) :
    (f.add c k).parityRepeats = f.parityRepeats := by
  cases c
  case parityRepeats => exact absurd rfl h
  all_goals rfl

/-- A notice of another kind leaves the entries of kind j as they are. -/
theorem mem_addNotice_other {k j : NoticeKind} {sc : Scope} {d : Detail} {l : List NoticeEntry} {e : NoticeEntry}
    (hk : k ≠ j) (he : e ∈ addNotice k sc d l) (hj : e.kind = j) : e ∈ l := by
  unfold addNotice at he
  split at he
  · obtain ⟨x, hx, rfl⟩ := List.mem_map.1 he
    split at hj
    · next hfor =>
      simp only [NoticeEntry.isFor, Bool.and_eq_true, beq_iff_eq] at hfor
      exact absurd (hfor.1.symm.trans hj) hk
    · next hfor => rwa [if_neg hfor]
  · rcases List.mem_append.1 he with he | he
    · exact he
    · obtain rfl := List.mem_singleton.1 he
      exact absurd hj hk

namespace NoParityRepeat

theorem of_ntu {s t : State} (h : t.ntu = s.ntu) : NoParityRepeat s t := by
  unfold NoParityRepeat
  rw [h]
  exact ⟨fun _ => rfl, fun _ he _ => he⟩

theorem refl (s : State) : NoParityRepeat s s := of_ntu rfl

theorem trans {s t u : State} (h : NoParityRepeat s t) (k : NoParityRepeat t u) : NoParityRepeat s u :=
  ⟨fun m => (k.1 m).trans (h.1 m), fun e he hk => h.2 e (k.2 e he hk) hk⟩

theorem raise (s : State) (k : NoticeKind) (sc : Scope) (d : Detail) (h : k ≠ .parityRepeat) :
    NoParityRepeat s (s.raise k sc d) :=
  ⟨fun _ => rfl, fun _ he hj => mem_addNotice_other h he hj⟩

theorem count (s : State) (n : Feed) (c : FeedCounter) (k : Nat) (h : c ≠ .parityRepeats) :
    NoParityRepeat s (s.count n c k) := by
  refine ⟨fun m => ?_, fun _ he _ => he⟩
  show ((s.ntu.feedCounters.set n _).get m).parityRepeats = _
  rw [Quad_get_set]
  split
  · next e =>
    subst e
    exact add_parityRepeats _ _ _ h
  · rfl

theorem countDev (s : State) (c : DeviceCounter) : NoParityRepeat s (s.countDev c) :=
  ⟨fun _ => rfl, fun _ he _ => he⟩

theorem breakLock (s : State) (n : Feed) (d : Detail) : NoParityRepeat s (s.breakLock n d) :=
  ((of_ntu rfl).trans (raise _ _ _ _ (by decide))).trans (count _ _ _ _ (by decide))

theorem applyMask (s : State) (n : Feed) (m : Quad Bool) (d : Detail) : NoParityRepeat s (s.applyMask n m d) := by
  unfold State.applyMask
  dsimp only
  split
  · exact (of_ntu rfl).trans (breakLock _ n d)
  · exact of_ntu rfl

theorem applyForce (s : State) (n : Feed) (f : Force) : NoParityRepeat s (s.applyForce n f) := by
  unfold State.applyForce
  dsimp only
  split
  · exact refl s
  · exact of_ntu rfl

theorem nextChoice (s : State) : NoParityRepeat s s.nextChoice.2 := of_ntu rfl

theorem takeMask (s : State) (n : Feed) (m : Quad Bool) (q : Option Seq) : NoParityRepeat s (s.takeMask n m q) := by
  unfold State.takeMask
  split
  · exact refl s
  · cases q with
    | some v => exact applyMask s n m _
    | none =>
      dsimp only
      split
      · exact (nextChoice s).trans (applyMask _ n m _)
      · exact applyMask s n m _

theorem takeMaskAndForce (s : State) (n : Feed) (m : Quad Bool) (f : Force) (q : Option Seq) :
    NoParityRepeat s (s.takeMaskAndForce n m f q) := by
  unfold State.takeMaskAndForce
  split
  · split
    · exact ((nextChoice s).trans (takeMask _ n m q)).trans (applyForce _ n f)
    · exact ((nextChoice s).trans (applyForce _ n f)).trans (takeMask _ n m q)
  · exact (takeMask s n m q).trans (applyForce _ n f)

theorem takeTrackerItems (s : State) (n : Feed) (p : Pending) (q : Option Seq) :
    NoParityRepeat s (s.takeTrackerItems n p q) := by
  unfold State.takeTrackerItems
  split
  · exact takeMaskAndForce s n _ _ q
  · exact takeMask s n _ q
  · exact applyForce s n _
  · exact refl s

theorem applied (s : State) (n : Feed) (p : Pending) (q : Option Seq) : NoParityRepeat s (s.applied n p q) :=
  (of_ntu rfl).trans (takeTrackerItems _ n p q)

end NoParityRepeat

/-! ## The store's answer to a feed with a short history -/

theorem retainTight_others (s : State) (m : Feed) : (s.retainTight m).ntu = s.ntu ∧ (s.retainTight m).fen = s.fen := by
  unfold State.retainTight
  rw [freeSlots_keeps]
  exact ⟨rfl, rfl⟩

theorem checkLeaving_others (s : State) : s.checkLeaving.ntu = s.ntu ∧ s.checkLeaving.fen = s.fen := by
  unfold State.checkLeaving
  split <;> exact ⟨rfl, rfl⟩

/-- Entry to the tight condition raises POOL_TIGHT in the notice unit, and leaves the engine (R34). -/
theorem enterTight_others (s : State) (free : Nat) :
    (s.enterTight free).ntu = (s.raise .poolTight .device (.freeCount free)).ntu ∧ (s.enterTight free).fen = s.fen := by
  have hall : ∀ (l : List Feed) (u : State),
      (l.foldl State.retainTight u).ntu = u.ntu ∧ (l.foldl State.retainTight u).fen = u.fen := by
    intro l
    induction l with
    | nil => exact fun u => ⟨rfl, rfl⟩
    | cons m l ih =>
      intro u
      obtain ⟨hntu, hfen⟩ := retainTight_others u m
      exact ⟨(ih _).1.trans hntu, (ih _).2.trans hfen⟩
  obtain ⟨hntu, hfen⟩ := hall feeds
    (({ s with fst := { s.fst with tight := true } } : State).raise .poolTight .device (.freeCount free))
  unfold State.enterTight
  rw [(checkLeaving_others _).1, (checkLeaving_others _).2]
  exact ⟨hntu, hfen⟩

/-- Before the history cap: the answer leaves the engine as it is and repeats no parity. -/
theorem allocate_short (s : State) (n : Feed) (q : Seq) (p : Parity) (rep : Bool) (h : (s.history n).length < 8) :
    (s.allocate n q p rep).2.fen = s.fen ∧ NoParityRepeat s (s.allocate n q p rep).2 := by
  have hc := allocate_cases s n q p rep
  rw [capped_of_short s n h] at hc
  rcases hc with ⟨k, hk⟩ | ⟨k, free, hk⟩ | ⟨v, w, k, hk⟩ | hk <;> rw [hk]
  · exact ⟨rfl, .of_ntu rfl⟩
  · obtain ⟨hntu, hfen⟩ :=
      enterTight_others ((s.setSlot k (.filling n)).append n (openedRecord q p (.slot k) rep false)) free
    exact ⟨hfen, (NoParityRepeat.raise s .poolTight .device (.freeCount free) (by decide)).trans (.of_ntu hntu)⟩
  · have hreclaim := (NoParityRepeat.raise s .poolReclaim (.feed v) (.sequence w) (by decide)).trans
      (.countDev _ .reclaims)
    exact ⟨rfl, hreclaim.trans (.of_ntu rfl)⟩
  · exact ⟨rfl, (NoParityRepeat.raise s .fieldDropped (.feed n) (.sequence q) (by decide)).trans
      (.count _ n .fieldsDropped 1 (by decide))⟩

/-- A field that opens in a short history leaves the trackers, the settings and the engine, and repeats no parity. -/
theorem openField_short (s : State) (n : Feed) (p : Parity) (rep : Bool) (h : (s.history n).length < 8) :
    let t := s.openField n p rep
    t.cad = s.cad ∧ t.cue = s.cue ∧ t.fen = s.fen ∧ NoParityRepeat s t := by
  obtain ⟨hcad, hcue, -⟩ := allocate_keeps (s.admitField n p) n (s.lrx.get n).counter p rep
  obtain ⟨hfen, hpar⟩ := allocate_short (s.admitField n p) n (s.lrx.get n).counter p rep h
  have hadmit : NoParityRepeat s (s.admitField n p) := .of_ntu rfl
  cases hd : ((s.admitField n p).allocate n (s.lrx.get n).counter p rep).1 with
  | true =>
    rw [openField_stored s n p rep hd]
    exact ⟨hcad, hcue, hfen, (hadmit.trans hpar).trans (.of_ntu rfl)⟩
  | false =>
    rw [openField_dropped s n p rep hd]
    exact ⟨hcad, hcue, hfen, (hadmit.trans hpar).trans (.of_ntu rfl)⟩

/-! ## A field start that applies a structure change (R15) -/

/-- The height against the structure that the items bring (R125). -/
theorem over_height_changed (a : Settings) (p : Pending) (st : Structure) (hst : p.struct = some st) (hne : st ≠ a.struct) :
    (a.over p).height = max (2 * st.lines) (p.height.getD a.height) := by
  unfold Settings.over heightAfter
  rw [hst]
  exact if_neg hne

/-- Settles O13: the items become active, the feed is cleared, and a field opens without a parity check. -/
theorem fieldStartChangesStructure : Obligations.FieldStartChangesStructure := by
  intro n p us s items st hs hrun hitems hon hst hne q ended a
  have hq : ended.lrx.get n = s.lrx.get n := closeArriving_lrx (s.upset us) n
  have hold : a.struct = (s.settings n).struct := closeArriving_struct (s.upset us) n
  have hnew : st ≠ a.struct := by rw [hold]; exact hne
  obtain ⟨hsettings, hstaged, hlrx, hfst, hfen, hotx, htld, htable⟩ := applied_spec ended n items (some q)
  have hstruct : ((ended.applied n items (some q)).settings n).struct = st := by
    rw [hsettings]
    show items.struct.getD a.struct = st
    rw [hst]
    rfl
  have hheight : ((ended.applied n items (some q)).settings n).height = max (2 * st.lines) (items.height.getD a.height) := by
    rw [hsettings]
    exact over_height_changed a items st hst hnew
  refine ⟨ended.applied n items (some q), rfl, hsettings, hstruct, hheight, hstaged, hlrx, hfst, hfen, hotx, htld, htable, ?_⟩
  have hexec : exec (.fieldStart n p us) s =
      .next ((((ended.applied n items (some q)).clearFeed n).openField n p false).startHandedOn n) := by
    have hc : items.changesStructure (ended.settings n) = true := (changesStructure_iff _ _).2 ⟨st, hst, hnew⟩
    have hq' : (((s.upset us).closeArriving n).lrx.get n).counter = q := congrArg Receiver.counter hq
    rw [exec_fieldStart_handedOn n p us s hs, receiverFieldStart_running (s.upset us) n p hrun,
      startRunning_items (s.upset us) n p, upset_cue, hitems, startWithItems_structure _ n p items hon hc, hq']
    rw [upset_cue, hitems]
    exact staged_ne_empty (Or.inr (by rw [hst]; nofun))
  have hrepeat := NoParityRepeat.applied ended n items (some q)
  generalize ended.applied n items (some q) = u at *
  have hempty := clearFeed_history u n
  obtain ⟨hcadOpen, hcueOpen, hfenOpen, hrepeatOpen⟩ := openField_short (u.clearFeed n) n p false (by rw [hempty]; decide)
  obtain ⟨dropped, c, -, hslot, hgap, hrx, -, hone, -⟩ := openField_spec (u.clearFeed n) n p false
  obtain ⟨hcount, htab⟩ := (hrepeat.trans (.of_ntu (clearFeed_ntu u n))).trans hrepeatOpen
  have hrecord := hone hempty
  rw [State.openedReceiver, clearFeed_settings, hstruct, clearFeed_lrx, hlrx, hq] at hrx
  rw [clearFeed_lrx, hlrx, hq] at hrecord
  rw [clearFeed_fen, hfen] at hfenOpen
  have hset : ((u.clearFeed n).openField n p false).settings n = u.settings n := by
    rw [State.settings, hcueOpen]
    exact clearFeed_settings u n n
  refine ⟨hexec, hcount n, htab, _, dropped, c, hexec, ?_⟩
  rw [startHandedOn_keeps]
  exact ⟨hset, hrecord, hslot, hgap, hrx, hcadOpen.trans (clearFeed_cad u n), hfenOpen⟩

end Sys2Proof.Machine
end

section
namespace Sys2Proof.Machine

/-! ## A missed field (R12) -/

/-- The receiver after a miss: a number consumed, the expected parity turned over, the timer again but for the eighth. -/
abbrev State.missedReceiver (s : State) (n : Feed) : Receiver :=
  { s.lrx.get n with
    counter := (s.lrx.get n).counter + 1
    expected := (s.lrx.get n).expected.opposite
    misses := min 8 ((s.lrx.get n).misses + 1)
    timer := if 8 ≤ (s.lrx.get n).misses + 1 then .stopped else .running (s.period n) }

/-- The missed field's record is appended and the miss is counted and raised; the gap's closure work comes after it. -/
abbrev State.markedMissing (s : State) (n : Feed) : State :=
  (((s.appendMissing n (s.lrx.get n).counter (s.lrx.get n).expected).setRx n (s.missedReceiver n)).raise .fieldMissing
    (.feed n) (.sequence (s.lrx.get n).counter)).count n .fieldsMissing 1

theorem appendMissing_keeps (s : State) (n : Feed) (q : Seq) (p : Parity) :
    (s.appendMissing n q p).cue = s.cue ∧ (s.appendMissing n q p).lrx = s.lrx := by
  obtain ⟨-, hcue, hlrx, -⟩ := (Moves.appendMissing (a := .still) s n q p).still_keeps rfl
  exact ⟨hcue, hlrx⟩

/-- The receiver may be written before or after the notice and the count. -/
theorem setRx_after_notice (s : State) (n : Feed) (r r' : Receiver) (k : NoticeKind) (d : Detail) (c : FeedCounter) :
    (((s.setRx n r).raise k (.feed n) d).count n c 1).setRx n r' = ((s.setRx n r').raise k (.feed n) d).count n c 1 := by
  simp [State.setRx, State.raise, State.count, Quad_set_set]

theorem gapClosureWork_chain (s : State) (n : Feed) (q : Seq) : Moves .quiet s (s.gapClosureWork n q) :=
  Moves.gapClosureWork s n q rfl

/-- The writes of the receiver around the notice and the count (R12 steps 3 to 6) are one write before them. -/
theorem markedMissing_eq (s : State) (n : Feed) :
    let s1 := s.appendMissing n (s.lrx.get n).counter (s.lrx.get n).expected
    let s3 := ((s1.setRx n
      { s1.lrx.get n with
        counter := (s.lrx.get n).counter + 1, expected := (s.lrx.get n).expected.opposite,
        misses := min 8 ((s.lrx.get n).misses + 1) }).raise .fieldMissing (.feed n) (.sequence (s.lrx.get n).counter)).count n
      .fieldsMissing 1
    s3.setRx n { s3.lrx.get n with timer := timerAfterMiss ((s.lrx.get n).misses + 1) (s3.period n) } =
      s.markedMissing n := by
  intro s1 s3
  obtain ⟨hcue, hlrx⟩ := appendMissing_keeps s n (s.lrx.get n).counter (s.lrx.get n).expected
  have hperiod : s3.period n = s.period n := congrArg (fun c : CueDecoder => (c.active.get n).struct.period) hcue
  have hrx : s3.lrx.get n =
      { s.lrx.get n with
        counter := (s.lrx.get n).counter + 1, expected := (s.lrx.get n).expected.opposite,
        misses := min 8 ((s.lrx.get n).misses + 1) } := by
    have hwritten : s3.lrx.get n =
        { s1.lrx.get n with
          counter := (s.lrx.get n).counter + 1, expected := (s.lrx.get n).expected.opposite,
          misses := min 8 ((s.lrx.get n).misses + 1) } := Quad_get_set_same _ n _
    rw [hwritten, hlrx]
  rw [hperiod, hrx]
  exact setRx_after_notice _ n _ _ _ _ _

theorem markedMissing_lrx (s : State) (n : Feed) : (s.markedMissing n).lrx.get n = s.missedReceiver n :=
  Quad_get_set_same _ n _

theorem missField_eq (s : State) (n : Feed) :
    s.missField n =
      (((s.markedMissing n).gapClosureWork n (s.lrx.get n).counter).setRx n
        { s.missedReceiver n with arriving := none }).setIng n ⟨none, 0⟩ := by
  have hmark := markedMissing_eq s n
  have hrx := ((gapClosureWork_chain (s.markedMissing n) n (s.lrx.get n).counter).keeps_lrx n rfl).trans
    (markedMissing_lrx s n)
  unfold State.missField
  dsimp only at hmark ⊢
  rw [hmark, hrx]
  rfl

theorem missField_lrx (s : State) (n : Feed) :
    (s.missField n).lrx.get n = { s.missedReceiver n with arriving := none } := by
  rw [missField_eq]
  exact Quad_get_set_same _ n _

theorem missField_staged (s : State) (n : Feed) : (s.missField n).cue.staged.get n = s.cue.staged.get n := by
  have hcue := (appendMissing_keeps s n (s.lrx.get n).counter (s.lrx.get n).expected).1
  rw [missField_eq]
  exact ((gapClosureWork_chain (s.markedMissing n) n _).keeps_staged n rfl).trans
    (congrArg (fun c : CueDecoder => c.staged.get n) hcue)

/-! ## Entry to DOWN (R13) -/

/-- The feed in DOWN, cleared, before its pending items; q is the number of the eighth gap record. -/
abbrev State.downed (s : State) (n : Feed) (q : Seq) : State :=
  ((s.setRx n { s.lrx.get n with state := .down, timer := .stopped }).raise .feedDown (.feed n) (.sequence q)).clearFeed n

theorem goDown_plain (s : State) (n : Feed) (q : Seq) (h : s.cue.staged.get n = emptyPending) :
    s.goDown n q = s.downed n q := by
  have hstaged : (s.downed n q).cue.staged.get n = emptyPending :=
    (congrArg (fun c : CueDecoder => c.staged.get n) (clearFeed_cue _ n)).trans h
  unfold State.goDown
  refine if_neg ?_
  rw [hstaged, holdsItem_iff]
  exact fun hne => hne rfl

theorem goDown_items (s : State) (n : Feed) (q : Seq) (h : s.cue.staged.get n ≠ emptyPending) :
    s.goDown n q = ((s.downed n q).setStaged n emptyPending).applyAtOnce n (s.cue.staged.get n) := by
  have hstaged : (s.downed n q).cue.staged.get n = s.cue.staged.get n :=
    congrArg (fun c : CueDecoder => c.staged.get n) (clearFeed_cue _ n)
  unfold State.goDown
  refine (if_pos ?_).trans ?_
  · rw [hstaged, holdsItem_iff]
    exact h
  · rw [hstaged]

/-- The feed's history is empty and none of its jobs waits. -/
def State.isCleared (s : State) (n : Feed) : Prop :=
  s.history n = [] ∧ s.fen.waiting.filter (fun j => j.feed == n) = []

theorem clearFeed_isCleared (s : State) (n : Feed) : (s.clearFeed n).isCleared n :=
  ⟨clearFeed_history s n, clearFeed_waiting s n⟩

theorem downed_isCleared (s : State) (n : Feed) (q : Seq) : (s.downed n q).isCleared n := clearFeed_isCleared _ n

theorem downed_lrx (s : State) (n : Feed) (q : Seq) :
    (s.downed n q).lrx.get n = { s.lrx.get n with state := .down, timer := .stopped } := by
  rw [clearFeed_lrx]
  exact Quad_get_set_same _ n _

/-! ## Items that become active at once, of a feed that is not OFF -/

theorem applyAtOnce_of_not_off (s : State) (n : Feed) (p : Pending) (h : (s.lrx.get n).state ≠ .off) :
    s.applyAtOnce n p = if p.enable = some false then (s.restructured n p).enterOff n else s.restructured n p := by
  match he : p.enable with
  | none => rw [applyAtOnce_plain s n p he, if_neg (by nofun)]
  | some true => rw [applyAtOnce_enable s n p he, if_neg h, if_neg (by nofun)]
  | some false => rw [applyAtOnce_disable s n p he, if_neg h, if_pos rfl]

theorem restructured_staged (s : State) (n : Feed) (p : Pending) : (s.restructured n p).cue.staged = s.cue.staged := by
  unfold State.restructured
  split
  · rw [clearFeed_cue, activate_staged]
  · exact activate_staged s n p none

theorem restructured_isCleared (s : State) (n : Feed) (p : Pending) (h : s.isCleared n) :
    (s.restructured n p).isCleared n := by
  have hkeep := (activate_spec s n p none).2
  unfold State.restructured
  split
  · exact clearFeed_isCleared _ n
  · rw [hkeep]
    exact h

/-- A cleared feed that is not OFF: a disable takes it to OFF, other items leave its receiver; it stays cleared. -/
theorem applyAtOnce_cleared (s : State) (n : Feed) (p : Pending) (hrx : (s.lrx.get n).state ≠ .off) (h : s.isCleared n) :
    (s.applyAtOnce n p).lrx.get n = (if p.enable = some false then (s.lrx.get n).stopped else s.lrx.get n) ∧
      (s.applyAtOnce n p).cue.staged = s.cue.staged ∧ (s.applyAtOnce n p).isCleared n := by
  have hlrx := restructured_lrx s n p
  have hstaged := restructured_staged s n p
  rw [applyAtOnce_of_not_off s n p hrx]
  split
  · obtain ⟨hoff, -, -, hcue, -⟩ := enterOff_spec (s.restructured n p) n
    rw [hlrx] at hoff
    refine ⟨hoff, by rw [hcue, hstaged], ?_⟩
    exact clearFeed_isCleared _ n
  · exact ⟨by rw [hlrx], hstaged, restructured_isCleared s n p h⟩

/-- The same, of the items taken from a pending record that is then empty (R171). -/
theorem takenAtOnce_cleared (s : State) (n : Feed) (p : Pending) (hrx : (s.lrx.get n).state ≠ .off) (h : s.isCleared n) :
    let t := (s.setStaged n emptyPending).applyAtOnce n p
    t.lrx.get n = (if p.enable = some false then (s.lrx.get n).stopped else s.lrx.get n) ∧
      t.cue.staged.get n = emptyPending ∧ t.isCleared n := by
  obtain ⟨hlrx, hstaged, hempty⟩ := applyAtOnce_cleared (s.setStaged n emptyPending) n p hrx h
  refine ⟨hlrx, ?_, hempty⟩
  rw [hstaged]
  exact Quad_get_set_same _ n _

/-! ## A missing-field expiry (R11 to R13, R20) -/

/-- What the transmitter and then the loader make of an expiry, after the receiver's own work (R20). -/
abbrev State.expiryHandedOn (u : State) (n : Feed) : State := (u.outputExpiry n).handToLoader n

theorem expiryHandedOn_keeps (u : State) (n : Feed) :
    u.expiryHandedOn n =
      { u with otx := (u.expiryHandedOn n).otx, tld := (u.expiryHandedOn n).tld, ntu := (u.expiryHandedOn n).ntu } := by
  have hout := outputExpiry_keeps u n
  have hload := handToLoader_keeps (u.outputExpiry n) n
  unfold State.expiryHandedOn
  generalize (u.outputExpiry n).handToLoader n = t at hload ⊢
  generalize u.outputExpiry n = v at hout hload
  rw [hload, hout]

theorem exec_missingFieldExpiry_running (n : Feed) (us : List Upset) (s : State) (v : Nat) (hs : s.resetHeld = false)
    (hrun : (s.lrx.get n).state = .running) (ht : (s.lrx.get n).timer = .running v) :
    exec (.missingFieldExpiry n us) s = .next (((s.upset us).receiverExpiry n).expiryHandedOn n) := by
  rw [exec_missingFieldExpiry n us s hs, State.missingFieldExpires, upset_lrx, hrun, ht]

/-- The receiver once the arriving field has ended and the miss is counted. -/
theorem missField_closeArriving_lrx (s : State) (n : Feed) :
    ((s.closeArriving n).missField n).lrx.get n = { s.missedReceiver n with arriving := none } := by
  have hperiod : (s.closeArriving n).period n = s.period n := congrArg Structure.period (closeArriving_struct s n)
  rw [missField_lrx, State.missedReceiver, closeArriving_lrx, hperiod]

theorem receiverExpiry_early (s : State) (n : Feed) (h : (s.lrx.get n).misses < 7) :
    s.receiverExpiry n = (s.closeArriving n).missField n := by
  unfold State.receiverExpiry
  refine if_neg ?_
  rw [missField_closeArriving_lrx]
  show ¬ min 8 ((s.lrx.get n).misses + 1) = 8
  omega

theorem receiverExpiry_eighth (s : State) (n : Feed) (h : (s.lrx.get n).misses = 7) :
    s.receiverExpiry n = ((s.closeArriving n).missField n).goDown n (s.lrx.get n).counter := by
  unfold State.receiverExpiry
  refine (if_pos ?_).trans ?_
  · rw [missField_closeArriving_lrx]
    show min 8 ((s.lrx.get n).misses + 1) = 8
    omega
  · rw [closeArriving_lrx]

theorem missedReceiver_early (s : State) (n : Feed) (h : (s.lrx.get n).misses < 7) :
    s.missedReceiver n =
      { s.lrx.get n with
        counter := (s.lrx.get n).counter + 1, expected := (s.lrx.get n).expected.opposite,
        misses := (s.lrx.get n).misses + 1, timer := .running (s.period n) } := by
  have hmin : min 8 ((s.lrx.get n).misses + 1) = (s.lrx.get n).misses + 1 := by omega
  have hnot : ¬ 8 ≤ (s.lrx.get n).misses + 1 := by omega
  rw [State.missedReceiver, hmin, if_neg hnot]

theorem missField_closeArriving_staged (s : State) (n : Feed) :
    ((s.closeArriving n).missField n).cue.staged.get n = s.cue.staged.get n :=
  (missField_staged _ n).trans (closeArriving_staged s n)

/-- The receiver in DOWN after the eighth miss. -/
theorem eighthMiss_downed_lrx (s : State) (n : Feed) (q : Seq) (h : (s.lrx.get n).misses = 7) :
    (((s.closeArriving n).missField n).downed n q).lrx.get n =
      ⟨.down, (s.lrx.get n).counter + 1, (s.lrx.get n).expected.opposite, .stopped, 8, none⟩ := by
  rw [downed_lrx, missField_closeArriving_lrx, State.missedReceiver, h]
  rfl

/-- Settles O22: by the number of the miss and by the pending items; the second part is the missed field's record. -/
theorem missingFieldExpires : Obligations.MissingFieldExpires := by
  refine ⟨fun n us s v hs hrun ht => ?_, fun n s => missField_eq s n⟩
  have hexec := exec_missingFieldExpiry_running n us s v hs hrun ht
  have hstaged := missField_closeArriving_staged (s.upset us) n
  refine ⟨fun hearly => ?_, fun heighth hnone => ?_, fun items heighth hitems hsome => ?_⟩
  · rw [receiverExpiry_early (s.upset us) n hearly] at hexec
    refine ⟨hexec, _, hexec, ?_⟩
    rw [expiryHandedOn_keeps]
    refine (missField_closeArriving_lrx (s.upset us) n).trans ?_
    rw [missedReceiver_early (s.upset us) n hearly, ← hrun]
    rfl
  · rw [receiverExpiry_eighth (s.upset us) n heighth, goDown_plain _ n _ (hstaged.trans hnone)] at hexec
    refine ⟨hexec, _, hexec, ?_⟩
    rw [expiryHandedOn_keeps]
    exact ⟨eighthMiss_downed_lrx (s.upset us) n _ heighth, downed_isCleared _ n _⟩
  · have hheld : (((s.upset us).closeArriving n).missField n).cue.staged.get n = items := hstaged.trans hitems
    rw [receiverExpiry_eighth (s.upset us) n heighth, goDown_items _ n _ (by rw [hheld]; exact hsome), hheld] at hexec
    have hdown := eighthMiss_downed_lrx (s.upset us) n (s.lrx.get n).counter heighth
    have hcleared := downed_isCleared (((s.upset us).closeArriving n).missField n) n (s.lrx.get n).counter
    refine ⟨hexec, _, hexec, ?_⟩
    rw [expiryHandedOn_keeps, upset_lrx]
    obtain ⟨hlrx, hstaged, hempty⟩ := takenAtOnce_cleared _ n items (by rw [hdown]; nofun) hcleared
    rw [hdown] at hlrx
    refine ⟨hlrx.trans ?_, hstaged, hempty⟩
    split <;> rfl

end Sys2Proof.Machine
end

-- ==== Sys2Proof/Proofs: the field store and what every step keeps ====
section
/-! The statements about the field store, its reads and the start of a job, and what every step keeps: first what a chain of Moves
and a command can do, then each statement from that. -/

namespace Sys2Proof.Machine

/-! ## What a chain of Moves keeps of the store, the notices and the queues -/

/-- A change of the transmitters that makes no queue longer keeps the queues within their limits. -/
theorem queuesOk_mapIdx (q : Quad Transmitter) (f : Feed → Transmitter → Transmitter)
    (h : ∀ n t, (f n t).results.length ≤ t.results.length ∧ (f n t).carry.length ≤ t.carry.length)
    (hq : ∀ n, (q.get n).results.length ≤ 8 ∧ (q.get n).carry.length ≤ 16) (n : Feed) :
    ((q.mapIdx f).get n).results.length ≤ 8 ∧ ((q.mapIdx f).get n).carry.length ≤ 16 := by
  have hget : (q.mapIdx f).get n = f n (q.get n) := by fin_cases n <;> rfl
  rw [hget]
  exact ⟨(h n _).1.trans (hq n).1, (h n _).2.trans (hq n).2⟩

namespace Moves

variable {a : Touch} {s t : State}

/-- The external memory keeps its canonical form (R36). -/
theorem keeps_memoryOk (h : Moves a s t) (hs : s.memoryOk) : t.memoryOk := by
  induction h with
  | trans _ _ h1 h2 => exact h2 (h1 hs)
  | grow _ _ _ _ ih => exact ih hs
  | store s f hm =>
    show Memory.wf f.mem
    rw [hm]
    exact hs
  | write s k m l hm => exact writeLine_wf s k m l hm hs
  | upset s us => exact upset_wf s us hs
  | _ => exact hs

/-- One entry per kind and scope, counts within 1..255 (R189). -/
theorem keeps_noticesOk (h : Moves a s t) (hs : s.noticesOk) : t.noticesOk := by
  induction h with
  | trans _ _ h1 h2 => exact h2 (h1 hs)
  | grow _ _ _ _ ih => exact ih hs
  | raise s k sc d => exact addNotice_ok k sc d _ hs
  | notices s u hsub => exact noticesOk_sublist _ _ hsub hs
  | restart | release => exact ⟨List.Pairwise.nil, by nofun⟩
  | _ => exact hs

/-- At most 8 results and 16 packets in each queue (R155, R156). -/
theorem keeps_queuesOk (h : Moves a s t) (hs : s.queuesOk) : t.queuesOk := by
  induction h with
  | trans _ _ h1 h2 => exact h2 (h1 hs)
  | grow _ _ _ _ ih => exact ih hs
  | otx s m x _ hresults hcarry =>
    intro n
    rw [setOtx_otx, Quad_get_set]
    split
    · obtain ⟨h8, h16⟩ := hs m
      exact ⟨hresults.elim id (fun h => h.trans h8), hcarry.elim id (fun h => h.trans h16)⟩
    · exact hs n
  | hold s => exact queuesOk_mapIdx s.otx (fun _ t => { t with link := none }) (fun _ _ => ⟨le_refl _, le_refl _⟩) hs
  | restart s d =>
    exact queuesOk_mapIdx s.otx (fun _ t => restartedTransmitter t) (fun _ _ => ⟨Nat.zero_le _, Nat.zero_le _⟩) hs
  | release s d =>
    exact queuesOk_mapIdx s.otx (fun _ _ => powerOnTransmitter) (fun _ _ => ⟨Nat.zero_le _, Nat.zero_le _⟩) hs
  | _ => exact hs

/-- The level and the mask of each notice kind, and the nine load copies (R177, R188). -/
theorem keeps_sizesOk (h : Moves a s t) (hs : s.sizesOk) : t.sizesOk := by
  induction h with
  | trans _ _ h1 h2 => exact h2 (h1 hs)
  | grow _ _ _ _ ih => exact ih hs
  | notices s u _ hset => exact ⟨(hset.elim (congrArg List.length) And.right).trans hs.1, hs.2⟩
  | tld s l hl => exact ⟨hs.1, hl.trans hs.2⟩
  | release s d => exact ⟨rfl, rfl⟩
  | _ => exact hs

/-- No history holds more than 8 records: an append finds room (R25, R27). -/
theorem keeps_historiesOk (h : Moves a s t) (hs : s.historiesOk) : t.historiesOk := by
  induction h with
  | trans _ _ h1 h2 => exact h2 (h1 hs)
  | grow m r _ hroom ih =>
    intro n
    rw [history_append]
    split
    · have := hs m
      rw [List.length_append, List.length_singleton]
      omega
    · exact ih hs n
  | store s f _ _ hlen => exact fun n => (hlen n).trans (hs n)
  | restart s d | release s d =>
    intro n
    show ((Quad.all ([] : List FieldRecord)).get n).length ≤ 8
    rw [Quad_get_all]
    exact Nat.zero_le 8
  | _ => exact hs

/-- The part keeps its 24 slots (R21). -/
theorem keeps_slotsOk (h : Moves a s t) (hs : s.slotsOk) : t.slotsOk := by
  induction h with
  | trans _ _ h1 h2 => exact h2 (h1 hs)
  | grow _ _ _ _ ih => exact ih hs
  | store s f _ hlen => exact hlen.trans hs
  | restart | release => rfl
  | _ => exact hs

end Moves

/-! ## What a step can do -/

/-- A step idles, or carries out the command at the front on the state with the queue's rest. -/
theorem step_cases {s t : State} (h : step s = .next t) : t = s ∨ ∃ c q, exec c (s.withPending q) = .next t := by
  unfold step at h
  split at h
  · cases h
    exact Or.inl rfl
  · exact Or.inr ⟨_, _, h⟩

/-- A step is a chain of Moves, from the state without the command it takes. -/
theorem step_moves {s t : State} (h : step s = .next t) : ∃ q, Moves .all (s.withPending q) t := by
  rcases step_cases h with rfl | ⟨c, q, hc⟩
  · exact ⟨t.pending, Moves.refl t⟩
  · obtain ⟨u, hu, hm⟩ := exec_moves c (s.withPending q)
    obtain rfl : u = t := Host.Outcome.next.inj (hu.symm.trans hc)
    exact ⟨q, hm⟩

/-- Settles O4: each part holds along every chain of Moves, and a step is one. -/
theorem stepKeepsMemoryAndQueues : Obligations.StepKeepsMemoryAndQueues := by
  intro s t h
  obtain ⟨q, hm⟩ := step_moves h
  exact ⟨hm.keeps_memoryOk, fun hn hq => ⟨hm.keeps_noticesOk hn, hm.keeps_queuesOk hq⟩, hm.keeps_sizesOk⟩

/-- What a command can make of a state; a cue by its code, whichever of its two ways it comes (log entry 9). -/
inductive Effect : State → State → Prop where
  | nothing (s : State) : Effect s s
  | powersOn (s : State) (d : Straps) : Effect s (s.powersOn d)
  | holdsReset (s : State) : Effect s s.holdsReset
  | fieldStart (s : State) (us : List Upset) (n : Feed) (p : Parity) : Effect s ((s.upset us).fieldStarts n p)
  | activeLine (s : State) (us : List Upset) (n : Feed) (l : Line) : Effect s ((s.upset us).activeLineArrives n l)
  | missingField (s : State) (us : List Upset) (n : Feed) : Effect s ((s.upset us).missingFieldExpires n)
  | blankingLine (s : State) (n : Feed) (ws : List Word) (d : Straps) : Effect s (s.blankingLine n ws d)
  | frameTimer (s : State) (n : Feed) : Effect s (s.frameTimerExpires n)
  | refPulse (s : State) : Effect s (feeds.foldl State.pulse s)
  | referenceWatch (s : State) (n : Feed) : Effect s (s.watchExpires n)
  | completeJob (s : State) : Effect s s.completeJob
  | loadStalls (s : State) : Effect s s.loadStalls
  | buildLine (s : State) (us : List Upset) (r : BuildRole) (m : Nat) : Effect s ((s.upset us).buildLine r m)
  | cue (s : State) (n : Feed) (code : Word) (c : CueWords) (d : Straps) : Effect s (s.cueByCode n code c d)
  | unknownCue (s : State) (n : Feed) (code : Word) (c : CueWords) : Effect s (s.takeUnknownCue n code c)

/-- A command that the part takes only while RESET is released (R17). -/
theorem unlessHeld_effect {s t u : State} (h : unlessHeld s u = .next t) (hu : Effect s u) : Effect s t := by
  rcases unlessHeld_next h with rfl | rfl
  · exact .nothing t
  · exact hu

/-- A cue command of a kind is the decoder's share of a complete cue of its code, with the straps of a restart (log entry 9). -/
theorem exec_cueByCode (i : Instr) (n : Feed) (code : Word) (c : CueWords) (s : State)
    (hu : ∀ m k e, i ≠ .unknownCueKind m k e) (h : cueParts i = some (n, code, c)) :
    ∃ d, exec i s = unlessHeld s (s.cueByCode n code c d) := by
  cases i with
  | unknownCueKind m k e => exact absurd rfl (hu m k e)
  | deviceRestart m e d =>
    cases h
    exact ⟨d, rfl⟩
  | feedConfig | rasterSet | trimSet | motionSet | cadenceSet | cadenceForce | watchSet | feedRestart | tableOpen | tablePart
  | tableAbandon | noticeSet | reportSet | snapshot | statusQuery =>
    cases h
    exact ⟨⟨false, false, false, false⟩, rfl⟩
  | _ => cases h

theorem exec_cue_effect {i : Instr} {n : Feed} {code : Word} {c : CueWords} {s t : State} (h : exec i s = .next t)
    (hp : cueParts i = some (n, code, c)) (hu : ∀ m k e, i ≠ .unknownCueKind m k e) : Effect s t := by
  obtain ⟨d, hd⟩ := exec_cueByCode i n code c s hu hp
  exact unlessHeld_effect (hd.symm.trans h) (.cue s n code c d)

/-- Every command has one of these effects. -/
theorem exec_effect {c : Instr} {s t : State} (h : exec c s = .next t) : Effect s t := by
  cases c with
  | powerOn d =>
    obtain rfl : s.powersOn d = t := Host.Outcome.next.inj h
    exact .powersOn s d
  | resetAsserted =>
    obtain rfl : s.holdsReset = t := Host.Outcome.next.inj h
    exact .holdsReset s
  | fieldStart n p us => exact unlessHeld_effect h (.fieldStart s us n p)
  | activeLine n l us => exact unlessHeld_effect h (.activeLine s us n l)
  | blankingPacket n ws d => exact unlessHeld_effect h (.blankingLine s n ws d)
  | missingFieldExpiry n us => exact unlessHeld_effect h (.missingField s us n)
  | frameTimerExpiry n => exact unlessHeld_effect h (.frameTimer s n)
  | refPulse => exact unlessHeld_effect h (.refPulse s)
  | referenceWatchExpiry n => exact unlessHeld_effect h (.referenceWatch s n)
  | jobCompletion => exact unlessHeld_effect h (.completeJob s)
  | loadStall => exact unlessHeld_effect h (.loadStalls s)
  | buildRead r m us => exact unlessHeld_effect h (.buildLine s us r m.val)
  | unknownCueKind n code c =>
    refine unlessHeld_effect h ?_
    split
    · exact .nothing s
    · exact .unknownCue s n code c
  | _ => exact exec_cue_effect h rfl (by nofun)

/-- The settings and the trackers stay in range, whatever a command does. -/
theorem Effect.keeps_tuned {s t : State} (h : Effect s t) (hs : s.tunedOk) : t.tunedOk := by
  cases h with
  | nothing => exact hs
  | powersOn d => exact tuned_powersOn s d
  | holdsReset => exact tuned_holdsReset s hs
  | fieldStart us n p => exact tuned_fieldStarts (s.upset us) n p hs
  | activeLine us n l => exact tuned_activeLineArrives (s.upset us) n l hs
  | missingField us n => exact tuned_missingFieldExpires (s.upset us) n hs
  | blankingLine n ws d => exact tuned_blankingLine s n ws d hs
  | frameTimer n => exact tuned_still (Moves.frameTimerExpires s n) hs
  | refPulse => exact tuned_still (Moves.foldl _ Moves.pulse feeds s) hs
  | referenceWatch n => exact tuned_still (Moves.watchExpires s n) hs
  | completeJob => exact tuned_still (Moves.completeJob s) hs
  | loadStalls => exact tuned_still (Moves.loadStalls s) hs
  | buildLine us r m => exact tuned_still (Moves.buildLine (s.upset us) r m) hs
  | cue n code c d => exact tuned_cueByCode s n code c d hs
  | unknownCue n code c => exact tuned_takeUnknownCue s n code c hs

/-- The agreement of slots and records stays, whatever a command does. -/
theorem Effect.keeps_store {s t : State} (h : Effect s t) : KeepsStore s t := by
  cases h with
  | nothing => exact KeepsStore.refl s
  | powersOn d => exact KeepsStore.powersOn s d
  | holdsReset => exact KeepsStore.holdsReset s
  | fieldStart us n p => exact (Keeps.upset s us).store.trans (KeepsStore.fieldStarts _ n p)
  | activeLine us n l => exact ((Keeps.upset s us).trans (Keeps.activeLineArrives _ n l)).store
  | missingField us n => exact (Keeps.upset s us).store.trans (KeepsStore.missingFieldExpires _ n)
  | blankingLine n ws d => exact KeepsStore.blankingLine s n ws d
  | frameTimer n => exact (Keeps.frameTimerExpires s n).store
  | refPulse => exact (Keeps.foldl _ Keeps.pulse feeds s).store
  | referenceWatch n => exact (Keeps.watchExpires s n).store
  | completeJob => exact (Keeps.completeJob s).store
  | loadStalls => exact (Keeps.loadStalls s).store
  | buildLine us r m => exact ((Keeps.upset s us).trans (Keeps.buildLine _ r m)).store
  | cue n code c d => exact KeepsStore.cueByCode s n code c d
  | unknownCue n code c => exact KeepsStore.takeUnknownCue s n code c

theorem step_keeps_tuned {s t : State} (h : step s = .next t) (hs : s.tunedOk) : t.tunedOk := by
  rcases step_cases h with rfl | ⟨c, q, hc⟩
  · exact hs
  · exact (exec_effect hc).keeps_tuned hs

theorem step_keeps_store {s t : State} (h : step s = .next t) : KeepsStore s t := by
  rcases step_cases h with rfl | ⟨c, q, hc⟩
  · exact KeepsStore.refl t
  · exact (exec_effect hc).keeps_store

/-- Settles O5: histories, counters and waiting jobs along the chain of Moves; settings and trackers by what the command does. -/
theorem stepKeepsLimits : Obligations.StepKeepsLimits := by
  intro s t h
  obtain ⟨q, hm⟩ := step_moves h
  refine ⟨hm.keeps_historiesOk, fun ⟨hcounters, hwaiting, htuned⟩ => ?_⟩
  exact ⟨hm.keeps_counters hcounters, hm.keeps_waiting hwaiting, step_keeps_tuned h htuned⟩

/-! ## The slots held and the FREE slots (R43) -/

/-- A slot is FREE or has one owner. -/
theorem slots_counted (l : List Slot) :
    l.countP (fun v => v.ownedBy 0) + l.countP (fun v => v.ownedBy 1) + l.countP (fun v => v.ownedBy 2) +
      l.countP (fun v => v.ownedBy 3) + l.countP (fun v => v == .free) = l.length := by
  induction l with
  | nil => rfl
  | cons v l ih =>
    have hone : (if v.ownedBy 0 then 1 else 0) + (if v.ownedBy 1 then 1 else 0) + (if v.ownedBy 2 then 1 else 0) +
        (if v.ownedBy 3 then 1 else 0) + (if v == .free then 1 else 0) = 1 := by
      cases v with
      | free => rfl
      | filling o | held o | retiring o => fin_cases o <;> rfl
    simp only [List.countP_cons, List.length_cons]
    omega

/-- Settles O6: the number of slots along the chain of Moves, the agreement of slots and records by what the command does. -/
theorem stepKeepsSlotOwnership : Obligations.StepKeepsSlotOwnership := by
  intro s t h
  obtain ⟨q, hm⟩ := step_moves h
  refine ⟨fun hs => ?_, step_keeps_store h⟩
  have ht := hm.keeps_slotsOk hs
  exact ⟨ht, (slots_counted t.fst.slots).trans ht⟩

end Sys2Proof.Machine
end

section
namespace Sys2Proof.Machine

/-! ## Slots and records (R21, R24) -/

theorem FieldRecord.mem_slots (r : FieldRecord) (k : Fin 24) : k ∈ r.slots ↔ r.content = .slot k := by
  unfold FieldRecord.slots
  cases r.content with
  | slot j => simp [eq_comm]
  | gap c => simp

/-- The slots of some records are those that the records name. -/
theorem mem_slotsOf (l : List FieldRecord) (k : Fin 24) :
    k ∈ l.flatMap FieldRecord.slots ↔ ∃ r ∈ l, r.content = .slot k := by
  simp only [List.mem_flatMap, FieldRecord.mem_slots]

theorem slotsOf_ne_nil (l : List FieldRecord) :
    l.flatMap FieldRecord.slots ≠ [] ↔ ∃ r ∈ l, ∃ k, r.content = .slot k := by
  rw [Ne, List.eq_nil_iff_forall_not_mem]
  simp only [mem_slotsOf]
  push Not
  exact ⟨fun ⟨k, r, hr, hk⟩ => ⟨r, hr, k, hk⟩, fun ⟨r, hr, k, hk⟩ => ⟨k, r, hr, hk⟩⟩

theorem FieldRecord.toGap_gap (r : FieldRecord) (c d : GapCause) (h : r.content = .gap d) : r.toGap c = r := by
  unfold FieldRecord.toGap
  rw [h]

theorem FieldRecord.toGap_slot (r : FieldRecord) (c : GapCause) (k : Fin 24) (h : r.content = .slot k) :
    r.toGap c = ⟨r.seq, r.parity, r.state, .gap c, r.conditions, [], 0, [], none, none, none, r.poor⟩ := by
  unfold FieldRecord.toGap
  rw [h]

/-! ## Leaving the tight condition (R34) -/

theorem checkLeaving_keeps (s : State) : s.checkLeaving = { s with fst := { s.fst with tight := s.checkLeaving.fst.tight } } := by
  unfold State.checkLeaving
  split <;> rfl

theorem checkLeaving_slots (s : State) : s.checkLeaving.fst.slots = s.fst.slots := by rw [checkLeaving_keeps]

theorem checkLeaving_slot (s : State) (k : Fin 24) : s.checkLeaving.slot k = s.slot k := by
  unfold State.slot
  rw [checkLeaving_slots]

theorem checkLeaving_freeCount (s : State) : s.checkLeaving.freeCount = s.freeCount := by
  unfold State.freeCount
  rw [checkLeaving_slots]

/-- The flag is cleared at 10 or more FREE slots. -/
theorem checkLeaving_tight (s : State) :
    s.checkLeaving.fst.tight = if 10 ≤ s.checkLeaving.freeCount then false else s.fst.tight := by
  rw [checkLeaving_freeCount]
  unfold State.checkLeaving
  split <;> rfl

/-- A release clears the flag at 10 or more FREE slots; a release of no slot checks nothing. -/
theorem releaseSlots_tight (s : State) (ks : List (Fin 24)) :
    (s.releaseSlots ks).fst.tight =
      if ks ≠ [] ∧ 10 ≤ (s.releaseSlots ks).freeCount then false else s.fst.tight := by
  cases ks with
  | nil => rfl
  | cons k ks =>
    have hkeep : (s.freeSlots (k :: ks)).fst.tight = s.fst.tight := by rw [freeSlots_keeps]
    have hrel : s.releaseSlots (k :: ks) = (s.freeSlots (k :: ks)).checkLeaving := rfl
    rw [hrel, checkLeaving_tight, hkeep]
    simp

/-! ## Clearing a feed (R40, R83, R98, R99) -/

/-- The records that the job in service references, and the others. -/
abbrev State.heldBack (s : State) (n : Feed) : List FieldRecord := (s.history n).filter (fun r => s.serviceRefs n r.seq)

abbrev State.letGo (s : State) (n : Feed) : List FieldRecord := (s.history n).filter (fun r => !s.serviceRefs n r.seq)

/-- Emptying a history: what the job in service references is detached, the rest of the slots are released (R40). -/
theorem emptyHistory_store (s : State) (n : Feed) (h : s.slotsOk) :
    let t := s.emptyHistory n
    t.fst.detached = s.fst.detached ++ s.heldBack n ∧
      (∀ k : Fin 24,
        t.slot k =
          if (∃ r ∈ s.letGo n, r.content = .slot k) then .free
          else if (∃ r ∈ s.heldBack n, r.content = .slot k) then .retiring n
          else s.slot k) ∧
      t.fst.tight = (if (∃ r ∈ s.letGo n, ∃ k, r.content = .slot k) ∧ 10 ≤ t.freeCount then false else s.fst.tight) := by
  obtain ⟨hok, hslot, hdetached, -⟩ := detachAll_spec (s.setHist n []) n (s.heldBack n) h
  have htight := congrArg (fun u : State => u.fst.tight) (detachAll_keeps (s.setHist n []) n (s.heldBack n))
  have hempty : s.emptyHistory n =
      ((s.heldBack n).foldl (fun t r => t.detach n r) (s.setHist n [])).releaseSlots (s.emptiedSlots n) := rfl
  rw [hempty]
  generalize (s.heldBack n).foldl (fun t r => t.detach n r) (s.setHist n []) = u at *
  refine ⟨?_, fun k => ?_, ?_⟩
  · rw [releaseSlots_keeps]
    exact hdetached
  · rw [(releaseSlots_slot u hok _).2, hslot]
    simp only [State.emptiedSlots, mem_slotsOf]
    rfl
  · rw [releaseSlots_tight, htight]
    simp only [State.emptiedSlots, slotsOf_ne_nil]
    rfl

/-- Settles O38: the store by the emptying of the history, the tracker and the engine by the laws of clearing a feed. -/
theorem clearedFeed : Obligations.ClearedFeed := by
  intro s n hs
  obtain ⟨hdetached, hslot, htight⟩ := emptyHistory_store s n hs
  refine ⟨?_, hslot, htight⟩
  have hstore : (s.clearFeed n).fst =
      { s.fst with
        slots := (s.clearFeed n).fst.slots, hist := s.fst.hist.set n [], detached := s.fst.detached ++ s.heldBack n
        tight := (s.clearFeed n).fst.tight } := by
    rw [← hdetached]
    exact congrArg State.fst (emptyHistory_spec s n)
  rw [← hstore, ← clearFeed_cad, ← clearFeed_fen]
  exact (clearFeed_spec s n).1

/-! ## Retention (R32, R33) -/

theorem keepNewest_eq (tight : Bool) (cls : Fin 4) : keepNewest tight cls = if tight = true ∧ cls.val ≤ 1 then 2 else 3 := by
  unfold keepNewest
  simp

/-- The records that retention leaves, given the keep-newest count. -/
def State.keptRecords (s : State) (n : Feed) (keep : Nat) : List FieldRecord :=
  (((s.history n).take ((s.history n).length - keep)).dropWhile (fun r => !s.referenced n r.seq)).map
      (fun r => if s.referenced n r.seq = true then r else r.toGap .trimmedOff) ++
    (s.history n).drop ((s.history n).length - keep)

/-- The slots that retention gives back. -/
def State.givenSlots (s : State) (n : Feed) (keep : Nat) : List (Fin 24) :=
  (((s.history n).take ((s.history n).length - keep)).filter (fun r => !s.referenced n r.seq)).flatMap FieldRecord.slots

theorem retained_eq (s : State) (n : Feed) (keep : Nat) : s.retained n keep = (s.keptRecords n keep, s.givenSlots n keep) :=
  retentionWalk_eq (s.referenced n) _ false (s.history n)

theorem retain_eq (s : State) (n : Feed) :
    s.retain n =
      (s.setHist n (s.keptRecords n (keepNewest s.fst.tight (s.settings n).cls))).releaseSlots
        (s.givenSlots n (keepNewest s.fst.tight (s.settings n).cls)) := by
  unfold State.retain
  rw [retained_eq]

/-! ## The tight entry (R34) -/

/-- The keep-newest count of the tight condition (R32). -/
abbrev State.tightKeep (s : State) (n : Feed) : Nat := keepNewest true (s.settings n).cls

theorem retainTight_eq (s : State) (n : Feed) :
    s.retainTight n = (s.setHist n (s.keptRecords n (s.tightKeep n))).freeSlots (s.givenSlots n (s.tightKeep n)) := by
  unfold State.retainTight
  rw [retained_eq]

/-- Retention of some feeds, all with the tight counts: each by the state before them all. -/
structure RetainedAll (l : List Feed) (s t : State) : Prop where
  keeps : t = { s with fst := { s.fst with slots := t.fst.slots, hist := t.fst.hist } }
  slotsOk : t.slotsOk
  history : ∀ n, t.history n = if n ∈ l then s.keptRecords n (s.tightKeep n) else s.history n
  slot : ∀ k, t.slot k = if ∃ n ∈ l, k ∈ s.givenSlots n (s.tightKeep n) then .free else s.slot k

theorem RetainedAll.one (s : State) (m : Feed) (h : s.slotsOk) : RetainedAll [m] s (s.retainTight m) := by
  have hkeep := freeSlots_keeps (s.setHist m (s.keptRecords m (s.tightKeep m))) (s.givenSlots m (s.tightKeep m))
  have hslot := setSlots_slot .free (s.givenSlots m (s.tightKeep m)) (s.setHist m (s.keptRecords m (s.tightKeep m))) h
  rw [retainTight_eq]
  refine ⟨?_, hslot.1, fun n => ?_, fun k => ?_⟩
  · rw [hkeep]
    rfl
  · rw [hkeep]
    refine (Quad_get_set _ m n _).trans ?_
    by_cases hn : n = m
    · subst hn
      simp
    · simp [hn, State.history]
  · simp only [List.mem_singleton, exists_eq_left]
    exact hslot.2 k

/-- What retention of other feeds leaves to a feed. -/
theorem RetainedAll.kept {l : List Feed} {s t : State} (h : RetainedAll l s t) {n : Feed} (hn : n ∉ l) :
    t.keptRecords n (t.tightKeep n) = s.keptRecords n (s.tightKeep n) ∧
      t.givenSlots n (t.tightKeep n) = s.givenSlots n (s.tightKeep n) := by
  have hhist : t.history n = s.history n := by rw [h.history, if_neg hn]
  have hkeep : t.tightKeep n = s.tightKeep n := by rw [h.keeps]; rfl
  have hrefs : t.referenced n = s.referenced n := by rw [h.keeps]; rfl
  unfold State.keptRecords State.givenSlots
  rw [hhist, hkeep, hrefs]
  exact ⟨rfl, rfl⟩

theorem retainTight_all (l : List Feed) (s : State) (hl : l.Nodup) (h : s.slotsOk) :
    RetainedAll l s (l.foldl State.retainTight s) := by
  induction l generalizing s with
  | nil => exact ⟨rfl, h, fun n => by simp, fun k => by simp⟩
  | cons m l ih =>
    obtain ⟨hm, hl⟩ := List.nodup_cons.1 hl
    have hone := RetainedAll.one s m h
    have hrest := ih (s.retainTight m) hl hone.slotsOk
    have hother : ∀ n ∈ l, n ∉ [m] := fun n hn e => hm (List.mem_singleton.1 e ▸ hn)
    rw [List.foldl_cons]
    refine ⟨?_, hrest.slotsOk, fun n => ?_, fun k => ?_⟩
    · rw [hrest.keeps, hone.keeps]
    · rw [hrest.history, hone.history]
      by_cases hn : n ∈ l
      · rw [if_pos hn, (hone.kept (hother n hn)).1, if_pos (List.mem_cons_of_mem m hn)]
      · simp [hn]
    · have hgiven : (∃ n ∈ l, k ∈ (s.retainTight m).givenSlots n ((s.retainTight m).tightKeep n)) ↔
          ∃ n ∈ l, k ∈ s.givenSlots n (s.tightKeep n) := by
        refine exists_congr (fun n => and_congr_right (fun hn => ?_))
        rw [(hone.kept (hother n hn)).2]
      rw [hrest.slot, hone.slot, if_congr hgiven rfl rfl]
      simp only [List.mem_singleton, exists_eq_left, List.exists_mem_cons_iff]
      by_cases h1 : k ∈ s.givenSlots m (s.tightKeep m)
      · simp [h1]
      · simp [h1]

/-- With the check for leaving at the end, the slots, the histories and the flag may have changed. -/
theorem RetainedAll.leaving {l : List Feed} {s t : State} (h : RetainedAll l s t) :
    t.checkLeaving =
      { s with
        fst := { s.fst with
          slots := t.checkLeaving.fst.slots, hist := t.checkLeaving.fst.hist, tight := t.checkLeaving.fst.tight } } := by
  have hkeep := checkLeaving_keeps t
  generalize t.checkLeaving = u at hkeep
  rw [hkeep, h.keeps]

theorem mem_feeds (n : Feed) : n ∈ feeds := by
  revert n
  decide

/-- The flag set and POOL_TIGHT raised, before the retentions of the tight entry (R34). -/
abbrev State.tightened (s : State) (free : Nat) : State :=
  ({ s with fst := { s.fst with tight := true } } : State).raise .poolTight .device (.freeCount free)

/-- The tight entry: the notice and the flag, four retentions with the tight counts, one check for leaving (R34, log 16). -/
theorem enterTight_spec (s : State) (free : Nat) (h : s.slotsOk) :
    let t := s.enterTight free
    t = { s with fst := { s.fst with slots := t.fst.slots, hist := t.fst.hist, tight := t.fst.tight }
                 ntu := (s.raise .poolTight .device (.freeCount free)).ntu } ∧
      (∀ n, t.history n = s.keptRecords n (s.tightKeep n)) ∧
      (∀ k, t.slot k = if ∃ n, k ∈ s.givenSlots n (s.tightKeep n) then .free else s.slot k) ∧
      t.fst.tight = decide (t.freeCount < 10) := by
  have hentry : s.enterTight free = (feeds.foldl State.retainTight (s.tightened free)).checkLeaving := rfl
  have hall := retainTight_all feeds (s.tightened free) (by decide) h
  rw [hentry]
  generalize feeds.foldl State.retainTight (s.tightened free) = u at hall
  have htight : u.fst.tight = true := congrArg (fun u : State => u.fst.tight) hall.keeps
  refine ⟨?_, fun n => ?_, fun k => ?_, ?_⟩
  · exact hall.leaving
  · rw [checkLeaving_history, hall.history, if_pos (mem_feeds n)]
    rfl
  · rw [checkLeaving_slot, hall.slot]
    simp only [mem_feeds, true_and]
    rfl
  · rw [checkLeaving_tight, htight]
    generalize State.freeCount _ = c
    by_cases hc : 10 ≤ c
    · rw [if_pos hc, decide_eq_false (by omega)]
    · rw [if_neg hc, decide_eq_true (by omega)]

/-! ## The history cap (R27) -/

theorem historyCap_cons (s : State) (n : Feed) (r : FieldRecord) (l : List FieldRecord) (h : s.history n = r :: l)
    (hl : 7 ≤ l.length) :
    s.historyCap n =
      (if s.serviceRefs n r.seq = true then (s.setHist n l).detach n r
        else (s.setHist n l).releaseSlots r.slots).dropWaitingRefs n r.seq := by
  have h8 : 8 ≤ (r :: l).length := Nat.succ_le_succ hl
  unfold State.historyCap
  rw [h]
  exact if_pos h8

/-- Settles O18: the walk of retention, the release of slots, the record that becomes a gap, the tight entry, the cap. -/
theorem retentionAndTight : Obligations.RetentionAndTight := by
  refine ⟨fun s n => ?_, fun s ks hs => ⟨releaseSlots_keeps s ks, (releaseSlots_slot s hs ks).2, releaseSlots_tight s ks⟩,
    fun r c => ⟨fun ⟨d, hd⟩ => r.toGap_gap c d hd, fun ⟨k, hk⟩ => r.toGap_slot c k hk⟩, fun s free hs => ?_,
    fun s n r l h hl => ⟨historyCap_cons s n r l h hl, fun u hu => ?_⟩⟩
  · rw [retain_eq, keepNewest_eq]
    rfl
  · have hkeep : ∀ n : Feed, s.tightKeep n = if (s.settings n).cls.val ≤ 1 then 2 else 3 := by
      intro n
      rw [State.tightKeep, keepNewest_eq]
      simp
    have hspec := enterTight_spec s free hs
    simp only [hkeep] at hspec
    exact hspec
  · obtain ⟨-, hslot, hdetached, -⟩ := detach_spec u n r hu
    simp only [FieldRecord.mem_slots] at hslot
    exact ⟨hdetached, hslot⟩

end Sys2Proof.Machine
end

section
namespace Sys2Proof.Machine

/-! ## Allocation: its three branches (R28 to R30) -/

/-- The record of a field that opens and is stored in slot k. -/
abbrev storedRecord (q : Seq) (p : Parity) (k : Fin 24) (rep : Bool) : FieldRecord := openedRecord q p (.slot k) rep false

theorem setSlot_freeCount (s : State) (h : s.slotsOk) (k : Fin 24) (n : Feed) (hk : s.slot k = .free) :
    (s.setSlot k (.filling n)).freeCount = s.freeCount - 1 ∧ 1 ≤ s.freeCount := by
  have := freeCount_setSlot s h k hk (.filling n) (by nofun)
  omega

/-- The lowest FREE slot is taken; the tight condition is entered where that leaves 6 or fewer FREE slots (R28, R34). -/
theorem allocate_free (s : State) (n : Feed) (q : Seq) (p : Parity) (rep : Bool) (k : Fin 24)
    (hs : (s.capped n).slotsOk) (hk : (s.capped n).slot k = .free) (hlow : ∀ j, j < k → (s.capped n).slot j ≠ .free) :
    s.allocate n q p rep =
      (true,
        if (s.capped n).fst.tight = false ∧ (s.capped n).freeCount ≤ 7 then
          (((s.capped n).setSlot k (.filling n)).append n (storedRecord q p k rep)).enterTight ((s.capped n).freeCount - 1)
        else ((s.capped n).setSlot k (.filling n)).append n (storedRecord q p k rep)) := by
  have hfound := lowestFree_eq (s.capped n) k hk hlow
  obtain ⟨hcount, hone⟩ := setSlot_freeCount (s.capped n) hs k n hk
  have htight : ((!((s.capped n).setSlot k (.filling n)).fst.tight && decide ((s.capped n).freeCount - 1 ≤ 6)) = true) ↔
      (s.capped n).fst.tight = false ∧ (s.capped n).freeCount ≤ 7 := by
    simp only [setSlot_fst, Bool.and_eq_true, Bool.not_eq_true', decide_eq_true_eq]
    exact and_congr_right (fun _ => by omega)
  unfold State.allocate
  rw [show (if 8 ≤ (s.history n).length then s.historyCap n else s) = s.capped n from rfl]
  dsimp only
  rw [hfound]
  dsimp only
  rw [hcount, if_congr htight rfl rfl]
  rfl

/-- With no FREE slot the victim's slot is taken (R29). -/
theorem allocate_reclaims (s : State) (n : Feed) (q : Seq) (p : Parity) (rep : Bool) (v : Feed) (w : Seq) (k : Fin 24)
    (hfull : ∀ j, (s.capped n).slot j ≠ .free) (hv : (s.capped n).victim = some (v, w, k)) :
    s.allocate n q p rep =
      (true, (((s.capped n).reclaim v w).setSlot k (.filling n)).append n (storedRecord q p k rep)) := by
  unfold State.allocate
  rw [show (if 8 ≤ (s.history n).length then s.historyCap n else s) = s.capped n from rfl]
  dsimp only
  rw [lowestFree_none _ hfull]
  dsimp only
  rw [hv]
  rfl

/-- With no FREE slot and no victim the field is dropped (R30). -/
theorem allocate_drops (s : State) (n : Feed) (q : Seq) (p : Parity) (rep : Bool)
    (hfull : ∀ j, (s.capped n).slot j ≠ .free) (hv : (s.capped n).victim = none) :
    s.allocate n q p rep =
      (false, (((s.capped n).append n (openedRecord q p (.gap .dropped) rep true)).raise .fieldDropped (.feed n)
        (.sequence q)).count n .fieldsDropped 1) := by
  unfold State.allocate
  rw [show (if 8 ≤ (s.history n).length then s.historyCap n else s) = s.capped n from rfl]
  dsimp only
  rw [lowestFree_none _ hfull]
  dsimp only
  rw [hv]
  rfl

/-! ## The victim (R29) -/

/-- Record i of feed m's history may be reclaimed for its slot k: HELD, not among the two newest, not referenced in service. -/
abbrev State.candidateAt (s : State) (m : Feed) (i : Nat) (r : FieldRecord) (k : Fin 24) : Prop :=
  i + 2 < (s.history m).length ∧ (s.history m)[i]? = some r ∧ r.content = .slot k ∧ s.slot k = .held m ∧
    s.serviceRefs m r.seq = false

theorem candidates_ne_nil (s : State) (m : Feed) : s.candidates m ≠ [] ↔ ∃ i r k, s.candidateAt m i r k := by
  rw [Ne, List.eq_nil_iff_forall_not_mem]
  simp only [mem_candidates]
  push Not
  exact ⟨fun ⟨r, i, k, h⟩ => ⟨i, r, k, h⟩, fun ⟨i, r, k, h⟩ => ⟨r, i, k, h⟩⟩

/-- The oldest candidate of the feed of lowest class, of those the highest number. -/
theorem victim_eq (s : State) (v : Feed) (i : Nat) (r : FieldRecord) (k : Fin 24) (h : s.candidateAt v i r k)
    (holdest : ∀ j x l, j < i → ¬s.candidateAt v j x l)
    (hclass : ∀ m j x l, s.candidateAt m j x l →
      (s.settings v).cls < (s.settings m).cls ∨ ((s.settings v).cls = (s.settings m).cls ∧ m ≤ v)) :
    s.victim = some (v, r.seq, k) := by
  have hfeed : feeds.foldl s.laterVictim none = some v := by
    refine victim_feed s v ((candidates_ne_nil s v).2 ⟨i, r, k, h⟩) (fun m hm => ?_)
    obtain ⟨j, x, l, hx⟩ := (candidates_ne_nil s m).1 hm
    exact hclass m j x l hx
  obtain ⟨t, ht⟩ := candidates_first s v i r k h holdest
  have hslots : r.slots = [k] := by
    unfold FieldRecord.slots
    rw [h.2.2.1]
  unfold State.victim
  rw [hfeed]
  dsimp only
  rw [ht, List.flatMap_cons, hslots]
  rfl

theorem victim_none (s : State) (h : ∀ m i r k, ¬s.candidateAt m i r k) : s.victim = none := by
  have hempty : ∀ m, (s.candidates m).isEmpty = true := by
    intro m
    rw [List.isEmpty_iff]
    by_contra hm
    obtain ⟨i, r, k, hr⟩ := (candidates_ne_nil s m).1 hm
    exact h m i r k hr
  have hfeed : feeds.foldl s.laterVictim none = none := by
    simp [feeds, State.laterVictim, hempty]
  unfold State.victim
  rw [hfeed]

/-- Settles O17: the FREE slot, the victim, the drop. -/
theorem storeAllocates : Obligations.StoreAllocates := by
  intro s n q p rep hs
  have hok : (s.capped n).slotsOk := (Moves.capped (a := .still) s n).keeps_slotsOk hs
  refine ⟨fun k hk hlow => allocate_free s n q p rep k hok hk hlow, fun hfull => ⟨fun v i r k hr holdest hclass => ?_,
    fun hnone => allocate_drops s n q p rep hfull (victim_none (s.capped n) hnone)⟩⟩
  exact allocate_reclaims s n q p rep v r.seq k hfull (victim_eq (s.capped n) v i r k hr holdest hclass)

end Sys2Proof.Machine
end

section
namespace Sys2Proof.Machine

/-! ## The check of a line (R36 to R38) -/

/-- Of ascending words, two fall in one group of 16 exactly where two neighbours do. -/
theorem groupClash_iff (ws : List Nat) (h : ws.Pairwise (fun a b => a < b)) :
    groupClash ws = true ↔ ∃ a ∈ ws, ∃ b ∈ ws, a ≠ b ∧ a / 16 = b / 16 := by
  induction ws with
  | nil => simp [groupClash]
  | cons a ws ih =>
    obtain ⟨ha, hws⟩ := List.pairwise_cons.1 h
    cases ws with
    | nil => simp [groupClash]
    | cons b t =>
      have hab := ha b List.mem_cons_self
      have hfirst : ∀ x ∈ b :: t, a / 16 = x / 16 → a / 16 = b / 16 := by
        intro x hx hax
        have hbx : b ≤ x := by
          rcases List.mem_cons.1 hx with rfl | hx
          · exact le_refl x
          · exact Nat.le_of_lt ((List.pairwise_cons.1 hws).1 x hx)
        omega
      rw [groupClash, Bool.or_eq_true, beq_iff_eq, ih hws]
      constructor
      · rintro (hclash | ⟨x, hx, y, hy, hxy⟩)
        · exact ⟨a, List.mem_cons_self, b, by simp, Nat.ne_of_lt hab, hclash⟩
        · exact ⟨x, List.mem_cons_of_mem a hx, y, List.mem_cons_of_mem a hy, hxy⟩
      · rintro ⟨x, hx, y, hy, hne, hxy⟩
        rcases List.mem_cons.1 hx with rfl | hxt <;> rcases List.mem_cons.1 hy with rfl | hyt
        · exact absurd rfl hne
        · exact Or.inl (hfirst y hyt hxy)
        · exact Or.inl (hfirst x hxt hxy.symm)
        · exact Or.inr ⟨x, hxt, y, hyt, hne, hxy⟩

theorem checkWords_cons (a : Nat) (t : List Nat) :
    checkWords (a :: t) = if groupClash (a :: t) = true then .damaged else .corrected (a :: t).length := rfl

theorem checkWords_clean (ws : List Nat) : checkWords ws = .clean ↔ ws = [] := by
  cases ws with
  | nil => exact ⟨fun _ => rfl, fun _ => rfl⟩
  | cons a t =>
    rw [checkWords_cons]
    split <;> exact ⟨nofun, nofun⟩

theorem checkWords_damaged (ws : List Nat) : checkWords ws = .damaged ↔ groupClash ws = true := by
  cases ws with
  | nil => exact ⟨nofun, nofun⟩
  | cons a t =>
    rw [checkWords_cons]
    split
    · next h => exact ⟨fun _ => h, fun _ => rfl⟩
    · next h => exact ⟨nofun, fun hc => absurd hc h⟩

theorem checkWords_corrected (ws : List Nat) (k : Nat) (h : checkWords ws = .corrected k) : k = ws.length ∧ k ≠ 0 := by
  cases ws with
  | nil => cases h
  | cons a t =>
    rw [checkWords_cons] at h
    split at h <;> cases h
    exact ⟨rfl, Nat.succ_ne_zero _⟩

/-! ## A read of a record's line (R37 to R39) -/

/-- The record that a reader reads: the build the one its job holds, the conditioner the one of the history. -/
abbrev State.readRecord (s : State) (build : Bool) (n : Feed) (q : Seq) : Option FieldRecord :=
  if build then s.heldRecord n q else s.record n q

/-- The line joins the damaged set of the record read. -/
abbrev State.markDamaged (s : State) (build : Bool) (n : Feed) (q : Seq) (m : Nat) : State :=
  if build then s.modifyHeld n q (fun y => { y with damaged := insertAscending m y.damaged })
  else s.modifyRecord n q (fun y => { y with damaged := insertAscending m y.damaged })

section
variable {s : State} {build : Bool} {n : Feed} {q : Seq} {m : Nat} {x : FieldRecord} {k : Fin 24}

theorem readLine_gap {c : GapCause} (hx : s.readRecord build n q = some x) (hc : x.content = .gap c) :
    s.readLine build n q m = (false, s) := by
  unfold State.readRecord at hx
  unfold State.readLine
  rw [hx]
  dsimp only
  rw [hc]

theorem readLine_unread (hx : s.readRecord build n q = some x) (hk : x.content = .slot k)
    (hm : m ∈ x.lost ∨ m ∈ x.damaged) : s.readLine build n q m = (false, s) := by
  unfold State.readRecord at hx
  unfold State.readLine
  rw [hx]
  dsimp only
  rw [hk]
  dsimp only
  rw [if_pos (by simpa using hm)]

/-- A line that is neither lost nor damaged is read, and its outcome is the check's. -/
theorem readLine_checked (hx : s.readRecord build n q = some x) (hk : x.content = .slot k) (hl : m ∉ x.lost)
    (hd : m ∉ x.damaged) :
    (checkWords (wrongAt s.fst.mem k m) = .clean → s.readLine build n q m = (true, s)) ∧
      (∀ w, checkWords (wrongAt s.fst.mem k m) = .corrected w →
        s.readLine build n q m =
          (true, (s.count n .storeCorrected w).raise .storeCorrected (.feed n) (.sequence q))) ∧
      (checkWords (wrongAt s.fst.mem k m) = .damaged →
        s.readLine build n q m =
          (false, ((s.markDamaged build n q m).count n .linesDamaged 1).raise .storeUncorrectable (.feed n)
            (.sequence q))) := by
  have hread : ¬((x.lost.contains m || x.damaged.contains m) = true) := by simp [hl, hd]
  unfold State.readRecord at hx
  unfold State.readLine
  rw [hx]
  dsimp only
  rw [hk]
  dsimp only
  rw [if_neg hread]
  refine ⟨fun h => ?_, fun w h => ?_, fun h => ?_⟩ <;> rw [h]

end

/-! ## The reads of a build (R104 to R107) -/

theorem exec_buildRead (r : BuildRole) (m : Fin 288) (us : List Upset) (s : State) (h : s.resetHeld = false) :
    exec (.buildRead r m us) s = .next ((s.upset us).buildLine r m.val) := unlessHeld_released s _ h

/-- Words gone wrong do not change which reads are due. -/
theorem upset_readDue (s : State) (us : List Upset) (v : Service) (r : BuildRole) (m : Nat) :
    (s.upset us).readDue v r m = s.readDue v r m := rfl

theorem buildLine_notDue (s : State) (r : BuildRole) (m : Nat) (v : Service) (hv : s.fen.service = some v)
    (h : s.readDue v r m = false) : s.buildLine r m = s := by
  unfold State.buildLine
  rw [hv]
  simp [h]

theorem buildLine_due (s : State) (r : BuildRole) (m : Nat) (v : Service) (q : Seq) (hv : s.fen.service = some v)
    (h : s.readDue v r m = true) (hq : v.roleRef r = some q) :
    s.buildLine r m =
      { (s.readLine true v.job.feed q m).2 with
        fen := { (s.readLine true v.job.feed q m).2.fen with
          service := some (v.settle r m (s.readLine true v.job.feed q m).1) } } := by
  unfold State.buildLine
  rw [hv]
  dsimp only
  rw [if_pos h, hq]

/-- Line i of F0 is settled or needs no read: it is lost or damaged, or nothing holds it (R105). -/
abbrev State.f0Ready (s : State) (v : Service) (i : Nat) : Prop :=
  i ∈ v.reads.f0.usable ∨ i ∈ v.reads.f0.unusable ∨
    ∀ q x k, v.job.refs.f0 = some q → s.heldRecord v.job.feed q = some x → x.content = .slot k → i ∈ x.lost ∨ i ∈ x.damaged

theorem FieldRecord.not_usableLine (x : FieldRecord) (i : Nat) :
    (!x.usableLine i) = true ↔ ∀ k, x.content = .slot k → i ∈ x.lost ∨ i ∈ x.damaged := by
  unfold FieldRecord.usableLine FieldRecord.hasContent
  cases x.content with
  | gap c => simp
  | slot k => simp [or_iff_not_imp_left]

theorem unreadable_f0 (s : State) (v : Service) (i : Nat) :
    s.unreadable v .f0 i = true ↔
      ∀ q x k, v.job.refs.f0 = some q → s.heldRecord v.job.feed q = some x → x.content = .slot k →
        i ∈ x.lost ∨ i ∈ x.damaged := by
  unfold State.unreadable
  rw [show v.roleRef .f0 = v.job.refs.f0 from rfl]
  cases v.job.refs.f0 with
  | none => exact ⟨fun _ q _ _ h => absurd h.symm (Option.some_ne_none q), fun _ => rfl⟩
  | some q =>
    dsimp only
    cases hx : s.heldRecord v.job.feed q with
    | none =>
      refine ⟨fun _ p y k hp hy => ?_, fun _ => rfl⟩
      cases hp
      rw [hx] at hy
      cases hy
    | some x =>
      refine (x.not_usableLine i).trans ⟨fun h p y k hp hy hk => ?_, fun h k hk => h q x k rfl hx hk⟩
      cases hp
      rw [hx] at hy
      cases hy
      exact h k hk

theorem f0Ready_iff (s : State) (v : Service) (i : Nat) :
    (v.settled .f0 i || s.unreadable v .f0 i) = true ↔ s.f0Ready v i := by
  rw [Bool.or_eq_true, unreadable_f0]
  unfold Service.settled BuildReads.role
  simp [or_assoc]

theorem f0Ready_all (s : State) (v : Service) (l : Nat) :
    (List.range l).all (fun i => v.settled .f0 i || s.unreadable v .f0 i) = true ↔ ∀ i, i < l → s.f0Ready v i := by
  simp only [List.all_eq_true, List.mem_range, f0Ready_iff]

theorem not_settled (v : Service) (r : BuildRole) (m : Nat) :
    (!v.settled r m) = true ↔ m ∉ (v.reads.role r).usable ∧ m ∉ (v.reads.role r).unusable := by
  unfold Service.settled
  simp

/-- When a read is due: F0's lines in order, then the neighbours' that the final mode reads (R105, R106). -/
theorem readDue_iff (s : State) (v : Service) (r : BuildRole) (m : Nat) :
    s.readDue v r m = true ↔
      m < v.lines ∧ m ∉ (v.reads.role r).usable ∧ m ∉ (v.reads.role r).unusable ∧
        ((r = .f0 ∧ ∀ i, i < m → s.f0Ready v i) ∨
          ((∀ i, i < v.lines → s.f0Ready v i) ∧
            ((r = .prev ∧ (v.finalMode = .weavePrev ∨ v.finalMode = .adaptive)) ∨
              (r = .next ∧ (v.finalMode = .weaveNext ∨ v.finalMode = .adaptive)) ∨
              (r = .prev2 ∧ v.finalMode = .adaptive ∧ v.prev2Usable = true ∧ m ∈ v.reads.f0.usable)))) := by
  unfold State.readDue
  simp only [Bool.and_eq_true, decide_eq_true_eq, not_settled]
  cases r with
  | f0 =>
    rw [f0Ready_all]
    simp only [Service.readsRole, reduceCtorEq, true_and, false_and, or_false, and_false]
    tauto
  | prev =>
    rw [f0Ready_all]
    simp only [Service.readsRole, Bool.or_eq_true, beq_iff_eq, reduceCtorEq, true_and, false_and, or_false, false_or]
    tauto
  | next =>
    rw [f0Ready_all]
    simp only [Service.readsRole, Bool.or_eq_true, beq_iff_eq, reduceCtorEq, true_and, false_and, or_false, false_or]
    tauto
  | prev2 =>
    rw [Bool.and_eq_true, f0Ready_all]
    simp only [Service.readsRole, Bool.and_eq_true, beq_iff_eq, List.contains_iff_mem, reduceCtorEq, true_and, false_and,
      false_or]
    tauto

/-- Settles O33: the check, a read by the record read, a read of the build by whether it is due. -/
theorem checkedReads : Obligations.CheckedReads := by
  refine ⟨fun ws h => ⟨checkWords_clean ws, ?_, checkWords_corrected ws⟩, fun s build n q m x hx => ⟨?_, fun k hk => ⟨?_, ?_⟩⟩,
    fun r m us s v q hs hv => ⟨fun h => ?_, fun h hq => ?_⟩, fun s v r m => ⟨?_, fun b => ?_, ?_⟩⟩
  · rw [checkWords_damaged, groupClash_iff ws h]
  · rintro ⟨c, hc⟩
    exact readLine_gap hx hc
  · exact readLine_unread hx hk
  · exact readLine_checked hx hk
  · rw [exec_buildRead r m us s hs, buildLine_notDue (s.upset us) r m.val v hv ((upset_readDue s us v r m.val).trans h)]
  · rw [exec_buildRead r m us s hs, buildLine_due (s.upset us) r m.val v q hv ((upset_readDue s us v r m.val).trans h) hq]
  · rw [readDue_iff]
    cases r <;> rfl
  · cases r <;> rfl
  · cases r <;> rfl

end Sys2Proof.Machine
end

section
namespace Sys2Proof.Machine

/-! ## A READY coefficient set is adopted (R93, R176, R185) -/

theorem coefficientRows_length (taps : Nat) (words : List Word) : (coefficientRows taps words).length = 64 := by
  simp [coefficientRows]

/-- Phase q, tap i: the word at q x taps + i less 512 (R176). -/
theorem coefficientRows_row (taps : Nat) (words : List Word) (q : Nat) (h : q < 64) :
    ((coefficientRows taps words).getD q []).length = taps ∧
      ∀ i, i < taps →
        ((coefficientRows taps words).getD q []).getD i 0 = ((words.getD (q * taps + i) 0).toNat : Int) - 512 := by
  have hrow : (coefficientRows taps words).getD q [] =
      (List.range taps).map (fun t => ((words.getD (q * taps + t) 0).toNat : Int) - 512) := by
    simp [coefficientRows, h]
  rw [hrow]
  refine ⟨by simp, fun i hi => ?_⟩
  rw [List.getD_eq_getElem _ _ (by simpa using hi)]
  simp

theorem adoptSet_idle (s : State) (t : TableId) (h : (s.copy t).ready = false) : s.adoptSet t = s := by
  unfold State.adoptSet
  rw [h]
  rfl

/-- The engine's sets after an adoption: identities 1 to 4 are horizontal, 5 to 8 vertical (Table 10-1). -/
theorem adoptSet_ready (s : State) (t : TableId) (h : (s.copy t).ready = true) :
    s.adoptSet t =
      { s with
        fen := { s.fen with
          hsets :=
            if t.val ≤ 4 then s.fen.hsets.set (Fin.ofNat 4 (t.val - 1)) (coefficientRows 8 (s.copy t).words)
            else s.fen.hsets
          vsets :=
            if t.val ≤ 4 then s.fen.vsets
            else s.fen.vsets.set (Fin.ofNat 4 (t.val - 5)) (coefficientRows 4 (s.copy t).words) }
        tld := { s.tld with copies := s.tld.copies.set t.val ⟨false, (s.copy t).words⟩ }
        ntu := ((s.raise .tableAdopted .device (.table t)).countDev .tablesAdopted).ntu } := by
  unfold State.adoptSet
  rw [if_pos h]
  split <;> rfl

/-- An adoption, by the sets that it leaves and the set that it gives. -/
theorem adoptSet_spec (s : State) (t : TableId) (ht : t ≠ 0) (h : (s.copy t).ready = true) :
    let u := s.adoptSet t
    let taps := if t.val ≤ 4 then 8 else 4
    let set := if t.val ≤ 4 then u.fen.hsets.get (Fin.ofNat 4 (t.val - 1)) else u.fen.vsets.get (Fin.ofNat 4 (t.val - 5))
    u = { s with
          fen := { s.fen with hsets := u.fen.hsets, vsets := u.fen.vsets }
          tld := { s.tld with copies := s.tld.copies.set t.val ⟨false, (s.copy t).words⟩ }
          ntu := ((s.raise .tableAdopted .device (.table t)).countDev .tablesAdopted).ntu } ∧
      (∀ k : Fin 4, (k.val + 1 ≠ t.val → u.fen.hsets.get k = s.fen.hsets.get k) ∧
        (k.val + 5 ≠ t.val → u.fen.vsets.get k = s.fen.vsets.get k)) ∧
      set = coefficientRows taps (s.copy t).words := by
  have hpos : t.val ≠ 0 := fun h0 => ht (Fin.ext h0)
  have hlt := t.isLt
  rw [adoptSet_ready s t h]
  by_cases h4 : t.val ≤ 4
  · simp only [if_pos h4]
    refine ⟨trivial, fun k => ⟨fun hk => Quad_get_set_other _ _ _ _ ?_, fun _ => trivial⟩, Quad_get_set_same _ _ _⟩
    rintro rfl
    rw [Fin.val_ofNat] at hk
    omega
  · simp only [if_neg h4]
    refine ⟨trivial, fun k => ⟨fun _ => trivial, fun hk => Quad_get_set_other _ _ _ _ ?_⟩, Quad_get_set_same _ _ _⟩
    rintro rfl
    rw [Fin.val_ofNat] at hk
    omega

/-- The sets are tried in the order HSET0 to VSET3. -/
theorem adoptSets_eq (s : State) :
    s.adoptSets =
      (((((((s.adoptSet 1).adoptSet 2).adoptSet 3).adoptSet 4).adoptSet 5).adoptSet 6).adoptSet 7).adoptSet 8 := by
  unfold State.adoptSets
  simp only [List.foldl_cons, List.foldl_nil]

/-! ## The job enters service (R26, R92, R94) -/

/-- The final mode gives up the references that it does not read (R26). -/
theorem keptBy_eq (r : JobRefs) (m : Mode) :
    r.keptBy m =
      { f0 := r.f0
        prev := if m = .weavePrev ∨ m = .adaptive then r.prev else none
        next := if m = .weaveNext ∨ m = .adaptive then r.next else none
        prev2 := if m = .adaptive then r.prev2 else none } := by
  cases m <;> rfl

theorem serviceOf_eq (s : State) (j : Job) :
    s.serviceOf j =
      ⟨{ j with refs :=
          { f0 := j.refs.f0
            prev := if s.finalMode j = .weavePrev ∨ s.finalMode j = .adaptive then j.refs.prev else none
            next := if s.finalMode j = .weaveNext ∨ s.finalMode j = .adaptive then j.refs.next else none
            prev2 := if s.finalMode j = .adaptive then j.refs.prev2 else none } },
        s.finalMode j, false, s.fieldLines j.feed,
        decide (s.finalMode j = .adaptive) && usableNeighbour j.f0Parity (s.refRecord j.feed j.refs.prev2),
        ⟨⟨[], []⟩, ⟨[], []⟩, ⟨[], []⟩, ⟨[], []⟩⟩⟩ := by
  unfold State.serviceOf
  rw [keptBy_eq]
  rfl

/-! ## The half that the build claims (R95, R142) -/

theorem claimHalf_ready (s : State) (n : Feed) (h : (s.otx.get n).otherHalf.state = .ready) :
    s.claimHalf n =
      (s.setOtx n ((s.otx.get n).setOther ⟨.filling, none, (s.otx.get n).otherHalf.source⟩)).count n .framesDiscarded 1 := by
  unfold State.claimHalf
  simp [h]

theorem claimHalf_other (s : State) (n : Feed) (h : (s.otx.get n).otherHalf.state ≠ .ready) :
    s.claimHalf n = s.setOtx n ((s.otx.get n).setOther ⟨.filling, none, (s.otx.get n).otherHalf.source⟩) := by
  unfold State.claimHalf
  simp [h]

/-- A half that is not SENDING, put in place of the one that is not, leaves the SENDING half. -/
theorem setOther_halves (t : Transmitter) (h : Half) (hh : h.state ≠ .sending) :
    (t.setOther h).sendingHalf = t.sendingHalf ∧ (t.setOther h).otherHalf = h := by
  have hbeq : (h.state == HalfState.sending) = false := by simpa using hh
  unfold Transmitter.setOther Transmitter.sendingHalf Transmitter.otherHalf Transmitter.sends0
  by_cases h0 : (t.half0.state == HalfState.sending) = true
  · simp [h0]
  · simp [h0, hbeq]

/-- Settles O35: the start's steps in order, the adoption of a set, the claim of a half. -/
theorem jobStarts : Obligations.JobStarts := by
  refine ⟨fun s j => ?_, adoptSets_eq, fun s t ht _ => ⟨adoptSet_idle s t, fun h => ?_⟩, fun s n => ⟨claimHalf_ready s n,
    claimHalf_other s n, fun _ => ?_⟩⟩
  · unfold State.startJob
    dsimp only
    rw [serviceOf_eq]
  · obtain ⟨hkeeps, hothers, hset⟩ := adoptSet_spec s t ht h
    refine ⟨hkeeps, hothers, ?_⟩
    rw [hset]
    exact ⟨coefficientRows_length _ _, fun q hq => coefficientRows_row _ _ q hq⟩
  · obtain ⟨hsending, hother⟩ := setOther_halves (s.otx.get n) ⟨.filling, none, (s.otx.get n).otherHalf.source⟩ (by nofun)
    rw [setOtx_otx, Quad_get_set_same, hsending, hother]
    exact ⟨rfl, rfl⟩

end Sys2Proof.Machine
end

section
namespace Sys2Proof.Machine

/-! ## The state right after reset (R134, R158, R187, R188) -/

/-- The reset sets: 64 rows, in row q the two middle taps at 128-2q and 2q (R134). -/
theorem linearHSet_row (q : Nat) (h : q < 64) :
    linearHSet.length = 64 ∧ linearHSet.getD q [] = [0, 0, 0, 128 - 2 * (q : Int), 2 * (q : Int), 0, 0, 0] := by
  simp [linearHSet, h]

theorem linearVSet_row (q : Nat) (h : q < 64) :
    linearVSet.length = 64 ∧ linearVSet.getD q [] = [0, 128 - 2 * (q : Int), 2 * (q : Int), 0] := by
  simp [linearVSet, h]

theorem reset_sets (k : Fin 4) : State.reset.fen.hsets.get k = linearHSet ∧ State.reset.fen.vsets.get k = linearVSet :=
  ⟨Quad_get_all _ k, Quad_get_all _ k⟩

theorem reset_copies (t : TableId) : (State.reset.copy t).ready = false := by
  fin_cases t <;> rfl

/-- STORE_CORRECTED alone is masked (R188). -/
theorem reset_masks : ∀ i, i < 24 → (State.reset.ntu.settings.getD i ⟨0, false⟩).masked = (i == 12) := by decide

/-- Settles O8: the four feeds alike, the rest item by item. -/
theorem resetValues : Obligations.ResetValues := by
  refine ⟨fun n => ?_, rfl, rfl, rfl, rfl, rfl, rfl, rfl, rfl, fun k q hq => ?_, rfl, reset_copies, rfl, rfl, rfl, rfl,
    reset_masks, rfl, rfl, rfl, rfl⟩
  · fin_cases n <;> exact ⟨rfl, rfl, rfl, rfl, rfl, rfl, rfl, rfl, rfl⟩
  · obtain ⟨hh, hv⟩ := reset_sets k
    obtain ⟨hlen, hrow⟩ := linearHSet_row q hq
    obtain ⟨vlen, vrow⟩ := linearVSet_row q hq
    rw [hh, hv]
    exact ⟨hlen, vlen, hrow, vrow⟩

end Sys2Proof.Machine
end

-- ==== Sys2Proof/Proofs: ingest conditioning and field measures ====
section
/-! The statements about the ingest conditioner: the trim, map packets, the measures, and the closure work. First what the
conditioner's operations do, then each statement from that. -/

namespace Sys2Proof.Machine

/-! ## Trim (R46) -/

theorem trimValue_range (t : Trim) (c : Int) (v : Nat) : 4 ≤ trimValue t c v ∧ trimValue t c v ≤ 1019 := by
  unfold trimValue clampInt
  omega

/-- No trimmed value is cut off by the width of a word. -/
theorem trimWord_toNat (t : Trim) (c : Int) (w : Word) : ((trimWord t c w).toNat : Int) = trimValue t c w.toNat := by
  obtain ⟨hlow, hhigh⟩ := trimValue_range t c w.toNat
  exact sampleOf_toNat _ (by omega) (by omega)

theorem trimWord_range (t : Trim) (c : Int) (w : Word) : 4 ≤ (trimWord t c w).toNat ∧ (trimWord t c w).toNat ≤ 1019 := by
  have hvalue := trimWord_toNat t c w
  have hrange := trimValue_range t c w.toNat
  omega

/-- A gain of 1 without lift keeps every value that the clamp lets pass. -/
theorem trimValue_unit (c : Int) (v : Nat) (hlow : 4 ≤ v) (hhigh : v ≤ 1019) : trimValue ⟨1024, 0⟩ c v = v := by
  unfold trimValue clampInt
  dsimp only
  omega

theorem trimWord_unit (c : Int) (w : Word) (hlow : 4 ≤ w.toNat) (hhigh : w.toNat ≤ 1019) : trimWord ⟨1024, 0⟩ c w = w := by
  apply BitVec.eq_of_toNat_eq
  exact Int.ofNat_inj.1 ((trimWord_toNat ⟨1024, 0⟩ c w).trans (trimValue_unit c w.toNat hlow hhigh))

/-- Settles O21: the word by its value before the width is applied, the line by the store's write of it. -/
theorem trimOfLine : Obligations.TrimOfLine := by
  refine ⟨fun t l => ⟨rfl, rfl, rfl, fun c w => ⟨trimWord_toNat t c w, trimWord_range t c w⟩, ?_⟩,
    fun s n a m l r k t hlost hr hk ht => storeLine_slot s n a m l r k t hlost hr hk ht⟩
  rintro rfl c w hlow hhigh
  exact trimWord_unit c w hlow hhigh

end Sys2Proof.Machine
end

section
namespace Sys2Proof.Machine

/-! ## Map packets (R47) -/

theorem routePacket_map (s : State) (n : Feed) (d : Straps) (p : Packet) (h : p.kind = kindMap) :
    s.routePacket n d p = s.takeMapPacket n p := by
  have hcue : p.kind ≠ kindCue := by
    rw [h]
    decide
  unfold State.routePacket
  exact (if_neg hcue).trans (if_pos h)

theorem takeMapPacket_idle (s : State) (n : Feed) (p : Packet) (h : (s.lrx.get n).arriving = none) :
    s.takeMapPacket n p = s := by
  unfold State.takeMapPacket
  rw [h]

theorem takeMapPacket_arriving (s : State) (n : Feed) (p : Packet) (a : Arriving) (h : (s.lrx.get n).arriving = some a) :
    s.takeMapPacket n p =
      if p.checkOk = true ∧ p.payload.length % 3 = 0 ∧ a.linesReceived = 0 then
        (mapEntriesOf p.payload).foldl (State.takeMapEntry n) s
      else s := by
  unfold State.takeMapPacket
  rw [h]
  simp only [Bool.and_eq_true, beq_iff_eq, and_assoc]

theorem takeMapPacket_discarded (s : State) (n : Feed) (p : Packet)
    (h : (s.lrx.get n).arriving = none ∨ (∃ a, (s.lrx.get n).arriving = some a ∧ 0 < a.linesReceived) ∨
      p.checkOk = false ∨ p.payload.length % 3 ≠ 0) : s.takeMapPacket n p = s := by
  cases ha : (s.lrx.get n).arriving with
  | none => exact takeMapPacket_idle s n p ha
  | some a =>
    rw [takeMapPacket_arriving s n p a ha, if_neg]
    rintro ⟨hcheck, hlength, hfirst⟩
    rcases h with h | ⟨b, hb, hpos⟩ | h | h
    · exact Option.some_ne_none a (ha.symm.trans h)
    · obtain rfl : a = b := Option.some.inj (ha.symm.trans hb)
      omega
    · exact Bool.false_ne_true (h.symm.trans hcheck)
    · exact h hlength

/-! ## Map entries (R48) -/

theorem takeMapEntry_below (s : State) (n : Feed) (a : Arriving) (line cond : Nat) (ha : (s.lrx.get n).arriving = some a)
    (hk : (s.ing.get n).mapEntries < 64) :
    s.takeMapEntry n (line, cond) =
      (s.withArriving n { a with map := a.map.apply (s.fieldLines n) line cond }).setIng n
        { s.ing.get n with mapEntries := (s.ing.get n).mapEntries + 1 } := by
  unfold State.takeMapEntry
  rw [ha]
  exact if_pos hk

theorem takeMapEntry_excess (s : State) (n : Feed) (a : Arriving) (e : Nat × Nat) (ha : (s.lrx.get n).arriving = some a)
    (hk : 64 ≤ (s.ing.get n).mapEntries) : s.takeMapEntry n e = s.mapOverflow n a.seq := by
  unfold State.takeMapEntry
  rw [ha]
  exact if_neg (Nat.not_lt.2 hk)

theorem mapOverflow_gone (s : State) (n : Feed) (q : Seq) (h : s.record n q = none) : s.mapOverflow n q = s := by
  unfold State.mapOverflow
  rw [h]

theorem mapOverflow_again (s : State) (n : Feed) (q : Seq) (r : FieldRecord) (h : s.record n q = some r)
    (hr : r.conditions.mapOverflow = true) : s.mapOverflow n q = s := by
  unfold State.mapOverflow
  rw [h]
  exact if_pos hr

theorem mapOverflow_first (s : State) (n : Feed) (q : Seq) (r : FieldRecord) (h : s.record n q = some r)
    (hr : r.conditions.mapOverflow = false) :
    s.mapOverflow n q =
      (s.modifyRecord n q (fun x => { x with conditions := { x.conditions with mapOverflow := true } })).raise
        .mapOverflow (.feed n) (.sequence q) := by
  unfold State.mapOverflow
  rw [h]
  exact if_neg (Bool.eq_false_iff.1 hr)

namespace DropoutMap

variable (m : DropoutMap) (lines line cond x : Nat)

theorem mem_apply_lost : x ∈ (m.apply lines line cond).lost ↔ x ∈ m.lost ∨ (x = line ∧ line < lines ∧ cond = 1) := by
  unfold DropoutMap.apply
  split
  · next h => simp [Nat.not_lt.2 h]
  · next h =>
    split
    · next h1 =>
      simp only [mem_insertAscending, Nat.not_le.1 h, h1]
      tauto
    · next h1 =>
      simp only [h1, and_false, or_false]
      split
      · split <;> rfl
      · rfl

theorem mem_apply_concealed :
    x ∈ (m.apply lines line cond).concealed ↔
      (x ∈ m.concealed ∧ ¬(x = line ∧ line < lines ∧ cond = 1)) ∨
        (x = line ∧ line < lines ∧ cond = 2 ∧ line ∉ m.lost) := by
  unfold DropoutMap.apply
  split
  · next h => simp [Nat.not_lt.2 h]
  · next h =>
    have hline := Nat.not_le.1 h
    split
    · next h1 => simp [List.mem_filter, h1, hline]
    · next h1 =>
      split
      · next h2 =>
        split
        · next hlost => simp [h1, List.contains_iff_mem.1 hlost]
        · next hlost =>
          have hfree : line ∉ m.lost := fun hmem => hlost (List.contains_iff_mem.2 hmem)
          simp only [mem_insertAscending, h2, hfree, hline]
          tauto
      · next h2 => simp [h1, h2]

end DropoutMap

/-- Settles O24: the packet's routing and its tests, and one entry below and above the count. -/
theorem mapPacketTaken : Obligations.MapPacketTaken := by
  refine ⟨fun n p d s hs hp hm => ?_, fun h l c ws => ⟨rfl, rfl⟩, fun n s a line cond ha => ⟨fun hk => ?_, fun hk => ?_⟩,
    fun m lines line cond x => ⟨m.mem_apply_lost lines line cond x, m.mem_apply_concealed lines line cond x⟩⟩
  · rw [exec_blankingPacket n _ d s hs, blankingLine_one s n p d hp, routePacket_map s n d p hm]
    refine ⟨fun h => congrArg Host.Outcome.next (takeMapPacket_discarded s n p h), fun a ha hfirst hcheck hlength => ?_⟩
    rw [takeMapPacket_arriving s n p a ha, if_pos ⟨hcheck, hlength, hfirst⟩]
  · exact takeMapEntry_below s n a line cond ha hk
  · rw [takeMapEntry_excess s n a (line, cond) ha hk]
    exact ⟨mapOverflow_gone s n a.seq, fun r hr => ⟨mapOverflow_again s n a.seq r hr, mapOverflow_first s n a.seq r hr⟩⟩

end Sys2Proof.Machine
end

section
namespace Sys2Proof.Machine

/-! ## Sums over lists -/

/-- An accumulated sum is the sum of the list's values. -/
theorem foldl_add_eq_sum {α : Type} (f : α → Nat) (l : List α) :
    l.foldl (fun acc x => acc + f x) 0 = (l.map f).sum := by
  rw [List.sum_eq_foldl, List.foldl_map]

/-- The sum of a measure: over all samples, the value of each sample position. -/
def sampleSum {α : Type} (f : α → Nat → Nat) (l : List α) : Nat :=
  (l.map (fun x => ((List.range 180).map (f x)).sum)).sum

theorem sampleSum_le {α : Type} (f : α → Nat → Nat) (l : List α) (b : Nat) (h : ∀ x ∈ l, ∀ i, i < 180 → f x i ≤ b) :
    sampleSum f l ≤ l.length * (180 * b) := by
  refine (List.sum_le_card_nsmul _ (180 * b) ?_).trans_eq (by rw [List.length_map, smul_eq_mul])
  rintro _ hmem
  obtain ⟨x, hx, rfl⟩ := List.mem_map.1 hmem
  refine (List.sum_le_card_nsmul _ b ?_).trans_eq (by rw [List.length_map, List.length_range, smul_eq_mul])
  rintro _ hmem
  obtain ⟨i, hi, rfl⟩ := List.mem_map.1 hmem
  exact h x hx i (List.mem_range.1 hi)

/-- A scaled mean of samples that are at most b is at most b times the scale. -/
theorem scaledMean_le {α : Type} (f : α → Nat → Nat) (l : List α) (b scale : Nat)
    (h : ∀ x ∈ l, ∀ i, i < 180 → f x i ≤ b) : sampleSum f l * scale / (180 * l.length) ≤ b * scale := by
  apply Nat.div_le_of_le_mul
  calc sampleSum f l * scale ≤ l.length * (180 * b) * scale := Nat.mul_le_mul_right scale (sampleSum_le f l b h)
    _ = 180 * l.length * (b * scale) := by ring

/-! ## Dsame and Cprev (R52, R53) -/

/-- Sample i of the 180 that the measures take of a line: luma position 4 times i. -/
abbrev measuredLuma (l : Line) (i : Nat) : Int := (Line.luma l (4 * i) : Int)

/-- The difference of two lines at a measured sample (R52). -/
def sampleDiff (p : Line × Line) (i : Nat) : Nat := (measuredLuma p.1 i - measuredLuma p.2 i).natAbs

/-- The comb value of three lines at a measured sample (R53). -/
def sampleComb (t : Line × Line × Line) (i : Nat) : Nat :=
  (2 * measuredLuma t.2.1 i - measuredLuma t.1 i - measuredLuma t.2.2 i).natAbs

theorem pairSum_eq (p : Line × Line) : pairSum p = ((List.range 180).map (sampleDiff p)).sum := by
  unfold pairSum measurePositions
  rw [foldl_add_eq_sum, List.map_map]
  rfl

theorem absDiff_comb (t : Line × Line × Line) (i : Nat) :
    absDiff (2 * Line.luma t.2.1 (4 * i)) (Line.luma t.1 (4 * i) + Line.luma t.2.2 (4 * i)) = sampleComb t i := by
  unfold absDiff sampleComb measuredLuma
  push_cast
  rw [sub_sub]

theorem trioSum_eq (t : Line × Line × Line) : trioSum t = ((List.range 180).map (sampleComb t)).sum := by
  unfold trioSum measurePositions
  rw [foldl_add_eq_sum, List.map_map]
  exact congrArg List.sum (List.map_congr_left (fun i _ => absDiff_comb t i))

theorem dsameOf_nil : dsameOf [] = none := rfl

theorem dsameOf_ne_nil (pairs : List (Line × Line)) (h : pairs ≠ []) :
    dsameOf pairs = some (sampleSum sampleDiff pairs * 16 / (180 * pairs.length)) := by
  unfold dsameOf sampleSum
  rw [if_neg (by simpa using h), foldl_add_eq_sum, funext pairSum_eq]

theorem cprevOf_nil : cprevOf [] = none := rfl

theorem cprevOf_ne_nil (trios : List (Line × Line × Line)) (h : trios ≠ []) :
    cprevOf trios = some (sampleSum sampleComb trios * 8 / (180 * trios.length)) := by
  unfold cprevOf sampleSum
  rw [if_neg (by simpa using h), foldl_add_eq_sum, funext trioSum_eq]

theorem sampleDiff_le (p : Line × Line) (i : Nat) : sampleDiff p i ≤ 1023 := by
  unfold sampleDiff measuredLuma Line.luma
  omega

theorem sampleComb_le (t : Line × Line × Line) (i : Nat) (h0 : 4 ≤ measuredLuma t.1 i ∧ measuredLuma t.1 i ≤ 1019)
    (h1 : 4 ≤ measuredLuma t.2.1 i ∧ measuredLuma t.2.1 i ≤ 1019) (h2 : 4 ≤ measuredLuma t.2.2 i ∧ measuredLuma t.2.2 i ≤ 1019) :
    sampleComb t i ≤ 2030 := by
  unfold sampleComb
  omega

theorem dsameOf_le (pairs : List (Line × Line)) (d : Nat) (h : dsameOf pairs = some d) : d ≤ 16368 := by
  by_cases hp : pairs = []
  · subst hp
    cases h
  · obtain rfl := Option.some.inj ((dsameOf_ne_nil pairs hp).symm.trans h)
    exact scaledMean_le sampleDiff pairs 1023 16 (fun p _ i _ => sampleDiff_le p i)

theorem cprevOf_le (trios : List (Line × Line × Line)) (c : Nat)
    (hs : ∀ t ∈ trios, ∀ i, i < 180 →
      (4 ≤ measuredLuma t.1 i ∧ measuredLuma t.1 i ≤ 1019) ∧ (4 ≤ measuredLuma t.2.1 i ∧ measuredLuma t.2.1 i ≤ 1019) ∧
        (4 ≤ measuredLuma t.2.2 i ∧ measuredLuma t.2.2 i ≤ 1019)) (h : cprevOf trios = some c) : c ≤ 16240 := by
  by_cases ht : trios = []
  · subst ht
    cases h
  · obtain rfl := Option.some.inj ((cprevOf_ne_nil trios ht).symm.trans h)
    refine scaledMean_le sampleComb trios 2030 8 (fun t hmem i hi => ?_)
    obtain ⟨h0, h1, h2⟩ := hs t hmem i hi
    exact sampleComb_le t i h0 h1 h2

/-! ## The compared lines (R51 to R53) -/

/-- A line outside the lost and the damaged set of its record. -/
def FieldRecord.intact (r : FieldRecord) (m : Nat) : Bool := !r.lost.contains m && !r.damaged.contains m

theorem lineIf_slot (mem : Memory) (r : FieldRecord) (k : Fin 24) (m : Nat) (h : r.content = .slot k) :
    r.lineIf mem m = if r.intact m = true then some (lineAt mem k m) else none := by
  unfold FieldRecord.lineIf FieldRecord.usableLine FieldRecord.hasContent FieldRecord.intact
  rw [h]
  dsimp only
  rw [Bool.true_and]

/-- To keep what a test passes and then map it is to map and drop in one pass. -/
theorem filterMap_ite {α β : Type} (p : α → Bool) (f : α → β) (l : List α) :
    l.filterMap (fun x => if p x = true then some (f x) else none) = (l.filter p).map f := by
  rw [← List.filterMap_eq_map, List.filterMap_filter]
  rfl

theorem middleLine_eq (p : Parity) (m : Nat) : middleLine p m = if p = .upper then m else m + 1 := by
  cases p <;> rfl

section
variable (mem : Memory) (lines : Nat) (f0 x : FieldRecord) (k l : Fin 24)

theorem comparedPairs_slots (hk : f0.content = .slot k) (hl : x.content = .slot l) :
    comparedPairs mem lines f0 x =
      ((List.range lines).filter (fun m => f0.intact m && x.intact m)).map
        (fun m => (lineAt mem k m, lineAt mem l m)) := by
  unfold comparedPairs
  rw [← filterMap_ite]
  refine List.filterMap_congr (fun m _ => ?_)
  rw [lineIf_slot mem f0 k m hk, lineIf_slot mem x l m hl]
  cases f0.intact m <;> cases x.intact m <;> rfl

theorem countedTrios_slots (hk : f0.content = .slot k) (hl : x.content = .slot l) :
    countedTrios mem lines f0 x =
      ((List.range (lines - 1)).filter
        (fun m => f0.intact m && x.intact (middleLine f0.parity m) && f0.intact (m + 1))).map
          (fun m => (lineAt mem k m, lineAt mem l (middleLine f0.parity m), lineAt mem k (m + 1))) := by
  unfold countedTrios
  rw [← filterMap_ite]
  refine List.filterMap_congr (fun m _ => ?_)
  rw [lineIf_slot mem f0 k m hk, lineIf_slot mem x l _ hl, lineIf_slot mem f0 k (m + 1) hk]
  cases f0.intact m <;> cases x.intact (middleLine f0.parity m) <;> cases f0.intact (m + 1) <;> rfl

end

/-! ## The records compared (R35, R52, R53) -/

theorem hasContent_iff (r : FieldRecord) : r.hasContent = true ↔ ∃ k, r.content = .slot k := by
  unfold FieldRecord.hasContent
  cases r.content <;> simp

theorem dsameRecord_eq_some (blocked : Bool) (f0 r : FieldRecord) (o : Option FieldRecord) :
    dsameRecord blocked f0 o = some r ↔
      o = some r ∧ blocked = false ∧ (∃ k, r.content = .slot k) ∧ r.parity = f0.parity := by
  cases o with
  | none => exact ⟨nofun, fun h => absurd h.1 nofun⟩
  | some x =>
    refine Option.ite_none_left_eq_some.trans ?_
    rw [and_comm, Option.some.injEq]
    refine and_congr_right fun hx => ?_
    subst hx
    simp [← hasContent_iff, and_assoc]

theorem cprevRecord_eq_some (f0 r : FieldRecord) (o : Option FieldRecord) :
    cprevRecord f0 o = some r ↔
      o = some r ∧ (∃ k, r.content = .slot k) ∧ r.parity ≠ f0.parity ∧ r.poor = false := by
  cases o with
  | none => exact ⟨nofun, fun h => absurd h.1 nofun⟩
  | some x =>
    refine Option.ite_none_left_eq_some.trans ?_
    rw [and_comm, Option.some.injEq]
    refine and_congr_right fun hx => ?_
    subst hx
    simp [← hasContent_iff, and_assoc]

/-! ## The reads of a closure (R51, log entry 18) -/

/-- The conditioner's reads of feed n's lines, each named by its record and its line, in order. -/
abbrev State.readDueLines (s : State) (n : Feed) (due : List (Seq × Nat)) : State :=
  due.foldl (fun t x => (t.readLine false n x.1 x.2).2) s

/-- The lines that a closure reads: of F0, of the record two back, of the previous record. -/
abbrev closureDue (lines : Nat) (f0 : FieldRecord) (back prev : Option FieldRecord) : List (Seq × Nat) :=
  (if back.isSome = true ∨ prev.isSome = true then (List.range lines).map (fun m => (f0.seq, m)) else []) ++
    back.toList.flatMap (fun r => (List.range lines).map (fun m => (r.seq, m))) ++
    prev.toList.flatMap
      (fun r => (List.range (lines - 1)).map (fun m => (r.seq, if f0.parity = .upper then m else m + 1)))

theorem readLines_eq (n : Feed) (q : Seq) (ms : List Nat) (s : State) :
    s.readLines n q ms = s.readDueLines n (ms.map (fun m => (q, m))) := by
  unfold State.readLines State.readDueLines
  rw [List.foldl_map]

theorem closureReads_eq (s : State) (n : Feed) (lines : Nat) (f0 : FieldRecord) (back prev : Option FieldRecord) :
    s.closureReads n lines f0 back prev = s.readDueLines n (closureDue lines f0 back prev) := by
  unfold State.closureReads State.readDueLines closureDue
  rw [List.foldl_append, List.foldl_append]
  cases back <;> cases prev <;> simp [readLines_eq, State.readDueLines, Function.comp_def, middleLine_eq]

/-! ## The measures entered (R52, R53, R56) -/

section
variable {s : State} {n : Feed} {q : Seq} {earlier later : List FieldRecord} {f0 : FieldRecord}

/-- A number that no earlier record has finds its record. -/
theorem record_of_history (h : s.history n = earlier ++ f0 :: later) (hq : f0.seq = q) (he : ∀ r ∈ earlier, r.seq ≠ q) :
    s.record n q = some f0 := by
  unfold State.record
  rw [h, List.find?_eq_some_iff_append]
  exact ⟨by simpa using hq, earlier, later, rfl, by simpa using he⟩

theorem before_of_history (h : s.history n = earlier ++ f0 :: later) (hq : f0.seq = q) (he : ∀ r ∈ earlier, r.seq ≠ q) :
    s.before n q = earlier.reverse := by
  unfold State.before
  rw [h, List.takeWhile_append_of_pos (by simpa using he), List.takeWhile_cons_of_neg (by simpa using hq),
    List.append_nil]

end

theorem measureWith_eq {α : Type} (f0 other : Option FieldRecord) (f : FieldRecord → FieldRecord → Option α) :
    measureWith f0 other f = f0.bind (fun a => other.bind (fun b => f a b)) := by
  cases f0 <;> cases other <;> rfl

/-- A record of feed n as it stands in state s. -/
abbrev State.recordNow (s : State) (n : Feed) (o : Option FieldRecord) : Option FieldRecord :=
  o.bind (fun r => s.record n r.seq)

/-- The measures of a record that is found, from the records before it, after the reads of the closure. -/
theorem enterMeasures_eq (s : State) (n : Feed) (q : Seq) (f0 : FieldRecord) (back prev : Option FieldRecord)
    (hr : s.record n q = some f0)
    (hback : dsameRecord (decide ((s.settings n).cls.val ≤ 1) && s.fst.tight) f0 (s.before n q)[1]? = back)
    (hprev : cprevRecord f0 (s.before n q)[0]? = prev) :
    let u := s.readDueLines n (closureDue (s.fieldLines n) f0 back prev)
    s.enterMeasures n q = u.modifyRecord n q (fun r => { r with
      dsame := (u.record n q).bind fun a => (u.recordNow n back).bind fun b =>
        dsameOf (comparedPairs u.fst.mem (s.fieldLines n) a b)
      cprev := (u.record n q).bind fun a => (u.recordNow n prev).bind fun b =>
        cprevOf (countedTrios u.fst.mem (s.fieldLines n) a b) }) := by
  intro u
  unfold State.enterMeasures
  rw [hr]
  dsimp only
  rw [hback, hprev, closureReads_eq, measureWith_eq, measureWith_eq]
  cases back <;> cases prev <;> rfl

/-- Settles O25: the sums, the compared lines, the records that enter, and the entry after the reads. -/
theorem measures : Obligations.Measures := by
  refine ⟨fun pairs => ⟨?_, dsameOf_ne_nil pairs, dsameOf_le pairs⟩,
    fun trios => ⟨?_, cprevOf_ne_nil trios, fun hs c => cprevOf_le trios c hs⟩,
    fun mem lines f0 x k l hk hl => ⟨comparedPairs_slots mem lines f0 x k l hk hl, ?_⟩,
    fun blocked f0 r o => ⟨dsameRecord_eq_some blocked f0 r o, cprevRecord_eq_some f0 r o⟩, ?_⟩
  · rintro rfl
    exact dsameOf_nil
  · rintro rfl
    exact cprevOf_nil
  · have := countedTrios_slots mem lines f0 x k l hk hl
    simp only [middleLine_eq] at this
    exact this
  · rintro s n q earlier later f0 h rfl he
    have hbefore := before_of_history h rfl he
    have heq := enterMeasures_eq s n f0.seq f0 _ _ (record_of_history h rfl he) rfl rfl
    rw [hbefore] at heq
    exact heq

end Sys2Proof.Machine
end

section
namespace Sys2Proof.Machine

/-! ## The map at closure (R50) -/

/-- The map's CONCEALED lines outside a lost set. -/
def DropoutMap.concealedOutside (m : DropoutMap) (lost : List Nat) : Nat :=
  (m.concealed.filter (fun x => !lost.contains x)).length

theorem enterMap_found (s : State) (n : Feed) (q : Seq) (m : DropoutMap) (r : FieldRecord) (h : s.record n q = some r) :
    let lost := insertAll m.lost r.lost
    s.enterMap n q m =
      ((s.modifyRecord n q (fun x => { x with lost := lost, concealed := m.concealedOutside lost })).count n .linesLost
        lost.length).count n .linesConcealed (m.concealedOutside lost) := by
  unfold State.enterMap
  rw [h]
  rfl

/-- The concealed lines counted are those that neither the record nor the map has as lost. -/
theorem concealedOutside_insertAll (m : DropoutMap) (lost : List Nat) :
    m.concealedOutside (insertAll m.lost lost) =
      m.concealed.countP (fun x => decide (x ∉ lost) && decide (x ∉ m.lost)) := by
  unfold DropoutMap.concealedOutside
  rw [← List.countP_eq_length_filter]
  refine List.countP_congr (fun x _ => ?_)
  simp only [Bool.not_eq_true', List.contains_eq_mem, decide_eq_false_iff_not, mem_insertAll, Bool.and_eq_true,
    decide_eq_true_eq]
  tauto

/-! ## The poor mark of MAP_OVERFLOW (R56) -/

theorem overflowPoor_set (s : State) (n : Feed) (q : Seq) (r : FieldRecord) (h : s.record n q = some r)
    (hr : r.conditions.mapOverflow = true) :
    s.overflowPoor n q = s.modifyRecord n q (fun x => { x with poor := true }) := by
  unfold State.overflowPoor
  rw [h]
  exact if_pos hr

theorem overflowPoor_clear (s : State) (n : Feed) (q : Seq) (r : FieldRecord) (h : s.record n q = some r)
    (hr : r.conditions.mapOverflow = false) : s.overflowPoor n q = s := by
  unfold State.overflowPoor
  rw [h]
  exact if_neg (Bool.eq_false_iff.1 hr)

/-! ## The watch limits (R54, R55) -/

/-- A reading on the side of the limit's value that its direction watches; the value itself is on neither. -/
abbrev Watch.beyond (w : Watch) (v : Nat) : Prop :=
  match w.direction with
  | .above => w.value < v
  | .below => v < w.value

theorem crossed_iff (w : Watch) (r : FieldRecord) :
    w.crossed r = true ↔ w.enabled = true ∧ ∃ v, w.reading r = some v ∧ w.beyond v := by
  unfold Watch.crossed Watch.beyond
  rw [Bool.and_eq_true]
  refine and_congr_right fun _ => ?_
  cases w.reading r with
  | none => simp
  | some v => cases w.direction <;> simp

section
variable (s : State) (n : Feed) (q : Seq) (r : FieldRecord) (w : Watch) (k : NoticeKind) (h : s.record n q = some r)
include h

theorem watchLimit_quiet (hw : ¬w.crossed r = true) : s.watchLimit n q w k = s := by
  unfold State.watchLimit
  rw [h]
  exact if_neg hw

theorem watchLimit_note (hw : w.crossed r = true) (ha : w.action = .note) :
    s.watchLimit n q w k = s.raise k (.feed n) (.sequence q) := by
  unfold State.watchLimit
  rw [h, ha]
  exact if_pos hw

theorem watchLimit_poor (hw : w.crossed r = true) (ha : w.action = .poor) :
    s.watchLimit n q w k =
      (s.raise k (.feed n) (.sequence q)).modifyRecord n q (fun x => { x with poor := true }) := by
  unfold State.watchLimit
  rw [h, ha]
  exact if_pos hw

end

/-- Settles O26: the order of the closure work is the definition's; the map, the poor mark and a limit each by its cases. -/
theorem closureMapAndWatch : Obligations.ClosureMapAndWatch := by
  refine ⟨fun s n q m => ⟨rfl, rfl⟩, fun s n q m r hr => ?_, fun s n q r hr =>
    ⟨overflowPoor_set s n q r hr, overflowPoor_clear s n q r hr, fun w k => ?_⟩⟩
  · exact ⟨insertAll m.lost r.lost, _, enterMap_found s n q m r hr, fun x => (mem_insertAll _ _ x).trans or_comm,
      insertAll_sorted _ _, concealedOutside_insertAll m r.lost⟩
  · have hcrossed := crossed_iff w r
    exact ⟨fun hw => watchLimit_quiet s n q r w k hr (fun hc => hw (hcrossed.1 hc)),
      fun hw => watchLimit_note s n q r w k hr (hcrossed.2 hw), fun hw => watchLimit_poor s n q r w k hr (hcrossed.2 hw)⟩

end Sys2Proof.Machine
end

-- ==== Sys2Proof/Proofs: cadence tracking ====
section
/-! The statements about the cadence tracker: the evidence event, the tracker's states, its reset, an adopted table, a mask and a
force; and the latches with the status records, which rank hypotheses too. First what the operations do, then each statement from
that. -/

namespace Sys2Proof.Machine

/-! ## The evidence of F0 (R67) -/

theorem hasContent_gap (r : FieldRecord) (c : GapCause) (h : r.content = .gap c) : r.hasContent = false := by
  unfold FieldRecord.hasContent
  rw [h]

section
variable (a : Settings) (f0 new : FieldRecord)

theorem classify_broken (h : f0.conditions.parityRepeat = true ∨ new.conditions.parityRepeat = true) :
    classify a f0 new = .brk := by
  unfold classify
  rw [if_pos (by simpa using h)]

/-- A record that is not fit for the tests on the comb measures. -/
theorem classify_unfit (h0 : f0.conditions.parityRepeat = false) (h1 : new.conditions.parityRepeat = false)
    (h : f0.hasContent = false ∨ f0.poor = true ∨ f0.cprev = none ∨ new.cprev = none) : classify a f0 new = .ambig := by
  unfold classify
  rw [if_neg (by simp [h0, h1])]
  split
  · rfl
  · next hs =>
    simp only [Bool.or_eq_true, Bool.not_eq_true', not_or] at hs
    obtain ⟨hcontent, hpoor⟩ := hs
    rcases h with h | h | h | h
    · exact absurd h hcontent
    · exact absurd h hpoor
    · rw [h]
    · rw [h]
      cases f0.cprev <;> rfl

/-- The tests on the two comb measures, for a record that is fit for them. -/
theorem classify_measured (cp cn : Nat) (h0 : f0.conditions.parityRepeat = false)
    (h1 : new.conditions.parityRepeat = false) (hc : f0.hasContent = true) (hp : f0.poor = false)
    (hcp : f0.cprev = some cp) (hcn : new.cprev = some cn) :
    classify a f0 new =
      if cn + a.minContrast ≤ cp ∧ 2 * cn ≤ cp then .next
      else if cp + a.minContrast ≤ cn ∧ 2 * cp ≤ cn then
        if ∃ ds, f0.dsame = some ds ∧ ds ≤ a.repeatLimit then .prevRepeat else .prev
      else .ambig := by
  unfold classify
  rw [if_neg (by simp [h0, h1]), if_neg (by simp [hc, hp]), hcp, hcn]
  cases f0.dsame <;> simp

end

/-! ## Steps and evidence (R69), the update of a hypothesis (R70) -/

theorem stepMatch_eq_none (k : StepKind) (e : Evidence) (ds : Bool) : stepMatch k e ds = none ↔ e = .ambig := by
  cases e <;> cases k <;> simp [stepMatch]

theorem stepMatch_brk (k : StepKind) (ds : Bool) : stepMatch k .brk ds = some false := rfl

theorem stepMatch_eq_true (k : StepKind) (e : Evidence) (ds : Bool) :
    stepMatch k e ds = some true ↔
      (k = .opens ∧ e = .next) ∨ (k = .closes ∧ (e = .prev ∨ e = .prevRepeat)) ∨
        (k = .repeats ∧ (e = .prevRepeat ∨ (e = .prev ∧ ds = false))) := by
  cases k <;> cases e <;> simp [stepMatch]

section
variable (t : CadenceTable) (e : Evidence) (ds : Bool) (h : Hypothesis)

theorem updateHyp_match (hm : stepMatch (t.stepOf h.program h.current) e ds = some true) :
    (updateHyp t e ds h).run = if h.run < 15 then h.run + 1 else 15 := by
  unfold updateHyp
  simp only [hm]
  split <;> omega

theorem updateHyp_mismatch (hm : stepMatch (t.stepOf h.program h.current) e ds = some false) :
    (updateHyp t e ds h).run = 0 := by
  unfold updateHyp
  simp only [hm]

theorem updateHyp_ambig (he : e = .ambig) : (updateHyp t e ds h).run = h.run := by
  unfold updateHyp
  simp only [(stepMatch_eq_none _ e ds).2 he]

theorem updateHyp_brk (he : e = .brk) : (updateHyp t e ds h).run = 0 := by
  subst he
  exact updateHyp_mismatch t .brk ds h (stepMatch_brk _ ds)

end

/-! ## The evidence event (R64, R65, R79) -/

section
variable {s : State} {n : Feed} {q : Seq} {f0 new : FieldRecord} {rest : List FieldRecord}

theorem record_eq_none (h : ∀ r ∈ s.history n, r.seq ≠ q) : s.record n q = none := by
  unfold State.record
  rw [List.find?_eq_none]
  simpa using h

theorem evidenceEvent_noRecord (h : s.record n q = none) : s.evidenceEvent n q = s := by
  unfold State.evidenceEvent
  rw [h]

theorem evidenceEvent_first (h : s.before n q = []) : s.evidenceEvent n q = s := by
  unfold State.evidenceEvent
  rw [h]
  cases s.record n q <;> rfl

/-- What the tracker makes of F0 and the record after it, once a READY table is adopted (R65). -/
abbrev State.eventAction (s : State) (n : Feed) (f0 new : FieldRecord) : Option StepKind × State :=
  s.adoptCadence.trackerAction n f0.seq (classify (s.adoptCadence.settings n) f0 new) f0.dsame.isSome

/-- Up to the action of the tracker, an event changes no setting of a feed but its force (R82). -/
theorem eventAction_settings (s : State) (n m : Feed) (f0 new : FieldRecord) :
    ∃ f, (s.eventAction n f0 new).2.settings m = { s.settings m with force := f } := by
  have hmoves : Moves .quiet s (s.eventAction n f0 new).2 := (Moves.adoptCadence s).trans (Moves.trackerAction _ n _ _ _)
  obtain ⟨f, -, hf⟩ := hmoves.keeps_settings m rfl
  exact ⟨f, hf⟩

/-- A job captures no force, so it may be made before the event or after it (R79). -/
theorem eventAction_newJob (s : State) (n : Feed) (f0 new : FieldRecord) (rest : List FieldRecord) (q : Seq) (m : Mode) :
    (s.eventAction n f0 new).2.newJob n f0 rest q m = s.newJob n f0 rest q m := by
  obtain ⟨f, hf⟩ := eventAction_settings s n n f0 new
  unfold State.newJob
  rw [hf]

theorem evidenceEvent_second (hr : s.record n q = some new) (hb : s.before n q = f0 :: rest) :
    s.evidenceEvent n q =
      if f0.hasContent then
        (s.eventAction n f0 new).2.enqueue (s.newJob n f0 rest q (intendedMode (s.eventAction n f0 new).1))
      else (s.eventAction n f0 new).2 := by
  unfold State.evidenceEvent
  rw [hr, hb]
  exact ite_congr rfl (fun _ => congrArg _ (eventAction_newJob s n f0 new rest q _)) (fun _ => rfl)

end

/-- Settles O43: the event from the record and what stands before it, then R67's tests, R70's update and R69's table. -/
theorem evidenceAndUpdate : Obligations.EvidenceAndUpdate := by
  refine ⟨fun s n q => ⟨?_, ?_⟩, fun a f0 n => ⟨classify_broken a f0 n, fun h0 h1 => ⟨fun h => ?_, ?_⟩⟩,
    fun t e ds h => ⟨rfl, rfl, rfl, updateHyp_match t e ds h, updateHyp_mismatch t e ds h, stepMatch_eq_none _ e ds,
      updateHyp_ambig t e ds h, updateHyp_brk t e ds h⟩,
    stepMatch_eq_true⟩
  · rintro (hnone | ⟨r, l, hh, hq⟩)
    · exact evidenceEvent_noRecord (record_eq_none hnone)
    · exact evidenceEvent_first (before_of_history (earlier := []) hh hq (by simp))
  · rintro earlier later f0 new hh rfl hf0 hearlier
    have hsplit : s.history n = (earlier ++ [f0]) ++ new :: later := by rw [hh, List.append_assoc, List.singleton_append]
    have hbelow : ∀ r ∈ earlier ++ [f0], r.seq ≠ new.seq := by
      simpa [or_imp, forall_and] using ⟨hearlier, hf0⟩
    have hbefore : s.before n new.seq = f0 :: earlier.reverse := by
      rw [before_of_history hsplit rfl hbelow, List.reverse_append, List.reverse_singleton, List.singleton_append]
    have hevent := evidenceEvent_second (record_of_history hsplit rfl hbelow) hbefore
    refine ⟨fun ⟨c, hc⟩ => hevent.trans (if_neg ?_), fun hslot => hevent.trans (if_pos ((hasContent_iff f0).2 hslot))⟩
    rw [hasContent_gap f0 c hc]
    exact Bool.false_ne_true
  · exact classify_unfit a f0 n h0 h1 (h.imp_left (fun ⟨c, hc⟩ => hasContent_gap f0 c hc))
  · intro k cp cn hk hp hcp hcn
    rw [classify_measured a f0 n cp cn h0 h1 ((hasContent_iff f0).2 ⟨k, hk⟩) hp hcp hcn]
    refine ⟨fun hn hn2 => if_pos ⟨hn, hn2⟩, fun hnext => ?_⟩
    rw [if_neg hnext]
    refine ⟨fun hpv hpv2 => ?_, fun hprev => if_neg hprev⟩
    rw [if_pos ⟨hpv, hpv2⟩]
    refine ⟨fun ds hds hle => if_pos ⟨ds, hds, hle⟩, fun hall => if_neg ?_⟩
    rintro ⟨ds, hds, hle⟩
    exact Nat.not_lt.2 hle (hall ds hds)

end Sys2Proof.Machine
end

section
namespace Sys2Proof.Machine

/-! ## The order of hypotheses (R71) -/

theorem outranks_iff (a b : Hypothesis × Nat) :
    outranks a b = true ↔
      b.1.run < a.1.run ∨
        (a.1.run = b.1.run ∧
          (a.1.program.val < b.1.program.val ∨ (a.1.program.val = b.1.program.val ∧ a.2 < b.2))) := by
  simp [outranks, Fin.ext_iff]

theorem outranks_asymm {a b : Hypothesis × Nat} (h : outranks a b = true) : ¬outranks b a = true := by
  rw [outranks_iff] at h ⊢
  omega

theorem not_outranks_trans {a b c : Hypothesis × Nat} (hab : ¬outranks a b = true) (hbc : ¬outranks b c = true) :
    ¬outranks a c = true := by
  rw [outranks_iff] at hab hbc ⊢
  omega

/-- A step of the search for the best hypothesis. -/
def higher (best : Option (Hypothesis × Nat)) (h : Hypothesis × Nat) : Option (Hypothesis × Nat) :=
  match best with
  | none => some h
  | some b => if outranks h b then some h else some b

theorem bestHyp_eq_foldl (l : List (Hypothesis × Nat)) : bestHyp l = l.foldl higher none := rfl

/-- A search that starts from b finds one that neither b nor a member of the list outranks. -/
theorem foldl_higher (l : List (Hypothesis × Nat)) (b : Hypothesis × Nat) :
    ∃ c, l.foldl higher (some b) = some c ∧ ¬outranks b c = true ∧ ∀ x ∈ l, ¬outranks x c = true := by
  induction l generalizing b with
  | nil => exact ⟨b, rfl, fun h => outranks_asymm h h, nofun⟩
  | cons x l ih =>
    rw [List.foldl_cons]
    by_cases hx : outranks x b = true
    · have hstep : higher (some b) x = some x := if_pos hx
      obtain ⟨c, hc, hxc, hl⟩ := ih x
      refine ⟨c, by rw [hstep, hc], not_outranks_trans (outranks_asymm hx) hxc, ?_⟩
      exact List.forall_mem_cons.2 ⟨hxc, hl⟩
    · have hstep : higher (some b) x = some b := if_neg hx
      obtain ⟨c, hc, hbc, hl⟩ := ih b
      refine ⟨c, by rw [hstep, hc], hbc, ?_⟩
      exact List.forall_mem_cons.2 ⟨not_outranks_trans hx hbc, hl⟩

/-- No ranked hypothesis outranks the best (R71). -/
theorem bestHyp_max (l : List (Hypothesis × Nat)) (b : Hypothesis × Nat) (h : bestHyp l = some b) :
    ∀ x ∈ l, ¬outranks x b = true := by
  cases l with
  | nil => nofun
  | cons y l =>
    obtain ⟨c, hc, hy, hl⟩ := foldl_higher l y
    rw [bestHyp_eq_foldl] at h
    obtain rfl : b = c := Option.some.inj (h.symm.trans hc)
    exact List.forall_mem_cons.2 ⟨hy, hl⟩

theorem bestHyp_eq_none (l : List (Hypothesis × Nat)) : bestHyp l = none ↔ l = [] := by
  cases l with
  | nil => exact ⟨fun _ => rfl, fun _ => rfl⟩
  | cons y l =>
    obtain ⟨c, hc, -⟩ := foldl_higher l y
    rw [bestHyp_eq_foldl]
    exact ⟨fun h => absurd (h.symm.trans hc) nofun, nofun⟩

/-- A ranked hypothesis that outranks all others is the best. -/
theorem bestHyp_of_outranks (l : List (Hypothesis × Nat)) (b : Hypothesis × Nat) (hb : b ∈ l)
    (h : ∀ x ∈ l, x ≠ b → outranks b x = true) : bestHyp l = some b := by
  cases hc : bestHyp l with
  | none =>
    rw [(bestHyp_eq_none l).1 hc] at hb
    cases hb
  | some c =>
    by_cases hcb : c = b
    · rw [hcb]
    · exact absurd (h c (bestHyp_mem l c hc) hcb) (bestHyp_max l c hc b hb)

/-! ## The tracker's action, state by state (R72 to R76) -/

theorem setTracker_setTracker (s : State) (n : Feed) (k l : Tracker) :
    (s.setTracker n k).setTracker n l = s.setTracker n l := by
  simp [State.setTracker, Quad_set_set]

/-- The update ranks each hypothesis by its new run and the step that it had (R71). -/
def rankedUpdate (t : CadenceTable) (e : Evidence) (ds : Bool) (h : Hypothesis) : Hypothesis × Nat :=
  (updateHyp t e ds h, h.current)

theorem zip_rankedUpdate (t : CadenceTable) (e : Evidence) (ds : Bool) (l : List Hypothesis) :
    (l.map (updateHyp t e ds)).zip (l.map (fun h => h.current)) = l.map (rankedUpdate t e ds) := List.zip_map'

section
variable {s : State} {n : Feed} (q : Seq) (e : Evidence) (ds : Bool)

/-- Feed n's hypotheses after the update. -/
abbrev State.updatedHyps (s : State) (n : Feed) (e : Evidence) (ds : Bool) : List Hypothesis :=
  (s.cad.trackers.get n).hyps.map (updateHyp s.cad.table e ds)

theorem trackerAction_seeking (hk : (s.cad.trackers.get n).state = .seeking)
    (hrun : ∀ h ∈ s.updatedHyps n e ds, h.run < (s.settings n).lockCount) :
    s.trackerAction n q e ds = (none, s.setTracker n ⟨.seeking, s.updatedHyps n e ds⟩) := by
  unfold State.trackerAction
  dsimp only
  rw [hk, zip_rankedUpdate]
  dsimp only
  split
  · next h step hb =>
    obtain ⟨x, hx, hxh⟩ := List.mem_map.1 (bestHyp_mem _ _ hb)
    have hlow := hrun _ (List.mem_map_of_mem hx)
    obtain rfl : updateHyp s.cad.table e ds x = h := congrArg Prod.fst hxh
    exact if_neg (Nat.not_le.2 hlow)
  · rfl

theorem trackerAction_locks (hk : (s.cad.trackers.get n).state = .seeking) (h : Hypothesis)
    (hb : bestHyp ((s.cad.trackers.get n).hyps.map (rankedUpdate s.cad.table e ds)) = some (rankedUpdate s.cad.table e ds h))
    (hrun : (s.settings n).lockCount ≤ (updateHyp s.cad.table e ds h).run) :
    s.trackerAction n q e ds =
      (some (s.cad.table.stepOf h.program h.current),
        ((s.setTracker n ⟨.locked h.program (updateHyp s.cad.table e ds h).current, s.updatedHyps n e ds⟩).raise
          .lockAcquired (.feed n) (.sequence q)).count n .locks 1) := by
  unfold State.trackerAction
  dsimp only
  rw [hk, zip_rankedUpdate, hb]
  dsimp only [rankedUpdate]
  rw [if_pos hrun, setTracker_setTracker]
  rfl

/-- A broken lock, counted and raised: the tracker with every run cleared (R73). -/
theorem breakLock_setTracker (s : State) (n : Feed) (k : Tracker) (d : Detail) :
    (s.setTracker n k).breakLock n d =
      ((s.setTracker n (brokenTracker (s.settings n).breakHold k.hyps)).raise .lockBroken (.feed n) d).count n .breaks 1 := by
  unfold State.breakLock
  rw [setTracker_setTracker, setTracker_cad, Quad_get_set_same]
  rfl

variable {p : Fin 4} {step left : Nat}

theorem trackerAction_breaks (hk : (s.cad.trackers.get n).state = .locked p step)
    (hm : stepMatch (s.cad.table.stepOf p step) e ds = some false) :
    s.trackerAction n q e ds =
      (none, ((s.setTracker n (brokenTracker (s.settings n).breakHold (s.updatedHyps n e ds))).raise .lockBroken
        (.feed n) (.sequence q)).count n .breaks 1) := by
  unfold State.trackerAction
  dsimp only
  rw [hk]
  dsimp only
  rw [hm, breakLock_setTracker]

theorem trackerAction_goesOn (hk : (s.cad.trackers.get n).state = .locked p step)
    (hm : stepMatch (s.cad.table.stepOf p step) e ds ≠ some false) :
    s.trackerAction n q e ds =
      (some (s.cad.table.stepOf p step),
        s.setTracker n ⟨.locked p (s.cad.table.advance p step), s.updatedHyps n e ds⟩) := by
  unfold State.trackerAction
  dsimp only
  rw [hk]
  dsimp only
  split
  · next h => exact absurd h hm
  · rw [setTracker_setTracker]

theorem trackerAction_broken (hk : (s.cad.trackers.get n).state = .broken left) :
    s.trackerAction n q e ds =
      (none, s.setTracker n
        ⟨if (if e = .brk then (s.settings n).breakHold else left - 1) = 0 then .seeking
          else .broken (if e = .brk then (s.settings n).breakHold else left - 1), s.updatedHyps n e ds⟩) := by
  unfold State.trackerAction
  dsimp only
  rw [hk]
  dsimp only
  rw [setTracker_setTracker]
  simp only [beq_iff_eq]

theorem trackerAction_heldVideo (hk : (s.cad.trackers.get n).state = .heldVideo) :
    s.trackerAction n q e ds = (none, s.setTracker n ⟨.heldVideo, s.updatedHyps n e ds⟩) := by
  unfold State.trackerAction
  dsimp only
  rw [hk]

theorem trackerAction_heldFilm (hk : (s.cad.trackers.get n).state = .heldFilm p step) :
    s.trackerAction n q e ds =
      (some (s.cad.table.stepOf p step),
        s.setTracker n ⟨.heldFilm p (s.cad.table.advance p step), s.updatedHyps n e ds⟩) := by
  unfold State.trackerAction
  dsimp only
  rw [hk]
  dsimp only
  rw [setTracker_setTracker]

end

/-- Settles O44: each state's action; a lock goes to the hypothesis that outranks all others. -/
theorem trackerActs : Obligations.TrackerActs := by
  refine ⟨fun s n q e ds => ⟨fun hk => ⟨trackerAction_seeking q e ds hk, fun h hh hrun hfirst => ?_⟩,
    fun p st hk => ⟨trackerAction_breaks q e ds hk, trackerAction_goesOn q e ds hk⟩,
    fun left hk => trackerAction_broken q e ds hk, trackerAction_heldVideo q e ds,
    fun p st hk => trackerAction_heldFilm q e ds hk⟩, rfl, rfl, rfl, rfl⟩
  refine trackerAction_locks q e ds hk h (bestHyp_of_outranks _ _ (List.mem_map_of_mem hh) ?_) hrun
  intro y hy hne
  obtain ⟨x, hx, rfl⟩ := List.mem_map.1 hy
  have hxh : x ≠ h := fun hxh => hne (by rw [hxh])
  rw [outranks_iff]
  exact (hfirst x hx hxh).imp_right
    (And.imp Eq.symm (Or.imp_right (And.imp_left (congrArg Fin.val))))

/-! ## A reset of the tracker (R68, R83) -/

theorem mem_freshHyps (t : CadenceTable) (p : Fin 4) (h : Hypothesis) :
    h ∈ freshHyps t p ↔
      t.usable.get p = true ∧ h.program = p ∧ h.start < (t.programs.get p).length ∧ h.current = h.start ∧ h.run = 0 := by
  obtain ⟨program, start, current, run⟩ := h
  unfold freshHyps
  split
  · next hu =>
    simp only [List.mem_map, List.mem_range, Hypothesis.mk.injEq, hu, true_and]
    constructor
    · rintro ⟨i, hi, rfl, rfl, rfl, rfl⟩
      exact ⟨rfl, hi, rfl, rfl⟩
    · rintro ⟨rfl, hi, rfl, rfl⟩
      exact ⟨current, hi, rfl, rfl, rfl, rfl⟩
  · next hu => simp [hu]

theorem mem_makeHyps (t : CadenceTable) (mask : Quad Bool) (h : Hypothesis) :
    h ∈ makeHyps t mask ↔
      mask.get h.program = true ∧ t.usable.get h.program = true ∧ h.start < (t.programs.get h.program).length ∧
        h.current = h.start ∧ h.run = 0 := by
  have hin (p : Fin 4) : h ∈ (if mask.get p = true then freshHyps t p else []) ↔
      mask.get p = true ∧ h ∈ freshHyps t p := List.mem_ite_nil_right
  unfold makeHyps
  rw [List.mem_flatMap]
  simp only [hin, mem_freshHyps]
  constructor
  · rintro ⟨p, -, hm, hu, rfl, hstart⟩
    exact ⟨hm, hu, hstart⟩
  · rintro ⟨hm, hu, hstart⟩
    exact ⟨h.program, feeds_mem _, hm, hu, rfl, hstart⟩

/-- Two hypotheses differ in the program or in the start step. -/
abbrev Hypothesis.differs (g h : Hypothesis) : Prop := g.program ≠ h.program ∨ g.start ≠ h.start

theorem freshHyps_differ (t : CadenceTable) (p : Fin 4) : (freshHyps t p).Pairwise Hypothesis.differs := by
  unfold freshHyps
  split
  · refine List.Pairwise.map _ (fun i j hij => Or.inr ?_) List.pairwise_lt_range
    exact Nat.ne_of_lt hij
  · exact List.Pairwise.nil

theorem makeHyps_differ (t : CadenceTable) (mask : Quad Bool) : (makeHyps t mask).Pairwise Hypothesis.differs := by
  unfold makeHyps
  refine List.pairwise_flatMap.2 ⟨fun p _ => ?_, ?_⟩
  · split
    · exact freshHyps_differ t p
    · exact List.Pairwise.nil
  · have hnodup : feeds.Pairwise (fun p r => p ≠ r) := by decide
    refine hnodup.imp fun {p r} hpr g hg h hh => Or.inl ?_
    obtain ⟨-, -, rfl, -⟩ := (List.mem_ite_nil_right.1 hg).imp_right (mem_freshHyps t p g).1
    obtain ⟨-, -, rfl, -⟩ := (List.mem_ite_nil_right.1 hh).imp_right (mem_freshHyps t r h).1
    exact hpr

theorem resetTracker_tracker (s : State) (n : Feed) :
    (s.resetTracker n).cad.trackers.get n =
      ⟨s.cad.table.resetState (s.settings n).force, makeHyps s.cad.table (s.settings n).mask⟩ :=
  Quad_get_set_same _ n _

/-- Settles O45: the tracker of the reset by its definition, and the members of the hypotheses made. -/
theorem trackerReset : Obligations.TrackerReset := by
  intro s n
  rw [resetTracker_tracker]
  refine ⟨rfl, rfl, fun h hh => ?_, fun p f hm hu hf => ?_, makeHyps_differ _ _, fun hf => ?_, fun hf => ?_,
    fun p f hf => ?_⟩
  · obtain ⟨hm, hu, hstart, hcurrent, hrun⟩ := (mem_makeHyps _ _ h).1 hh
    exact ⟨hrun, hcurrent, hm, hu, hstart⟩
  · exact (mem_makeHyps _ _ _).2 ⟨hm, hu, hf, rfl, rfl⟩
  · rw [hf]
    rfl
  · rw [hf]
    rfl
  · rw [hf]
    rfl

end Sys2Proof.Machine
end

section
namespace Sys2Proof.Machine

/-! ## The programs of a loaded table (R60, R80, R176) -/

theorem programsOfWords_get (words : List Word) (p : Fin 4) :
    (programsOfWords words).get p = programOfWords words p.val := by
  fin_cases p <;> rfl

/-- A program from its words: a length, and eight steps (R176, Table 9-3). -/
theorem programOfWords_spec (words : List Word) (p : Nat) :
    (programOfWords words p).length = (words.getD (9 * p) 0).toNat ∧ (programOfWords words p).steps.length = 8 ∧
      ∀ i, i < 8 → (programOfWords words p).step i = stepOfWord (words.getD (9 * p + 1 + i) 0) := by
  unfold programOfWords Program.step
  exact ⟨rfl, by simp, fun i hi => by simp [hi]⟩

/-- The four conditions of R60. -/
theorem isUsable_iff (g : Program) :
    g.isUsable = true ↔
      2 ≤ g.length ∧ (∃ i, i < g.length ∧ g.step i = .opens) ∧
      (∀ i, i < g.length → g.step i = .opens → g.step ((i + 1) % g.length) = .closes) ∧
      (∀ i, i < g.length → g.step i = .repeats → g.step ((i + g.length - 1) % g.length) ≠ .opens) := by
  unfold Program.isUsable
  simp only [Bool.and_eq_true, decide_eq_true_eq, List.any_eq_true, List.all_eq_true, List.mem_range, beq_iff_eq,
    Bool.or_eq_true, bne_iff_ne, ← imp_iff_not_or, and_assoc]

theorem programChanged_iff (old new : Program) :
    programChanged old new = true ↔ old.length ≠ new.length ∨ ∃ i, i < new.length ∧ old.step i ≠ new.step i := by
  unfold programChanged
  simp only [Bool.or_eq_true, bne_iff_ne, List.any_eq_true, List.mem_range]

/-- Whether the adopted table changes a program, asked of the table itself. -/
theorem programChanged_ofPrograms (old : CadenceTable) (new : Quad Program) (p : Fin 4) :
    programChanged (old.programs.get p) ((CadenceTable.ofPrograms new).programs.get p) = (changedBy old new).get p :=
  (changedBy_get old new p).symm

/-! ## One tracker at an adoption (R80 to R82) -/

theorem adoptedHyps_eq (t : CadenceTable) (changed mask : Quad Bool) (hyps : List Hypothesis) :
    adoptedHyps t changed mask hyps =
      feeds.flatMap (fun p =>
        if changed.get p = true then
          if mask.get p = true ∧ t.usable.get p = true then
            (List.range (t.programs.get p).length).map (fun i => ⟨p, i, i, 0⟩)
          else []
        else hyps.filter (fun h => h.program == p)) := by
  unfold adoptedHyps freshHyps
  simp only [ite_and]

/-- The tracker is LOCKED on a program that the adoption changes (R81). -/
def TrackerState.losesLock (changed : Quad Bool) : TrackerState → Bool
  | .locked p _ => changed.get p
  | _ => false

/-- A tracker after the adoption of table t, under the settings a (R80 to R82). -/
def adoptedTracker (t : CadenceTable) (changed : Quad Bool) (a : Settings) (k : Tracker) : Tracker :=
  let hyps := adoptedHyps t changed a.mask k.hyps
  match k.state with
  | .locked p _ => if changed.get p then brokenTracker a.breakHold hyps else ⟨k.state, hyps⟩
  | .heldFilm p step =>
    if changed.get p then
      ⟨if t.usable.get p then .heldFilm p (step % (t.programs.get p).length) else .heldVideo, hyps⟩
    else ⟨k.state, hyps⟩
  | _ => ⟨k.state, hyps⟩

/-- A force whose FILM step is reduced to a length (R82). -/
def Force.reducedTo (length : Nat) : Force → Force
  | .film p step => .film p (step % length)
  | other => other

/-- The force after the adoption, from the state of the tracker before it (R82). -/
def adoptedForce (t : CadenceTable) (changed : Quad Bool) (k : TrackerState) (f : Force) : Force :=
  match k with
  | .heldFilm p _ =>
    if changed.get p then if t.usable.get p then f.reducedTo (t.programs.get p).length else .video else f
  | _ => f

/-- A lock that a changed program ends, raised and counted (R81). -/
def State.noteLostLock (broken : Feed → Bool) (s : State) (n : Feed) : State :=
  if broken n then (s.raise .lockBroken (.feed n) (.reason .tableChanged)).count n .breaks 1 else s

theorem noteLostLock_broken (broken : Feed → Bool) (s : State) (n : Feed) (h : broken n = true) :
    s.noteLostLock broken n = (s.raise .lockBroken (.feed n) (.reason .tableChanged)).count n .breaks 1 := if_pos h

theorem noteLostLock_kept (broken : Feed → Bool) (s : State) (n : Feed) (h : broken n = false) :
    s.noteLostLock broken n = s := if_neg (Bool.eq_false_iff.1 h)

theorem noteLostLock_eq (broken : Feed → Bool) (s : State) (n : Feed) :
    s.noteLostLock broken n = { s with ntu := (s.noteLostLock broken n).ntu } := by
  unfold State.noteLostLock
  split <;> rfl

section
variable {t : CadenceTable} {changed : Quad Bool} {a : Settings} {k : Tracker}

theorem adoptedTracker_loses (h : k.state.losesLock changed = true) :
    adoptedTracker t changed a k = brokenTracker a.breakHold (adoptedHyps t changed a.mask k.hyps) ∧
      adoptedForce t changed k.state a.force = a.force := by
  unfold adoptedTracker adoptedForce
  cases hk : k.state with
  | locked p step =>
    rw [hk] at h
    exact ⟨if_pos h, rfl⟩
  | _ =>
    rw [hk] at h
    exact absurd h nofun

theorem adoptedTracker_keeps (h : k.state.losesLock changed = false)
    (hf : ∀ p step, k.state = .heldFilm p step → changed.get p = false) :
    adoptedTracker t changed a k = ⟨k.state, adoptedHyps t changed a.mask k.hyps⟩ ∧
      adoptedForce t changed k.state a.force = a.force := by
  unfold adoptedTracker adoptedForce
  cases hk : k.state with
  | locked p step =>
    rw [hk] at h
    exact ⟨if_neg (Bool.eq_false_iff.1 h), rfl⟩
  | heldFilm p step =>
    have hp := Bool.eq_false_iff.1 (hf p step hk)
    exact ⟨if_neg hp, if_neg hp⟩
  | _ => exact ⟨rfl, rfl⟩

variable {p : Fin 4} {step : Nat}

theorem adoptedTracker_film (hk : k.state = .heldFilm p step) (hc : changed.get p = true) (hu : t.usable.get p = true) :
    adoptedTracker t changed a k =
        ⟨.heldFilm p (step % (t.programs.get p).length), adoptedHyps t changed a.mask k.hyps⟩ ∧
      adoptedForce t changed k.state a.force = a.force.reducedTo (t.programs.get p).length := by
  unfold adoptedTracker adoptedForce
  rw [hk]
  dsimp only
  rw [hc, hu]
  exact ⟨rfl, rfl⟩

theorem adoptedTracker_video (hk : k.state = .heldFilm p step) (hc : changed.get p = true) (hu : t.usable.get p = false) :
    adoptedTracker t changed a k = ⟨.heldVideo, adoptedHyps t changed a.mask k.hyps⟩ ∧
      adoptedForce t changed k.state a.force = .video := by
  unfold adoptedTracker adoptedForce
  rw [hk]
  dsimp only
  rw [hc, hu]
  exact ⟨rfl, rfl⟩

end

@[simp] theorem setForce_settings (s : State) (n : Feed) (f : Force) :
    (s.setForce n f).settings n = { s.settings n with force := f } := Quad_get_set_same _ n _

theorem setForce_own (s : State) (n : Feed) : s.setForce n (s.settings n).force = s := by
  unfold State.setForce State.setActive State.settings
  rw [Quad_set_get]

/-- The adoption's effect on one feed: its tracker, its force, and the lock it may lose (R80 to R82). -/
theorem adoptFor_eq (changed : Quad Bool) (broken : Feed → Bool) (s : State) (n : Feed)
    (hb : broken n = (s.cad.trackers.get n).state.losesLock changed) :
    State.adoptFor changed s n =
      ((s.noteLostLock broken n).setTracker n
        (adoptedTracker s.cad.table changed (s.settings n) (s.cad.trackers.get n))).setForce n
          (adoptedForce s.cad.table changed (s.cad.trackers.get n).state (s.settings n).force) := by
  unfold State.adoptFor adoptedTracker
  cases hk : (s.cad.trackers.get n).state with
  | locked p step =>
    rw [hk] at hb
    by_cases hc : changed.get p = true
    · rw [noteLostLock_broken broken s n (hb.trans hc)]
      simp only [hk, adoptedForce, if_pos hc, breakLock_setTracker]
      exact (setForce_own _ n).symm
    · rw [noteLostLock_kept broken s n (hb.trans (Bool.eq_false_iff.2 hc))]
      simp only [hk, adoptedForce, if_neg hc]
      exact (setForce_own _ n).symm
  | heldFilm p step =>
    rw [hk] at hb
    rw [noteLostLock_kept broken s n hb]
    simp only [hk, adoptedForce, setTracker_cad, Quad_get_set_same, setTracker_setTracker]
    by_cases hc : changed.get p = true
    · by_cases hu : s.cad.table.usable.get p = true
      · simp only [if_pos hc, if_pos hu]
        rfl
      · simp only [if_pos hc, if_neg hu]
    · simp only [if_neg hc]
      exact (setForce_own _ n).symm
  | _ =>
    rw [hk] at hb
    rw [noteLostLock_kept broken s n hb]
    simp only [hk, adoptedForce]
    exact (setForce_own _ n).symm

/-! ## All trackers at an adoption -/

/-- What the lost locks leave in the notice unit depends on the notice unit alone. -/
theorem foldl_noteLostLock_ntu (broken : Feed → Bool) (l : List Feed) (s t : State) (h : t.ntu = s.ntu) :
    (l.foldl (State.noteLostLock broken) t).ntu = (l.foldl (State.noteLostLock broken) s).ntu := by
  induction l generalizing s t with
  | nil => exact h
  | cons n l ih =>
    refine ih _ _ ?_
    unfold State.noteLostLock
    split
    · simp only [count_ntu, raise_ntu, h]
    · exact h

/-- The adoption over several feeds: each as its own tracker and settings have it, and no other feed's changed. -/
theorem foldl_adoptFor (changed : Quad Bool) (broken : Feed → Bool) (l : List Feed) (s : State) (hl : l.Nodup)
    (hb : ∀ n ∈ l, broken n = (s.cad.trackers.get n).state.losesLock changed) :
    let t := l.foldl (State.adoptFor changed) s
    t = { s with
          cad := { s.cad with trackers := t.cad.trackers }
          cue := { s.cue with active := t.cue.active }
          ntu := (l.foldl (State.noteLostLock broken) s).ntu } ∧
      (∀ n ∈ l,
        t.cad.trackers.get n = adoptedTracker s.cad.table changed (s.settings n) (s.cad.trackers.get n) ∧
        t.settings n = { s.settings n with
          force := adoptedForce s.cad.table changed (s.cad.trackers.get n).state (s.settings n).force }) ∧
      ∀ n, n ∉ l → t.cad.trackers.get n = s.cad.trackers.get n ∧ t.settings n = s.settings n := by
  induction l generalizing s with
  | nil => exact ⟨rfl, nofun, fun _ _ => ⟨rfl, rfl⟩⟩
  | cons m l ih =>
    obtain ⟨hm, hl⟩ := List.nodup_cons.1 hl
    have hstep := adoptFor_eq changed broken s m (hb m List.mem_cons_self)
    have hlocal := adoptFor_retunes changed s m
    rw [List.foldl_cons, List.foldl_cons]
    generalize State.adoptFor changed s m = u at hstep hlocal
    have hne (n : Feed) (hn : n ∈ l) : n ≠ m := fun h => hm (h ▸ hn)
    obtain ⟨hrest, hin, hout⟩ := ih u hl (fun n hn => by
      rw [hlocal.trackers n (hne n hn)]
      exact hb n (List.mem_cons_of_mem m hn))
    have hntu : u.ntu = (s.noteLostLock broken m).ntu := by rw [hstep]; rfl
    rw [foldl_noteLostLock_ntu broken l (s.noteLostLock broken m) u hntu] at hrest
    generalize l.foldl (State.adoptFor changed) u = t at hrest hin hout
    refine ⟨?_, fun n hn => ?_, fun n hn => ?_⟩
    · rw [hrest, hstep, noteLostLock_eq]
      rfl
    · rcases List.mem_cons.1 hn with rfl | hn
      · obtain ⟨htracker, hsettings⟩ := hout n hm
        rw [htracker, hsettings, hstep, setForce_settings, noteLostLock_eq]
        exact ⟨Quad_get_set_same _ n _, rfl⟩
      · obtain ⟨htracker, hsettings⟩ := hin n hn
        rw [htracker, hsettings, hlocal.table, hlocal.settings n (hne n hn), hlocal.trackers n (hne n hn)]
        exact ⟨rfl, rfl⟩
    · obtain ⟨hnm, hnl⟩ := not_or.1 (fun h => hn (List.mem_cons.2 h))
      obtain ⟨htracker, hsettings⟩ := hout n hnl
      exact ⟨htracker.trans (hlocal.trackers n hnm), hsettings.trans (hlocal.settings n hnm)⟩

theorem adoptCadence_idle (s : State) (h : (s.copy 0).ready = false) : s.adoptCadence = s := by
  unfold State.adoptCadence
  rw [h]
  rfl

/-- The table that the words of the copy give. -/
abbrev State.loadedTable (s : State) : CadenceTable := .ofPrograms (programsOfWords (s.copy 0).words)

/-- The programs that it changes. -/
abbrev State.loadChanges (s : State) : Quad Bool := changedBy s.cad.table (programsOfWords (s.copy 0).words)

/-- The loaded table is active and its copy IDLE; no tracker has met it yet (R80, R185). -/
def State.tableActive (s : State) : State :=
  ({ s with cad := { s.cad with table := s.loadedTable } } : State).idleCopy 0

/-- The adoption of a READY table: the table from its words, each feed by its own tracker, and all else (R80, R185). -/
theorem adoptCadence_ready (s : State) (h : (s.copy 0).ready = true) (broken : Feed → Bool)
    (hb : ∀ n, broken n = (s.cad.trackers.get n).state.losesLock s.loadChanges) :
    let t := s.adoptCadence
    t.cad.table = s.loadedTable ∧
      (∀ n,
        t.cad.trackers.get n = adoptedTracker s.loadedTable s.loadChanges (s.settings n) (s.cad.trackers.get n) ∧
        t.settings n = { s.settings n with
          force := adoptedForce s.loadedTable s.loadChanges (s.cad.trackers.get n).state (s.settings n).force }) ∧
      t = { s with
            cad := t.cad
            cue := { s.cue with active := t.cue.active }
            tld := { s.tld with copies := s.tld.copies.set 0 ⟨false, (s.copy 0).words⟩ }
            ntu :=
              (((feeds.foldl (State.noteLostLock broken) s).raise .tableAdopted .device (.table 0)).countDev
                .tablesAdopted).ntu } := by
  have ht : s.adoptCadence = (feeds.foldl (State.adoptFor s.loadChanges) s.tableActive).noteAdoption 0 := if_pos h
  obtain ⟨hrest, hin, -⟩ := foldl_adoptFor s.loadChanges broken feeds s.tableActive (by decide) (fun n _ => hb n)
  have hntu := foldl_noteLostLock_ntu broken feeds s s.tableActive rfl
  rw [ht]
  generalize feeds.foldl (State.adoptFor s.loadChanges) s.tableActive = u at hrest hin
  rw [hntu] at hrest
  refine ⟨?_, fun n => hin n (mem_feeds n), ?_⟩
  · rw [hrest]
    rfl
  · rw [hrest]
    rfl

/-- Settles O46: the table by its words, each feed's tracker by the cases of R81 and R82. -/
theorem tableAdoption : Obligations.TableAdoption := by
  refine ⟨adoptCadence_idle, programChanged_iff, fun s h => ?_⟩
  intro t words new changed broken
  have hnew : new = s.loadedTable := (adoptCadence_ready s h _ (fun _ => rfl)).1
  have hchanged (p : Fin 4) : changed p = s.loadChanges.get p :=
    (congrArg (fun x : CadenceTable => programChanged (s.cad.table.programs.get p) (x.programs.get p)) hnew).trans
      (programChanged_ofPrograms s.cad.table _ p)
  have hbroken (n : Feed) : broken n = (s.cad.trackers.get n).state.losesLock s.loadChanges := by
    show (match (s.cad.trackers.get n).state with | .locked p _ => changed p | _ => false) = _
    cases (s.cad.trackers.get n).state with
    | locked p step => exact hchanged p
    | _ => rfl
  obtain ⟨-, hfeeds, hrest⟩ := adoptCadence_ready s h broken hbroken
  refine ⟨fun p => ?_, fun n => ?_, hrest⟩
  · have hprogram : new.programs.get p = programOfWords words p.val := by
      rw [hnew]
      exact programsOfWords_get words p
    have husable : new.usable.get p = (new.programs.get p).isUsable := by
      rw [hnew]
      exact ofPrograms_usable _ p
    obtain ⟨hlength, hsteps, hstep⟩ := programOfWords_spec words p.val
    rw [← hprogram] at hlength hsteps hstep
    exact ⟨hlength, hsteps, hstep, husable ▸ isUsable_iff _⟩
  · intro k a hyps
    obtain ⟨htracker, hsettings⟩ :
        t.cad.trackers.get n = adoptedTracker s.loadedTable s.loadChanges a k ∧
          t.settings n = { a with force := adoptedForce s.loadedTable s.loadChanges k.state a.force } := hfeeds n
    have hhyps : adoptedHyps s.loadedTable s.loadChanges a.mask k.hyps = hyps := by
      rw [adoptedHyps_eq, ← hnew]
      simp only [← hchanged]
      rfl
    rw [htracker, hsettings, hnew]
    refine ⟨fun hb => ?_, fun hb hf => ?_, fun p st hk hc => ⟨fun hu => ?_, fun hu => ?_⟩⟩
    · obtain ⟨hafter, hforce⟩ := adoptedTracker_loses (t := s.loadedTable) (a := a) ((hbroken n).symm.trans hb)
      rw [hafter, hforce, hhyps]
      exact ⟨rfl, rfl⟩
    · obtain ⟨hafter, hforce⟩ := adoptedTracker_keeps (t := s.loadedTable) (a := a) ((hbroken n).symm.trans hb)
        (fun p st hk => (hchanged p).symm.trans (hf p st hk))
      rw [hafter, hforce, hhyps]
      exact ⟨rfl, rfl⟩
    · obtain ⟨hafter, hforce⟩ := adoptedTracker_film (a := a) hk ((hchanged p).symm.trans hc) hu
      rw [hafter, hforce, hhyps]
      exact ⟨rfl, rfl⟩
    · obtain ⟨hafter, hforce⟩ := adoptedTracker_video (a := a) hk ((hchanged p).symm.trans hc) hu
      rw [hafter, hforce, hhyps]
      exact ⟨rfl, rfl⟩

end Sys2Proof.Machine
end

section
namespace Sys2Proof.Machine

/-! ## A program mask takes effect (R63) -/

theorem lockLeaves_iff (s : State) (n : Feed) (new : Quad Bool) :
    s.lockLeaves n new = true ↔ ∃ p st, (s.cad.trackers.get n).state = .locked p st ∧ new.get p = false := by
  unfold State.lockLeaves
  cases (s.cad.trackers.get n).state <;> simp

/-- The hypotheses of a feed once the mask is in effect. -/
abbrev State.hypsUnder (s : State) (n : Feed) (new : Quad Bool) : List Hypothesis :=
  maskedHyps s.cad.table (s.settings n).mask new (s.cad.trackers.get n).hyps

section
variable {s : State} {n : Feed} {new : Quad Bool} {d : Detail}

theorem applyMask_stays (h : s.lockLeaves n new = false) :
    s.applyMask n new d =
      (s.setTracker n ⟨(s.cad.trackers.get n).state, s.hypsUnder n new⟩).setActive n { s.settings n with mask := new } :=
  if_neg (Bool.eq_false_iff.1 h)

theorem applyMask_breaks (h : s.lockLeaves n new = true) :
    s.applyMask n new d =
      (((s.setTracker n (brokenTracker (s.settings n).breakHold (s.hypsUnder n new))).setActive n
        { s.settings n with mask := new }).raise .lockBroken (.feed n) d).count n .breaks 1 := by
  have hbreak := breakLock_setTracker (s.setActive n { s.settings n with mask := new }) n
    ⟨(s.cad.trackers.get n).state, s.hypsUnder n new⟩ d
  have hsettings : (s.setActive n { s.settings n with mask := new }).settings n = { s.settings n with mask := new } :=
    Quad_get_set_same _ n _
  rw [hsettings] at hbreak
  exact (if_pos h).trans hbreak

variable {q : Option Seq}

theorem takeMask_equal (h : (s.settings n).mask = new) : s.takeMask n new q = s := if_pos h

theorem takeMask_stays (h : (s.settings n).mask ≠ new) (hl : s.lockLeaves n new = false) :
    s.takeMask n new q =
      (s.setTracker n ⟨(s.cad.trackers.get n).state, s.hypsUnder n new⟩).setActive n
        { s.settings n with mask := new } := by
  unfold State.takeMask
  rw [if_neg h]
  cases q with
  | some v => exact applyMask_stays hl
  | none => exact (if_neg (Bool.eq_false_iff.1 hl)).trans (applyMask_stays hl)

theorem takeMask_numbered (h : (s.settings n).mask ≠ new) (v : Seq) :
    s.takeMask n new (some v) = s.applyMask n new (.sequence v) := if_neg h

/-- Without a numbered field start the detail of the break is free (log entry 3). -/
theorem takeMask_unnumbered (h : (s.settings n).mask ≠ new) (hl : s.lockLeaves n new = true) :
    s.takeMask n new none =
      ({ s with choices := s.choices + 1 } : State).applyMask n new (.sequence (Config.unstatedSeq s.choices)) := by
  unfold State.takeMask
  rw [if_neg h]
  exact if_pos hl

end

/-! ## A force takes effect (R77) -/

theorem effectiveForce_film (t : CadenceTable) (p : Fin 4) (st : Nat) :
    t.effectiveForce (.film p st) =
      if t.usable.get p = true then .film p (st % (t.programs.get p).length) else .video := rfl

theorem effectiveForce_plain (t : CadenceTable) (f : Force) (h : f = .release ∨ f = .video) : t.effectiveForce f = f := by
  rcases h with rfl | rfl <;> rfl

/-- Release frees a held tracker and leaves another (R77). -/
theorem forcedState_release_held (k : TrackerState) (h : k = .heldVideo ∨ ∃ p st, k = .heldFilm p st) :
    forcedState k .release = .seeking := by
  rcases h with rfl | ⟨p, st, rfl⟩ <;> rfl

theorem forcedState_release_free (k : TrackerState) (hv : k ≠ .heldVideo) (hf : ∀ p st, k ≠ .heldFilm p st) :
    forcedState k .release = k := by
  cases k with
  | heldVideo => exact absurd rfl hv
  | heldFilm p st => exact absurd rfl (hf p st)
  | _ => rfl

theorem applyForce_equal (s : State) (n : Feed) (f : Force) (h : (s.settings n).force = s.cad.table.effectiveForce f) :
    s.applyForce n f = s := if_pos h

theorem applyForce_changes (s : State) (n : Feed) (f : Force) (h : (s.settings n).force ≠ s.cad.table.effectiveForce f)
    (x : TrackerState) (hx : forcedState (s.cad.trackers.get n).state (s.cad.table.effectiveForce f) = x) :
    s.applyForce n f =
      (s.setTracker n ⟨x, (s.cad.trackers.get n).hyps⟩).setActive n
        { s.settings n with force := s.cad.table.effectiveForce f } := by
  subst hx
  exact if_neg h

/-! ## A mask and a force together (log entry 4) -/

theorem orderMatters_iff (s : State) (n : Feed) (m : Quad Bool) (f : Force) :
    s.orderMatters n m f = true ↔
      (s.settings n).mask ≠ m ∧ s.lockLeaves n m = true ∧ ¬(s.applyForce n f).lockLeaves n m = true := by
  unfold State.orderMatters
  simp only [Bool.and_eq_true, bne_iff_ne, Bool.not_eq_true', Bool.not_eq_true, and_assoc]

section
variable (s : State) (n : Feed) (p : Pending) (q : Option Seq)

theorem takeTrackerItems_none (hm : p.mask = none) (hf : p.force = none) : s.takeTrackerItems n p q = s := by
  unfold State.takeTrackerItems
  rw [hm, hf]

theorem takeTrackerItems_mask (m : Quad Bool) (hm : p.mask = some m) (hf : p.force = none) :
    s.takeTrackerItems n p q = s.takeMask n m q := by
  unfold State.takeTrackerItems
  rw [hm, hf]

theorem takeTrackerItems_force (f : Force) (hm : p.mask = none) (hf : p.force = some f) :
    s.takeTrackerItems n p q = s.applyForce n f := by
  unfold State.takeTrackerItems
  rw [hm, hf]

theorem takeTrackerItems_both (m : Quad Bool) (f : Force) (hm : p.mask = some m) (hf : p.force = some f) :
    s.takeTrackerItems n p q = s.takeMaskAndForce n m f q := by
  unfold State.takeTrackerItems
  rw [hm, hf]

end

/-- Settles O47: a mask by whether the lock leaves, a force by the state it gives, both by whether their order matters. -/
theorem maskAndForce : Obligations.MaskAndForce := by
  refine ⟨fun s n new q => ⟨takeMask_equal, fun hne => ⟨fun hstays => ?_, fun hleaves => ⟨?_, ?_⟩⟩⟩,
    fun s n f => ⟨effectiveForce_plain _ f, ?_, applyForce_equal s n f, fun hne => ⟨fun hg => ?_, fun p st hg => ?_,
      fun hg => ⟨fun hheld => ?_, fun hv hf => ?_⟩⟩⟩,
    fun s n p q => ⟨takeTrackerItems_none s n p q, takeTrackerItems_mask s n p q, takeTrackerItems_force s n p q,
      fun m f hm hf => ?_⟩⟩
  · exact takeMask_stays hne (Bool.eq_false_iff.2 (fun h => hstays ((lockLeaves_iff s n new).1 h)))
  · rintro v rfl
    exact (takeMask_numbered hne v).trans (applyMask_breaks ((lockLeaves_iff s n new).2 hleaves))
  · rintro rfl
    have hl := (lockLeaves_iff s n new).2 hleaves
    exact (takeMask_unnumbered hne hl).trans (applyMask_breaks hl)
  · rintro p st rfl
    exact effectiveForce_film _ p st
  · exact applyForce_changes s n f hne _ (congrArg (forcedState _) hg)
  · exact applyForce_changes s n f hne _ (congrArg (forcedState _) hg)
  · exact applyForce_changes s n f hne _ ((congrArg (forcedState _) hg).trans (forcedState_release_held _ hheld))
  · exact applyForce_changes s n f hne _ ((congrArg (forcedState _) hg).trans (forcedState_release_free _ hv hf))
  · rw [takeTrackerItems_both s n p q m f hm hf]
    intro leaves matters u
    have hmatters : s.orderMatters n m f = true ↔ matters := by
      rw [orderMatters_iff, lockLeaves_iff, lockLeaves_iff]
    exact ⟨fun h => if_neg (fun ho => h (hmatters.1 ho)), fun h => if_pos (hmatters.2 h)⟩

end Sys2Proof.Machine
end

section
namespace Sys2Proof.Machine

/-! ## The words of the records (R193, Table 9-5) -/

theorem wordOf_flag (b : Bool) : wordOf b.toNat = if b = true then 1 else 0 := by cases b <;> rfl

theorem wordOf_holdsItem (p : Pending) : wordOf p.holdsItem.toNat = if p = emptyPending then 0 else 1 := by
  unfold Pending.holdsItem
  by_cases h : p = emptyPending
  · rw [if_pos h, h, bne_self_eq_false]
    rfl
  · rw [if_neg h, bne_iff_ne.2 h]
    rfl

theorem slotsHeld_eq (s : State) (n : Feed) :
    s.slotsHeld n = s.fst.slots.countP (fun x => x == .filling n || x == .held n || x == .retiring n) := by
  refine List.countP_congr (fun x _ => ?_)
  cases x <;> simp [Slot.ownedBy]

theorem length_waitingOf (s : State) (n : Feed) :
    (s.waitingOf n).length = s.fen.waiting.countP (fun j => j.feed == n) := List.countP_eq_length_filter.symm

theorem FeedState.wordOf_code (x : FeedState) :
    wordOf x.code = match x with
      | .off => 0
      | .waiting => 1
      | .running => 2
      | .down => 3 := by cases x <;> rfl

theorem Structure.wordOf_code (x : Structure) :
    wordOf x.code = match x with
      | .s50 => 0
      | .s60 => 1 := by cases x <;> rfl

theorem HalfState.wordOf_code (x : HalfState) :
    wordOf x.code = match x with
      | .sending => wordOf 0
      | .empty => wordOf 1
      | .filling => wordOf 2
      | .ready => wordOf 3 := by cases x <;> rfl

/-- A tracker state's word, and the locked program and step where it has them (R62). -/
def TrackerState.words : TrackerState → Word × Option Nat × Option Nat
  | .seeking => (0, none, none)
  | .locked p st => (1, some p.val, some st)
  | .broken _ => (2, none, none)
  | .heldVideo => (3, none, none)
  | .heldFilm p st => (4, some p.val, some st)

theorem TrackerState.words_eq (k : TrackerState) :
    k.words = (wordOf k.code, k.lockedAt.map (fun x => x.1), k.lockedAt.map (fun x => x.2)) := by cases k <;> rfl

/-! ## The best hypothesis of a record (R71) -/

theorem Tracker.best_eq_none (k : Tracker) : k.best = none ↔ k.hyps = [] := by
  unfold Tracker.best
  rw [Option.map_eq_none_iff, bestHyp_eq_none, List.map_eq_nil_iff]

/-- The best is a hypothesis of the tracker, and no other outranks it by its current step. -/
theorem Tracker.best_spec (k : Tracker) (h : Hypothesis) (hb : k.best = some h) :
    h ∈ k.hyps ∧ ∀ x ∈ k.hyps, x.run < h.run ∨ (x.run = h.run ∧
      (h.program < x.program ∨ (h.program = x.program ∧ h.current ≤ x.current))) := by
  unfold Tracker.best at hb
  obtain ⟨b, hbest, rfl⟩ := Option.map_eq_some_iff.1 hb
  obtain ⟨h, hh, rfl⟩ := List.mem_map.1 (bestHyp_mem _ _ hbest)
  refine ⟨hh, fun x hx => ?_⟩
  have hmax := bestHyp_max _ _ hbest (x, x.current) (List.mem_map_of_mem hx)
  rw [outranks_iff] at hmax
  rw [Fin.lt_def, Fin.ext_iff]
  dsimp only at hmax ⊢
  omega

/-- The status record of a feed, word by word. -/
theorem statusRecord_feed (s : State) (n : Feed) :
    let k := s.cad.trackers.get n
    let o := s.otx.get n
    s.statusRecord (.feed n) =
      [wordOf (s.lrx.get n).state.code, wordOf (s.settings n).struct.code, wordOf (s.settings n).cls.val, k.state.words.1,
        optWord k.state.words.2.1, optWord k.state.words.2.2, optWord (k.best.map (fun h => h.program.val)),
        optWord (k.best.map (fun h => h.current)), optWord (k.best.map (fun h => h.run)), wordOf (s.history n).length,
        wordOf (s.fst.slots.countP (fun x => x == .filling n || x == .held n || x == .retiring n)),
        wordOf (s.fen.waiting.countP (fun j => j.feed == n)), wordOf o.half0.state.code, wordOf o.half1.state.code,
        wordOf o.repeatCount, if o.fillFlag = true then 1 else 0, if s.cue.staged.get n = emptyPending then 0 else 1] := by
  intro k o
  rw [k.state.words_eq, ← slotsHeld_eq, ← length_waitingOf, ← wordOf_flag, ← wordOf_holdsItem]
  rfl

/-- The status record of the device, word by word. -/
theorem statusRecord_device (s : State) :
    s.statusRecord .device =
      [wordOf (s.fst.slots.countP (fun x => x == .free)), if s.fst.tight = true then 1 else 0,
        optWord (s.tld.load.map (fun l => l.table.val)), optWord (s.tld.load.map (fun l => l.partsReceived / 256)),
        optWord (s.tld.load.map (fun l => l.partsReceived % 256))] ++
        (List.finRange 9).map (fun t => if (s.copy t).ready = true then 1 else 0) ++
        [wordOf s.cue.deviceNumber.val] := by
  simp only [← wordOf_flag]
  unfold State.statusRecord State.deviceStatus
  cases s.tld.load <;> rfl

/-! ## The cues of the latches (R172, R192) -/

/-- A cue that passes tests 1 to 5 is carried out and answered, whether its queue has room or not. -/
theorem exec_answered (i : Instr) (n : Feed) (code : Word) (c : CueWords) (s : State) (sc : Scope)
    (hu : ∀ m k e, i ≠ .unknownCueKind m k e) (h : cueParts i = some (n, code, c)) (ha : s.admits n code c sc)
    (hr : (cueScopeRule code).allows sc = true) (hl : cueLengthOk code c.payload.length = true) :
    exec i s = .next ((cueRun i sc s).2.answer n code c (cueRun i sc s).1) := by
  obtain ⟨⟨hheld, haddressed⟩, hcheck, -⟩ := id ha
  rw [exec_cue i n code c s hu h, unlessHeld_released s _ hheld,
    takeCue_runs s n code c _ _ _ sc haddressed hcheck hl (checkedScope_admits s n code c sc _ ha hr)]

theorem snapshotItems_flag (w : Word) (h : w.toNat ≤ 1) : snapshotItems [w] = some (w.toNat == 1) := by
  have hitem : plainItem 0 1 w = some w.toNat := if_pos ⟨Nat.zero_le _, h⟩
  exact congrArg (Option.map (fun v => v == 1)) hitem

theorem latchCounters_full (s : State) (sc : Scope) (clear : Bool) (h : (s.latches sc).counters.isSome = true) :
    s.latchCounters sc clear = (⟨.doneAlready, none, []⟩, s) := if_pos h

theorem latchCounters_empty (s : State) (sc : Scope) (clear : Bool) (h : (s.latches sc).counters = none) :
    s.latchCounters sc clear =
      (⟨.done, none, []⟩,
        if clear then (s.setLatches sc ⟨(s.latches sc).status, some (s.counterRecord sc)⟩).clearCounters sc
        else s.setLatches sc ⟨(s.latches sc).status, some (s.counterRecord sc)⟩) := by
  unfold State.latchCounters
  rw [h]
  rfl

theorem latchStatus_full (s : State) (sc : Scope) (h : (s.latches sc).status.isSome = true) :
    s.latchStatus sc = (⟨.doneAlready, none, []⟩, s) := if_pos h

theorem latchStatus_empty (s : State) (sc : Scope) (h : (s.latches sc).status = none) :
    s.latchStatus sc =
      (⟨.done, none, []⟩, s.setLatches sc ⟨some (s.statusRecord sc), (s.latches sc).counters⟩) := by
  unfold State.latchStatus
  rw [h]
  rfl

section
variable {n : Feed} {c : CueWords} {s : State} {sc : Scope}

theorem exec_snapshot (w : Word) (ha : s.admits n 0x00E c sc) (hp : c.payload = [w]) (hw : w.toNat ≤ 1) :
    exec (.snapshot n c) s =
      .next ((s.latchCounters sc (w.toNat == 1)).2.answer n 0x00E c (s.latchCounters sc (w.toNat == 1)).1) := by
  have hrun : cueRun (.snapshot n c) sc s = s.latchCounters sc (w.toNat == 1) := by
    show State.carrySnapshot c.payload sc s = _
    unfold State.carrySnapshot
    rw [hp, snapshotItems_flag w hw]
  rw [exec_answered (.snapshot n c) n 0x00E c s sc nofun rfl ha rfl (by rw [hp]; rfl), hrun]

theorem exec_statusQuery (ha : s.admits n 0x00F c sc) (hp : c.payload = []) :
    exec (.statusQuery n c) s = .next ((s.latchStatus sc).2.answer n 0x00F c (s.latchStatus sc).1) :=
  exec_answered (.statusQuery n c) n 0x00F c s sc nofun rfl ha rfl (by rw [hp]; rfl)

end

/-- Settles O60: the records word by word, then each cue by whether its latch is full. -/
theorem latchCues : Obligations.LatchCues := by
  refine ⟨fun s => ⟨fun n => ⟨rfl, rfl⟩, ⟨rfl, rfl⟩, fun n => ?_, ?_⟩, fun n c s sc w =>
    ⟨fun ha hp hw => ⟨fun hfull => ?_, fun hempty => ?_⟩, fun ha hp => ⟨fun hfull => ?_, fun hempty => ?_⟩⟩⟩
  · refine ⟨(s.cad.trackers.get n).best, Tracker.best_eq_none _, Tracker.best_spec _, ?_⟩
    rw [statusRecord_feed, FeedState.wordOf_code, Structure.wordOf_code, HalfState.wordOf_code, HalfState.wordOf_code]
    rfl
  · rw [statusRecord_device]
    rfl
  · rw [exec_snapshot w ha hp hw, latchCounters_full s sc _ hfull]
  · rw [exec_snapshot w ha hp hw, latchCounters_empty s sc _ hempty]
    simp only [beq_iff_eq]
  · rw [exec_statusQuery ha hp, latchStatus_full s sc hfull]
  · rw [exec_statusQuery ha hp, latchStatus_empty s sc hempty]

end Sys2Proof.Machine
end

-- ==== Sys2Proof/Proofs: frame jobs ====
section
/-! The statements about frame jobs: the jobs that wait and the engine's choice, the final mode, the completion. First what the
model's operations do, then each statement from that. -/

namespace Sys2Proof.Machine

/-! ## The final mode (R94) -/

theorem usableNeighbour_some_iff (p : Parity) (r : FieldRecord) :
    usableNeighbour p (some r) = true ↔ (∃ k, r.content = .slot k) ∧ r.poor = false ∧ r.parity = p := by
  rw [← hasContent_iff]
  simp [usableNeighbour, and_assoc]

/-- The first test: class 0 or 1 while the store is tight. -/
theorem finalMode_tight (s : State) (j : Job) (hcls : (s.settings j.feed).cls.val ≤ 1) (htight : s.fst.tight = true) :
    s.finalMode j = .spatial := if_pos (by simp [hcls, htight])

section
variable {s : State} {j : Job} (h : ¬((s.settings j.feed).cls.val ≤ 1 ∧ s.fst.tight = true))
include h

/-- Past the first test, the intended mode stands or falls with the neighbours that it reads. -/
theorem finalMode_of_neighbours :
    let prevOk := usableNeighbour j.f0Parity.opposite (s.refRecord j.feed j.refs.prev)
    let nextOk := usableNeighbour j.f0Parity.opposite (s.refRecord j.feed j.refs.next)
    s.finalMode j =
      if j.intended = .weavePrev ∧ prevOk = false ∨ j.intended = .weaveNext ∧ nextOk = false ∨
          j.intended = .adaptive ∧ (prevOk = false ∨ nextOk = false) then .spatial
      else j.intended := by
  intro prevOk nextOk
  unfold State.finalMode
  rw [if_neg (by simpa using h)]
  simp only [Bool.and_eq_true, Bool.or_eq_true, beq_iff_eq, Bool.not_eq_true']
  rw [ite_or, ite_or]

theorem finalMode_weavePrev (hm : j.intended = .weavePrev) :
    s.finalMode j =
      if usableNeighbour j.f0Parity.opposite (s.refRecord j.feed j.refs.prev) then .weavePrev else .spatial := by
  rw [finalMode_of_neighbours h, hm]
  cases usableNeighbour j.f0Parity.opposite (s.refRecord j.feed j.refs.prev) <;> rfl

theorem finalMode_weaveNext (hm : j.intended = .weaveNext) :
    s.finalMode j =
      if usableNeighbour j.f0Parity.opposite (s.refRecord j.feed j.refs.next) then .weaveNext else .spatial := by
  rw [finalMode_of_neighbours h, hm]
  cases usableNeighbour j.f0Parity.opposite (s.refRecord j.feed j.refs.next) <;> rfl

theorem finalMode_adaptive (hm : j.intended = .adaptive) :
    s.finalMode j =
      if usableNeighbour j.f0Parity.opposite (s.refRecord j.feed j.refs.prev) &&
          usableNeighbour j.f0Parity.opposite (s.refRecord j.feed j.refs.next) then .adaptive else .spatial := by
  rw [finalMode_of_neighbours h, hm]
  cases usableNeighbour j.f0Parity.opposite (s.refRecord j.feed j.refs.prev) <;>
    cases usableNeighbour j.f0Parity.opposite (s.refRecord j.feed j.refs.next) <;> rfl

theorem finalMode_spatial (hm : j.intended = .spatial) : s.finalMode j = .spatial := by
  rw [finalMode_of_neighbours h, hm, ite_self]

end

/-- Settles O36: the first test, then the intended mode by the neighbours it reads; no test names F-2. -/
theorem finalModeOfJob : Obligations.FinalModeOfJob :=
  ⟨fun s j => ⟨finalMode_tight s j,
    fun h => ⟨finalMode_weavePrev h, finalMode_weaveNext h, finalMode_adaptive h, finalMode_spatial h⟩, fun _ => rfl⟩,
    fun p => ⟨rfl, usableNeighbour_some_iff p⟩⟩

/-! ## The engine's choice (R90) -/

/-- The walk's choice is the job it began with or one of the list. -/
theorem betterJob_foldl_mem (s : State) {b : Job} : ∀ (l : List Job) (best : Option Job),
    l.foldl s.betterJob best = some b → best = some b ∨ b ∈ l := by
  intro l
  induction l with
  | nil => exact fun _ h => Or.inl h
  | cons x l ih =>
    intro best h
    rcases ih _ h with hx | hl
    · unfold State.betterJob at hx
      split at hx
      · exact Or.inr (List.mem_cons.2 (Or.inl (Option.some.inj hx).symm))
      · split at hx
        · exact Or.inr (List.mem_cons.2 (Or.inl (Option.some.inj hx).symm))
        · exact Or.inl hx
    · exact Or.inr (List.mem_cons_of_mem x hl)

/-- A job keeps its place against later jobs of no higher class. -/
theorem betterJob_foldl_keeps (s : State) (j : Job) (l : List Job)
    (h : ∀ x ∈ l, (s.settings x.feed).cls ≤ (s.settings j.feed).cls) : l.foldl s.betterJob (some j) = some j := by
  induction l with
  | nil => rfl
  | cons x l ih =>
    have hx : s.betterJob (some j) x = some j := if_neg (Nat.not_lt.2 (h x List.mem_cons_self))
    rw [List.foldl_cons, hx]
    exact ih (fun y hy => h y (List.mem_cons_of_mem x hy))

theorem chosenJob_mem {s : State} {j : Job} (h : s.chosenJob = some j) : j ∈ s.fen.waiting :=
  (betterJob_foldl_mem s _ none h).resolve_left nofun

/-- The engine chooses the highest class, and of equals the one nearest the head (R90). -/
theorem chosenJob_of_split (s : State) (pre post : List Job) (j : Job) (hw : s.fen.waiting = pre ++ j :: post)
    (hpre : ∀ x ∈ pre, (s.settings x.feed).cls < (s.settings j.feed).cls)
    (hpost : ∀ x ∈ post, (s.settings x.feed).cls ≤ (s.settings j.feed).cls) : s.chosenJob = some j := by
  have htaken : s.betterJob (pre.foldl s.betterJob none) j = some j := by
    cases hb : pre.foldl s.betterJob none with
    | none => rfl
    | some b => exact if_pos (hpre b ((betterJob_foldl_mem s pre none hb).resolve_left nofun))
  unfold State.chosenJob
  rw [hw, List.foldl_append, List.foldl_cons, htaken]
  exact betterJob_foldl_keeps s j post hpost

theorem f0HasContent_iff (s : State) (j : Job) :
    s.f0HasContent j = true ↔
      ∃ q r k, j.refs.f0 = some q ∧ s.record j.feed q = some r ∧ r.content = .slot k := by
  unfold State.f0HasContent State.refRecord
  cases hq : j.refs.f0 with
  | none => simp
  | some q =>
    cases hr : s.record j.feed q with
    | none => simp [hr]
    | some r => simp [hr, hasContent_iff]

/-! ## A turn of the engine (R90, R91) -/

@[simp] theorem releaseSlots_fen (s : State) (ks : List (Fin 24)) : (s.releaseSlots ks).fen = s.fen := by
  rw [releaseSlots_keeps]

@[simp] theorem retain_fen (s : State) (n : Feed) : (s.retain n).fen = s.fen := releaseSlots_fen _ _

theorem noteSkip_eq (s : State) (j : Job) :
    s.noteSkip j = (s.raise .jobSkipped (.feed j.feed) (.sequence j.f0Seq)).count j.feed .jobsSkipped 1 := rfl

theorem skipAtChoice_fen (s : State) (j : Job) :
    (s.skipAtChoice j).fen = { s.fen with waiting := s.fen.waiting.erase j } := retain_fen _ _

theorem arbitrateFor_building (k : Nat) (s : State) (h : s.fen.service ≠ none) : State.arbitrateFor k s = s := by
  obtain ⟨v, hv⟩ := Option.ne_none_iff_exists'.1 h
  cases k with
  | zero => rfl
  | succ k =>
    unfold State.arbitrateFor
    rw [hv]

theorem arbitrate_building (s : State) (h : s.fen.service ≠ none) : s.arbitrate = s := arbitrateFor_building _ s h

theorem arbitrate_empty (s : State) (h : s.fen.waiting = []) : s.arbitrate = s := by
  unfold State.arbitrate
  rw [h]
  rfl

/-- A turn of an IDLE engine starts the chosen job, or skips it and the engine chooses among those left (R91). -/
theorem arbitrate_turn (s : State) (j : Job) (hidle : s.fen.service = none) (hj : s.chosenJob = some j) :
    s.arbitrate = if s.f0HasContent j then s.startJob j else (s.skipAtChoice j).arbitrate := by
  have hleft : (s.skipAtChoice j).fen.waiting.length + 1 = s.fen.waiting.length := by
    rw [skipAtChoice_fen]
    exact List.length_erase_add_one (chosenJob_mem hj)
  unfold State.arbitrate
  rw [← hleft, State.arbitrateFor, hidle]
  dsimp only
  rw [hj]

/-! ## Entering the queue (R88) -/

theorem skipOlder_room (s : State) (n : Feed) (h : (s.waitingOf n).length ≤ 1) : s.skipOlder n = s := by
  unfold State.skipOlder
  split
  · next heq =>
    rw [heq] at h
    simp at h
  · rfl

/-- A job taken out of the list leaves the jobs before and behind its first place. -/
theorem erase_first {o : Job} {pre : List Job} (post : List Job) (h : o ∉ pre) :
    (pre ++ o :: post).erase o = pre ++ post := by
  rw [List.erase_append_right _ h, List.erase_cons_head]

/-- Of two jobs that wait, the older is skipped. -/
theorem skipOlder_full (s : State) (n : Feed) (pre post : List Job) (o : Job) (hw : s.fen.waiting = pre ++ o :: post)
    (ho : o.feed = n) (hpre : ∀ x ∈ pre, x.feed ≠ n) (hpost : ∃ x ∈ post, x.feed = n) :
    s.skipOlder n = ({ s with fen := { s.fen with waiting := pre ++ post } }).noteSkip o := by
  have hnone : pre.filter (fun x => x.feed == n) = [] := List.filter_eq_nil_iff.2 (by simpa using hpre)
  obtain ⟨x, hx, hxn⟩ := hpost
  obtain ⟨y, t, ht⟩ := List.exists_cons_of_ne_nil
    (List.ne_nil_of_mem (List.mem_filter.2 ⟨hx, beq_iff_eq.2 hxn⟩ : x ∈ post.filter (fun x => x.feed == n)))
  have htwo : s.waitingOf n = o :: y :: t := by
    unfold State.waitingOf
    rw [hw, List.filter_append, hnone, List.nil_append, List.filter_cons_of_pos (by rwa [beq_iff_eq]), ht]
  unfold State.skipOlder
  rw [htwo, hw]
  dsimp only
  rw [erase_first post (fun hmem => hpre o hmem ho)]

/-! ## References lost at the cap (R27, R89) -/

theorem isBuiltFrom_eq (n : Feed) (q : Seq) :
    Job.isBuiltFrom n q = fun j => decide (j.feed = n ∧ j.refs.f0 = some q) := by
  funext j
  simp [Job.isBuiltFrom, Bool.beq_eq_decide_eq]

theorem dropWaitingRefs_eq (s : State) (n : Feed) (q : Seq) :
    s.dropWaitingRefs n q =
      (s.fen.waiting.filter (fun j => decide (j.feed = n ∧ j.refs.f0 = some q))).foldl State.noteSkip
        { s with fen := { s.fen with
            waiting := (s.fen.waiting.filter (fun j => !decide (j.feed = n ∧ j.refs.f0 = some q))).map
              (fun j => if j.feed = n then { j with refs := j.refs.drop q } else j) } } := by
  unfold State.dropWaitingRefs
  simp only [isBuiltFrom_eq, beq_iff_eq]

/-- Settles O34: the entry by the jobs of its feed that wait, the references by the cap's own filter, the choice turn by turn. -/
theorem jobQueue : Obligations.JobQueue := by
  refine ⟨fun s j => ⟨fun hroom => ?_, fun pre post o hw ho hpre hpost => ?_⟩,
    fun s n q => ⟨dropWaitingRefs_eq s n q, noteSkip_eq⟩,
    fun s => ⟨arbitrate_building s, arbitrate_empty s, fun pre post j hidle hw hpre hpost => ?_⟩⟩
  · unfold State.enqueue
    rw [skipOlder_room s j.feed hroom]
  · unfold State.enqueue
    rw [skipOlder_full s j.feed pre post o hw ho hpre hpost]
    rfl
  · have hturn := arbitrate_turn s j hidle (chosenJob_of_split s pre post j hw hpre hpost)
    have herase : s.fen.waiting.erase j = pre ++ post := by
      rw [hw, erase_first post (fun hmem => lt_irrefl _ (hpre j hmem))]
    refine ⟨fun hcontent => ?_, fun hcontent => ?_⟩
    · rw [hturn, if_pos ((f0HasContent_iff s j).2 hcontent)]
    · rw [hturn, if_neg (fun h => hcontent ((f0HasContent_iff s j).1 h)), State.skipAtChoice, herase]
      rfl

/-! ## The lines and the frame of a build (R107, R121, R126, R138) -/

theorem roleLines_length (s : State) (v : Service) (r : BuildRole) : (s.roleLines v r).length = v.lines := by
  unfold State.roleLines
  simp

/-- A role's line is there where a read delivered it, as it stands in the slot of the record held. -/
theorem roleLines_getD_iff (s : State) (v : Service) (r : BuildRole) (m : Nat) (l : Line) :
    (s.roleLines v r).getD m none = some l ↔
      m < v.lines ∧ m ∈ (v.reads.role r).usable ∧
        ∃ q x k, v.roleRef r = some q ∧ s.heldRecord v.job.feed q = some x ∧ x.content = .slot k ∧
          l = lineAt s.fst.mem k m := by
  by_cases hm : m < v.lines
  · unfold State.roleLines
    rw [List.getD_eq_getElem _ _ (by simpa using hm), List.getElem_map, List.getElem_range,
      Option.ite_none_right_eq_some, List.contains_iff_mem]
    refine ⟨fun ⟨hread, hline⟩ => ⟨hm, hread, ?_⟩, fun ⟨_, hread, q, x, k, hq, hx, hk, hl⟩ => ⟨hread, ?_⟩⟩
    · split at hline
      · cases hline
      · next q hq =>
        split at hline
        · cases hline
        · next x hx =>
          split at hline
          · next k hk => exact ⟨q, x, k, hq, hx, hk, (Option.some.inj hline).symm⟩
          · cases hline
    · rw [hq]
      dsimp only
      rw [hx]
      dsimp only
      rw [hk, hl]
  · rw [List.getD_eq_default _ _ (by rw [roleLines_length]; omega)]
    exact ⟨nofun, fun h => absurd h.1 hm⟩

/-! ## The completion (R41, R97) -/

theorem exec_jobCompletion (s : State) (h : s.resetHeld = false) : exec .jobCompletion s = .next s.completeJob :=
  unlessHeld_released s _ h

/-- The half that a completion delivers (R97, R141). -/
abbrev State.builtHalf (s : State) (v : Service) : Half :=
  ⟨if v.withdrawn then .empty else .ready, some (s.finishedFrame v), .field v.job.f0Seq⟩

theorem builtHalf_notSending (s : State) (v : Service) : (s.builtHalf v).state ≠ .sending := by
  dsimp only
  split <;> nofun

/-- The delivery touches the output of the job's feed and its counters. -/
theorem deliver_keeps (s : State) (v : Service) :
    (s.deliver v).fst = s.fst ∧ (s.deliver v).fen = s.fen ∧
      (s.deliver v).otx.get v.job.feed = (s.otx.get v.job.feed).setOther (s.builtHalf v) := by
  unfold State.deliver State.builtHalf
  dsimp only
  split <;> exact ⟨rfl, rfl, Quad_get_set_same _ _ _⟩

/-- The end of the job in service for the store touches the slots, the detached records and the tight flag (R41). -/
theorem endDetached_keeps (s : State) :
    s.endDetached =
      { s with fst := { s.fst with
          slots := s.endDetached.fst.slots, detached := [], tight := s.endDetached.fst.tight } } :=
  releaseSlots_keeps _ _

theorem mem_retiringSlots (s : State) (k : Fin 24) : k ∈ s.retiringSlots ↔ ∃ m, s.slot k = .retiring m := by
  unfold State.retiringSlots
  rw [List.mem_filter]
  cases s.slot k <;> simp

theorem endDetached_slot (s : State) (h : s.slotsOk) (k : Fin 24) :
    s.endDetached.slot k = if (∃ m, s.slot k = .retiring m) then .free else s.slot k := by
  unfold State.endDetached
  rw [(releaseSlots_slot ({ s with fst := { s.fst with detached := [] } }) h _).2]
  simp only [mem_retiringSlots]
  rfl

/-- The part when the job v in service has delivered its frame and ended, before retention and the next choice. -/
def State.jobEnded (s : State) (v : Service) : State :=
  ({ s.deliver v with fen := { (s.deliver v).fen with service := none } }).endDetached

theorem completeJob_eq (s : State) (v : Service) (hv : s.finishReads.fen.service = some v) :
    s.completeJob = ((s.finishReads.jobEnded v).retain v.job.feed).arbitrate := by
  unfold State.completeJob
  dsimp only
  rw [hv]
  rfl

section
variable (s : State) (v : Service)

theorem jobEnded_detached : (s.jobEnded v).fst.detached = [] := by
  rw [State.jobEnded, endDetached_keeps]

theorem jobEnded_fen : (s.jobEnded v).fen = { s.fen with service := none } := by
  obtain ⟨-, hfen, -⟩ := deliver_keeps s v
  rw [State.jobEnded, endDetached_keeps, hfen]

theorem jobEnded_otx : (s.jobEnded v).otx.get v.job.feed = (s.otx.get v.job.feed).setOther (s.builtHalf v) := by
  obtain ⟨-, -, hotx⟩ := deliver_keeps s v
  rw [State.jobEnded, endDetached_keeps, hotx]

theorem jobEnded_slot (h : s.slotsOk) (k : Fin 24) :
    (s.jobEnded v).slot k = if (∃ m, s.slot k = .retiring m) then .free else s.slot k := by
  obtain ⟨hfst, -, -⟩ := deliver_keeps s v
  have hok : (s.deliver v).slotsOk := by rwa [State.slotsOk, hfst]
  have hslot : (s.deliver v).slot k = s.slot k := by rw [State.slot, hfst, State.slot]
  rw [← hslot]
  refine endDetached_slot _ ?_ k
  exact hok

/-- The half that is not SENDING takes the frame; the one that is stays (R97). -/
theorem jobEnded_halves :
    ((s.jobEnded v).otx.get v.job.feed).otherHalf = s.builtHalf v ∧
      ((s.jobEnded v).otx.get v.job.feed).sendingHalf = (s.otx.get v.job.feed).sendingHalf := by
  rw [jobEnded_otx]
  exact (setOther_halves _ _ (builtHalf_notSending s v)).symm

/-- With no job waiting the engine is IDLE after the completion. -/
theorem jobEnded_idle (h : s.fen.waiting = []) :
    let t := ((s.jobEnded v).retain v.job.feed).arbitrate
    t.fen.service = none ∧ t.fen.waiting = [] := by
  have hfen : ((s.jobEnded v).retain v.job.feed).fen = { s.fen with service := none } :=
    (retain_fen _ _).trans (jobEnded_fen s v)
  have hempty : ((s.jobEnded v).retain v.job.feed).fen.waiting = [] := by rw [hfen, h]
  rw [arbitrate_empty _ hempty]
  exact ⟨by rw [hfen], hempty⟩

end

/-- The job in service at the end of the reads is the one before them, but for its reads. -/
theorem finishReads_service (s : State) (v : Service) (hv : s.finishReads.fen.service = some v) :
    ∃ w, s.fen.service = some w ∧ v = { w with reads := v.reads } := by
  cases hs : s.fen.service with
  | none =>
    have hidle : s.finishReads = s := by
      unfold State.finishReads
      rw [hs]
    rw [hidle, hs] at hv
    cases hv
  | some w =>
    obtain ⟨-, -, hservice⟩ := finishReads_keeps s
    obtain ⟨reads, hreads⟩ := hservice w hs
    obtain rfl := Option.some.inj (hv.symm.trans hreads)
    exact ⟨w, rfl, rfl⟩

/-- Settles O37: the completion's steps in order, the halves by the delivery, the frame by the lines of each role. -/
theorem jobCompletes : Obligations.JobCompletes := by
  intro s v hreset hv s0
  obtain ⟨hotx, hwaiting, -⟩ := finishReads_keeps s
  have hslots : s.slotsOk → s0.slotsOk := (Moves.finishReads (a := .still) s).keeps_slotsOk
  refine ⟨?_, hotx, jobEnded_detached s0 v, fun hok => jobEnded_slot s0 v (hslots hok), fun _ => ?_,
    finishReads_service s v hv, fun hnone => jobEnded_idle s0 v (hwaiting.trans hnone), s0.weaveInput v, rfl, rfl, fun r => ?_⟩
  · rw [exec_jobCompletion s hreset, completeJob_eq s v hv]
    rfl
  · rw [← hotx]
    exact jobEnded_halves s0 v
  · cases r <;> exact ⟨roleLines_length s0 v _, roleLines_getD_iff s0 v _⟩

end Sys2Proof.Machine
end

-- ==== Sys2Proof/Proofs: deinterlace arithmetic ====
section
/-! The statements about the deinterlace arithmetic: the blend of a missing row, and its plan. First the geometry of the woven
frame and the search for the nearest line, then S, T and the weight, then each statement from that. -/

namespace Sys2Proof.Machine

/-! ## The geometry of the woven frame (R103, R104) -/

/-- The row of the woven frame that F0 line l occupies (Table 6-1). -/
def f0RowOf (p : Parity) (l : Nat) : Nat := if p = .upper then 2 * l else 2 * l + 1

@[simp] theorem f0RowOf_upper (l : Nat) : f0RowOf .upper l = 2 * l := rfl

@[simp] theorem f0RowOf_lower (l : Nat) : f0RowOf .lower l = 2 * l + 1 := rfl

@[simp] theorem missingRow_upper (m : Nat) : missingRow .upper m = 2 * m + 1 := rfl

@[simp] theorem missingRow_lower (m : Nat) : missingRow .lower m = 2 * m := rfl

theorem missingRow_eq (p : Parity) (m : Nat) : missingRow p m = if p = .upper then 2 * m + 1 else 2 * m := by
  cases p <;> rfl

theorem f0RowOf_lt_f0RowOf_iff (p : Parity) (l x : Nat) : f0RowOf p l < f0RowOf p x ↔ l < x := by
  cases p <;> simp

/-- An F0 line above missing row m is no later than line m. -/
theorem le_of_f0RowOf_lt {p : Parity} {l m : Nat} (h : f0RowOf p l < missingRow p m) : l ≤ m := by
  cases p <;> simp at h <;> omega

/-- The rows between an F0 line and a missing row, that row counted. -/
def rowsAway (p : Parity) (m l : Nat) : Nat := ((f0RowOf p l : Int) - missingRow p m).natAbs

theorem searchAbove_eq_some_iff (p : Parity) (m d l : Nat) :
    searchAbove p m d = some l ↔ f0RowOf p l + (2 * d + 1) = missingRow p m := by
  cases p <;> simp [searchAbove] <;> omega

theorem searchBelow_eq_some_iff (p : Parity) (lines m d l : Nat) :
    searchBelow p lines m d = some l ↔ l < lines ∧ f0RowOf p l = missingRow p m + (2 * d + 1) := by
  cases p <;> simp [searchBelow] <;> omega

/-- Line a lies where a search upwards would begin, one row away. -/
theorem lineAbove_eq_searchAbove (p : Parity) (m : Nat) : lineAbove p m = searchAbove p m 0 := by
  cases p
  · rfl
  · cases m <;> rfl

/-- Line b lies where a search downwards would begin, one row away. -/
theorem lineBelow_eq_searchBelow (p : Parity) {lines m : Nat} (hm : m < lines) :
    lineBelow p lines m = searchBelow p lines m 0 := by
  cases p
  · rfl
  · exact (if_pos hm).symm

section
variable {lines m : Nat} (hm : m < lines)
include hm

theorem lineAbove_eq_some_iff (p : Parity) (l : Nat) :
    lineAbove p m = some l ↔ l < lines ∧ f0RowOf p l + 1 = missingRow p m := by
  rw [lineAbove_eq_searchAbove, searchAbove_eq_some_iff]
  refine ⟨fun h => ⟨?_, h⟩, And.right⟩
  have hbefore : l ≤ m := le_of_f0RowOf_lt (p := p) (by omega)
  omega

theorem lineBelow_eq_some_iff (p : Parity) (l : Nat) :
    lineBelow p lines m = some l ↔ l < lines ∧ f0RowOf p l = missingRow p m + 1 := by
  rw [lineBelow_eq_searchBelow p hm]
  exact searchBelow_eq_some_iff p lines m 0 l

theorem rowsAway_lt {l : Nat} (p : Parity) (hl : l < lines) : rowsAway p m l < 2 * lines := by
  cases p <;> simp [rowsAway] <;> omega

/-- The lines at one row's distance are a and b. -/
theorem rowsAway_one {p : Parity} {l : Nat} (hl : l < lines) (h : rowsAway p m l = 1) :
    lineAbove p m = some l ∨ lineBelow p lines m = some l := by
  rw [lineAbove_eq_some_iff hm, lineBelow_eq_some_iff hm]
  unfold rowsAway at h
  omega

end

/-- Rows of the two parities are an odd number of rows apart. -/
theorem rowsAway_odd (p : Parity) (m l : Nat) : rowsAway p m l % 2 = 1 := by
  cases p <;> simp [rowsAway] <;> omega

/-! ## Usable lines -/

/-- A line of F0 that the build can use. -/
def WeaveInput.usableF0 (w : WeaveInput) (l : Nat) : Prop := (w.f0.getD l none).isSome = true ∧ l < w.lines

theorem isUsableAt_iff (ls : List (Option Line)) (o : Option Nat) :
    isUsableAt ls o = true ↔ ∃ i, o = some i ∧ (ls.getD i none).isSome = true := by
  cases o <;> simp [isUsableAt, usableAt]

theorem isUsableAt_f0_iff (w : WeaveInput) {o : Option Nat} (ho : ∀ l, o = some l → l < w.lines) :
    isUsableAt w.f0 o = true ↔ ∃ l, o = some l ∧ w.usableF0 l := by
  rw [isUsableAt_iff]
  exact exists_congr fun l => and_congr_right fun hl => (and_iff_left (ho l hl)).symm

/-! ## The search for the nearest usable line (R109) -/

/-- The lines that the search visits at step d. -/
def searchStep (w : WeaveInput) (m d : Nat) : List Nat :=
  (searchAbove w.parity m d).toList ++ (searchBelow w.parity w.lines m d).toList

/-- The lines that the search visits, in order. -/
def searchOrder (w : WeaveInput) (m : Nat) : List Nat := (List.range w.lines).flatMap (fun i => searchStep w m (i + 1))

theorem nearestLine_eq (w : WeaveInput) (m : Nat) :
    nearestLine w m = (searchOrder w m).find? (fun x => (usableAt w.f0 x).isSome) := rfl

/-- One line comes before another: it is nearer to the missing row, or above it at equal distance. -/
def nearerLine (p : Parity) (m x y : Nat) : Prop :=
  rowsAway p m x < rowsAway p m y ∨ rowsAway p m x = rowsAway p m y ∧ x < y

section
variable {w : WeaveInput} {m : Nat} (hm : m < w.lines)
include hm

/-- Step d visits the lines 2d+1 rows away. -/
theorem mem_searchStep_iff (d x : Nat) :
    x ∈ searchStep w m d ↔ x < w.lines ∧ rowsAway w.parity m x = 2 * d + 1 := by
  have habove : f0RowOf w.parity x < missingRow w.parity m → x ≤ m := le_of_f0RowOf_lt
  simp only [searchStep, List.mem_append, Option.mem_toList, searchAbove_eq_some_iff, searchBelow_eq_some_iff, rowsAway]
  omega

/-- The search visits every line but a and b. -/
theorem mem_searchOrder_iff (x : Nat) :
    x ∈ searchOrder w m ↔ x < w.lines ∧ rowsAway w.parity m x ≠ 1 := by
  have hodd := rowsAway_odd w.parity m x
  simp only [searchOrder, List.mem_flatMap, List.mem_range, mem_searchStep_iff hm]
  refine ⟨fun ⟨i, _, hx, haway⟩ => ⟨hx, by omega⟩, fun ⟨hx, haway⟩ => ?_⟩
  have hfar := rowsAway_lt hm w.parity hx
  exact ⟨(rowsAway w.parity m x - 3) / 2, by omega, hx, by omega⟩

/-- Within a step the line above is visited before the line below. -/
theorem searchStep_pairwise (d : Nat) : (searchStep w m d).Pairwise (nearerLine w.parity m) := by
  have single : ∀ o : Option Nat, o.toList.Pairwise (nearerLine w.parity m) := by
    intro o
    cases o
    · exact List.Pairwise.nil
    · exact List.pairwise_singleton _ _
  refine List.pairwise_append.2 ⟨single _, single _, fun x hx y hy => Or.inr ⟨?_, ?_⟩⟩
  · rw [((mem_searchStep_iff hm d x).1 (List.mem_append_left _ hx)).2,
      ((mem_searchStep_iff hm d y).1 (List.mem_append_right _ hy)).2]
  · rw [Option.mem_toList, searchAbove_eq_some_iff] at hx
    rw [Option.mem_toList, searchBelow_eq_some_iff] at hy
    exact (f0RowOf_lt_f0RowOf_iff w.parity x y).1 (by omega)

/-- The search visits nearer lines first, the upper of two at equal distance. -/
theorem searchOrder_pairwise : (searchOrder w m).Pairwise (nearerLine w.parity m) := by
  refine List.pairwise_flatMap.2 ⟨fun i _ => searchStep_pairwise hm (i + 1), ?_⟩
  refine List.pairwise_lt_range.imp fun {i j} hij x hx y hy => Or.inl ?_
  rw [((mem_searchStep_iff hm _ x).1 hx).2, ((mem_searchStep_iff hm _ y).1 hy).2]
  omega

/-- The search finds the usable line that no other usable line comes before. -/
theorem nearestLine_eq_some {l : Nat} (hl : w.usableF0 l) (hfar : rowsAway w.parity m l ≠ 1)
    (hmin : ∀ x, w.usableF0 x → ¬nearerLine w.parity m x l) : nearestLine w m = some l := by
  obtain ⟨before, after, hsplit⟩ := List.append_of_mem ((mem_searchOrder_iff hm l).2 ⟨hl.2, hfar⟩)
  rw [nearestLine_eq, List.find?_eq_some_iff_append]
  refine ⟨hl.1, before, after, hsplit, fun x hx => ?_⟩
  have hvisited : x ∈ searchOrder w m := by
    rw [hsplit]
    exact List.mem_append_left _ hx
  have hnearer : nearerLine w.parity m x l := by
    have hpair := searchOrder_pairwise hm
    rw [hsplit, List.pairwise_append] at hpair
    exact hpair.2.2 x hx l List.mem_cons_self
  have hlines := ((mem_searchOrder_iff hm x).1 hvisited).1
  rw [Bool.not_eq_true', ← Bool.not_eq_true]
  exact fun husable => hmin x ⟨husable, hlines⟩ hnearer

theorem nearestLine_eq_none (h : ∀ l, ¬w.usableF0 l) : nearestLine w m = none := by
  rw [nearestLine_eq, List.find?_eq_none]
  exact fun x hx husable => h x ⟨husable, ((mem_searchOrder_iff hm x).1 hx).1⟩

end

/-! ## The source of S (R109) -/

section
variable {w : WeaveInput} {m : Nat}

theorem spatialSource_pair (ha : isUsableAt w.f0 (lineAbove w.parity m) = true)
    (hb : isUsableAt w.f0 (lineBelow w.parity w.lines m) = true) : spatialSource w m = .pair := by
  simp [spatialSource, ha, hb]

theorem spatialSource_above {l : Nat} (hl : lineAbove w.parity m = some l)
    (ha : isUsableAt w.f0 (lineAbove w.parity m) = true)
    (hb : isUsableAt w.f0 (lineBelow w.parity w.lines m) = false) : spatialSource w m = .single l := by
  rw [hl] at ha
  simp [spatialSource, hl, ha, hb]

theorem spatialSource_below {l : Nat} (hl : lineBelow w.parity w.lines m = some l)
    (ha : isUsableAt w.f0 (lineAbove w.parity m) = false)
    (hb : isUsableAt w.f0 (lineBelow w.parity w.lines m) = true) : spatialSource w m = .single l := by
  rw [hl] at hb
  simp [spatialSource, hl, ha, hb]

/-- With neither a nor b usable, S is of the line that the search finds, or the fill level. -/
theorem spatialSource_search (ha : isUsableAt w.f0 (lineAbove w.parity m) = false)
    (hb : isUsableAt w.f0 (lineBelow w.parity w.lines m) = false) :
    spatialSource w m = (nearestLine w m).elim .fill .nearest := by
  simp only [spatialSource, ha, hb]
  cases nearestLine w m <;> rfl

end

/-! ## T, M2 and the weight rule (R113, R115, R117) -/

theorem temporalAvailable_iff (w : WeaveInput) (m : Nat) :
    temporalAvailable w m = true ↔
      (w.mode = .weavePrev ∧ (w.prev.getD m none).isSome = true) ∨
      (w.mode = .weaveNext ∧ (w.next.getD m none).isSome = true) ∨
      (w.mode = .adaptive ∧ (w.prev.getD m none).isSome = true ∧ (w.next.getD m none).isSome = true) := by
  unfold temporalAvailable usableAt
  cases w.mode <;> simp

theorem temporalAvailable_spatial {w : WeaveInput} (m : Nat) (h : w.mode = .spatial) : temporalAvailable w m = false := by
  rw [temporalAvailable, h]

theorem m2Available_iff {w : WeaveInput} {m : Nat} (hm : m < w.lines) :
    m2Available w m = true ↔
      w.mode = .adaptive ∧ ∃ i j, lineAbove w.parity m = some i ∧ lineBelow w.parity w.lines m = some j ∧
        w.usableF0 i ∧ w.usableF0 j ∧ (w.prev2.getD i none).isSome = true ∧ (w.prev2.getD j none).isSome = true := by
  simp only [m2Available, Bool.and_eq_true, beq_iff_eq, isUsableAt_iff, and_assoc]
  refine and_congr_right fun _ => ⟨?_, ?_⟩
  · rintro ⟨⟨i, hi, fi⟩, ⟨j, hj, fj⟩, ⟨i', hi', gi⟩, ⟨j', hj', gj⟩⟩
    obtain rfl := Option.some.inj (hi.symm.trans hi')
    obtain rfl := Option.some.inj (hj.symm.trans hj')
    exact ⟨i, j, hi, hj, ⟨fi, ((lineAbove_eq_some_iff hm _ i).1 hi).1⟩, ⟨fj, ((lineBelow_eq_some_iff hm _ j).1 hj).1⟩, gi, gj⟩
  · rintro ⟨i, j, hi, hj, fi, fj, gi, gj⟩
    exact ⟨⟨i, hi, fi.1⟩, ⟨j, hj, fj.1⟩, ⟨i, hi, gi⟩, ⟨j, hj, gj⟩⟩

theorem weightRule_eq (mode : Mode) (t : Bool) (src : SpatialSource) :
    weightRule mode t src =
      if mode = .spatial ∨ t = false then .fixed16
      else if src = .fill ∨ mode = .weavePrev ∨ mode = .weaveNext then .fixed0
      else .motion := by
  unfold weightRule
  simp only [beq_iff_eq, Bool.not_eq_true', Bool.or_eq_true, ite_or]

/-! ## S at a position (R110 to R112) -/

theorem directedMean_edge (a b : List Word) {x : Nat} (h : x = 0 ∨ x = 719) :
    directedMean a b x = mean2 (smp a x) (smp b x) := if_neg (by omega)

section
variable {a b : List Word} {x : Nat} (h0 : 0 < x) (h719 : x < 719)
include h0 h719

/-- Within a row the least difference wins, 0 before -1 before +1 (R110). -/
theorem directedMean_within :
    directedMean a b x =
      if absDiff (smp a x) (smp b x) ≤ absDiff (smp a (x - 1)) (smp b (x + 1)) ∧
          absDiff (smp a x) (smp b x) ≤ absDiff (smp a (x + 1)) (smp b (x - 1)) then mean2 (smp a x) (smp b x)
      else if absDiff (smp a (x - 1)) (smp b (x + 1)) ≤ absDiff (smp a (x + 1)) (smp b (x - 1)) then
        mean2 (smp a (x - 1)) (smp b (x + 1))
      else mean2 (smp a (x + 1)) (smp b (x - 1)) := if_pos (by omega)

theorem directedMean_straight (hminus : absDiff (smp a x) (smp b x) ≤ absDiff (smp a (x - 1)) (smp b (x + 1)))
    (hplus : absDiff (smp a x) (smp b x) ≤ absDiff (smp a (x + 1)) (smp b (x - 1))) :
    directedMean a b x = mean2 (smp a x) (smp b x) := by
  rw [directedMean_within h0 h719, if_pos ⟨hminus, hplus⟩]

theorem directedMean_minus (hstraight : absDiff (smp a (x - 1)) (smp b (x + 1)) < absDiff (smp a x) (smp b x))
    (hplus : absDiff (smp a (x - 1)) (smp b (x + 1)) ≤ absDiff (smp a (x + 1)) (smp b (x - 1))) :
    directedMean a b x = mean2 (smp a (x - 1)) (smp b (x + 1)) := by
  rw [directedMean_within h0 h719, if_neg (by omega), if_pos hplus]

theorem directedMean_plus (hstraight : absDiff (smp a (x + 1)) (smp b (x - 1)) < absDiff (smp a x) (smp b x))
    (hminus : absDiff (smp a (x + 1)) (smp b (x - 1)) < absDiff (smp a (x - 1)) (smp b (x + 1))) :
    directedMean a b x = mean2 (smp a (x + 1)) (smp b (x - 1)) := by
  rw [directedMean_within h0 h719, if_neg (by omega), if_neg (by omega)]

end

section
variable (w : WeaveInput) (p : RowPlan) (c : Component) (x : Nat)

theorem spatialEstimate_pair {i j : Nat} (hs : p.source = .pair) (ha : p.a = some i) (hb : p.b = some j) :
    spatialEstimate w p c x =
      if c = .y ∧ p.dirSearch = true then
        directedMean (rowOf .y (w.f0.getD i none)) (rowOf .y (w.f0.getD j none)) x
      else mean2 (smp (rowOf c (w.f0.getD i none)) x) (smp (rowOf c (w.f0.getD j none)) x) := by
  simp only [spatialEstimate, hs, ha, hb, Option.getD_some, usableAt, Bool.and_eq_true, beq_iff_eq]
  split
  · next h => rw [h.1]
  · rfl

theorem spatialEstimate_line {l : Nat} (hs : p.source = .single l ∨ p.source = .nearest l) :
    spatialEstimate w p c x = smp (rowOf c (w.f0.getD l none)) x := by
  rcases hs with hs | hs <;> rw [spatialEstimate, hs] <;> rfl

theorem spatialEstimate_fill (hs : p.source = .fill) : spatialEstimate w p c x = if c = .y then 64 else 512 := by
  rw [spatialEstimate, hs]
  cases c <;> rfl

/-! ## T at a position (R113) -/

theorem temporalEstimate_available (ht : p.tAvailable = true) (hmode : w.mode ≠ .spatial) :
    temporalEstimate w p c x =
      if w.mode = .weavePrev then smp (rowOf c (w.prev.getD p.temporalLine none)) x
      else if w.mode = .weaveNext then smp (rowOf c (w.next.getD p.temporalLine none)) x
      else mean2 (smp (rowOf c (w.prev.getD p.temporalLine none)) x)
        (smp (rowOf c (w.next.getD p.temporalLine none)) x) := by
  rw [temporalEstimate, if_pos ht]
  cases hw : w.mode with
  | spatial => exact absurd hw hmode
  | _ => rfl

/-! ## The weight k (R116, R117) -/

theorem weightAt_fixed16 (hr : p.rule = .fixed16) : weightAt w p x = 16 := by rw [weightAt, hr]

theorem weightAt_fixed0 (hr : p.rule = .fixed0) : weightAt w p x = 0 := by rw [weightAt, hr]

theorem weightAt_motion (hr : p.rule = .motion) :
    weightAt w p x = blendWeight w.floor w.gain (max (motion1 w p x) (motion2 w p x)) := by rw [weightAt, hr]

theorem blendWeight_le (floor gain motion : Nat) : blendWeight floor gain motion ≤ 16 := by
  unfold blendWeight
  split
  · exact Nat.zero_le 16
  · exact Nat.min_le_left _ _

theorem weightAt_le : weightAt w p x ≤ 16 := by
  cases hr : p.rule with
  | fixed16 => exact (weightAt_fixed16 w p x hr).le
  | fixed0 => exact (weightAt_fixed0 w p x hr).trans_le (Nat.zero_le 16)
  | motion => exact (weightAt_motion w p x hr).trans_le (blendWeight_le _ _ _)

end

/-- Where T is not available the whole weight is on S (R117). -/
theorem weightAt_unavailable (w : WeaveInput) (m x : Nat) (h : (rowPlan w m).tAvailable = false) :
    weightAt w (rowPlan w m) x = 16 :=
  weightAt_fixed16 _ _ _ ((weightRule_eq _ _ _).trans (if_pos (Or.inr h)))

/-! ## The blend (R118, R119) -/

theorem blend_sixteen (t s : Nat) : blend t s 16 = s := by
  unfold blend
  omega

theorem blend_zero (t s : Nat) : blend t s 0 = t := by
  unfold blend
  omega

/-- A weighted mean of two values within bounds lies within them. -/
theorem blend_within {lo hi t s k : Nat} (hk : k ≤ 16) (ht : lo ≤ t ∧ t ≤ hi) (hs : lo ≤ s ∧ s ≤ hi) :
    lo ≤ blend t s k ∧ blend t s k ≤ hi := by
  have sum_of_shares : ∀ v : Nat, v * (16 - k) + v * k = 16 * v := by
    intro v
    rw [← Nat.mul_add, Nat.sub_add_cancel hk, Nat.mul_comm]
  have hlow : lo * (16 - k) + lo * k ≤ t * (16 - k) + s * k :=
    Nat.add_le_add (Nat.mul_le_mul_right _ ht.1) (Nat.mul_le_mul_right _ hs.1)
  have hhigh : t * (16 - k) + s * k ≤ hi * (16 - k) + hi * k :=
    Nat.add_le_add (Nat.mul_le_mul_right _ ht.2) (Nat.mul_le_mul_right _ hs.2)
  rw [sum_of_shares] at hlow hhigh
  unfold blend
  omega

theorem getD_map_range {α : Type} (f : Nat → α) (d : α) {n i : Nat} (h : i < n) :
    ((List.range n).map f).getD i d = f i := by
  rw [List.getD_eq_getElem _ _ (by simpa using h), List.getElem_map, List.getElem_range]

theorem missingSample_y (w : WeaveInput) (p : RowPlan) (x : Nat) :
    missingSample w p .y x =
      BitVec.ofNat 10 (blend (temporalEstimate w p .y x) (spatialEstimate w p .y x) (weightAt w p x)) := rfl

section
variable (w : WeaveInput) (m : Nat) {x : Nat}

theorem missingLine_y (h : x < 720) : (missingLine w m).y.getD x 0 = missingSample w (rowPlan w m) .y x := by
  dsimp only [missingLine]
  rw [getD_map_range _ 0 h]

theorem missingLine_cb (h : x < 360) : (missingLine w m).cb.getD x 0 = missingSample w (rowPlan w m) .cb x := by
  dsimp only [missingLine]
  rw [getD_map_range _ 0 h]

theorem missingLine_cr (h : x < 360) : (missingLine w m).cr.getD x 0 = missingSample w (rowPlan w m) .cr x := by
  dsimp only [missingLine]
  rw [getD_map_range _ 0 h]

/-- In SPATIAL a row with no usable F0 line is of the fill level (R112, R117). -/
theorem missingLine_y_fill (hmode : w.mode = .spatial) (hs : (rowPlan w m).source = .fill) (h : x < 720) :
    (missingLine w m).y.getD x 0 = 64 := by
  have hk : weightAt w (rowPlan w m) x = 16 := weightAt_unavailable w m x (temporalAvailable_spatial m hmode)
  have hfill : spatialEstimate w (rowPlan w m) .y x = 64 := spatialEstimate_fill w _ .y x hs
  rw [missingLine_y w m h, missingSample_y, hk, blend_sixteen, hfill]
  rfl

end

/-- Settles O40: each sample by its definition, the weight by its rule, and the blend as a weighted mean. -/
theorem blendOfMissingRow : Obligations.BlendOfMissingRow :=
  ⟨fun w m _ hx => missingLine_y w m hx,
    fun w m _ hc => ⟨missingLine_cb w m hc, missingLine_cr w m hc⟩,
    fun w m x => ⟨weightAt_le w _ x, weightAt_unavailable w m x, missingLine_y_fill w m⟩,
    fun t s _ hk => ⟨rfl, fun ht0 ht1 hs0 hs1 => blend_within hk ⟨ht0, ht1⟩ ⟨hs0, hs1⟩, blend_sixteen t s, blend_zero t s⟩⟩

/-! ## The rows of the woven frame (R103, R120) -/

/-- A list of pairs laid end to end: the firsts at the even places, the seconds at the odd. -/
theorem getElem?_flatMap_pair {α β : Type} (f g : α → β) (l : List α) (i : Nat) :
    (l.flatMap fun a => [f a, g a])[2 * i]? = l[i]?.map f ∧
      (l.flatMap fun a => [f a, g a])[2 * i + 1]? = l[i]?.map g := by
  induction l generalizing i with
  | nil => exact ⟨rfl, rfl⟩
  | cons a l ih =>
    cases i with
    | zero => exact ⟨rfl, rfl⟩
    | succ i => exact ih i

/-- A row of the woven frame, by its number. -/
def wovenRow (w : WeaveInput) (i : Nat) : Line := (wovenFrame w).getD i ⟨[], [], []⟩

theorem wovenFrame_length (w : WeaveInput) : (wovenFrame w).length = 2 * w.lines := by
  unfold wovenFrame
  cases w.parity <;> simp [List.length_flatMap, Nat.mul_comm]

theorem missingLines_getD {w : WeaveInput} {m : Nat} (hm : m < w.lines) :
    (missingLines w).getD m ⟨[], [], []⟩ = missingLine w m := getD_map_range _ _ hm

/-- Missing line m stands at its row, and F0 line m at the row beside it. -/
theorem wovenRow_both {w : WeaveInput} {m : Nat} (hm : m < w.lines) :
    wovenRow w (missingRow w.parity m) = missingLine w m ∧
      wovenRow w (f0RowOf w.parity m) = f0Row w (missingLines w) m := by
  have hrange : (List.range w.lines)[m]? = some m := by rw [List.getElem?_range hm]
  have hmissing := missingLines_getD hm
  unfold wovenRow wovenFrame
  cases hp : w.parity with
  | upper =>
    obtain ⟨heven, hodd⟩ := getElem?_flatMap_pair (f0Row w (missingLines w))
      (fun i => (missingLines w).getD i ⟨[], [], []⟩) (List.range w.lines) m
    rw [hrange] at heven hodd
    exact ⟨by rw [List.getD_eq_getElem?_getD, missingRow, hodd]; exact hmissing,
      by rw [List.getD_eq_getElem?_getD, f0RowOf_upper, heven]; rfl⟩
  | lower =>
    obtain ⟨heven, hodd⟩ := getElem?_flatMap_pair (fun i => (missingLines w).getD i ⟨[], [], []⟩)
      (f0Row w (missingLines w)) (List.range w.lines) m
    rw [hrange] at heven hodd
    exact ⟨by rw [List.getD_eq_getElem?_getD, missingRow, heven]; exact hmissing,
      by rw [List.getD_eq_getElem?_getD, f0RowOf_lower, hodd]; rfl⟩

/-- The missing lines, by the rows of the woven frame. -/
theorem missingLines_getD_row {w : WeaveInput} {m : Nat} (hm : m < w.lines) :
    (missingLines w).getD m ⟨[], [], []⟩ = wovenRow w (missingRow w.parity m) := by
  rw [missingLines_getD hm, (wovenRow_both hm).1]

theorem wovenRow_usable {w : WeaveInput} {m : Nat} (hm : m < w.lines) {l : Line} (hl : w.f0.getD m none = some l) :
    wovenRow w (f0RowOf w.parity m) = l := by
  rw [(wovenRow_both hm).2, f0Row, usableAt, hl]

section
variable {w : WeaveInput} {m : Nat} (hm : m < w.lines) (hnone : w.f0.getD m none = none)
include hm hnone

/-- The unusable row of line m of an UPPER F0: row 0 has no row above it. -/
theorem wovenRow_unusable_upper (hp : w.parity = .upper) :
    wovenRow w (2 * m) =
      if m = 0 then wovenRow w 1 else meanLine (wovenRow w (2 * m - 1)) (wovenRow w (2 * m + 1)) := by
  have hmissing : ∀ i, i < w.lines → (missingLines w).getD i ⟨[], [], []⟩ = wovenRow w (2 * i + 1) := by
    intro i hi
    rw [missingLines_getD_row hi, hp, missingRow_upper]
  have hrow := (wovenRow_both hm).2
  rw [hp, f0RowOf_upper] at hrow
  rw [hrow, f0Row, usableAt, hnone, hp]
  cases m with
  | zero => exact hmissing 0 hm
  | succ i => exact congrArg₂ meanLine (hmissing i (by omega)) (hmissing (i + 1) hm)

/-- The unusable row of line m of a LOWER F0: the last row has no row below it. -/
theorem wovenRow_unusable_lower (hp : w.parity = .lower) :
    wovenRow w (2 * m + 1) =
      if m + 1 < w.lines then meanLine (wovenRow w (2 * m)) (wovenRow w (2 * m + 2)) else wovenRow w (2 * m) := by
  have hmissing : ∀ i, i < w.lines → (missingLines w).getD i ⟨[], [], []⟩ = wovenRow w (2 * i) := by
    intro i hi
    rw [missingLines_getD_row hi, hp, missingRow_lower]
  have hrow := (wovenRow_both hm).2
  rw [hp, f0RowOf_lower] at hrow
  rw [hrow, f0Row, usableAt, hnone, hp]
  refine ite_congr rfl (fun hnext => ?_) (fun _ => hmissing m hm)
  exact congrArg₂ meanLine (hmissing m hm) (hmissing (m + 1) hnext)

/-- An unusable F0 row is made from the missing rows beside it (R120). -/
theorem wovenRow_unusable :
    let own := f0RowOf w.parity m
    wovenRow w own =
      if own = 0 then wovenRow w 1
      else if own + 1 = 2 * w.lines then wovenRow w (own - 1)
      else meanLine (wovenRow w (own - 1)) (wovenRow w (own + 1)) := by
  cases hp : w.parity with
  | upper =>
    have hinner : 2 * m + 1 ≠ 2 * w.lines := by omega
    dsimp only [f0RowOf_upper]
    rw [wovenRow_unusable_upper hm hnone hp]
    simp [hinner]
  | lower =>
    have hlast : 2 * m + 1 + 1 = 2 * w.lines ↔ ¬m + 1 < w.lines := by omega
    dsimp only [f0RowOf_lower]
    rw [wovenRow_unusable_lower hm hnone hp]
    simp only [hlast, ite_not]
    rfl

end

/-! ## The row plan -/

/-- With neither a nor b usable, S is of the nearest usable line, the upper at equal distance (R109). -/
theorem spatialSource_nearest {w : WeaveInput} {m l : Nat} (hm : m < w.lines)
    (ha : isUsableAt w.f0 (lineAbove w.parity m) = false)
    (hb : isUsableAt w.f0 (lineBelow w.parity w.lines m) = false) (hl : w.usableF0 l)
    (hmin : ∀ x, w.usableF0 x →
      rowsAway w.parity m l < rowsAway w.parity m x ∨ rowsAway w.parity m l = rowsAway w.parity m x ∧ l ≤ x) :
    spatialSource w m = .nearest l := by
  have hfar : rowsAway w.parity m l ≠ 1 := by
    intro hone
    rcases rowsAway_one hm hl.2 hone with h | h
    · exact Bool.false_ne_true (ha.symm.trans ((isUsableAt_iff _ _).2 ⟨l, h, hl.1⟩))
    · exact Bool.false_ne_true (hb.symm.trans ((isUsableAt_iff _ _).2 ⟨l, h, hl.1⟩))
  have hfirst : ∀ x, w.usableF0 x → ¬nearerLine w.parity m x l := by
    intro x hx hnearer
    have := hmin x hx
    unfold nearerLine at hnearer
    omega
  rw [spatialSource_search ha hb, nearestLine_eq_some hm hl hfar hfirst]
  rfl

theorem spatialSource_fill {w : WeaveInput} {m : Nat} (hm : m < w.lines)
    (ha : isUsableAt w.f0 (lineAbove w.parity m) = false)
    (hb : isUsableAt w.f0 (lineBelow w.parity w.lines m) = false) (hnone : ∀ l, ¬w.usableF0 l) :
    spatialSource w m = .fill := by
  rw [spatialSource_search ha hb, nearestLine_eq_none hm hnone]
  rfl

/-- Settles O39: the plan's items by the geometry and the search, S, T and k by the plan, the rows by their places. (The name
`rowPlan` is the model's own.) -/
theorem rowPlan_holds : Obligations.RowPlan := by
  refine ⟨fun w m hm => ?_, fun a b x _ => ?_, fun w m x c => ?_, fun w => ?_⟩
  · have habove := lineAbove_eq_some_iff hm w.parity
    have hbelow := lineBelow_eq_some_iff hm w.parity
    exact ⟨missingRow_eq w.parity m, rfl, habove, hbelow,
      isUsableAt_f0_iff w (fun l h => ((habove l).1 h).1), isUsableAt_f0_iff w (fun l h => ((hbelow l).1 h).1),
      spatialSource_pair, fun _ => spatialSource_above, fun _ => spatialSource_below,
      fun ha hb => ⟨fun _ => spatialSource_nearest hm ha hb, spatialSource_fill hm ha hb⟩,
      temporalAvailable_iff w m, m2Available_iff hm, weightRule_eq _ _ _⟩
  · exact ⟨directedMean_edge a b, fun h0 h719 =>
      ⟨directedMean_straight h0 h719, directedMean_minus h0 h719, directedMean_plus h0 h719⟩⟩
  · refine ⟨fun i j => spatialEstimate_pair w _ c x, fun l => spatialEstimate_line w _ c x,
      spatialEstimate_fill w _ c x, fun ht => temporalEstimate_available w _ c x ht (fun hmode => ?_),
      weightAt_fixed16 w _ x, weightAt_fixed0 w _ x, weightAt_motion w _ x⟩
    exact Bool.false_ne_true ((temporalAvailable_spatial m hmode).symm.trans ht)
  · refine ⟨wovenFrame_length w, fun m hm => ⟨?_, fun l => wovenRow_usable hm, wovenRow_unusable hm⟩⟩
    rw [← missingRow_eq]
    exact (wovenRow_both hm).1

end Sys2Proof.Machine
end

-- ==== Sys2Proof/Proofs: resampling and picture placement ====
section
/-! The statements about the raster, the resampling and the placement: first the values taken, then the positions and the filter
that both passes share, each pass by its taps, and a list with a border, as the rows of the output frame and the frame
itself are. -/

namespace Sys2Proof.Machine

/-! ## The values taken (R124) -/

section
variable {lo hi x : Nat}

theorem clampNat_within (hle : lo ≤ hi) : lo ≤ clampNat lo hi x ∧ clampNat lo hi x ≤ hi := by
  unfold clampNat
  omega

theorem clampNat_below (h : x < lo) : clampNat lo hi x = lo := by
  unfold clampNat
  omega

theorem clampNat_above (hle : lo ≤ hi) (h : hi < x) : clampNat lo hi x = hi := by
  unfold clampNat
  omega

theorem clampNat_inside (hlo : lo ≤ x) (hhi : x ≤ hi) : clampNat lo hi x = x := by
  unfold clampNat
  omega

end

/-- A value clamped to a range and rounded down to a multiple of k, as a width and a height are taken (R124). -/
def roundedClamp (lo hi k x : Nat) : Nat := clampNat lo hi x / k * k

theorem takenWidth_eq (w : Nat) : takenWidth w = roundedClamp 720 1920 4 w := rfl

theorem takenHeight_eq (st : Structure) (h : Nat) : takenHeight st h = roundedClamp (2 * st.lines) 1080 2 h := rfl

/-- Both ends of the range meet the rounding, so it moves only values inside, and each by less than k (R124). -/
theorem roundedClamp_spec {lo hi k : Nat} (hk : 0 < k) (hle : lo ≤ hi) (hlo : lo % k = 0) (hhi : hi % k = 0) (x : Nat) :
    lo ≤ roundedClamp lo hi k x ∧ roundedClamp lo hi k x ≤ hi ∧ roundedClamp lo hi k x % k = 0 ∧
      (x < lo → roundedClamp lo hi k x = lo) ∧ (hi < x → roundedClamp lo hi k x = hi) ∧
      (lo ≤ x → x ≤ hi → roundedClamp lo hi k x ≤ x ∧ x < roundedClamp lo hi k x + k) := by
  have hlow : lo / k * k = lo := Nat.div_mul_cancel (Nat.dvd_of_mod_eq_zero hlo)
  have hhigh : hi / k * k = hi := Nat.div_mul_cancel (Nat.dvd_of_mod_eq_zero hhi)
  obtain ⟨hge, hle'⟩ := clampNat_within (x := x) hle
  unfold roundedClamp
  refine ⟨?_, (Nat.div_mul_le_self _ _).trans hle', Nat.mul_mod_left _ _, fun h => ?_, fun h => ?_, fun h0 h1 => ?_⟩
  · exact hlow.symm.trans_le (Nat.mul_le_mul_right k (Nat.div_le_div_right hge))
  · rw [clampNat_below h, hlow]
  · rw [clampNat_above hle h, hhigh]
  · rw [clampNat_inside h0 h1]
    exact ⟨Nat.div_mul_le_self x k, Nat.lt_div_mul_add hk⟩

theorem takenWidth_spec (w : Nat) : 720 ≤ takenWidth w ∧ takenWidth w ≤ 1920 ∧ takenWidth w % 4 = 0 ∧
    (w < 720 → takenWidth w = 720) ∧ (1920 < w → takenWidth w = 1920) ∧
    (720 ≤ w → w ≤ 1920 → takenWidth w ≤ w ∧ w < takenWidth w + 4) := by
  rw [takenWidth_eq]
  exact roundedClamp_spec (by decide) (by decide) (by decide) (by decide) w

theorem takenHeight_spec (st : Structure) (h : Nat) : 2 * st.lines ≤ takenHeight st h ∧ takenHeight st h ≤ 1080 ∧
    takenHeight st h % 2 = 0 ∧ (h < 2 * st.lines → takenHeight st h = 2 * st.lines) ∧
    (1080 < h → takenHeight st h = 1080) ∧
    (2 * st.lines ≤ h → h ≤ 1080 → takenHeight st h ≤ h ∧ h < takenHeight st h + 2) := by
  have hrange : 2 * st.lines ≤ 1080 := by cases st <;> decide
  rw [takenHeight_eq]
  exact roundedClamp_spec (by decide) hrange (Nat.mul_mod_right 2 _) (by decide) h

/-- Settles O53: both values by the rounding of a clamped value, the height after a change by the structure that comes. -/
theorem rasterAdjustment : Obligations.RasterAdjustment := by
  refine ⟨takenWidth_spec, takenHeight_spec, fun a p st hst hh hne => ?_⟩
  rw [over_height_changed a p st hst hne, hh, Option.getD_none]
  split
  · next h => exact max_eq_left h.le
  · next h => exact max_eq_right (not_lt.1 h)

/-! ## The filter (R131) -/

theorem tapSum_eq_sum (coefs : List Int) (taps : List Nat) :
    tapSum coefs taps = (List.zipWith (fun (c : Int) (t : Nat) => c * (t : Int)) coefs taps).sum :=
  List.sum_eq_foldl.symm

/-- The clamp keeps the result within a sample's ten bits. -/
theorem filterSample_toNat (coefs : List Int) (taps : List Nat) :
    ((filterSample coefs taps).toNat : Int) = max 4 (min 1019 ((tapSum coefs taps + 64) / 128)) :=
  sampleOf_toNat _ (by unfold clampInt; omega) (by unfold clampInt; omega)

/-- Of equal taps the filter sees the sum of its coefficients alone. -/
theorem tapSum_replicate (coefs : List Int) (v : Nat) :
    tapSum coefs (List.replicate coefs.length v) = coefs.sum * v := by
  rw [tapSum_eq_sum]
  induction coefs with
  | nil => simp
  | cons c coefs ih =>
    rw [List.length_cons, List.replicate_succ, List.zipWith_cons_cons, List.sum_cons, ih, List.sum_cons, add_mul]

theorem filterSample_replicate (coefs : List Int) {v : Nat} (hsum : coefs.sum = 128) (h4 : 4 ≤ v) (h1019 : v ≤ 1019) :
    (filterSample coefs (List.replicate coefs.length v)).toNat = v := by
  have h := filterSample_toNat coefs (List.replicate coefs.length v)
  rw [tapSum_replicate, hsum] at h
  omega

/-! ## Positions and edges (R127 to R129) -/

section
variable (step : Int) (j : Nat)

/-- The index is the part of the position above 65536. -/
theorem passIndex_bounds :
    passIndex step j * 65536 ≤ passPosition step j ∧ passPosition step j < (passIndex step j + 1) * 65536 := by
  unfold passIndex
  omega

theorem passFraction_eq : (passFraction step j : Int) = passPosition step j - passIndex step j * 65536 :=
  Int.toNat_of_nonneg (Int.sub_nonneg.2 (passIndex_bounds step j).1)

/-- A fraction counts 65536ths, so its 64ths are its 1024s. -/
theorem passPhase_eq : (passPhase step j : Int) = (passPosition step j - passIndex step j * 65536) / 1024 := by
  rw [← passFraction_eq]
  unfold passPhase
  omega

theorem passPhase_lt : passPhase step j < 64 := by
  have hlt := (passIndex_bounds step j).2
  have heq := passPhase_eq step j
  omega

end

section
variable (last : Nat) {i : Int}

theorem edgeIndex_below (h : i < 0) : edgeIndex last i = 0 := if_pos h

theorem edgeIndex_beyond (h : (last : Int) < i) : edgeIndex last i = last := by
  rw [edgeIndex, if_neg (by omega)]
  omega

theorem edgeIndex_inside (h0 : 0 ≤ i) (h : i ≤ last) : (edgeIndex last i : Int) = i := by
  rw [edgeIndex, if_neg (by omega)]
  omega

end

/-! ## The two passes (R128 to R130) -/

/-- Tap d of the vertical pass for output row j: the woven row d beyond the index, or the edge's (R128). -/
def verticalTap (woven : List Line) (h j : Nat) (d : Int) : Line :=
  woven.getD (edgeIndex (woven.length - 1) (passIndex (passStep woven.length h) j + d)) ⟨[], [], []⟩

/-- The sample of output row j at position x of a component, by its four taps. -/
def verticalSample (set : CoefficientSet) (woven : List Line) (h j : Nat) (c : Component) (x : Nat) : Word :=
  filterSample (set.getD (passPhase (passStep woven.length h) j) [])
    (([-1, 0, 1, 2] : List Int).map (fun d => smp (Line.component (verticalTap woven h j d) c) x))

section
variable (set : CoefficientSet) (woven : List Line) (h j : Nat)

theorem verticalRow_eq : verticalRow set woven h j =
    ⟨(List.range 720).map (verticalSample set woven h j .y), (List.range 360).map (verticalSample set woven h j .cb),
      (List.range 360).map (verticalSample set woven h j .cr)⟩ := rfl

theorem verticalRow_y {x : Nat} (hx : x < 720) :
    (verticalRow set woven h j).y.getD x 0 = verticalSample set woven h j .y x := by
  rw [verticalRow_eq, getD_map_range _ 0 hx]

theorem verticalRow_cb {x : Nat} (hx : x < 360) :
    (verticalRow set woven h j).cb.getD x 0 = verticalSample set woven h j .cb x := by
  rw [verticalRow_eq, getD_map_range _ 0 hx]

theorem verticalRow_cr {x : Nat} (hx : x < 360) :
    (verticalRow set woven h j).cr.getD x 0 = verticalSample set woven h j .cr x := by
  rw [verticalRow_eq, getD_map_range _ 0 hx]

theorem verticalRow_lengths : (verticalRow set woven h j).y.length = 720 ∧ (verticalRow set woven h j).cb.length = 360 ∧
    (verticalRow set woven h j).cr.length = 360 := by
  simp [verticalRow_eq]

/-- The vertical pass clamps its own outputs (R131). -/
theorem verticalRow_range : ∀ x ∈ (verticalRow set woven h j).y ++ (verticalRow set woven h j).cb ++
    (verticalRow set woven h j).cr, 4 ≤ x.toNat ∧ x.toNat ≤ 1019 := by
  have hsamples : ∀ c n, ∀ x ∈ (List.range n).map (verticalSample set woven h j c), 4 ≤ x.toNat ∧ x.toNat ≤ 1019 :=
    fun c n => List.forall_mem_map.2 fun x _ => filterSample_range _ _
  simp only [verticalRow_eq, List.forall_mem_append]
  exact ⟨⟨hsamples .y 720, hsamples .cb 360⟩, hsamples .cr 360⟩

end

section
variable (set : CoefficientSet) (step : Int) (row : List Word) (size out : Nat)

@[simp] theorem horizontalComponent_length : (horizontalComponent set step row size out).length = out := by
  simp [horizontalComponent]

theorem horizontalComponent_getD {j : Nat} (hj : j < out) :
    (horizontalComponent set step row size out).getD j 0 = filterSample (set.getD (passPhase step j) [])
      (([-3, -2, -1, 0, 1, 2, 3, 4] : List Int).map (fun d => smp row (edgeIndex (size - 1) (passIndex step j + d)))) :=
  getD_map_range _ 0 hj

end

section
variable (hset vset : CoefficientSet) (w h : Nat) (woven : List Line)

theorem resampled_length : (resampled hset vset w h woven).length = h := by
  simp [resampled]

theorem resampled_getD {j : Nat} (hj : j < h) :
    (resampled hset vset w h woven).getD j ⟨[], [], []⟩ = horizontalRow hset w (verticalRow vset woven h j) :=
  getD_map_range _ _ hj

/-- The horizontal pass clamps its own outputs (R131). -/
theorem horizontalRow_range (l : Line) : ∀ x ∈ (horizontalRow hset w l).y ++ (horizontalRow hset w l).cb ++
    (horizontalRow hset w l).cr, 4 ≤ x.toNat ∧ x.toNat ≤ 1019 :=
  List.forall_mem_append.2 ⟨List.forall_mem_append.2 ⟨horizontalComponent_range _ _ _ _ _,
    horizontalComponent_range _ _ _ _ _⟩, horizontalComponent_range _ _ _ _ _⟩

theorem resampled_range : frameLegal (resampled hset vset w h woven) :=
  List.forall_mem_map.2 fun _ _ => horizontalRow_range hset w _

end

/-- Settles O41: the filter, the positions, the edges, then each pass by its taps and the picture by its rows. -/
theorem filterOfPasses : Obligations.FilterOfPasses := by
  refine ⟨fun coefs taps => ?_, fun coefs _ => filterSample_replicate coefs, fun size out j _ => ?_,
    fun last i => ⟨edgeIndex_below last, edgeIndex_beyond last, edgeIndex_inside last⟩, fun set woven h j x => ?_,
    fun set step row size out j hj =>
      ⟨horizontalComponent_length set step row size out, horizontalComponent_getD set step row size out hj⟩,
    fun hset vset woven w h j => ?_⟩
  · rw [filterSample_toNat, tapSum_eq_sum]
  · obtain ⟨hlow, hhigh⟩ := passIndex_bounds (passStep size out) j
    exact ⟨rfl, hlow, hhigh, passPhase_eq _ j, passPhase_lt _ j⟩
  · exact ⟨verticalRow_y set woven h j, fun hx => ⟨verticalRow_cb set woven h j hx, verticalRow_cr set woven h j hx⟩,
      verticalRow_lengths set woven h j⟩
  · exact ⟨verticalRow_range vset woven h j, resampled_length hset vset w h woven, resampled_range hset vset w h woven,
      resampled_getD hset vset w h woven⟩

end Sys2Proof.Machine
end

section
namespace Sys2Proof.Machine

/-! ## A list with a border -/

/-- A list between l and r copies of one value: a row between border columns, a frame between border rows. -/
def bordered {α : Type} (v : α) (l r : Nat) (mid : List α) : List α := List.replicate l v ++ mid ++ List.replicate r v

section
variable {α : Type} (v d : α) (l r : Nat) (mid : List α)

theorem bordered_length : (bordered v l r mid).length = l + mid.length + r := by
  simp [bordered, Nat.add_assoc]

/-- The list begins behind the left border. -/
theorem bordered_getD_inside {x : Nat} (hx : x < mid.length) : (bordered v l r mid).getD (l + x) d = mid.getD x d := by
  rw [bordered, List.getD_append _ _ _ _ (by simpa using hx), List.getD_append_right _ _ _ _ (by simp)]
  simp

/-- Before the list and behind it stands the border's value. -/
theorem bordered_getD_outside {x : Nat} (hx : x < l + mid.length + r) (h : x < l ∨ l + mid.length ≤ x) :
    (bordered v l r mid).getD x d = v := by
  rcases h with h | h
  · rw [bordered, List.append_assoc, List.getD_append _ _ _ _ (by simpa using h), List.getD_replicate v h]
  · have hfront : (List.replicate l v ++ mid).length = l + mid.length := by simp
    rw [bordered, List.getD_append_right _ _ _ _ (by omega), List.getD_replicate v (by omega)]

end

theorem mem_bordered {α : Type} {v x : α} {l r : Nat} {mid : List α} (hx : x ∈ bordered v l r mid) :
    x = v ∨ x ∈ mid := by
  rcases List.mem_append.1 hx with hx | hx
  · exact (List.mem_append.1 hx).imp_left List.eq_of_mem_replicate
  · exact .inl (List.eq_of_mem_replicate hx)

theorem getD_mem {α : Type} {l : List α} {i : Nat} {d : α} (h : i < l.length) : l.getD i d ∈ l := by
  rw [List.getD_eq_getElem _ _ h]
  exact List.getElem_mem h

/-! ## The rows of the output frame (R136, R137) -/

/-- A resampled row of a picture of width w: w luma samples and half as many of Cb and of Cr (R130). -/
def rowOfWidth (w : Nat) (l : Line) : Prop := l.y.length = w ∧ l.cb.length = w / 2 ∧ l.cr.length = w / 2

theorem fillRow_ofWidth : rowOfWidth 1920 fillRow :=
  ⟨List.length_replicate, List.length_replicate, List.length_replicate⟩

theorem fillRow_y {x : Nat} (hx : x < 1920) : fillRow.y.getD x 0 = 64 := List.getD_replicate 64 hx

theorem fillRow_chroma {c : Nat} (hc : c < 960) : fillRow.cb.getD c 0 = 512 ∧ fillRow.cr.getD c 0 = 512 :=
  ⟨List.getD_replicate 512 hc, List.getD_replicate 512 hc⟩

section
variable {w : Nat} {l : Line}

theorem placedRow_eq (w : Nat) (l : Line) : placedRow w l =
    ⟨bordered 64 ((1920 - w) / 2) (1920 - w - (1920 - w) / 2) l.y,
      bordered 512 ((1920 - w) / 2 / 2) (960 - w / 2 - (1920 - w) / 2 / 2) l.cb,
      bordered 512 ((1920 - w) / 2 / 2) (960 - w / 2 - (1920 - w) / 2 / 2) l.cr⟩ := rfl

theorem placedRow_ofWidth (hw : w ≤ 1920) (hl : rowOfWidth w l) : rowOfWidth 1920 (placedRow w l) := by
  obtain ⟨hy, hcb, hcr⟩ := hl
  rw [placedRow_eq]
  refine ⟨?_, ?_, ?_⟩ <;> rw [bordered_length] <;> omega

theorem placedRow_y_inside (hl : rowOfWidth w l) {x : Nat} (hx : x < w) :
    (placedRow w l).y.getD ((1920 - w) / 2 + x) 0 = l.y.getD x 0 := by
  obtain ⟨hy, -, -⟩ := hl
  exact bordered_getD_inside _ _ _ _ _ (hy ▸ hx)

theorem placedRow_chroma_inside (hl : rowOfWidth w l) {c : Nat} (hc : c < w / 2) :
    (placedRow w l).cb.getD ((1920 - w) / 2 / 2 + c) 0 = l.cb.getD c 0 ∧
      (placedRow w l).cr.getD ((1920 - w) / 2 / 2 + c) 0 = l.cr.getD c 0 := by
  obtain ⟨-, hcb, hcr⟩ := hl
  exact ⟨bordered_getD_inside _ _ _ _ _ (hcb ▸ hc), bordered_getD_inside _ _ _ _ _ (hcr ▸ hc)⟩

theorem placedRow_y_outside (hl : rowOfWidth w l) {x : Nat} (hx : x < 1920)
    (h : x < (1920 - w) / 2 ∨ (1920 - w) / 2 + w ≤ x) : (placedRow w l).y.getD x 0 = 64 := by
  obtain ⟨hy, -, -⟩ := hl
  exact bordered_getD_outside _ _ _ _ _ (by omega) (by omega)

theorem placedRow_chroma_outside (hl : rowOfWidth w l) {c : Nat} (hc : c < 960)
    (h : c < (1920 - w) / 2 / 2 ∨ (1920 - w) / 2 / 2 + w / 2 ≤ c) :
    (placedRow w l).cb.getD c 0 = 512 ∧ (placedRow w l).cr.getD c 0 = 512 := by
  obtain ⟨-, hcb, hcr⟩ := hl
  exact ⟨bordered_getD_outside _ _ _ _ _ (by omega) (by omega), bordered_getD_outside _ _ _ _ _ (by omega) (by omega)⟩

end

/-! ## The output frame (R136, R137) -/

section
variable {w h : Nat} {pic : List Line}

theorem placedFrame_eq (w h : Nat) (pic : List Line) :
    placedFrame w h pic = bordered fillRow ((1080 - h) / 2) (1080 - h - (1080 - h) / 2) (pic.map (placedRow w)) := rfl

theorem placedFrame_length (hh : h ≤ 1080) (hlen : pic.length = h) : (placedFrame w h pic).length = 1080 := by
  rw [placedFrame_eq, bordered_length, List.length_map]
  omega

theorem placedFrame_ofWidth (hw : w ≤ 1920) (hrows : ∀ l ∈ pic, rowOfWidth w l) :
    ∀ l ∈ placedFrame w h pic, rowOfWidth 1920 l := by
  intro l hl
  rcases mem_bordered hl with rfl | hl
  · exact fillRow_ofWidth
  · obtain ⟨r, hr, rfl⟩ := List.mem_map.1 hl
    exact placedRow_ofWidth hw (hrows r hr)

theorem placedFrame_inside (hlen : pic.length = h) {j : Nat} (hj : j < h) :
    (placedFrame w h pic).getD ((1080 - h) / 2 + j) fillRow = placedRow w (pic.getD j fillRow) := by
  have hj' : j < pic.length := hlen ▸ hj
  rw [placedFrame_eq, bordered_getD_inside _ _ _ _ _ (by simpa using hj'),
    List.getD_eq_getElem _ _ (by simpa using hj'), List.getElem_map, List.getD_eq_getElem _ _ hj']

theorem placedFrame_outside (hlen : pic.length = h) {i : Nat} (hi : i < 1080)
    (hout : i < (1080 - h) / 2 ∨ (1080 - h) / 2 + h ≤ i) : (placedFrame w h pic).getD i fillRow = fillRow := by
  have hmap : (pic.map (placedRow w)).length = h := by rw [List.length_map, hlen]
  exact bordered_getD_outside _ _ _ _ _ (by omega) (by omega)

/-- A row of the frame that is none of the border's is a placed row of the picture. -/
theorem placedFrame_row (hlen : pic.length = h) (hrows : ∀ l ∈ pic, rowOfWidth w l) {i : Nat} (hi : i < 1080) :
    (placedFrame w h pic).getD i fillRow = fillRow ∨ ¬ (i < (1080 - h) / 2 ∨ (1080 - h) / 2 + h ≤ i) ∧
      ∃ l, rowOfWidth w l ∧ (placedFrame w h pic).getD i fillRow = placedRow w l := by
  by_cases hout : i < (1080 - h) / 2 ∨ (1080 - h) / 2 + h ≤ i
  · exact .inl (placedFrame_outside hlen hi hout)
  · obtain ⟨j, rfl⟩ := Nat.exists_eq_add_of_le (show (1080 - h) / 2 ≤ i by omega)
    have hj : j < h := by omega
    exact .inr ⟨hout, _, hrows _ (getD_mem (hlen ▸ hj)), placedFrame_inside hlen hj⟩

end

/-- Settles O42: the rows by the border above and below, the samples of a picture row by the border beside. -/
theorem pictureIsPlaced : Obligations.PictureIsPlaced := by
  intro w h pic hw hh hw4 hh2 hlen hrows f left top
  refine ⟨placedFrame_length hh hlen, placedFrame_ofWidth hw hrows, by omega, by omega, by omega, fun j hj => ?_,
    fun i x c hi hx hc => ?_⟩
  · have hrow : f.getD (top + j) fillRow = placedRow w (pic.getD j fillRow) := placedFrame_inside hlen hj
    have hwidth : rowOfWidth w (pic.getD j fillRow) := hrows _ (getD_mem (hlen ▸ hj))
    rw [hrow]
    exact ⟨fun x => placedRow_y_inside hwidth, fun c => placedRow_chroma_inside hwidth⟩
  · rcases placedFrame_row hlen hrows hi with hfill | ⟨hin, l, hl, hrow⟩
    · rw [hfill]
      exact ⟨fun _ => fillRow_y hx, fun _ => fillRow_chroma hc⟩
    · rw [hrow]
      exact ⟨fun h => placedRow_y_outside hl hx (by omega), fun h => placedRow_chroma_outside hl hc (by omega)⟩

end Sys2Proof.Machine
end

-- ==== Sys2Proof/Proofs: output links and frame timing ====
section
/-! The statements about the output links and the timing of their frames: what every step keeps of the halves and the frames, the
state right after reset, results, then a frame start, what brings one, and the blanking that it places. -/

namespace Sys2Proof.Machine

/-! ## The halves and the frames along a chain of Moves (R137, R142, R145) -/

@[simp] theorem Quad_get_mapIdx {α β : Type} (f : Fin 4 → α → β) (q : Quad α) (n : Fin 4) :
    (q.mapIdx f).get n = f n (q.get n) := by
  fin_cases n <;> rfl

theorem holdsReset_otx (s : State) (n : Feed) : s.holdsReset.otx.get n = { s.otx.get n with link := none } :=
  Quad_get_mapIdx (fun _ (t : Transmitter) => ({ t with link := none } : Transmitter)) s.otx n

theorem deviceRestarts_otx (s : State) (d : Straps) (n : Feed) :
    (s.deviceRestarts d).otx.get n = restartedTransmitter (s.otx.get n) :=
  Quad_get_mapIdx (fun _ t => restartedTransmitter t) s.otx n

theorem released_otx (s : State) (d : Straps) (n : Feed) : (s.released d).otx.get n = powerOnTransmitter :=
  Quad_get_all powerOnTransmitter n

/-- The power-on halves hold no frame (Table 8-1): the frames are in range where the picture on the link is. -/
theorem restartedTransmitter_framesOk {t : Transmitter} (h : t.framesOk) : (restartedTransmitter t).framesOk :=
  ⟨nofun, nofun, h.2.2⟩

theorem powerOnTransmitter_framesOk : powerOnTransmitter.framesOk := ⟨nofun, nofun, nofun⟩

namespace Moves

variable {a : Touch} {s t : State}

/-- One half of each output is SENDING (R142). -/
theorem keeps_oneSendingEach (h : Moves a s t) (hs : s.oneSendingEach) : t.oneSendingEach := by
  induction h with
  | trans _ _ h1 h2 => exact h2 (h1 hs)
  | grow _ _ _ _ ih => exact ih hs
  | otx s m x hone =>
    intro n
    rw [setOtx_otx, Quad_get_set]
    split
    · exact hone (hs m)
    · exact hs n
  | hold s =>
    intro n
    rw [holdsReset_otx]
    exact hs n
  | restart s d =>
    intro n
    rw [deviceRestarts_otx]
    rfl
  | release s d =>
    intro n
    rw [released_otx]
    rfl
  | _ => exact hs

/-- The samples of the halves and the links lie within 4..1019 (R137, R145). -/
theorem keeps_framesOk (h : Moves a s t) (hs : s.framesOk) : t.framesOk := by
  induction h with
  | trans _ _ h1 h2 => exact h2 (h1 hs)
  | grow _ _ _ _ ih => exact ih hs
  | otx s m x _ _ _ hframes =>
    intro n
    rw [setOtx_otx, Quad_get_set]
    split
    · exact hframes (hs m)
    · exact hs n
  | hold s =>
    intro n
    rw [holdsReset_otx]
    obtain ⟨h0, h1, _⟩ := hs n
    exact ⟨h0, h1, nofun⟩
  | restart s d =>
    intro n
    rw [deviceRestarts_otx]
    exact restartedTransmitter_framesOk (hs n)
  | release s d =>
    intro n
    rw [released_otx]
    exact powerOnTransmitter_framesOk
  | _ => exact hs

end Moves

/-- Settles O3: each part holds along every chain of Moves, and a step is one. -/
theorem stepKeepsHalvesAndFrames : Obligations.StepKeepsHalvesAndFrames := by
  intro s t h
  obtain ⟨q, hm⟩ := step_moves h
  exact ⟨hm.keeps_oneSendingEach, hm.keeps_framesOk⟩

/-! ## The state right after reset (R158) -/

theorem reset_otx (n : Feed) : State.reset.otx.get n = { powerOnTransmitter with link := some ⟨.fill, []⟩ } :=
  Quad_get_all _ n

theorem reset_oneSendingEach : State.reset.oneSendingEach := by
  intro n
  rw [reset_otx]
  rfl

/-- The halves hold no frame; the picture on each link is the fill frame. -/
theorem reset_framesOk : State.reset.framesOk := by
  intro n
  rw [reset_otx]
  refine ⟨nofun, nofun, fun v hv => ?_⟩
  obtain rfl := Option.some.inj hv
  exact fillFrame_legal

theorem reset_queuesOk : State.reset.queuesOk := by
  intro n
  rw [reset_otx]
  exact ⟨Nat.zero_le _, Nat.zero_le _⟩

theorem reset_historiesOk : State.reset.historiesOk := by
  intro n
  show ((Quad.all ([] : List FieldRecord)).get n).length ≤ 8
  rw [Quad_get_all]
  exact Nat.zero_le 8

theorem reset_countersOk : State.reset.ntu.countersOk := by
  refine ⟨fun n => ?_, by decide⟩
  show ∀ x ∈ ((Quad.all ({ framesFill := 1 } : FeedCounters)).get n).toList, _
  rw [Quad_get_all]
  decide

/-- The state right after reset is what a release of RESET with no strap set makes of itself. -/
theorem reset_powersOn : State.reset.powersOn ⟨false, false, false, false⟩ = State.reset := by
  rw [powersOn_spec]
  rfl

theorem reset_tunedOk : State.reset.tunedOk := by
  have h := tuned_powersOn State.reset ⟨false, false, false, false⟩
  rwa [reset_powersOn] at h

/-- Settles O7: no frame, result, record, job or notice stands; settings and trackers are those of a release of RESET. -/
theorem resetMeetsInvariants : Obligations.ResetMeetsInvariants :=
  ⟨reset_oneSendingEach, reset_framesOk, reset_wf, ⟨List.Pairwise.nil, nofun⟩, reset_queuesOk, rfl, ⟨rfl, rfl⟩,
    reset_historiesOk, storeOk_empty State.reset rfl rfl rfl, reset_countersOk, fun _ => Nat.zero_le _, reset_tunedOk⟩

/-! ## Results (R155, R167) -/

theorem isRefusal_iff (r : ResultCode) :
    r.isRefusal = true ↔ r ∈ [.refusedKind, .refusedLength, .refusedScope, .refusedValue, .refusedBusy] := by
  cases r <;> decide

theorem appendResult_room (s : State) (n : Feed) (r : CueResult) (h : s.hasRoom n) :
    s.appendResult n r = s.setOtx n { s.otx.get n with results := (s.otx.get n).results ++ [r] } := if_pos h

theorem appendResult_full (s : State) (n : Feed) (r : CueResult) (h : 8 ≤ (s.otx.get n).results.length) :
    s.appendResult n r = (s.raise .resultOverflow (.feed n) (.tag r.tag)).countDev .resultsLost := if_neg (Nat.not_lt.2 h)

/-- An answer appends its result and counts the cue by its outcome. -/
theorem answer_eq (s : State) (n : Feed) (code : Word) (c : CueWords) (a : Answer) :
    s.answer n code c a = (s.appendResult n (resultOf code c a)).countDev
      (if a.outcome ∈ [.refusedKind, .refusedLength, .refusedScope, .refusedValue, .refusedBusy] then .cuesRefused
        else .cuesTaken) := by
  simp only [← isRefusal_iff]
  rfl

/-- Settles O49: the append by the room in the queue, the counter by the outcome. -/
theorem resultOfCue : Obligations.ResultOfCue := by
  refine ⟨fun s n code c a => ⟨fun hroom => ?_, fun hfull => ?_⟩, fun n c s ha hp hload hfull => ?_⟩
  · rw [answer_eq, appendResult_room s n _ hroom]
    rfl
  · rw [answer_eq, appendResult_full s n _ hfull]
    rfl
  · rw [exec_tableAbandon n c s ha hp, abandonLoad_none s hload, answer_eq, appendResult_full s n _ hfull]
    rfl

end Sys2Proof.Machine
end

section
namespace Sys2Proof.Machine

/-! ## The halves and the fill frame (R142, R143) -/

/-- The halves change over: the other one sends, the one that sent is EMPTY. -/
theorem swap_halves (t : Transmitter) :
    t.swap.sendingHalf = { t.otherHalf with state := .sending } ∧
      t.swap.otherHalf = { t.sendingHalf with state := .empty } := by
  by_cases h : t.sends0 = true
  · rw [show t.sendingHalf = t.half0 from if_pos h, show t.otherHalf = t.half1 from if_pos h,
      show t.swap = { t with half0 := { t.half0 with state := .empty }, half1 := { t.half1 with state := .sending } } from
        if_pos h]
    exact ⟨rfl, rfl⟩
  · rw [show t.sendingHalf = t.half1 from if_neg h, show t.otherHalf = t.half0 from if_neg h,
      show t.swap = { t with half0 := { t.half0 with state := .sending }, half1 := { t.half1 with state := .empty } } from
        if_neg h]
    exact ⟨rfl, rfl⟩

theorem Half.picture_built {h : Half} {f : Frame} (hf : h.frame = some f) : h.picture = .built f := by
  unfold Half.picture
  rw [hf]

/-- Black in every sample of 1080 rows (R142). -/
theorem fillFrame_samples : fillFrame.length = 1080 ∧
    ∀ l ∈ fillFrame, (l.y.length = 1920 ∧ ∀ x ∈ l.y, x = 64) ∧ (l.cb.length = 960 ∧ ∀ x ∈ l.cb, x = 512) ∧
      (l.cr.length = 960 ∧ ∀ x ∈ l.cr, x = 512) := by
  refine ⟨List.length_replicate, fun l hl => ?_⟩
  obtain rfl : l = fillRow := List.eq_of_mem_replicate hl
  exact ⟨⟨List.length_replicate, fun _ => List.eq_of_mem_replicate⟩,
    ⟨List.length_replicate, fun _ => List.eq_of_mem_replicate⟩, List.length_replicate, fun _ => List.eq_of_mem_replicate⟩

/-! ## What a frame start keeps of the frame as it is fixed (R143, R144) -/

section

variable (s : State) (n : Feed)

/-- Timing and blanking leave the halves, the repeat count and the fill flag as fixing the frame leaves them; the frame fixed is
the one on the link, with at most 12 packets. -/
theorem frameStart_transmitter : ∃ so re ft wt r c ps, ps.length ≤ 12 ∧
    (s.frameStart n).otx.get n =
      { (s.fixFrame n).2.otx.get n with
        source := so, reference := re, frameTimer := ft, watchTimer := wt, results := r, carry := c
        link := some ⟨(s.fixFrame n).1, ps⟩ } := by
  obtain ⟨ps, r, c, hps, _, hotx, _⟩ := frameStart_spec s n
  obtain ⟨ft, wt, re, ht⟩ := timed_spec s n
  refine ⟨((s.fixFrame n).2.settings n).timing, re, ft, wt, r, c, ps, hps, ?_⟩
  rw [hotx, Quad_get_set_same, ht, setOtx_otx, Quad_get_set_same]

theorem frameStart_halves :
    ((s.frameStart n).otx.get n).half0 = ((s.fixFrame n).2.otx.get n).half0 ∧
      ((s.frameStart n).otx.get n).half1 = ((s.fixFrame n).2.otx.get n).half1 ∧
      ((s.frameStart n).otx.get n).repeatCount = ((s.fixFrame n).2.otx.get n).repeatCount ∧
      ((s.frameStart n).otx.get n).fillFlag = ((s.fixFrame n).2.otx.get n).fillFlag := by
  obtain ⟨_, _, _, _, _, _, _, _, h⟩ := frameStart_transmitter s n
  rw [h]
  exact ⟨rfl, rfl, rfl, rfl⟩

/-- Which half sends is a matter of the two halves alone. -/
theorem frameStart_sides :
    ((s.frameStart n).otx.get n).sendingHalf = ((s.fixFrame n).2.otx.get n).sendingHalf ∧
      ((s.frameStart n).otx.get n).otherHalf = ((s.fixFrame n).2.otx.get n).otherHalf ∧
      ((s.frameStart n).otx.get n).oneSending = ((s.fixFrame n).2.otx.get n).oneSending := by
  obtain ⟨_, _, _, _, _, _, _, _, h⟩ := frameStart_transmitter s n
  rw [h]
  exact ⟨rfl, rfl, rfl⟩

theorem frameStart_sentRows : (s.frameStart n).sentRows n = some (s.fixFrame n).1.rows := by
  obtain ⟨_, _, _, _, _, _, _, _, h⟩ := frameStart_transmitter s n
  unfold State.sentRows
  rw [h]
  rfl

/-- Timing and blanking raise nothing and count nothing. -/
theorem frameStart_ntu :
    (s.frameStart n).ntu.table.Sublist (s.fixFrame n).2.ntu.table ∧
      (s.frameStart n).ntu.feedCounters = (s.fixFrame n).2.ntu.feedCounters ∧
      (s.frameStart n).ntu.devCounters = (s.fixFrame n).2.ntu.devCounters := by
  obtain ⟨_, _, _, _, _, _, htable, _, hfeed, hdev⟩ := frameStart_spec s n
  obtain ⟨_, _, _, ht⟩ := timed_spec s n
  rw [ht] at htable hfeed hdev
  exact ⟨htable, hfeed, hdev⟩

end

/-! ## The frame of a frame start, case by case -/

section

variable {s : State} {n : Feed}

/-- Without a READY half the halves stay as they are (R144). -/
theorem fixFrame_keeps_halves (hready : (s.otx.get n).otherHalf.state ≠ .ready) :
    ((s.fixFrame n).2.otx.get n).half0 = (s.otx.get n).half0 ∧ ((s.fixFrame n).2.otx.get n).half1 = (s.otx.get n).half1 := by
  cases hfill : (s.otx.get n).fillFlag with
  | true =>
    rw [fixFrame_filling s n hready hfill]
    exact ⟨rfl, rfl⟩
  | false =>
    rcases Nat.lt_or_ge ((s.otx.get n).repeatCount + 1) (s.settings n).holdLimit with hbelow | hat
    · rw [fixFrame_repeats s n hready hfill hbelow]
      simp
    · rw [fixFrame_falls s n hready hfill hat]
      simp

/-- What a frame start leaves of the frame, once fixing it is known: the halves, the counts and the rows on the link. -/
theorem frameStart_of_fixFrame {p : Picture} {t : State} (h : s.fixFrame n = (p, t)) :
    ((s.frameStart n).otx.get n).repeatCount = (t.otx.get n).repeatCount ∧
      ((s.frameStart n).otx.get n).fillFlag = (t.otx.get n).fillFlag ∧ (s.frameStart n).sentRows n = some p.rows ∧
      (s.frameStart n).ntu.feedCounters.get n = t.ntu.feedCounters.get n := by
  obtain ⟨_, _, hcount, hflag⟩ := frameStart_halves s n
  obtain ⟨_, hfeed, _⟩ := frameStart_ntu s n
  have hrows := frameStart_sentRows s n
  rw [h] at hcount hflag hfeed hrows
  exact ⟨hcount, hflag, hrows, congrArg (·.get n) hfeed⟩

end

/-- Settles O27: the frame by the cases of R143 and R144, which timing and blanking leave as it is fixed. -/
theorem frameFixed : Obligations.FrameFixed := by
  refine ⟨fun n s => ⟨rfl, frameStart_sentRows s n⟩, fun n s f hone hready hframe => ?_, fun n s hready => ?_, rfl,
    fillFrame_samples⟩
  · have hfix := fixFrame_ready s n hready
    rw [Half.picture_built hframe] at hfix
    obtain ⟨hcount, hflag, hrows, _⟩ := frameStart_of_fixFrame hfix
    obtain ⟨hsend, hother, hones⟩ := frameStart_sides s n
    obtain ⟨htable, hfeed, hdev⟩ := frameStart_ntu s n
    obtain ⟨swapsend, swapother⟩ := swap_halves (s.otx.get n)
    rw [hfix] at hsend hother hones htable hfeed hdev
    rw [setOtx_otx, Quad_get_set_same] at hsend hother hones hcount hflag
    exact ⟨by rw [hfix, setOtx_otx, Quad_get_set_same], hsend.trans swapsend, hother.trans swapother,
      hones.trans (Moves.swap_oneSending _ 0 false hone), hcount, hflag, hrows, htable, hfeed, hdev⟩
  · obtain ⟨hhalf0, hhalf1, _⟩ := frameStart_halves s n
    obtain ⟨hkeep0, hkeep1⟩ := fixFrame_keeps_halves hready
    refine ⟨hhalf0.trans hkeep0, hhalf1.trans hkeep1, fun hfill => ?_, fun hfill hbelow => ?_, fun hfill hat => ?_⟩
    · have hfix := fixFrame_filling s n hready hfill
      obtain ⟨hcount, hflag, hrows, hfeed⟩ := frameStart_of_fixFrame hfix
      exact ⟨hfix, hcount, hflag.trans hfill, hrows, by simpa using hfeed⟩
    · have hfix := fixFrame_repeats s n hready hfill hbelow
      obtain ⟨hcount, hflag, hrows, hfeed⟩ := frameStart_of_fixFrame hfix
      refine ⟨congrArg Prod.snd hfix, by simpa using hcount, by simpa [hfill] using hflag, fun f hf => ?_,
        by simpa using hfeed⟩
      rw [hrows, Half.picture_built hf]
      rfl
    · have hfix := fixFrame_falls s n hready hfill hat
      obtain ⟨hcount, hflag, hrows, hfeed⟩ := frameStart_of_fixFrame hfix
      exact ⟨hfix, by simpa using hcount, by simpa using hflag, hrows, by simpa using hfeed⟩

end Sys2Proof.Machine
end

section
namespace Sys2Proof.Machine

/-! ## The frame timer (R147, R151) -/

theorem frameTimerExpires_running (s : State) (n : Feed) {v : Nat} (h : (s.otx.get n).frameTimer = .running v) :
    s.frameTimerExpires n = s.frameStart n := by
  unfold State.frameTimerExpires
  rw [h]

/-- Settles O28: an expiry is a frame start, which restarts the timer by frameStart_timing; the packets by the blanking. -/
theorem frameTimerExpires : Obligations.FrameTimerExpires := by
  refine ⟨fun n s v hheld hrun => ⟨?_, fun hfree hsource => ?_⟩, fun n s => ?_⟩
  · exact (unlessHeld_released s _ hheld).trans (congrArg Host.Outcome.next (frameTimerExpires_running s n hrun))
  · obtain ⟨_, _, _, htimer, _⟩ := frameStart_timing s n hsource
    rw [htimer, if_pos hfree]
  · obtain ⟨_, _, _, _, _, _, ps, hps, h⟩ := frameStart_transmitter s n
    exact ⟨⟨(s.fixFrame n).1, ps⟩, congrArg Transmitter.link h, hps⟩

/-! ## The studio reference (R148) -/

section

variable (s : State) (n : Feed)

/-- Output n's transmitter as a pulse leaves it, before the frame start. -/
def State.pulsed : State :=
  s.setOtx n { s.otx.get n with
    reference := some .present, frameTimer := .stopped
    watchTimer := .running (s.settings n).struct.periodAndHalf }

/-- Output n's transmitter as the expiry of its watch leaves it, with REFERENCE_LOST raised, before the frame start. -/
def State.referenceLost : State :=
  (s.setOtx n { s.otx.get n with reference := some .lost, watchTimer := .stopped }).raise .referenceLost (.feed n)
    (.reason .noPulse)

theorem pulsed_otx : (s.pulsed n).otx.get n = { s.otx.get n with
    reference := some .present, frameTimer := .stopped
    watchTimer := .running (s.settings n).struct.periodAndHalf } := Quad_get_set_same _ _ _

theorem referenceLost_otx : (s.referenceLost n).otx.get n =
    { s.otx.get n with reference := some .lost, watchTimer := .stopped } := Quad_get_set_same _ _ _

theorem pulse_ignored (h : (s.otx.get n).source ≠ .reference) : s.pulse n = s := by
  simp [State.pulse, h]

theorem pulse_taken (h : (s.otx.get n).source = .reference) : s.pulse n = (s.pulsed n).frameStart n := by
  simp [State.pulse, h, State.pulsed]

theorem pulse_otx_other (m : Feed) (h : m ≠ n) : (s.pulse n).otx.get m = s.otx.get m := by
  by_cases hs : (s.otx.get n).source = .reference
  · rw [pulse_taken s n hs, frameStart_otx_other _ _ _ h]
    exact Quad_get_set_other _ _ _ _ h
  · rw [pulse_ignored s n hs]

theorem watchExpires_running {v : Nat} (h : (s.otx.get n).watchTimer = .running v) :
    s.watchExpires n = (s.referenceLost n).frameStart n := by
  unfold State.watchExpires
  simp only [h]
  rfl

variable {n}

/-- Under REFERENCE an output runs free exactly while the reference is LOST (Table 8-3). -/
theorem runsFree_reference (h : (s.otx.get n).source = .reference) :
    s.runsFree n = ((s.otx.get n).reference == some .lost) := by
  unfold State.runsFree
  simp only [h]

/-- A frame start under REFERENCE, in use and set: only a LOST reference lets the frame timer start (R147, R148). -/
theorem frameStart_reference (h : (s.otx.get n).source = .reference) (hset : (s.settings n).timing = .reference) :
    let u := (s.frameStart n).otx.get n
    u.source = .reference ∧ u.reference = (s.otx.get n).reference ∧ u.watchTimer = (s.otx.get n).watchTimer ∧
      u.frameTimer =
        if (s.otx.get n).reference == some .lost then .running (s.period n) else (s.otx.get n).frameTimer := by
  obtain ⟨hso, hre, hwt, hft, _⟩ := frameStart_timing s n (h.trans hset.symm)
  rw [runsFree_reference s h] at hft
  exact ⟨hso.trans h, hre, hwt, hft⟩

end

/-- Settles O29: a pulse and a watch expiry are frame starts of the state as each leaves the transmitter. -/
theorem referenceEvents : Obligations.ReferenceEvents := by
  refine ⟨fun s hheld => unlessHeld_released s _ hheld, fun n s => ⟨pulse_ignored s n, fun hsource => ⟨?_, fun hset => ?_⟩,
    pulse_otx_other s n⟩, fun n s v hheld hrun => ⟨?_, fun hsource hset => ?_⟩⟩
  · exact pulse_taken s n hsource
  · have hotx := pulsed_otx s n
    obtain ⟨hso, hre, hwt, hft⟩ := frameStart_reference (s.pulsed n) (by rw [hotx]; exact hsource) hset
    rw [hotx] at hre hwt hft
    rw [pulse_taken s n hsource]
    exact ⟨hso, hre, hft, hwt⟩
  · exact (unlessHeld_released s _ hheld).trans (congrArg Host.Outcome.next (watchExpires_running s n hrun))
  · have hotx := referenceLost_otx s n
    obtain ⟨hso, hre, hwt, hft⟩ := frameStart_reference (s.referenceLost n) (by rw [hotx]; exact hsource) hset
    rw [hotx] at hre hwt hft
    exact ⟨hso, hre, hwt, hft⟩

/-! ## Timing sources (R147, R149, R150, R157) -/

section

variable (s : State) (n : Feed)

theorem isRunning_iff : s.isRunning n = true ↔ (s.lrx.get n).state = .running := beq_iff_eq

theorem isRunning_false_iff : s.isRunning n = false ↔ (s.lrx.get n).state ≠ .running := beq_eq_false_iff_ne

/-- The rows of Table 8-3 where the frame timer runs. -/
theorem runsFree_iff : s.runsFree n = true ↔
    (s.otx.get n).source = .free ∨ ((s.otx.get n).source = .reference ∧ (s.otx.get n).reference = some .lost) ∨
      ((s.otx.get n).source = .input ∧ (s.lrx.get n).state ≠ .running) := by
  unfold State.runsFree
  cases h : (s.otx.get n).source <;> simp [h, State.isRunning]

theorem restartIfFree_free (h : s.runsFree n = true) : s.restartIfFree n = s.startFrameTimer n := if_pos h

theorem restartIfFree_bound (h : ¬s.runsFree n = true) : s.restartIfFree n = s := if_neg h

theorem adoptSource_same (h : (s.otx.get n).source = (s.settings n).timing) : s.adoptSource n = s := if_pos h

theorem adoptSource_other (h : (s.otx.get n).source ≠ (s.settings n).timing) :
    ((s.settings n).timing = .free →
      s.adoptSource n = s.setOtx n { s.otx.get n with
        source := .free, reference := none, watchTimer := .stopped, frameTimer := .running (s.period n) }) ∧
    ((s.settings n).timing = .reference →
      s.adoptSource n = s.setOtx n { s.otx.get n with
        source := .reference, reference := some .present, frameTimer := .stopped
        watchTimer := .running (s.settings n).struct.periodAndHalf }) ∧
    ((s.settings n).timing = .input →
      s.adoptSource n = s.setOtx n { s.otx.get n with
        source := .input, reference := none, watchTimer := .stopped
        frameTimer := if (s.lrx.get n).state = .running then .stopped else .running (s.period n) }) := by
  unfold State.adoptSource
  simp only [if_neg h, ← isRunning_iff]
  refine ⟨fun hw => ?_, fun hw => ?_, fun hw => ?_⟩ <;> rw [hw]

/-- For another source in use than INPUT, what the feed hands over does nothing (R149). -/
theorem input_ignored (h : (s.otx.get n).source ≠ .input) :
    s.outputFieldStart n = s ∧ s.outputExpiry n = s ∧ ∀ b : Bool, s.outputFeedRestart n b = s := by
  refine ⟨?_, ?_, fun b => outputFeedRestart_idle s n b (.inl h)⟩
  · simp [State.outputFieldStart, h]
  · simp [State.outputExpiry, h]

variable {s n} (h : (s.otx.get n).source = .input)

include h

theorem outputFieldStart_running (hr : (s.lrx.get n).state = .running) :
    s.outputFieldStart n = (s.stopFrameTimer n).frameStart n := by
  simp [State.outputFieldStart, h, (isRunning_iff s n).2 hr]

theorem outputFieldStart_idle (hr : (s.lrx.get n).state ≠ .running) :
    s.outputFieldStart n = if (s.otx.get n).frameTimer = .stopped then s.startFrameTimer n else s := by
  simp [State.outputFieldStart, h, (isRunning_false_iff s n).2 hr]

theorem outputExpiry_input : s.outputExpiry n = s.frameStart n := by
  simp [State.outputExpiry, h]

end

/-- Settles O30: the restart by Table 8-3, the adoption by the setting, the feed's events by the source in use. -/
theorem sourceAdoptionAndInput : Obligations.SourceAdoptionAndInput := by
  refine fun n s => ⟨fun hfree => restartIfFree_free s n ((runsFree_iff s n).2 hfree),
    fun hbound => restartIfFree_bound s n (fun hfree => hbound ((runsFree_iff s n).1 hfree)), adoptSource_same s n,
    adoptSource_other s n, input_ignored s n, fun hin => ⟨outputFieldStart_running hin, fun hidle => ?_, outputExpiry_input hin,
      outputFeedRestart_input s n hin, outputFeedRestart_idle s n false (.inr rfl)⟩⟩
  rw [outputFieldStart_idle hin hidle]
  exact ⟨fun hs => if_pos hs, fun hs => if_neg hs⟩

end Sys2Proof.Machine
end

section
namespace Sys2Proof.Machine

/-! ## Slots 1 and 2: the latched records (R152) -/

section

variable {n : Feed} {waits : Scope → Bool}

theorem find_servedScopes_none (h : waits (.feed n) = false ∧ (n = 0 → waits .device = false)) :
    (servedScopes n).find? waits = none := by
  obtain ⟨hfeed, hdevice⟩ := h
  unfold servedScopes
  split
  · next hn => simp [hfeed, hdevice hn]
  · simp [hfeed]

/-- Output 0 serves the device before feed 0, another output its feed alone. -/
theorem find_servedScopes_some {sc : Scope} (h : waits sc = true ∧
    ((n = 0 ∧ sc = .device) ∨ (sc = .feed n ∧ (n = 0 → waits .device = false)))) :
    (servedScopes n).find? waits = some sc := by
  unfold servedScopes
  obtain ⟨hwaits, ⟨hn, rfl⟩ | ⟨rfl, hdevice⟩⟩ := h
  · rw [if_pos hn]
    exact List.find?_cons_of_pos hwaits
  · split
    · next hn =>
      rw [List.find?_cons_of_neg (by simp [hdevice hn])]
      exact List.find?_cons_of_pos hwaits
    · exact List.find?_cons_of_pos hwaits

end

section

variable {s : State} {n : Feed} {sc : Scope} {r : List Word}

theorem drawStatus_none (h : (servedScopes n).find? (fun x => (s.latches x).status.isSome) = none) :
    s.drawStatus n = ([], s) := by
  unfold State.drawStatus
  rw [h]

theorem drawStatus_some (h : (servedScopes n).find? (fun x => (s.latches x).status.isSome) = some sc)
    (hr : (s.latches sc).status = some r) :
    s.drawStatus n = ([s.statusReport sc r], s.setLatches sc { s.latches sc with status := none }) := by
  unfold State.drawStatus
  simp only [h, hr]

theorem drawCounters_none
    (h : (servedScopes n).find? (fun x => (s.latches x).counters.isSome && (s.latches x).status.isNone) = none) :
    s.drawCounters n = ([], s) := by
  unfold State.drawCounters
  rw [h]

theorem drawCounters_some
    (h : (servedScopes n).find? (fun x => (s.latches x).counters.isSome && (s.latches x).status.isNone) = some sc)
    (hr : (s.latches sc).counters = some r) :
    s.drawCounters n = ([s.countersReport sc r], s.setLatches sc { s.latches sc with counters := none }) := by
  unfold State.drawCounters
  simp only [h, hr]

end

/-! ## Slot 3: the periodic report (R194) -/

/-- A member of the scan set above the last-reported feed, if there is one. -/
def Periodic.isAbove (p : Periodic) (n : Feed) : Bool :=
  p.scan.get n && match p.last with
    | some l => decide (l.val < n.val)
    | none => true

theorem Periodic.isAbove_iff (p : Periodic) (n : Feed) :
    p.isAbove n = true ↔ p.scan.get n = true ∧ ∀ l, p.last = some l → l < n := by
  unfold Periodic.isAbove
  cases p.last <;> simp

theorem Periodic.nextFeed_eq (p : Periodic) :
    p.nextFeed = (feeds.find? p.isAbove).or (feeds.find? (fun n => p.scan.get n)) := by
  rw [← List.head?_filter]
  unfold Periodic.nextFeed
  dsimp only
  split
  · next n t h =>
    have habove : feeds.filter p.isAbove = n :: t := h
    rw [habove]
    rfl
  · next h =>
    have habove : feeds.filter p.isAbove = [] := h
    rw [habove]
    rfl

/-- The search through the feeds finds the lowest. -/
theorem find_feeds_lowest {q : Feed → Bool} {f : Feed} (hf : q f = true) (hlow : ∀ g, q g = true → f ≤ g) :
    feeds.find? q = some f := by
  cases h : feeds.find? q with
  | none => exact absurd hf (List.find?_eq_none.1 h f (feeds_mem f))
  | some g =>
    have hsorted : feeds.Pairwise (fun a b => a < b) := by decide
    obtain ⟨hg, before, after, hsplit, hbefore⟩ := List.find?_eq_some_iff_append.1 h
    have hmem : f ∈ before ++ g :: after := hsplit ▸ feeds_mem f
    rcases List.mem_append.1 hmem with hin | hin
    · exact absurd (hbefore f hin) (by simp [hf])
    · rcases List.mem_cons.1 hin with rfl | hlater
      · rfl
      · rw [hsplit] at hsorted
        have hlt : g < f := List.rel_of_pairwise_cons (List.pairwise_append.1 hsorted).2.1 hlater
        exact absurd (hlow g hg) (not_le.2 hlt)

theorem find_feeds_none {q : Feed → Bool} (h : ∀ g, ¬q g = true) : feeds.find? q = none :=
  List.find?_eq_none.2 (fun g _ => h g)

theorem Periodic.nextFeed_none {p : Periodic} (h : ∀ f, p.scan.get f = false) : p.nextFeed = none := by
  rw [Periodic.nextFeed_eq, find_feeds_none (fun g => by simp [Periodic.isAbove, h g]), find_feeds_none (by simp [h])]
  rfl

/-- The lowest member above the last-reported feed, else the lowest member. -/
theorem Periodic.nextFeed_some {p : Periodic} {f : Feed} (hf : p.scan.get f = true)
    (h : (p.isAbove f = true ∧ ∀ g, p.isAbove g = true → f ≤ g) ∨
      ((∀ g, ¬p.isAbove g = true) ∧ ∀ g, p.scan.get g = true → f ≤ g)) : p.nextFeed = some f := by
  rw [Periodic.nextFeed_eq]
  rcases h with ⟨habove, hlow⟩ | ⟨hnone, hlow⟩
  · rw [find_feeds_lowest habove hlow]
    rfl
  · rw [find_feeds_none hnone, find_feeds_lowest hf hlow]
    rfl

section

variable {s : State} {n : Feed}

theorem drawPeriodic_off (h : n ≠ 0 ∨ s.ntu.periodic.period = 0) : s.drawPeriodic n = ([], s) := if_pos h

theorem drawPeriodic_empty (h : s.ntu.periodic.nextFeed = none) : s.drawPeriodic n = ([], s) := by
  unfold State.drawPeriodic
  simp [h]

theorem drawPeriodic_scans {f : Feed} (hperiod : s.ntu.periodic.period ≠ 0) (h : s.ntu.periodic.nextFeed = some f) :
    s.drawPeriodic 0 =
      if s.ntu.periodic.period ≤ s.ntu.periodic.count + 1 then
        ([s.periodicReport f], s.setPeriodic { s.ntu.periodic with count := 0, last := some f })
      else ([], s.setPeriodic { s.ntu.periodic with count := s.ntu.periodic.count + 1 }) := by
  unfold State.drawPeriodic
  simp [h, hperiod]

end

/-! ## Slot 5: the notices (R190) -/

theorem insertRanked_eq (le : NoticeEntry → NoticeEntry → Bool) (e : NoticeEntry) (l : List NoticeEntry) :
    insertRanked le e l = l.orderedInsert (fun a b => le a b = true) e := by
  induction l with
  | nil => rfl
  | cons x l ih => rw [insertRanked, ih, List.orderedInsert_cons]

/-- The ranking is an insertion sort. -/
theorem rankNotices_eq (le : NoticeEntry → NoticeEntry → Bool) (l : List NoticeEntry) :
    rankNotices le l = l.insertionSort (fun a b => le a b = true) := by
  unfold rankNotices List.insertionSort
  congr 1
  funext e acc
  exact insertRanked_eq le e acc

section

variable (s : State) (n : Feed)

/-- Level, highest first; then kind code, lowest first. -/
theorem emittedBefore_iff (a b : NoticeEntry) : s.emittedBefore a b = true ↔
    (s.noticeSetting b.kind).level < (s.noticeSetting a.kind).level ∨
      ((s.noticeSetting a.kind).level = (s.noticeSetting b.kind).level ∧ a.kind.code ≤ b.kind.code) := by
  simp [State.emittedBefore]

theorem mem_servedScopes (sc : Scope) : sc ∈ servedScopes n ↔ sc = .feed n ∨ (n = 0 ∧ sc = .device) := by
  unfold servedScopes
  split
  · next h => simp [h, or_comm]
  · next h => simp [h]

theorem emits_iff (e : NoticeEntry) : s.emits n e = true ↔
    (e.scope = .feed n ∨ (n = 0 ∧ e.scope = .device)) ∧ (s.noticeSetting e.kind).masked = false := by
  simp [State.emits, mem_servedScopes]

/-- The entries that output n may be handed, in emission order. -/
def State.rankedNotices : List NoticeEntry := rankNotices s.emittedBefore (s.ntu.table.filter (s.emits n))

theorem handedNotices_eq : s.handedNotices n = (s.rankedNotices n).take 4 := rfl

theorem rankedNotices_perm : (s.rankedNotices n).Perm (s.ntu.table.filter (s.emits n)) := by
  unfold State.rankedNotices
  rw [rankNotices_eq]
  exact List.perm_insertionSort _ _

theorem mem_rankedNotices (e : NoticeEntry) : e ∈ s.rankedNotices n ↔
    (e.scope = .feed n ∨ (n = 0 ∧ e.scope = .device)) ∧ e ∈ s.ntu.table ∧ (s.noticeSetting e.kind).masked = false := by
  rw [(rankedNotices_perm s n).mem_iff, List.mem_filter, emits_iff]
  tauto

/-- Emission order is total and transitive, so the ranking is in order. -/
theorem rankedNotices_pairwise : (s.rankedNotices n).Pairwise (fun a b => s.emittedBefore a b = true) := by
  have htotal : Std.Total (fun a b : NoticeEntry => s.emittedBefore a b = true) :=
    ⟨fun a b => by rw [emittedBefore_iff, emittedBefore_iff]; omega⟩
  have htrans : IsTrans NoticeEntry (fun a b => s.emittedBefore a b = true) :=
    ⟨fun a b c hab hbc => by rw [emittedBefore_iff] at hab hbc ⊢; omega⟩
  unfold State.rankedNotices
  rw [rankNotices_eq]
  exact List.pairwise_insertionSort _ _

variable {s}

/-- With one entry per kind and scope no entry stands twice (R189). -/
theorem rankedNotices_nodup (h : s.noticesOk) : (s.rankedNotices n).Nodup := by
  have htable : s.ntu.table.Nodup := h.1.imp (fun hne heq => hne ⟨congrArg _ heq, congrArg _ heq⟩)
  exact (rankedNotices_perm s n).nodup_iff.2 (htable.filter _)

/-- An entry that is not among the first four comes after four others. -/
theorem handedNotices_left {e : NoticeEntry} (he : e ∈ s.rankedNotices n) (hout : e ∉ s.handedNotices n) :
    (s.handedNotices n).length = 4 ∧ ∀ x ∈ s.handedNotices n, s.emittedBefore x e = true := by
  have hsorted := rankedNotices_pairwise s n
  have hlater : e ∈ (s.rankedNotices n).drop 4 := by
    rw [← List.take_append_drop 4 (s.rankedNotices n)] at he
    exact (List.mem_append.1 he).resolve_left hout
  have hlen := List.length_pos_of_mem hlater
  rw [List.length_drop] at hlen
  rw [← List.take_append_drop 4 (s.rankedNotices n), List.pairwise_append] at hsorted
  obtain ⟨_, _, hcross⟩ := hsorted
  exact ⟨by rw [handedNotices_eq, List.length_take]; omega, fun x hx => hcross x hx e hlater⟩

theorem drawNotices_eq : s.drawNotices n =
    ((s.handedNotices n).map s.noticeReport,
      { s with ntu := { s.ntu with table := s.ntu.table.filter (fun e => decide (e ∉ s.handedNotices n)) } }) := by
  simp [State.drawNotices]

end

/-! ## The words of the reports (R160 to R162, Tables 9-4 to 9-6) -/

theorem resultReport_eq (s : State) (r : CueResult) :
    s.resultReport r = s.report r.scope 0x001 r.tag
      ([r.code, r.outcome.word, wordOf ((r.reason.map Reason.code).getD 0)] ++
        r.items.flatMap (fun i => [wordOf i.1, wordOf (i.2 / 256), wordOf (i.2 % 256)])) := by
  unfold State.resultReport
  cases r.reason <;> rfl

/-- The class and the value of a notice's detail (Tables 9-5, 9-6). -/
def Detail.pair : Detail → Nat × Nat
  | .absent => (0, 0)
  | .sequence q => (1, q.toNat)
  | .reason r => (2, r.code)
  | .table t => (3, t.val)
  | .tag w => (4, w.toNat)
  | .freeCount f => (5, f)
  | .kindWord w => (6, w.toNat)

theorem Detail.pair_eq (d : Detail) : d.pair = (d.cls, d.value) := by cases d <;> rfl

theorem noticeReport_eq (s : State) (e : NoticeEntry) :
    s.noticeReport e = s.report e.scope.word 0x002 0
      [wordOf e.kind.code, wordOf (s.noticeSetting e.kind).level, wordOf e.count, wordOf e.detail.pair.1,
        wordOf (e.detail.pair.2 / 256), wordOf (e.detail.pair.2 % 256)] := by
  rw [Detail.pair_eq]
  rfl

/-! ## The blanking as a whole (R151) -/

/-- Slots 1 to 5 place at most 11 packets (R151). -/
theorem front_length (s : State) (n : Feed) :
    let d1 := s.drawStatus n
    let d2 := d1.2.drawCounters n
    let d3 := d2.2.drawPeriodic n
    let d4 := d3.2.drawResults n
    let d5 := d4.2.drawNotices n
    (d1.1 ++ d2.1 ++ d3.1 ++ d4.1 ++ d5.1).length ≤ 11 := by
  intro d1 d2 d3 d4 d5
  have h1 : d1.1.length ≤ 1 := drawStatus_length s n
  have h2 : d2.1.length ≤ 1 := drawCounters_length d1.2 n
  have h3 : d3.1.length ≤ 1 := drawPeriodic_length d2.2 n
  have h4 : d4.1.length ≤ 4 := drawResults_length d3.2 n
  have h5 : d5.1.length ≤ 4 := drawNotices_length d4.2 n
  simp only [List.length_append]
  omega

/-- Settles O31: the slots in order, each by what waits for it, and the report packets word by word. -/
theorem blankingSlots : Obligations.BlankingSlots := by
  refine ⟨fun n s => ⟨rfl, front_length s n⟩, fun n s sc r => ?_, fun s => ?_, fun n s room => ⟨rfl, rfl⟩,
    fun n s hok => ?_, fun s => ⟨fun sc code tag payload => rfl, fun r => ?_, fun e => ?_⟩, rfl⟩
  · exact ⟨fun h => drawStatus_none (find_servedScopes_none h), fun h => drawCounters_none (find_servedScopes_none h),
      fun h => drawStatus_some (find_servedScopes_some h), fun h => drawCounters_some (find_servedScopes_some h)⟩
  · refine ⟨fun n hn => drawPeriodic_off (.inl hn), fun h => ?_, fun f hperiod hf => ?_⟩
    · exact h.elim (fun hoff => drawPeriodic_off (.inr hoff)) (fun hscan => drawPeriodic_empty (Periodic.nextFeed_none hscan))
    · intro above hnext
      have habove : ∀ g, above g ↔ s.ntu.periodic.isAbove g = true := fun g => (Periodic.isAbove_iff _ g).symm
      simp only [habove] at hnext
      have hdraw := drawPeriodic_scans hperiod (Periodic.nextFeed_some hf hnext)
      exact ⟨fun hearly => hdraw.trans (if_neg (Nat.not_le.2 hearly)), fun hdue => hdraw.trans (if_pos hdue)⟩
  · refine ⟨s.handedNotices n, drawNotices_eq n, ?_, ?_, ?_, ?_, ?_⟩
    · exact List.length_take_le 4 _
    · exact (rankedNotices_nodup n hok).sublist (List.take_sublist 4 _)
    · exact fun e he => (mem_rankedNotices s n e).1 (List.mem_of_mem_take he)
    · exact ((rankedNotices_pairwise s n).sublist (List.take_sublist 4 _)).imp (emittedBefore_iff s _ _).1
    · intro e he hout
      obtain ⟨hlen, hbefore⟩ := handedNotices_left n ((mem_rankedNotices s n e).2 he) hout
      exact ⟨hlen, fun x hx => (emittedBefore_iff s x e).1 (hbefore x hx)⟩
  · exact resultReport_eq s r
  · exact noticeReport_eq s e

end Sys2Proof.Machine
end

-- ==== Sys2Proof/Proofs: the cue decoder ====
section
/-! The statements about the cue decoder: the items of the cues, the tests, what the settings cues, the device cues and a field
start with pending items do. First what a payload's words give, then each statement from that. -/

namespace Sys2Proof.Machine

/-! ## What the words of a payload give (R161, R165 tests 6 and 7, R168) -/

theorem itemOf_map {α β : Type} (g : α → β) (f : Nat → α) (w : Word) :
    (itemOf f w).map g = itemOf (fun v => g (f v)) w := by
  unfold itemOf
  split <;> rfl

/-- An enumerated item is taken exactly where its word is in the list or KEEP. -/
theorem enumItem_eq_some (n : Nat) (w : Word) (x : Option Nat) :
    enumItem n w = some x ↔ oneOf n w = true ∧ x = itemOf id w := by
  unfold enumItem oneOf itemOf
  by_cases hkeep : w = keepWord
  · simp [hkeep, @eq_comm _ x]
  · simp [hkeep, @eq_comm _ x]

theorem enumItem_taken {n : Nat} {w : Word} (h : oneOf n w = true) : enumItem n w = some (itemOf id w) :=
  (enumItem_eq_some n w _).2 ⟨h, rfl⟩

/-- A two-word item is taken exactly where it is well formed or KEEP. -/
theorem pairTaken_eq_some (no : Nat) (f : Nat → Nat) (h l : Word) (x : Taken Nat) :
    pairTaken no f h l = some x ↔ pairFormed h l = true ∧ x = ⟨pairOf f h l, pairEntryOf no f h l⟩ := by
  unfold pairTaken pairItem pairFormed pairOf pairEntryOf takenValue
  by_cases hkeep : h = keepWord ∧ l = keepWord
  · obtain ⟨rfl, rfl⟩ := hkeep
    exact ⟨fun ht => ⟨rfl, (Option.some.inj ht).symm⟩, fun ht => congrArg some ht.2.symm⟩
  · have hno : (h == keepWord && l == keepWord) = false := by simpa using hkeep
    by_cases hbig : 255 < h.toNat ∨ 255 < l.toNat
    · have hmal : ¬(h.toNat ≤ 255 ∧ l.toNat ≤ 255) := by omega
      simp [hkeep, hno, hbig, hmal]
    · have hwell : h.toNat ≤ 255 ∧ l.toNat ≤ 255 := by omega
      simp [hkeep, hno, hbig, hwell, @eq_comm _ x]

theorem pairTaken_taken {no : Nat} {f : Nat → Nat} {h l : Word} (hf : pairFormed h l = true) :
    pairTaken no f h l = some ⟨pairOf f h l, pairEntryOf no f h l⟩ := (pairTaken_eq_some no f h l _).2 ⟨hf, rfl⟩

/-- A numeric word is clamped; its entry says so where the clamp changes it. -/
theorem numItem_eq (no lo hi : Nat) (w : Word) :
    numItem no lo hi w = ⟨itemOf (clampNat lo hi) w, entryOf no (clampNat lo hi) w⟩ := by
  unfold numItem itemOf entryOf takenValue
  by_cases hkeep : w = keepWord
  · simp [hkeep]
  · simp [hkeep]

/-- Clamping a lift less its offset is clamping the word to 480..543. -/
theorem clampInt_offset (v : Nat) : clampInt (-32) 31 ((v : Int) - 512) = ((clampNat 480 543 v : Nat) : Int) - 512 := by
  unfold clampInt clampNat
  omega

theorem liftItem_eq (no : Nat) (w : Word) :
    liftItem no w =
      ⟨itemOf (fun v => ((clampNat 480 543 v : Nat) : Int) - 512) w, entryOf no (clampNat 480 543) w⟩ := by
  unfold liftItem itemOf entryOf
  by_cases hkeep : w = keepWord
  · simp [hkeep]
  · have hsame : ((clampNat 480 543 w.toNat : Nat) : Int) - 512 = (w.toNat : Int) - 512 ↔
        clampNat 480 543 w.toNat = w.toNat := by omega
    simp [hkeep, clampInt_offset, hsame]

theorem toNat_beq_one (w : Word) : (w.toNat == 1) = (w == 1) := by
  rw [Bool.eq_iff_iff, beq_iff_eq, beq_iff_eq]
  bv_omega

/-- Four words of a mask are taken exactly where each is 0 or 1, or all are KEEP. -/
theorem maskItem_eq_some (a b c d : Word) (x : Option (Quad Bool)) :
    maskItem a b c d = some x ↔
      maskFormed a b c d = true ∧ x = itemOf (fun _ => ⟨a == 1, b == 1, c == 1, d == 1⟩) a := by
  unfold maskItem maskFormed itemOf
  simp only [toNat_beq_one]
  by_cases hkeep : a = keepWord ∧ b = keepWord ∧ c = keepWord ∧ d = keepWord
  · obtain ⟨rfl, rfl, rfl, rfl⟩ := hkeep
    simp [@eq_comm _ x]
  · have hno : (a == keepWord && b == keepWord && c == keepWord && d == keepWord) = false := by
      simpa [and_assoc] using hkeep
    by_cases hbits : a.toNat ≤ 1 ∧ b.toNat ≤ 1 ∧ c.toNat ≤ 1 ∧ d.toNat ≤ 1
    · have ha : a ≠ keepWord := by
        rintro rfl
        exact absurd hbits.1 (by decide)
      simp [hbits, ha, @eq_comm _ x]
    · have hmal : (decide (a.toNat ≤ 1) && decide (b.toNat ≤ 1) && decide (c.toNat ≤ 1) && decide (d.toNat ≤ 1)) = false := by
        simpa [and_assoc] using hbits
      simp only [if_neg hkeep, if_neg hbits, hno, hmal]
      simp

theorem maskItem_taken {a b c d : Word} (h : maskFormed a b c d = true) :
    maskItem a b c d = some (itemOf (fun _ => ⟨a == 1, b == 1, c == 1, d == 1⟩) a) :=
  (maskItem_eq_some a b c d _).2 ⟨h, rfl⟩

/-! ## The items of the settings cues (Table 9-3) -/

theorem feedConfigItems_eq (e st cl ti ho : Word) :
    feedConfigItems [e, st, cl, ti, ho] =
      if oneOf 2 e && oneOf 2 st && oneOf 3 ti then
        some
          ({ enable := itemOf (fun v => v == 1) e
             struct := itemOf (fun v => if v = 0 then .s50 else .s60) st
             cls := itemOf (fun v => Fin.ofNat 4 (clampNat 0 3 v)) cl
             timing := itemOf (fun v => if v = 0 then .free else if v = 1 then .reference else .input) ti
             holdLimit := itemOf (clampNat 1 250) ho },
           entryOf 3 (clampNat 0 3) cl ++ entryOf 5 (clampNat 1 250) ho)
      else none := by
  simp only [feedConfigItems, numItem_eq, itemOf_map]
  split
  · next e' st' ti' he hst hti =>
    obtain ⟨oke, rfl⟩ := (enumItem_eq_some _ _ _).1 he
    obtain ⟨okst, rfl⟩ := (enumItem_eq_some _ _ _).1 hst
    obtain ⟨okti, rfl⟩ := (enumItem_eq_some _ _ _).1 hti
    rw [oke, okst, okti, itemOf_map, itemOf_map, itemOf_map]
    rfl
  · next hno =>
    refine (if_neg fun h => ?_).symm
    simp only [Bool.and_eq_true] at h
    obtain ⟨⟨he, hst⟩, hti⟩ := h
    exact hno _ _ _ (enumItem_taken he) (enumItem_taken hst) (enumItem_taken hti)

theorem rasterItems_eq (s : Structure) (wh wl hh hl hs vs : Word) :
    rasterItems s [wh, wl, hh, hl, hs, vs] =
      if pairFormed wh wl && pairFormed hh hl && oneOf 4 hs && oneOf 4 vs then
        some
          ({ width := pairOf takenWidth wh wl
             height := pairOf (takenHeight s) hh hl
             hset := itemOf (Fin.ofNat 4) hs
             vset := itemOf (Fin.ofNat 4) vs },
           pairEntryOf 1 takenWidth wh wl ++ pairEntryOf 2 (takenHeight s) hh hl)
      else none := by
  simp only [rasterItems]
  split
  · next w h hs' vs' hw hh hhs hvs =>
    obtain ⟨okw, rfl⟩ := (pairTaken_eq_some _ _ _ _ _).1 hw
    obtain ⟨okh, rfl⟩ := (pairTaken_eq_some _ _ _ _ _).1 hh
    obtain ⟨okhs, rfl⟩ := (enumItem_eq_some _ _ _).1 hhs
    obtain ⟨okvs, rfl⟩ := (enumItem_eq_some _ _ _).1 hvs
    rw [okw, okh, okhs, okvs, itemOf_map, itemOf_map]
    rfl
  · next hno =>
    refine (if_neg fun h => ?_).symm
    simp only [Bool.and_eq_true] at h
    obtain ⟨⟨⟨hw, hh⟩, hhs⟩, hvs⟩ := h
    exact hno _ _ _ _ (pairTaken_taken hw) (pairTaken_taken hh) (enumItem_taken hhs) (enumItem_taken hvs)

theorem trimItems_eq (uh ul up lh ll lo : Word) :
    trimItems [uh, ul, up, lh, ll, lo] =
      if pairFormed uh ul && pairFormed lh ll then
        some
          ({ upperGain := pairOf (clampNat 896 1152) uh ul
             upperLift := itemOf (fun v => ((clampNat 480 543 v : Nat) : Int) - 512) up
             lowerGain := pairOf (clampNat 896 1152) lh ll
             lowerLift := itemOf (fun v => ((clampNat 480 543 v : Nat) : Int) - 512) lo },
           pairEntryOf 1 (clampNat 896 1152) uh ul ++ entryOf 2 (clampNat 480 543) up ++
             pairEntryOf 3 (clampNat 896 1152) lh ll ++ entryOf 4 (clampNat 480 543) lo)
      else none := by
  simp only [trimItems, liftItem_eq]
  split
  · next ug lg hu hl =>
    obtain ⟨oku, rfl⟩ := (pairTaken_eq_some _ _ _ _ _).1 hu
    obtain ⟨okl, rfl⟩ := (pairTaken_eq_some _ _ _ _ _).1 hl
    rw [oku, okl]
    rfl
  · next hno =>
    refine (if_neg fun h => ?_).symm
    simp only [Bool.and_eq_true] at h
    obtain ⟨hu, hl⟩ := h
    exact hno _ _ (pairTaken_taken hu) (pairTaken_taken hl)

theorem motionItems_eq (fl ga di : Word) :
    motionItems [fl, ga, di] =
      if oneOf 2 di then
        some
          ({ floor := itemOf (clampNat 0 255) fl
             gain := itemOf (clampNat 1 64) ga
             dirSearch := itemOf (fun v => v == 1) di },
           entryOf 1 (clampNat 0 255) fl ++ entryOf 2 (clampNat 1 64) ga)
      else none := by
  simp only [motionItems, numItem_eq]
  split
  · next d hd =>
    obtain ⟨okd, rfl⟩ := (enumItem_eq_some _ _ _).1 hd
    rw [okd, itemOf_map]
    rfl
  · next hno =>
    refine (if_neg fun h => ?_).symm
    rw [enumItem_taken h] at hno
    cases hno

theorem cadenceItems_eq (lc bh rh rl ch cl m0 m1 m2 m3 : Word) :
    cadenceItems [lc, bh, rh, rl, ch, cl, m0, m1, m2, m3] =
      if pairFormed rh rl && pairFormed ch cl && maskFormed m0 m1 m2 m3 then
        some
          ({ lockCount := itemOf (clampNat 2 15) lc
             breakHold := itemOf (clampNat 0 15) bh
             repeatLimit := pairOf (clampNat 0 16383) rh rl
             minContrast := pairOf (clampNat 0 16383) ch cl
             mask := itemOf (fun _ => ⟨m0 == 1, m1 == 1, m2 == 1, m3 == 1⟩) m0 },
           entryOf 1 (clampNat 2 15) lc ++ entryOf 2 (clampNat 0 15) bh ++
             pairEntryOf 3 (clampNat 0 16383) rh rl ++ pairEntryOf 4 (clampNat 0 16383) ch cl)
      else none := by
  simp only [cadenceItems, numItem_eq]
  split
  · next r c m hr hc hm =>
    obtain ⟨okr, rfl⟩ := (pairTaken_eq_some _ _ _ _ _).1 hr
    obtain ⟨okc, rfl⟩ := (pairTaken_eq_some _ _ _ _ _).1 hc
    obtain ⟨okm, rfl⟩ := (maskItem_eq_some _ _ _ _ _).1 hm
    rw [okr, okc, okm]
    rfl
  · next hno =>
    refine (if_neg fun h => ?_).symm
    simp only [Bool.and_eq_true] at h
    obtain ⟨⟨hr, hc⟩, hm⟩ := h
    exact hno _ _ _ (pairTaken_taken hr) (pairTaken_taken hc) (maskItem_taken hm)

theorem plainItem_inside {lo hi : Nat} {w : Word} (h : lo ≤ w.toNat ∧ w.toNat ≤ hi) :
    plainItem lo hi w = some w.toNat := if_pos h

theorem plainItem_eq_some (lo hi : Nat) (w : Word) (x : Nat) :
    plainItem lo hi w = some x ↔ (lo ≤ w.toNat ∧ w.toNat ≤ hi) ∧ x = w.toNat := by
  unfold plainItem
  rw [Option.ite_none_right_eq_some, Option.some.injEq, @eq_comm _ x]

theorem plainItem_outside {lo hi : Nat} {w : Word} (h : ¬(lo ≤ w.toNat ∧ w.toNat ≤ hi)) :
    plainItem lo hi w = none := if_neg h

/-- The step of a FILM force has no KEEP: every word above 7 is 7 (log entry 20). -/
theorem takenValue_step (st : Word) :
    takenValue 3 (min 7 st.toNat) st.toNat = ⟨some (min 7 st.toNat), if 7 < st.toNat then [(3, 7)] else []⟩ := by
  unfold takenValue
  by_cases h : 7 < st.toNat
  · rw [if_pos h, Nat.min_eq_left h.le, if_neg (by omega)]
  · rw [if_neg h, Nat.min_eq_right (Nat.not_lt.1 h), if_pos rfl]

theorem forceItems_release (t : CadenceTable) (p st : Word) :
    forceItems t [0, p, st] = some ({ force := some .release }, []) := rfl

theorem forceItems_video (t : CadenceTable) (p st : Word) :
    forceItems t [1, p, st] = some ({ force := some .video }, []) := rfl

theorem forceItems_film (t : CadenceTable) (p st : Word) :
    forceItems t [2, p, st] =
      if p.toNat ≤ 3 ∧ t.usable.get (Fin.ofNat 4 p.toNat) = true then
        some ({ force := some (.film (Fin.ofNat 4 p.toNat) (min 7 st.toNat)) }, if 7 < st.toNat then [(3, 7)] else [])
      else none := by
  have hfilm : plainItem 0 2 2 = some 2 := rfl
  simp only [forceItems, hfilm]
  by_cases hp : p.toNat ≤ 3
  · rw [plainItem_inside ⟨Nat.zero_le _, hp⟩]
    simp only [takenValue_step, hp, true_and]
    rfl
  · rw [plainItem_outside (fun h => hp h.2), if_neg (fun h => hp h.1)]

theorem forceItems_other (t : CadenceTable) (f p st : Word) (h : 2 < f.toNat) : forceItems t [f, p, st] = none := by
  have hout : plainItem 0 2 f = none := plainItem_outside (by omega)
  simp only [forceItems, hout]

theorem forceItems_eq (t : CadenceTable) (f p st : Word) :
    forceItems t [f, p, st] =
      if f = 0 then some ({ force := some .release }, [])
      else if f = 1 then some ({ force := some .video }, [])
      else if f = 2 ∧ p.toNat ≤ 3 ∧ t.usable.get (Fin.ofNat 4 p.toNat) = true then
        some ({ force := some (.film (Fin.ofNat 4 p.toNat) (min 7 st.toNat)) }, if 7 < st.toNat then [(3, 7)] else [])
      else none := by
  by_cases h0 : f = 0
  · subst h0
    exact forceItems_release t p st
  · by_cases h1 : f = 1
    · subst h1
      exact forceItems_video t p st
    · rw [if_neg h0, if_neg h1]
      by_cases h2 : f = 2
      · subst h2
        simp only [forceItems_film, true_and]
      · rw [if_neg (fun h => h2 h.1)]
        exact forceItems_other t f p st (by bv_omega)

/-- The limit that a WATCH_SET names: 1 or 2. -/
theorem plainItem_limit_taken {li : Word} (h : (li == 1 || li == 2) = true) : plainItem 1 2 li = some li.toNat := by
  simp only [Bool.or_eq_true, beq_iff_eq] at h
  rcases h with rfl | rfl <;> rfl

theorem plainItem_limit (li : Word) (k : Nat) (h : plainItem 1 2 li = some k) :
    (li == 1 || li == 2) = true ∧ (k = 1 ↔ li = 1) := by
  obtain ⟨hin, rfl⟩ := (plainItem_eq_some _ _ _ _).1 h
  simp only [Bool.or_eq_true, beq_iff_eq]
  constructor <;> bv_omega

theorem watchItems_eq (li en me di ac vh vl : Word) :
    watchItems [li, en, me, di, ac, vh, vl] =
      if (li == 1 || li == 2) && oneOf 2 en && oneOf 3 me && oneOf 2 di && oneOf 2 ac && pairFormed vh vl then
        let items : WatchItems :=
          { enabled := itemOf (fun v => v == 1) en
            measure := itemOf (fun v => if v = 0 then .lostLines else if v = 1 then .concealedLines else .motion) me
            direction := itemOf (fun v => if v = 0 then .above else .below) di
            action := itemOf (fun v => if v = 0 then .note else .poor) ac
            value := pairOf (clampNat 0 16383) vh vl }
        some (if li = 1 then { watch1 := items } else { watch2 := items }, pairEntryOf 6 (clampNat 0 16383) vh vl)
      else none := by
  simp only [watchItems]
  split
  · next k e m d a v hk he hm hd ha hv =>
    obtain ⟨okk, hone⟩ := plainItem_limit li k hk
    obtain ⟨oke, rfl⟩ := (enumItem_eq_some _ _ _).1 he
    obtain ⟨okm, rfl⟩ := (enumItem_eq_some _ _ _).1 hm
    obtain ⟨okd, rfl⟩ := (enumItem_eq_some _ _ _).1 hd
    obtain ⟨oka, rfl⟩ := (enumItem_eq_some _ _ _).1 ha
    obtain ⟨okv, rfl⟩ := (pairTaken_eq_some _ _ _ _ _).1 hv
    rw [okk, oke, okm, okd, oka, okv, itemOf_map, itemOf_map, itemOf_map, itemOf_map]
    simp only [hone]
    rfl
  · next hno =>
    refine (if_neg fun h => ?_).symm
    simp only [Bool.and_eq_true] at h
    obtain ⟨⟨⟨⟨⟨hk, he⟩, hm⟩, hd⟩, ha⟩, hv⟩ := h
    exact hno _ _ _ _ _ _ (plainItem_limit_taken hk) (enumItem_taken he) (enumItem_taken hm) (enumItem_taken hd)
      (enumItem_taken ha) (pairTaken_taken hv)

/-- Settles O51: each payload by whether its words are in their lists and well formed, each item by what its words give. -/
theorem itemsOfSettingsCues : Obligations.ItemsOfSettingsCues :=
  ⟨feedConfigItems_eq, rasterItems_eq, trimItems_eq, motionItems_eq, cadenceItems_eq, forceItems_eq, watchItems_eq⟩

end Sys2Proof.Machine
end

section
namespace Sys2Proof.Machine

/-! ## Settings cues, staged or applied (R165, R167, R170) -/

theorem Answer.settings_eq (adj : List (Nat × Nat)) :
    Answer.settings adj = ⟨if adj = [] then .done else .doneAdjusted, none, adj⟩ := by
  cases adj <;> rfl

/-- A command with settings items is a settings cue, of its kind's length (Table 9-3). -/
theorem settingsItems_kind {i : Instr} {n m : Feed} {code : Word} {c : CueWords} {s : State}
    {x : Pending × List (Nat × Nat)} (h : cueParts i = some (n, code, c)) (hx : settingsItems i s m = some x) :
    (∀ k d e, i ≠ .unknownCueKind k d e) ∧ code.toNat ≤ 7 ∧ cueLengthOk code c.payload.length = true := by
  cases i with
  | feedConfig a e | rasterSet a e | trimSet a e | motionSet a e | cadenceSet a e | cadenceForce a e | watchSet a e =>
    simp only [cueParts, Option.some.injEq, Prod.mk.injEq] at h
    obtain ⟨rfl, rfl, rfl⟩ := h
    simp only [settingsItems, feedConfigItems.eq_def, rasterItems.eq_def, trimItems.eq_def, motionItems.eq_def,
      cadenceItems.eq_def, forceItems.eq_def, watchItems.eq_def] at hx
    split at hx
    · next hpayload => exact ⟨nofun, by decide, by rw [hpayload]; rfl⟩
    · cases hx
  | _ => cases hx

/-- A settings cue that passes its tests: the items staged or applied, and the result by whether any was adjusted. -/
theorem exec_settings {i : Instr} {n m : Feed} {code : Word} {c : CueWords} {s : State} {p : Pending}
    {adj : List (Nat × Nat)} (h : cueParts i = some (n, code, c)) (ha : s.admits n code c (.feed m))
    (hx : settingsItems i s m = some (p, adj)) :
    exec i s =
      .next ((s.stageOrApply m p).answer n code c ⟨if adj = [] then .done else .doneAdjusted, none, adj⟩) := by
  obtain ⟨hkind, hcode, hlen⟩ := settingsItems_kind h hx
  have hrule : cueScopeRule code = .feedOnly := if_pos (by omega)
  rw [exec_answered i n code c s (.feed m) hkind h ha (by rw [hrule]; rfl) hlen,
    cueRun_settings i n m code c s hkind h hcode, hx, ← Answer.settings_eq]

theorem laterWins_eq_or {α : Type} (new old : Option α) : laterWins new old = new.or old := by cases new <;> rfl

/-- Settles O50: the cue's result by exec_settings, the staging by the feed's state; then the record item by item. -/
theorem settingsCues : Obligations.SettingsCues := by
  refine ⟨fun i n m code c s p adj h ha hx => ?_, fun p o => ?_⟩
  · intro a
    rw [exec_settings h ha hx]
    refine ⟨fun hrun => ?_, fun hidle => ?_⟩
    · rw [State.stageOrApply, if_pos ((isRunning_iff s m).2 hrun)]
    · rw [State.stageOrApply, if_neg (fun hrun => hidle ((isRunning_iff s m).1 hrun))]
  · simp only [Pending.merge, WatchItems.merge, laterWins_eq_or]

/-! ## A DEVICE_RESTART (R174) -/

/-- From another link than 0, only a scope of its own feed may be named (R166). -/
theorem linkMayName_iff (n : Feed) (sc : Scope) : linkMayName n sc = true ↔ n = 0 ∨ sc = .feed n := by
  cases sc with
  | feed m => simp [linkMayName]
  | device => simp [linkMayName]

/-- A device cue comes by link 0 alone (R166). -/
theorem admits_device {s : State} {n : Feed} {code : Word} {c : CueWords} (h : s.admits n code c .device) : n = 0 := by
  obtain ⟨-, -, -, hlink⟩ := h
  exact ((linkMayName_iff n .device).1 hlink).resolve_right nofun

theorem exec_deviceRestart (n : Feed) (c : CueWords) (d : Straps) (s : State) (ha : s.admits n 0x010 c .device)
    (hp : c.payload = []) :
    exec (.deviceRestart n c d) s = .next ((s.deviceRestarts d).answer n 0x010 c ⟨.done, none, []⟩) :=
  exec_answered (.deviceRestart n c d) n 0x010 c s .device nofun rfl ha rfl (by rw [hp]; rfl)

/-- The result of a device restart finds its queue empty, and the counters at 0 (R174). -/
theorem deviceRestarts_answer (s : State) (d : Straps) (n : Feed) (c : CueWords) :
    (s.deviceRestarts d).answer n 0x010 c ⟨.done, none, []⟩ =
      (s.deviceRestarts d).withResult n (resultOf 0x010 c ⟨.done, none, []⟩) := by
  refine answer_withResult _ n _ c _ ?_
  unfold State.hasRoom
  rw [deviceRestarts_otx]
  exact Nat.zero_lt_succ 7

/-- Settles O55: power-on values but for what the restart keeps, then the one result of its cue. -/
theorem deviceRestarts : Obligations.DeviceRestarts := by
  intro n c d s ha hp
  obtain rfl := admits_device ha
  refine ⟨_, exec_deviceRestart 0 c d s ha hp, rfl, ?_⟩
  rw [deviceRestarts_answer]
  refine ⟨rfl, rfl, rfl, rfl, rfl, rfl, rfl, rfl, fun k => ?_⟩
  by_cases hk : k = 0
  · subst hk
    rfl
  · rw [if_neg hk]
    show ((s.deviceRestarts d).otx.set 0 _).get k = _
    rw [Quad_get_set_other _ _ _ _ hk, deviceRestarts_otx]
    rfl

end Sys2Proof.Machine
end

section
namespace Sys2Proof.Machine

/-! ## The items of NOTICE_SET and REPORT_SET (Table 9-3, R165 test 7, R168) -/

theorem itemOf_getD {α : Type} (f : Nat → α) (w : Word) (x : α) :
    (itemOf f w).getD x = if w = keepWord then x else f w.toNat := by
  unfold itemOf
  split <;> rfl

theorem clampNat_zero (hi v : Nat) : clampNat 0 hi v = min hi v := Nat.zero_max _

/-- The entry of an item that has an upper limit alone: the limit, where the word is above it. -/
theorem entryOf_limit (no hi : Nat) (w : Word) :
    entryOf no (clampNat 0 hi) w = if w ≠ keepWord ∧ hi < w.toNat then [(no, hi)] else [] := by
  unfold entryOf
  rw [clampNat_zero]
  by_cases hkeep : w = keepWord
  · rw [if_pos (Or.inl hkeep), if_neg (fun h => h.1 hkeep)]
  · by_cases hbig : hi < w.toNat
    · rw [Nat.min_eq_left hbig.le, if_neg (fun h => h.elim hkeep hbig.ne), if_pos ⟨hkeep, hbig⟩]
    · rw [Nat.min_eq_right (Nat.not_lt.1 hbig), if_pos (Or.inr rfl), if_neg (fun h => hbig h.2)]

/-- The result of a cue whose one adjusted item has an upper limit alone. -/
theorem Answer.settings_limit (no hi : Nat) (w : Word) :
    Answer.settings (entryOf no (clampNat 0 hi) w) =
      if w ≠ keepWord ∧ hi < w.toNat then ⟨.doneAdjusted, none, [(no, hi)]⟩ else ⟨.done, none, []⟩ := by
  rw [entryOf_limit]
  split <;> rfl

theorem noticeItems_eq (k l m : Word) :
    noticeItems [k, l, m] =
      if 1 ≤ k.toNat ∧ k.toNat ≤ 24 ∧ oneOf 2 m = true then
        some (k.toNat, itemOf (clampNat 0 3) l, itemOf (fun v => v == 1) m, entryOf 2 (clampNat 0 3) l)
      else none := by
  simp only [noticeItems, numItem_eq]
  split
  · next v x hk hm =>
    obtain ⟨okm, rfl⟩ := (enumItem_eq_some _ _ _).1 hm
    obtain ⟨okk, rfl⟩ := (plainItem_eq_some _ _ _ _).1 hk
    rw [if_pos ⟨okk.1, okk.2, okm⟩, itemOf_map]
    rfl
  · next hno =>
    refine (if_neg fun h => ?_).symm
    obtain ⟨hlo, hhi, hm⟩ := h
    exact hno _ _ (plainItem_inside ⟨hlo, hhi⟩) (enumItem_taken hm)

theorem reportItems_eq (p a b c d : Word) :
    reportItems [p, a, b, c, d] =
      if maskFormed a b c d then
        some (itemOf (clampNat 0 16) p, itemOf (fun _ => ⟨a == 1, b == 1, c == 1, d == 1⟩) a, entryOf 1 (clampNat 0 16) p)
      else none := by
  simp only [reportItems, numItem_eq]
  split
  · next m hm =>
    obtain ⟨okm, rfl⟩ := (maskItem_eq_some _ _ _ _ _).1 hm
    rw [okm]
    rfl
  · next hno =>
    refine (if_neg fun h => ?_).symm
    rw [maskItem_taken h] at hno
    cases hno

/-- A well-formed mask is KEEP where its first word is. -/
theorem maskFormed_keep {a b c d : Word} (h : maskFormed a b c d = true) :
    a = keepWord ↔ a = keepWord ∧ b = keepWord ∧ c = keepWord ∧ d = keepWord := by
  refine ⟨fun ha => ?_, fun hall => hall.1⟩
  subst ha
  simp only [maskFormed, Bool.or_eq_true, Bool.and_eq_true, beq_iff_eq, decide_eq_true_eq] at h
  rcases h with ⟨⟨⟨-, hb⟩, hc⟩, hd⟩ | ⟨⟨⟨ha, -⟩, -⟩, -⟩
  · exact ⟨rfl, hb, hc, hd⟩
  · exact absurd ha (by decide)

/-! ## NOTICE_SET and REPORT_SET (R172, R188, R194) -/

/-- Setting a kind's level and mask leaves every other kind's (R188). -/
theorem setNotice_getD (s : State) (k : Nat) (level : Option Nat) (masked : Option Bool) (j : Nat)
    (hk : 1 ≤ k ∧ k ≤ s.ntu.settings.length) :
    (s.setNotice k level masked).ntu.settings.getD j ⟨0, false⟩ =
      if j + 1 = k then
        ⟨level.getD (s.ntu.settings.getD j ⟨0, false⟩).level, masked.getD (s.ntu.settings.getD j ⟨0, false⟩).masked⟩
      else s.ntu.settings.getD j ⟨0, false⟩ := by
  obtain ⟨hlo, hhi⟩ := hk
  show (s.ntu.settings.set (k - 1) _).getD j _ = _
  rw [List.getD_eq_getElem?_getD, List.getElem?_set]
  by_cases hj : j + 1 = k
  · obtain rfl : j = k - 1 := by omega
    have hin : k - 1 < s.ntu.settings.length := by omega
    rw [if_pos rfl, if_pos hin, if_pos hj]
    rfl
  · rw [if_neg (by omega), if_neg hj, List.getD_eq_getElem?_getD]

theorem exec_noticeSet {n : Feed} {c : CueWords} {s : State} {k l m : Word} (ha : s.admits n 0x00C c .device)
    (hp : c.payload = [k, l, m]) (hk : 1 ≤ k.toNat ∧ k.toNat ≤ 24) (hm : oneOf 2 m = true) :
    exec (.noticeSet n c) s =
      .next ((s.setNotice k.toNat (itemOf (clampNat 0 3) l) (itemOf (fun v => v == 1) m)).answer n 0x00C c
        (Answer.settings (entryOf 2 (clampNat 0 3) l))) := by
  have hrun : cueRun (.noticeSet n c) .device s =
      (Answer.settings (entryOf 2 (clampNat 0 3) l),
        s.setNotice k.toNat (itemOf (clampNat 0 3) l) (itemOf (fun v => v == 1) m)) := by
    show State.carryNoticeSet c.payload .device s = _
    unfold State.carryNoticeSet
    rw [hp, noticeItems_eq, if_pos ⟨hk.1, hk.2, hm⟩]
  rw [exec_answered (.noticeSet n c) n 0x00C c s .device nofun rfl ha rfl (by rw [hp]; rfl), hrun]

theorem exec_reportSet {n : Feed} {c : CueWords} {s : State} {p w0 w1 w2 w3 : Word} (ha : s.admits n 0x00D c .device)
    (hp : c.payload = [p, w0, w1, w2, w3]) (hm : maskFormed w0 w1 w2 w3 = true) :
    exec (.reportSet n c) s =
      .next ((s.setReport (itemOf (clampNat 0 16) p) (itemOf (fun _ => ⟨w0 == 1, w1 == 1, w2 == 1, w3 == 1⟩) w0)).answer n
        0x00D c (Answer.settings (entryOf 1 (clampNat 0 16) p))) := by
  have hrun : cueRun (.reportSet n c) .device s =
      (Answer.settings (entryOf 1 (clampNat 0 16) p),
        s.setReport (itemOf (clampNat 0 16) p) (itemOf (fun _ => ⟨w0 == 1, w1 == 1, w2 == 1, w3 == 1⟩) w0)) := by
    show State.carryReportSet c.payload .device s = _
    unfold State.carryReportSet
    rw [hp, reportItems_eq, if_pos hm]
  rw [exec_answered (.reportSet n c) n 0x00D c s .device nofun rfl ha rfl (by rw [hp]; rfl), hrun]

/-- Settles O59: each cue by the items its words give; a KEEP leaves its item, a value above the limit is the limit. -/
theorem noticeUnitCues : Obligations.NoticeUnitCues := by
  refine ⟨fun n c s k l m ha hp hlen hlo hhi hm => ?_, fun n c s p w0 w1 w2 w3 ha hp hm => ?_⟩
  · have hmask : oneOf 2 m = true := by
      simp only [oneOf, Bool.or_eq_true, beq_iff_eq, decide_eq_true_eq]
      exact hm.symm.imp_right Nat.lt_succ_of_le
    refine ⟨s.setNotice k.toNat (itemOf (clampNat 0 3) l) (itemOf (fun v => v == 1) m),
      (exec_noticeSet ha hp ⟨hlo, hhi⟩ hmask).trans ?_, rfl, fun j _ => ?_⟩
    · rw [Answer.settings_limit]
      simp only [and_comm]
    · rw [setNotice_getD s _ _ _ j ⟨hlo, by rw [hlen]; exact hhi⟩, itemOf_getD, itemOf_getD, clampNat_zero]
  · intro keepScan
    rw [exec_reportSet ha hp hm, Answer.settings_limit, State.setReport, itemOf_getD, itemOf_getD, clampNat_zero,
      if_congr (maskFormed_keep hm) rfl rfl]
    simp only [toNat_beq_one]
    rfl

end Sys2Proof.Machine
end

section
namespace Sys2Proof.Machine

/-! ## A step with a command at the front of the queue -/

/-- Settles O1: by what a step does with a queue that is not empty. -/
theorem stepTakesFrontCommand : Obligations.StepTakesFrontCommand := by
  intro c q s h
  unfold step
  rw [h]

/-! ## A field start that applies items without a disable or a structure change (R6, R171) -/

/-- The parity check of a field start in RUNNING, and the field that opens after it (R3, R6). -/
theorem checkParity_openField (s : State) (n : Feed) (p : Parity) :
    (s.checkParity n p).openField n p (p != (s.lrx.get n).expected) =
      if p = (s.lrx.get n).expected then s.openField n p false
      else ((s.raise .parityRepeat (.feed n) (.sequence (s.lrx.get n).counter)).count n .parityRepeats 1).openField n p
        true := by
  unfold State.checkParity
  by_cases hparity : p = (s.lrx.get n).expected
  · have hsame : (p != (s.lrx.get n).expected) = false := by simp [hparity]
    rw [if_pos hparity, if_pos hparity, hsame]
  · have hother : (p != (s.lrx.get n).expected) = true := by simp [hparity]
    rw [if_neg hparity, if_neg hparity, hother]

theorem startWithItems_plain (s : State) (n : Feed) (p : Parity) (items : Pending) (h : items.enable ≠ some false)
    (hc : items.changesStructure (s.settings n) = false) :
    s.startWithItems n p items =
      let u := s.applied n items (some (s.lrx.get n).counter)
      (u.checkParity n p).openField n p (p != (u.lrx.get n).expected) := by
  unfold State.startWithItems
  simp only [h, if_false, hc, Bool.false_eq_true]

/-- A structure item that is absent or the active structure changes nothing (R15). -/
theorem changesStructure_false (p : Pending) (a : Settings) (h : p.struct = none ∨ p.struct = some a.struct) :
    p.changesStructure a = false := by
  rw [Bool.eq_false_iff]
  intro hc
  obtain ⟨st, hst, hne⟩ := (changesStructure_iff p a).1 hc
  rcases h with h | h
  · rw [h] at hst
    cases hst
  · exact hne (Option.some.inj (hst.symm.trans h))

/-- Settles O14: the items become active, then the parity check, then the field opens. -/
theorem fieldStartAppliesItems : Obligations.FieldStartAppliesItems := by
  intro n p us s items hs hrun hitems hsome hon hst q ended a
  have hq : ended.lrx.get n = s.lrx.get n := closeArriving_lrx (s.upset us) n
  have hold : (ended.settings n).struct = (s.settings n).struct := closeArriving_struct (s.upset us) n
  have hkeepStruct : items.changesStructure (ended.settings n) = false :=
    changesStructure_false _ _ (by rw [hold]; exact hst)
  obtain ⟨hsettings, hstaged, hlrx, hfst, hfen, hotx, htld, htable⟩ := applied_spec ended n items (some q)
  refine ⟨ended.applied n items (some q), rfl, ?_, hsettings, hstaged, hlrx, hfst, hfen, hotx, htld, htable⟩
  have hrx : (ended.applied n items (some q)).lrx.get n = s.lrx.get n := by rw [hlrx, hq]
  have hstart : (s.upset us).startRunning n p = ended.startWithItems n p items := by
    rw [startRunning_items (s.upset us) n p (by rw [upset_cue, hitems]; exact hsome), upset_cue, hitems]
  rw [exec_fieldStart_handedOn n p us s hs, receiverFieldStart_running (s.upset us) n p hrun, hstart,
    startWithItems_plain ended n p items hon hkeepStruct, hq]
  dsimp only
  rw [checkParity_openField, hrx]

end Sys2Proof.Machine
end

section
namespace Sys2Proof.Machine

/-! ## Tests 1 to 3: the address, the check word, the kind (R164, R165) -/

theorem unlessHeld_self (s : State) : unlessHeld s s = .next s := by
  unfold unlessHeld
  split <;> rfl

theorem takeUnknownCue_notAddressed (s : State) (n : Feed) (code : Word) (c : CueWords)
    (h : s.isAddressed c.device = false) : s.takeUnknownCue n code c = s := by
  unfold State.takeUnknownCue
  simp [h]

theorem takeUnknownCue_badCheck (s : State) (n : Feed) (code : Word) (c : CueWords) (h : s.isAddressed c.device = true)
    (hc : ¬cueChecks c code) : s.takeUnknownCue n code c = s.discardCue n (.tag c.tag) := by
  unfold State.takeUnknownCue
  simp [h, Bool.eq_false_iff.2 hc]

theorem takeUnknownCue_refused (s : State) (n : Feed) (code : Word) (c : CueWords) (h : s.isAddressed c.device = true)
    (hc : cueChecks c code) : s.takeUnknownCue n code c = s.answer n code c ⟨.refusedKind, none, []⟩ := by
  unfold State.takeUnknownCue
  simp only [h, hc, Bool.not_true, Bool.false_eq_true, if_false]
  rfl

/-- A cue that does not name the part, nor every part, changes nothing (R164). -/
theorem exec_notAddressed {i : Instr} {n : Feed} {code : Word} {c : CueWords} {s : State}
    (h : cueParts i = some (n, code, c)) (hno : s.isAddressed c.device = false) : exec i s = .next s := by
  by_cases hu : ∃ m k e, i = .unknownCueKind m k e
  · obtain ⟨m, k, e, rfl⟩ := hu
    obtain ⟨rfl, rfl, rfl⟩ : m = n ∧ k = code ∧ e = c := by simpa [cueParts] using h
    show unlessHeld s (if isCueKind k then s else s.takeUnknownCue m k e) = _
    rw [takeUnknownCue_notAddressed s m k e hno, ite_self, unlessHeld_self]
  · simp only [not_exists] at hu
    rw [exec_cue i n code c s hu h, takeCue_notAddressed s n code c _ _ _ hno, unlessHeld_self]

/-- A command that can arrive and names no cue kind carries a code that names none (Table 9-3). -/
theorem isCueKind_of_wellFormed {n : Feed} {code : Word} {c : CueWords} (h : (Instr.unknownCueKind n code c).wellFormed = true) :
    isCueKind code = false := by
  simp only [Instr.wellFormed, Bool.and_eq_true, Bool.not_eq_true'] at h
  exact h.2

/-- A cue of the part with a wrong check word is discarded (R165 test 1). -/
theorem exec_badCheck {i : Instr} {n : Feed} {code : Word} {c : CueWords} {s : State}
    (h : cueParts i = some (n, code, c)) (hw : i.wellFormed = true) (ht : s.takes c) (hc : ¬cueChecks c code) :
    exec i s = .next (s.discardCue n (.tag c.tag)) := by
  obtain ⟨hheld, haddressed⟩ := ht
  by_cases hu : ∃ m k e, i = .unknownCueKind m k e
  · obtain ⟨m, k, e, rfl⟩ := hu
    obtain ⟨rfl, rfl, rfl⟩ : m = n ∧ k = code ∧ e = c := by simpa [cueParts] using h
    rw [exec_unknownCueKind m k e s hheld (isCueKind_of_wellFormed hw), takeUnknownCue_badCheck s m k e haddressed hc]
  · simp only [not_exists] at hu
    rw [exec_cue i n code c s hu h, unlessHeld_released s _ hheld,
      takeCue_badCheck s n code c _ _ _ haddressed (Bool.eq_false_iff.2 hc)]

/-! ## Tests 4 and 5: the length and the scope (R165, R166) -/

/-- Test 5 fails where the scope word names no scope, the kind does not allow it, or the link may not name it. -/
theorem checkedScope_none {n : Feed} {rule : ScopeRule} {w : Word}
    (h : scopeOfWord w = none ∨ ∃ sc, scopeOfWord w = some sc ∧ (rule.allows sc = false ∨ (n ≠ 0 ∧ sc ≠ .feed n))) :
    checkedScope n rule w = none := by
  unfold checkedScope
  rcases h with hw | ⟨sc, hw, hno⟩
  · rw [hw]
  · rw [hw]
    refine if_neg fun hboth => ?_
    rw [Bool.and_eq_true, linkMayName_iff] at hboth
    obtain ⟨hrule, hlink⟩ := hboth
    rcases hno with hno | ⟨hn, hsc⟩
    · rw [hno] at hrule
      cases hrule
    · exact hlink.elim hn hsc

/-! ## Test 6: a value outside its list (R161, R165, R168) -/

theorem ite_not_taken {α : Type} {b : Bool} {x : Option α} (h : (!b) = true) : (if b then x else none) = none := by
  cases b with
  | false => rfl
  | true => cases h

theorem feedConfigItems_refused {t : CadenceTable} {ws : List Word} (h : valueRefused t 0x001 ws = true) :
    feedConfigItems ws = none := by
  unfold feedConfigItems
  split
  · next e st cl ti ho => exact (feedConfigItems_eq e st cl ti ho).trans (ite_not_taken h)
  · rfl

theorem rasterItems_refused {t : CadenceTable} {st : Structure} {ws : List Word} (h : valueRefused t 0x002 ws = true) :
    rasterItems st ws = none := by
  unfold rasterItems
  split
  · next wh wl hh hl hs vs => exact (rasterItems_eq st wh wl hh hl hs vs).trans (ite_not_taken h)
  · rfl

theorem trimItems_refused {t : CadenceTable} {ws : List Word} (h : valueRefused t 0x003 ws = true) :
    trimItems ws = none := by
  unfold trimItems
  split
  · next uh ul up lh ll lo => exact (trimItems_eq uh ul up lh ll lo).trans (ite_not_taken h)
  · rfl

theorem motionItems_refused {t : CadenceTable} {ws : List Word} (h : valueRefused t 0x004 ws = true) :
    motionItems ws = none := by
  unfold motionItems
  split
  · next fl ga di => exact (motionItems_eq fl ga di).trans (ite_not_taken h)
  · rfl

theorem cadenceItems_refused {t : CadenceTable} {ws : List Word} (h : valueRefused t 0x005 ws = true) :
    cadenceItems ws = none := by
  unfold cadenceItems
  split
  · next lc bh rh rl ch cl m0 m1 m2 m3 => exact (cadenceItems_eq lc bh rh rl ch cl m0 m1 m2 m3).trans (ite_not_taken h)
  · rfl

/-- A FILM force needs a usable program; a force word above 2 names no force (R168). -/
theorem forceItems_refused {t : CadenceTable} {ws : List Word} (h : valueRefused t 0x006 ws = true) :
    forceItems t ws = none := by
  unfold forceItems
  split
  · next f p st =>
    have hout : (!(decide (f.toNat ≤ 1) || (f == 2 && decide (p.toNat ≤ 3) && t.usable.get (Fin.ofNat 4 p.toNat)))) = true := h
    simp only [Bool.not_eq_true', Bool.or_eq_false_iff, decide_eq_false_iff_not] at hout
    obtain ⟨hbig, hfilm⟩ := hout
    refine (forceItems_eq t f p st).trans ?_
    rw [if_neg (by rintro rfl; exact hbig (by decide)), if_neg (by rintro rfl; exact hbig (by decide)), if_neg]
    rintro ⟨rfl, hp, husable⟩
    rw [husable, decide_eq_true hp] at hfilm
    exact absurd hfilm (by decide)
  · rfl

theorem watchItems_refused {t : CadenceTable} {ws : List Word} (h : valueRefused t 0x007 ws = true) :
    watchItems ws = none := by
  unfold watchItems
  split
  · next li en me di ac vh vl => exact (watchItems_eq li en me di ac vh vl).trans (ite_not_taken h)
  · rfl

/-- A count that is taken is well formed, and not KEEP (R161). -/
theorem pairItem_value {h l : Word} {v : Nat} (hv : pairItem h l = some (some v)) : h.toNat ≤ 255 ∧ l.toNat ≤ 255 := by
  unfold pairItem at hv
  split at hv
  · cases hv
  · split at hv
    · cases hv
    · omega

theorem openItems_refused {t : CadenceTable} {ws : List Word} (h : valueRefused t 0x009 ws = true) :
    openItems ws = none := by
  unfold openItems
  split
  · next k hi lo =>
    have hout : (decide (8 < k.toNat) || decide (255 < hi.toNat) || decide (255 < lo.toNat)) = true := h
    simp only [Bool.or_eq_true, decide_eq_true_eq] at hout
    split
    · next v count hk hcount =>
      obtain ⟨⟨-, hk⟩, -⟩ := (plainItem_eq_some _ _ _ _).1 hk
      have hwell := pairItem_value hcount
      omega
    · rfl
  · rfl

theorem partItems_refused {t : CadenceTable} {ws : List Word} (h : valueRefused t 0x00A ws = true) :
    partItems ws = none := by
  unfold partItems
  split
  · next i k ws =>
    have hout : 1 < k.toNat := of_decide_eq_true h
    rw [plainItem_outside (fun hin => Nat.not_lt.2 hin.2 hout), Option.map_none]
  · rfl

theorem noticeItems_refused {t : CadenceTable} {ws : List Word} (h : valueRefused t 0x00C ws = true) :
    noticeItems ws = none := by
  unfold noticeItems
  split
  · next k l m =>
    have hout : (decide (k.toNat < 1) || decide (24 < k.toNat) || !oneOf 2 m) = true := h
    simp only [Bool.or_eq_true, decide_eq_true_eq, Bool.not_eq_true', or_assoc] at hout
    refine (noticeItems_eq k l m).trans (if_neg fun hin => ?_)
    obtain ⟨hlo, hhi, hm⟩ := hin
    rw [hm] at hout
    rcases hout with hlow | hhigh | hmask
    · omega
    · omega
    · cases hmask
  · rfl

theorem reportItems_refused {t : CadenceTable} {ws : List Word} (h : valueRefused t 0x00D ws = true) :
    reportItems ws = none := by
  unfold reportItems
  split
  · next p a b c d => exact (reportItems_eq p a b c d).trans (ite_not_taken h)
  · rfl

theorem snapshotItems_refused {t : CadenceTable} {ws : List Word} (h : valueRefused t 0x00E ws = true) :
    snapshotItems ws = none := by
  unfold snapshotItems
  split
  · next w =>
    have hout : 1 < w.toNat := of_decide_eq_true h
    rw [plainItem_outside (fun hin => Nat.not_lt.2 hin.2 hout), Option.map_none]
  · rfl

theorem carrySettings_refused {items : Feed → State → Option (Pending × List (Nat × Nat))} {sc : Scope} {s : State}
    (hr : ScopeRule.feedOnly.allows sc = true) (h : ∀ m, items m s = none) :
    State.carrySettings items sc s = refusedBy .refusedValue s := by
  cases sc with
  | feed m =>
    unfold State.carrySettings
    simp only [h m]
  | device => cases hr

/-- A cue whose payload test 6 refuses carries nothing out. -/
theorem cueRun_refused {i : Instr} {n : Feed} {code : Word} {c : CueWords} {s : State} {sc : Scope}
    (hu : ∀ m k e, i ≠ .unknownCueKind m k e) (h : cueParts i = some (n, code, c))
    (hr : (cueScopeRule code).allows sc = true) (hlen : cueLengthOk code c.payload.length = true)
    (hv : valueRefused s.cad.table code c.payload = true) :
    cueRun i sc s = refusedBy .refusedValue s := by
  cases i with
  | unknownCueKind m k e => exact absurd rfl (hu m k e)
  | feedConfig a e => cases h; unfold cueRun; exact carrySettings_refused hr (fun _ => feedConfigItems_refused hv)
  | rasterSet a e => cases h; unfold cueRun; exact carrySettings_refused hr (fun _ => rasterItems_refused hv)
  | trimSet a e => cases h; unfold cueRun; exact carrySettings_refused hr (fun _ => trimItems_refused hv)
  | motionSet a e => cases h; unfold cueRun; exact carrySettings_refused hr (fun _ => motionItems_refused hv)
  | cadenceSet a e => cases h; unfold cueRun; exact carrySettings_refused hr (fun _ => cadenceItems_refused hv)
  | cadenceForce a e => cases h; unfold cueRun; exact carrySettings_refused hr (fun _ => forceItems_refused hv)
  | watchSet a e => cases h; unfold cueRun; exact carrySettings_refused hr (fun _ => watchItems_refused hv)
  | tableOpen a e => cases h; simp only [cueRun, State.carryTableOpen, openItems_refused hv]
  | tablePart a e => cases h; simp only [cueRun, State.carryTablePart, partItems_refused hv]
  | noticeSet a e => cases h; simp only [cueRun, State.carryNoticeSet, noticeItems_refused hv]
  | reportSet a e => cases h; simp only [cueRun, State.carryReportSet, reportItems_refused hv]
  | snapshot a e => cases h; simp only [cueRun, State.carrySnapshot, snapshotItems_refused hv]
  | feedRestart a e | tableAbandon a e | statusQuery a e | deviceRestart a e d =>
    cases h
    have hnone : c.payload = [] := List.length_eq_zero_iff.1 (eq_of_beq hlen)
    rw [hnone] at hv
    cases hv
  | _ => simp [cueParts] at h

/-- Settles O48: each test where the ones before it passed. -/
theorem cueTests : Obligations.CueTests := by
  refine ⟨fun i n code c s h => ⟨exec_notAddressed h, exec_badCheck h⟩, fun n code c s hcode ht hc => ?_,
    fun i n code c s hu h ht hc => ⟨fun hlen => ?_, fun hlen => ⟨fun hscope => ?_, fun sc hw hr hlink hv => ?_⟩⟩⟩
  · have hkind : isCueKind code = false := by
      unfold isCueKind
      rw [← Bool.decide_and, decide_eq_false_iff_not]
      omega
    rw [exec_unknownCueKind n code c s ht.1 hkind, takeUnknownCue_refused s n code c ht.2 hc]
  · rw [exec_cue i n code c s hu h, unlessHeld_released s _ ht.1, takeCue_badLength s n code c _ _ _ ht.2 hc hlen]
    rfl
  · rw [exec_cue i n code c s hu h, unlessHeld_released s _ ht.1,
      takeCue_badScope s n code c _ _ _ ht.2 hc hlen (checkedScope_none hscope)]
    rfl
  · rw [exec_answered i n code c s sc hu h ⟨ht, hc, hw, (linkMayName_iff n sc).2 hlink⟩ hr hlen,
      cueRun_refused hu h hr hlen hv]
    rfl

end Sys2Proof.Machine
end

-- ==== Sys2Proof/Proofs: table loading ====
section
/-! The statements about the table loader: what opening a load and taking a part do, and the checks of a complete table. -/

namespace Sys2Proof.Machine

/-! ## The table cues after tests 1 to 5 (R165, R172) -/

section
variable {n : Feed} {c : CueWords} {s u : State} {a : Answer}

/-- A TABLE_OPEN that passes tests 1 to 5: what it carries out, with its answer. -/
theorem exec_tableOpen (ha : s.admits n 0x009 c .device) (hlen : c.payload.length = 3)
    (hrun : State.carryTableOpen c.payload .device s = (a, u)) :
    exec (.tableOpen n c) s = .next (u.answer n 0x009 c a) := by
  have hcue : cueRun (.tableOpen n c) .device s = (a, u) := hrun
  rw [exec_answered (.tableOpen n c) n 0x009 c s .device nofun rfl ha rfl (by rw [hlen]; rfl), hcue]

/-- A TABLE_PART that passes tests 1 to 5: what it carries out, with its answer. -/
theorem exec_tablePart (ha : s.admits n 0x00A c .device) (hlen : 3 ≤ c.payload.length ∧ c.payload.length ≤ 240)
    (hrun : State.carryTablePart c.payload .device s = (a, u)) :
    exec (.tablePart n c) s = .next (u.answer n 0x00A c a) := by
  have hcue : cueRun (.tablePart n c) .device s = (a, u) := hrun
  have hallowed : cueLengthOk 0x00A c.payload.length = true := by
    show (decide (3 ≤ c.payload.length) && decide (c.payload.length ≤ 240)) = true
    rw [decide_eq_true hlen.1, decide_eq_true hlen.2]
    rfl
  rw [exec_answered (.tablePart n c) n 0x00A c s .device nofun rfl ha rfl hallowed, hcue]

end

/-! ## A TABLE_OPEN: its items, and what opening a load answers (R161, R178) -/

/-- A pair whose words are at most 255 is a count, not KEEP (R161). -/
theorem pairItem_count {h l : Word} (hh : h.toNat ≤ 255) (hl : l.toNat ≤ 255) :
    pairItem h l = some (some (h.toNat * 256 + l.toNat)) := by
  have hkeep : ¬(h = keepWord ∧ l = keepWord) := by
    rintro ⟨rfl, -⟩
    exact absurd hh (by decide)
  unfold pairItem
  rw [if_neg hkeep, if_neg (by omega)]

theorem openItems_taken {w h l : Word} {t : TableId} (ht : w.toNat = t.val) (hh : h.toNat ≤ 255) (hl : l.toNat ≤ 255) :
    openItems [w, h, l] = some (t, h.toNat * 256 + l.toNat) := by
  have hid : plainItem 0 8 w = some t.val := by
    rw [plainItem_inside (by omega), ht]
  simp only [openItems, hid, pairItem_count hh hl, Fin.ofNat_val_eq_self]

section
variable {s : State} {t : TableId} {count : Nat}

theorem openLoad_busy (h : (s.copy t).ready = true) : s.openLoad t count = (⟨.refusedBusy, none, []⟩, s) := if_pos h

theorem openLoad_wrongSize (h : (s.copy t).ready = false) (hc : count ≠ tableSize t) :
    s.openLoad t count = (⟨.refusedValue, none, []⟩, s) := by
  unfold State.openLoad
  rw [h, if_neg Bool.false_ne_true, if_pos hc]
  rfl

theorem openLoad_opens (h : (s.copy t).ready = false) (hc : count = tableSize t) :
    s.openLoad t count =
      (⟨.done, none, []⟩,
        (if s.tld.load.isSome then s.discardLoad .superseded else s).setLoad (some ⟨t, count, 0, 0, 0⟩)) := by
  unfold State.openLoad
  rw [h, if_neg Bool.false_ne_true, if_neg (not_not.2 hc)]
  rfl

end

/-- Discarding a load and opening another: the new record stands, and LOAD_DISCARDED is raised (R178). -/
theorem discardLoad_setLoad (s : State) (x : Reason) (l : Option LoadRecord) :
    (s.discardLoad x).setLoad l = (s.setLoad l).raise .loadDiscarded .device (.reason x) := rfl

/-- Settles O56: a value outside its list by test 6, then the three outcomes of opening a load. -/
theorem tableOpens : Obligations.TableOpens := by
  intro n c s w h l ha hp answer count
  have hlen : c.payload.length = 3 := by rw [hp]; rfl
  refine ⟨fun hout => ?_, fun t ht hh hl => ?_⟩
  · have hvalue : valueRefused s.cad.table 0x009 [w, h, l] = true := by
      show (decide (8 < w.toNat) || decide (255 < h.toNat) || decide (255 < l.toNat)) = true
      simpa only [Bool.or_eq_true, decide_eq_true_eq, or_assoc] using hout
    refine exec_tableOpen ha hlen ?_
    rw [hp, State.carryTableOpen, openItems_refused hvalue]
    rfl
  · have hcarry : State.carryTableOpen c.payload .device s = s.openLoad t count := by
      rw [hp, State.carryTableOpen, openItems_taken ht hh hl]
    refine ⟨fun hready => exec_tableOpen ha hlen (hcarry.trans (openLoad_busy hready)),
      fun hidle hcount => exec_tableOpen ha hlen (hcarry.trans (openLoad_wrongSize hidle hcount)),
      fun hidle hcount => ⟨fun hnone => ?_, fun r hr => ?_⟩⟩
    · refine exec_tableOpen ha hlen (hcarry.trans ?_)
      rw [openLoad_opens hidle hcount, hnone]
      rfl
    · refine exec_tableOpen ha hlen (hcarry.trans ?_)
      rw [openLoad_opens hidle hcount, hr, Option.isSome_some, if_pos rfl, discardLoad_setLoad]
      rfl

/-! ## A TABLE_PART: its items, and what the loader does with a part (R179, R180, R181) -/

theorem partItems_taken {i k : Word} {ws : List Word} (hk : k.toNat ≤ 1) :
    partItems (i :: k :: ws) = some (i.toNat, k.toNat == 1, ws) := by
  simp only [partItems, plainItem_inside (show 0 ≤ k.toNat ∧ k.toNat ≤ 1 from ⟨Nat.zero_le _, hk⟩), Option.map_some]

/-- The loader accepts a part by its index, its room and, for a LAST part, the table being complete (R179). -/
theorem LoadRecord.accepts_iff (r : LoadRecord) (i k : Nat) (ws : List Word) :
    r.accepts i (k == 1) ws = true ↔
      i = r.partsReceived % 256 ∧ r.wordsReceived + ws.length ≤ r.declared ∧
        (k = 1 → r.wordsReceived + ws.length = r.declared) := by
  unfold LoadRecord.accepts
  simp only [Bool.and_eq_true, Bool.or_eq_true, Bool.not_eq_true', beq_iff_eq, decide_eq_true_eq, beq_eq_false_iff_ne,
    and_assoc, imp_iff_not_or, ne_eq]

/-- The loader after an accepted part: its words written from the words received on, and both counts advanced (R179). -/
def State.storePart (s : State) (r : LoadRecord) (ws : List Word) : State :=
  (s.setCopy r.table { s.copy r.table with words := writeWords r.wordsReceived ws (s.copy r.table).words }).setLoad
    (some (r.afterPart ws))

section
variable {s : State} {r : LoadRecord} {i : Nat} {last : Bool} {ws : List Word}

theorem takePart_none (h : s.tld.load = none) : s.takePart i last ws = (⟨.nothingOpen, none, []⟩, s) := by
  unfold State.takePart
  rw [h]
  rfl

theorem takePart_faulty (h : s.tld.load = some r) (hr : ¬r.accepts i last ws = true) :
    s.takePart i last ws = (⟨.discarded, some .sequence, []⟩, s.discardLoad .sequence) := by
  unfold State.takePart
  rw [h]
  exact if_neg hr

theorem takePart_accepted (h : s.tld.load = some r) (hr : r.accepts i last ws = true) :
    s.takePart i last ws =
      if last then (s.storePart r ws).closeLoad r.table else (⟨.done, none, []⟩, s.storePart r ws) := by
  unfold State.takePart
  rw [h]
  exact if_pos hr

end

/-! ## The end of a load at its LAST part (R181) -/

theorem setCopy_copy_same (s : State) (t : TableId) (x : LoadCopy) (h : s.tld.copies.length = 9) :
    (s.setCopy t x).copy t = x := by
  have hin : t.val < (s.tld.copies.set t.val x).length := by
    rw [List.length_set, h]
    exact t.isLt
  show (s.tld.copies.set t.val x).getD t.val _ = x
  rw [List.getD_eq_getElem _ _ hin, List.getElem_set_self]

theorem storePart_copy (s : State) (r : LoadRecord) (ws : List Word) (h : s.tld.copies.length = 9) :
    (s.storePart r ws).copy r.table =
      { s.copy r.table with words := writeWords r.wordsReceived ws (s.copy r.table).words } :=
  setCopy_copy_same s r.table _ h

theorem closeLoad_complete {s : State} {t : TableId} (h : tableChecks t (s.copy t).words = true) :
    s.closeLoad t = (⟨.done, none, []⟩, (s.setLoad none).setCopy t ⟨true, (s.copy t).words⟩) := if_pos h

theorem closeLoad_refused {s : State} {t : TableId} (h : tableChecks t (s.copy t).words = false) :
    s.closeLoad t = (⟨.discarded, some .tableRefused, []⟩, s.discardLoad .tableRefused) :=
  if_neg (by rw [h]; exact Bool.false_ne_true)

/-- The copy becomes READY over the words just written. -/
theorem storePart_close (s : State) (r : LoadRecord) (ws words : List Word) :
    ((s.storePart r ws).setLoad none).setCopy r.table ⟨true, words⟩ =
      { s with tld := ⟨none, s.tld.copies.set r.table.val ⟨true, words⟩⟩ } :=
  congrArg (fun copies => { s with tld := ⟨none, copies⟩ }) (List.set_set ..)

/-! ## The checks of a complete table (R182) -/

/-- Word i of a cadence table is a length where 9 divides i, else a step: by program p and step j, words 9p and 9p+1+j. -/
theorem cadenceWordsOk_iff (ws : List Word) :
    cadenceWordsOk ws = true ↔
      ∀ p, p < 4 → (ws.getD (9 * p) 0).toNat ≤ 8 ∧ ∀ j, j < 8 → (ws.getD (9 * p + 1 + j) 0).toNat ≤ 2 := by
  unfold cadenceWordsOk
  simp only [List.all_eq_true, List.mem_range]
  constructor
  · intro h p hp
    refine ⟨?_, fun j hj => ?_⟩
    · have hlength := h (9 * p) (by omega)
      rw [if_pos (by omega)] at hlength
      exact of_decide_eq_true hlength
    · have hstep := h (9 * p + 1 + j) (by omega)
      rw [if_neg (by omega)] at hstep
      exact of_decide_eq_true hstep
  · intro h i hi
    obtain ⟨hlength, hsteps⟩ := h (i / 9) (by omega)
    by_cases hstart : i % 9 = 0
    · rw [show 9 * (i / 9) = i by omega] at hlength
      rw [if_pos hstart]
      exact decide_eq_true hlength
    · have hstep := hsteps (i % 9 - 1) (by omega)
      rw [show 9 * (i / 9) + 1 + (i % 9 - 1) = i by omega] at hstep
      rw [if_neg hstart]
      exact decide_eq_true hstep

/-- A coefficient is its word less 512 (R176), so -128..255 is the words 384..767. -/
theorem coefficientWordsOk_iff (taps : Nat) (ws : List Word) :
    coefficientWordsOk taps ws = true ↔
      ∀ q, q < 64 →
        (∀ i, i < taps → 384 ≤ (ws.getD (q * taps + i) 0).toNat ∧ (ws.getD (q * taps + i) 0).toNat ≤ 767) ∧
        ((List.range taps).map (fun i => ((ws.getD (q * taps + i) 0).toNat : Int) - 512)).sum = 128 := by
  have hrange (x : Nat) : ((-128 : Int) ≤ (x : Int) - 512 ∧ (x : Int) - 512 ≤ 255) ↔ 384 ≤ x ∧ x ≤ 767 := by omega
  simp only [coefficientWordsOk, coefficientRows, List.all_eq_true, List.mem_map, List.mem_range, forall_exists_index,
    and_imp, forall_apply_eq_imp_iff₂, Bool.and_eq_true, decide_eq_true_eq, beq_iff_eq, hrange, ← List.sum_eq_foldl]

theorem tableChecks_cadence (ws : List Word) : tableChecks 0 ws = cadenceWordsOk ws := rfl

/-- Identities 1 to 4 are horizontal sets of 8 taps, 5 to 8 vertical ones of 4 (Table 10-1). -/
theorem tableChecks_coefficients {t : TableId} (ht : t ≠ 0) (ws : List Word) :
    tableChecks t ws = coefficientWordsOk (if t.val ≤ 4 then 8 else 4) ws := by
  have hpos : t.val ≠ 0 := fun h0 => ht (Fin.ext h0)
  unfold tableChecks
  rw [if_neg hpos]
  split <;> rfl

/-- Settles O57: each part by the load it finds and whether that accepts it, a LAST part by the checks; then the checks. -/
theorem tablePartsAndChecks : Obligations.TablePartsAndChecks := by
  refine ⟨fun n c s i k ws ha hp hws hlen hk => ?_, fun ws => ?_, fun t ws ht => ?_⟩
  · intro answer
    have hdata : 0 < ws.length := List.length_pos_of_ne_nil hws
    have hbounds : 3 ≤ c.payload.length ∧ c.payload.length ≤ 240 :=
      ⟨by rw [hp, List.length_cons, List.length_cons]; omega, hlen⟩
    have hcarry : State.carryTablePart c.payload .device s = s.takePart i.toNat (k.toNat == 1) ws := by
      rw [hp, State.carryTablePart, partItems_taken hk]
    refine ⟨fun hnone => exec_tablePart ha hbounds (hcarry.trans (takePart_none hnone)), fun r hr => ?_⟩
    intro fits words
    have haccepts : r.accepts i.toNat (k.toNat == 1) ws = true ↔ fits := r.accepts_iff i.toNat k.toNat ws
    refine ⟨fun hno => ?_, fun hfits hmore => ?_, fun hfits hlast hcopies => ?_⟩
    · exact exec_tablePart ha hbounds (hcarry.trans (takePart_faulty hr (mt haccepts.1 hno)))
    · refine exec_tablePart ha hbounds (hcarry.trans ((takePart_accepted hr (haccepts.2 hfits)).trans ?_))
      rw [hmore]
      rfl
    · have hclose : State.carryTablePart c.payload .device s = (s.storePart r ws).closeLoad r.table := by
        rw [hcarry, takePart_accepted hr (haccepts.2 hfits), hlast]
        rfl
      have hwords : ((s.storePart r ws).copy r.table).words = words := by rw [storePart_copy s r ws hcopies]
      refine ⟨fun hpass => ?_, fun hfail => ?_⟩
      · refine exec_tablePart ha hbounds (hclose.trans ?_)
        rw [closeLoad_complete (by rw [hwords, hpass]), hwords, storePart_close]
      · exact exec_tablePart ha hbounds (hclose.trans (closeLoad_refused (by rw [hwords, hfail])))
  · rw [tableChecks_cadence, cadenceWordsOk_iff]
  · intro taps
    rw [tableChecks_coefficients ht, coefficientWordsOk_iff]

end Sys2Proof.Machine
end

-- ==== Sys2Proof/Proofs: raised notices and counters ====
section
/-! The statement about raised notices and counters: what a raise does to the pending table, and how far a counter goes. -/

namespace Sys2Proof.Machine

/-! ## The entry of a kind and scope (R189) -/

theorem NoticeEntry.isFor_iff (e : NoticeEntry) (k : NoticeKind) (sc : Scope) :
    e.isFor k sc = true ↔ e.kind = k ∧ e.scope = sc := by
  rw [NoticeEntry.isFor, Bool.and_eq_true, beq_iff_eq, beq_iff_eq]

/-- The count of an entry stays at 255 (R189). -/
theorem min_count_succ (c : Nat) : min 255 (c + 1) = if c < 255 then c + 1 else 255 := by
  split
  · next hbelow => exact Nat.min_eq_right hbelow
  · next hat => exact Nat.min_eq_left (by omega)

theorem addNotice_new {k : NoticeKind} {sc : Scope} {l : List NoticeEntry} (d : Detail)
    (hnone : ∀ e ∈ l, ¬(e.kind = k ∧ e.scope = sc)) : addNotice k sc d l = l ++ [⟨k, sc, 1, d⟩] := by
  refine if_neg fun hany => ?_
  obtain ⟨e, he, hfor⟩ := List.any_eq_true.1 hany
  exact hnone e he ((e.isFor_iff k sc).1 hfor)

theorem addNotice_again {k : NoticeKind} {sc : Scope} {l : List NoticeEntry} (d : Detail)
    (hsome : ∃ e ∈ l, e.kind = k ∧ e.scope = sc) :
    addNotice k sc d l =
      l.map (fun e =>
        if e.kind = k ∧ e.scope = sc then { e with count := if e.count < 255 then e.count + 1 else 255 } else e) := by
  obtain ⟨e, he, hfor⟩ := hsome
  have hany : l.any (fun x => x.isFor k sc) = true := List.any_eq_true.2 ⟨e, he, (e.isFor_iff k sc).2 hfor⟩
  rw [addNotice, if_pos hany]
  simp only [NoticeEntry.isFor_iff, min_count_succ]

/-! ## Counters (R191) -/

theorem satAdd_eq_ite (c j : Nat) : satAdd c j = if c + j ≤ 4294967295 then c + j else 4294967295 := Nat.min_def

/-- Settles O32: a raise is addNotice, by whether the table has an entry for the kind and scope; a count is satAdd of the
one field that the counter names. -/
theorem raiseNotice : Obligations.RaiseNotice := by
  intro s k sc d
  refine ⟨rfl, addNotice_new d, addNotice_again d, addNotice_ok k sc d _, fun _ _ _ => rfl, fun _ => rfl,
    fun f j => ?feed, fun f j => ?device⟩
  case feed => simp only [FeedCounters.add, satAdd_eq_ite, and_self]
  case device => simp only [DeviceCounters.add, satAdd_eq_ite, and_self]

end Sys2Proof.Machine
end

-- ==== Sys2Proof/Proofs: commands and the queue, events that the state rules out ====
section
/-! The statements about every command's completion and about events that the state rules out. -/

namespace Sys2Proof.Machine

/-! ## Every command completes (section 0.6.6) -/

/-- Settles O2: a command is a chain of Moves, and no Move touches the waiting commands. -/
theorem everyCommandCompletes : Obligations.EveryCommandCompletes := by
  intro c s
  obtain ⟨t, hnext, hmoves⟩ := exec_moves c s
  exact ⟨t, hnext, hmoves.keeps_pending⟩

/-! ## Events that the state rules out (log entries 1, 5 and 6) -/

section
variable {s : State}

theorem step_emptyQueue (h : s.pending = []) : step s = .next s := by
  unfold step
  rw [h]

/-- Only a running timer of a feed in RUNNING expires (R11, R12). -/
theorem missingFieldExpires_ruledOut {n : Feed} (h : (s.lrx.get n).state ≠ .running ∨ (s.lrx.get n).timer = .stopped) :
    s.missingFieldExpires n = s := by
  unfold State.missingFieldExpires
  split
  · next hstate htimer =>
    rcases h with hidle | hstopped
    · exact absurd hstate hidle
    · rw [hstopped] at htimer
      cases htimer
  · rfl

theorem frameTimerExpires_stopped {n : Feed} (h : (s.otx.get n).frameTimer = .stopped) : s.frameTimerExpires n = s := by
  unfold State.frameTimerExpires
  rw [h]

theorem watchExpires_stopped {n : Feed} (h : (s.otx.get n).watchTimer = .stopped) : s.watchExpires n = s := by
  unfold State.watchExpires
  dsimp only
  rw [h]

theorem buildLine_noJob (r : BuildRole) (m : Nat) (h : s.fen.service = none) : s.buildLine r m = s := by
  unfold State.buildLine
  rw [h]

theorem finishReads_noJob (h : s.fen.service = none) : s.finishReads = s := by
  unfold State.finishReads
  rw [h]

theorem completeJob_noJob (h : s.fen.service = none) : s.completeJob = s := by
  unfold State.completeJob
  dsimp only
  rw [finishReads_noJob h, h]

theorem loadStalls_noLoad (h : s.tld.load = none) : s.loadStalls = s := by
  unfold State.loadStalls
  rw [h]

/-- The stall is due in the eighth event alone, which finds the count at 7 (R184, log entry 13). -/
theorem loadStalls_notDue {r : LoadRecord} (h : s.tld.load = some r) (he : r.events < 7) : s.loadStalls = s := by
  unfold State.loadStalls
  rw [h]
  exact if_neg (by omega)

end

/-- Settles O10: with RESET released a command is its event, and each event leaves a state that rules it out as it is; the
words gone wrong lie in the store, which decides none of them. -/
theorem eventsRuledOutDoNothing : Obligations.EventsRuledOutDoNothing := by
  refine ⟨fun s => step_emptyQueue, fun n us r m s hheld => ⟨fun hout => ?_, fun hstopped => ?_, fun hstopped => ?_,
    fun hnone => ⟨?_, ?_⟩, fun hload => ?_⟩⟩
  · rw [exec_missingFieldExpiry n us s hheld, missingFieldExpires_ruledOut (s := s.upset us) hout]
  · exact (unlessHeld_released s _ hheld).trans (congrArg Host.Outcome.next (frameTimerExpires_stopped hstopped))
  · exact (unlessHeld_released s _ hheld).trans (congrArg Host.Outcome.next (watchExpires_stopped hstopped))
  · rw [exec_jobCompletion s hheld, completeJob_noJob hnone]
  · rw [exec_buildRead r m us s hheld, buildLine_noJob (s := s.upset us) r m.val hnone]
  · refine (unlessHeld_released s _ hheld).trans (congrArg Host.Outcome.next ?_)
    rcases hload with hnone | ⟨l, hopen, hbelow⟩
    · exact loadStalls_noLoad hnone
    · exact loadStalls_notDue hopen hbelow

end Sys2Proof.Machine
end
